-- ==== Sys2Proof/Word.lean ====
section
/-! DEFINITION. The word types of the Staviolo SV960 and the names by which a thread group is known. -/

namespace Sys2Proof

abbrev Byte := BitVec 8
abbrev W16 := BitVec 16
abbrev W32 := BitVec 32
abbrev W64 := BitVec 64
/-- One bit for each beat of a thread group (R11). -/
abbrev Mask := BitVec 8
/-- A container of R43: an element, a pair or a quad, in its low bits. -/
abbrev W128 := BitVec 128

/-- A thread group: slice (spawn number), gang of the slice, workgroup of the gang, TG of the workgroup (R13, R15). -/
structure TgKey where
  launch : Nat
  gang : Nat
  wg : Nat
  tg : Nat
  deriving DecidableEq, Repr, Inhabited

end Sys2Proof
end

