-- ==== Sys2Proof/Syntax.lean ====
section
/-! DEFINITION. The abstract syntax: the 126 instruction words (R48) and the 71 operations and events that
opcode_table.json lists beside them, each one constructor of `Instr`. -/

namespace Sys2Proof

/-- The operand named by a 7-bit operand code (R41). -/
inductive Opnd where
  | v (n : BitVec 6)
  | b (n : BitVec 2)
  | zr
  | tix
  | rsv (n : BitVec 1)
  | p (n : BitVec 3)
  | sp (n : BitVec 3)
  | q (n : BitVec 3)
  | s (n : BitVec 5)
  deriving DecidableEq, Repr, Inhabited

/-- What raises the security alarm (R273). -/
inductive Alarm where
  | tamper
  | glitch
  | bootSignature
  deriving DecidableEq, Repr, Inhabited

/-- What an access from another fabric node asks of a home of this device (R265); an ember operation carries r and its region's
values (R160). -/
inductive RemoteKind where
  | load (size : Nat)
  | store (data : List Byte)
  | atomic (op : Nat) (et : BitVec 4) (rm : BitVec 3) (sat : Bool) (x n : W64)
  | hob (op : Nat) (et : BitVec 4) (rm : BitVec 3) (sat : Bool) (x : W64)
  | emberRead (r target wmin : W32) (k : Nat)
  | emberSample (x r : W32) (k : Nat)
  | emberMerge (wb mb m2b r : W32) (k : Nat)
  | launchEnd (launch : Nat)   -- a deterministic launch there has ended: it closes its windows here (R158, R180)
  deriving DecidableEq, Repr, Inhabited

/-- One access from another node: the requesting node, the context it acts in, the physical address, the request (R265); from a
deterministic launch, that launch and the issuer key, a work identifier and a count (R158, R180). -/
structure Remote where
  node : BitVec 8
  ctx : Nat
  pa : Nat
  kind : RemoteKind
  key : Option (Nat × W64 × Nat) := none
  deriving DecidableEq, Repr, Inhabited

/-- One constructor for each row of opcode_table.json. -/
inductive Instr where
  -- 0x01-0x10: arithmetic, compare, select, convert, count. `w` is nw (R38).
  | add (d a b : Opnd) (w : Bool)
  | sub (d a b : Opnd) (w : Bool)
  | mul (d a b : Opnd) (w : Bool)
  | mulh (d a b : Opnd) (w : Bool)
  | mad (d a b : Opnd) (w : Bool) (s : BitVec 2)
  | div (d a b : Opnd) (w : Bool)
  | rem (d a b : Opnd) (w : Bool)
  | min (d a b : Opnd) (w : Bool)
  | max (d a b : Opnd) (w : Bool)
  | abs (d a : Opnd) (w : Bool)
  | neg (d a : Opnd) (w : Bool)
  | cmp (d a b : Opnd) (c : BitVec 3)
  | sel (d a b : Opnd) (w : Bool)
  | cvt (d a : Opnd) (t : BitVec 7) (w r : Bool)
  | clz (d a : Opnd) (w : Bool)
  | popc (d a : Opnd) (w : Bool)
  -- 0x11-0x17: logic, shifts, bit fields.
  | and (d a b : Opnd) (w : Bool)
  | or (d a b : Opnd) (w : Bool)
  | xor (d a b : Opnd) (w : Bool)
  | shl (d a b : Opnd) (w : Bool)
  | shr (d a b : Opnd) (w : Bool)
  | sra (d a b : Opnd) (w : Bool)
  | bfx (d a b : Opnd) (w : Bool) (s : Bool)
  -- 0x20-0x27: functions.
  | rcp (d a : Opnd) (w : Bool)
  | rsq (d a : Opnd) (w : Bool)
  | rsqs (d a : Opnd) (w : Bool)
  | sqrt (d a : Opnd) (w : Bool)
  | ex2 (d a : Opnd) (w : Bool)
  | lg2 (d a : Opnd) (w : Bool)
  | sinp (d a : Opnd) (w : Bool)
  | cosp (d a : Opnd) (w : Bool)
  -- 0x30-0x37: moves and exchanges.
  | mov (d a : Opnd) (w : Bool)
  | movi (d : Opnd) (i : BitVec 17)
  | movh (d : Opnd) (i : BitVec 15)
  | lane (d a b : Opnd) (w : Bool) (s : BitVec 2)
  | bcst (d a b : Opnd) (w : Bool) (s : BitVec 2)
  | red (d a : Opnd) (c : BitVec 3)
  | rnd (d : Opnd) (w : Bool)
  | plog (d a b : Opnd) (c : BitVec 3)
  -- 0x40-0x4E: control and mode.
  | br (disp : BitVec 24)
  | brp (c : BitVec 2) (disp : BitVec 22)
  | call (disp : BitVec 24)
  | ret (a : Opnd)
  | jmpi (a b : Opnd)
  | split (disp : BitVec 24)
  | join
  | brk (n : BitVec 17)
  | land (i : BitVec 17)
  | exit (a : Opnd)
  | yield
  | regrp (a : Opnd)
  | mode (i : BitVec 24)
  | modes (d a : Opnd)
  | nop
  -- 0x50-0x5D: memory.
  | ld (d a b : Opnd) (w : Bool)
  | ldb (d a b : Opnd) (w : Bool)
  | lda (d a b : Opnd) (w : Bool)
  | st (d a b : Opnd)
  | str (d a b : Opnd)
  | fence (k : BitVec 2) (sc : BitVec 3)
  | prf (a b : Opnd) (s : Bool)
  | mon (a b : Opnd)
  | mwait
  | waitc (a : Opnd) (c : BitVec 3)
  | radv
  | rcnt (d : Opnd)
  | ldfe (d a b : Opnd)
  | stfe (d a b : Opnd)
  -- 0x60-0x6A: atomics and the hob.
  | aadd (d a b : Opnd)
  | amin (d a b : Opnd)
  | amax (d a b : Opnd)
  | aand (d a b : Opnd)
  | aor (d a b : Opnd)
  | axor (d a b : Opnd)
  | axch (d a b : Opnd)
  | acas (d a b : Opnd)
  | hbadd (d a b : Opnd)
  | hbmax (d a b : Opnd)
  | hbmin (d a b : Opnd)
  -- 0x70-0x74: copies, queues, streams.
  | cpy (d a b : Opnd) (c : BitVec 3)
  | cpyt (d a : Opnd) (s : BitVec 2)
  | ctst (d a : Opnd)
  | qbind (d a : Opnd) (s : BitVec 2)
  | spcfg (d a : Opnd)
  -- 0x80-0x85: matrix engine.
  | mma (a b : Opnd) (t : BitVec 2)
  | mmab (a b : Opnd) (t : BitVec 2)
  | mmac (d a b : Opnd)
  | acz (t : BitVec 2)
  | acdr (d a : Opnd) (t : BitVec 2)
  | acld (d a : Opnd) (t : BitVec 2)
  -- 0x90-0x98: flue and stoker.
  | trace (a b : Opnd) (f : Bool)
  | trcont (a b : Opnd)
  | gpin (d a : Opnd)
  | gunp (a b : Opnd)
  | skb (d a b : Opnd)
  | skr (d a b : Opnd)
  | skl (d a : Opnd)
  | skp (d a : Opnd)
  | skq (d a b : Opnd)
  -- 0xA0-0xA2: embers.
  | eld (d a b : Opnd)
  | est (d a b : Opnd)
  | emrg (d a b : Opnd)
  -- 0xB0-0xBA: firebox.
  | fbmode (a : Opnd)
  | fbadd (d a b : Opnd) (s : BitVec 2)
  | fbsub (d a b : Opnd) (s : BitVec 2)
  | fblog (d a b : Opnd) (s : BitVec 2)
  | fbcmp (a b : Opnd) (s : BitVec 2)
  | fbsel (d a b : Opnd)
  | fbmul (d a b : Opnd) (s : Bool)
  | fbpop (d a : Opnd)
  | fbshf (d a b : Opnd)
  | fbld (d a b : Opnd) (s : BitVec 2)
  | fbst (d a b : Opnd) (s : BitVec 2)
  -- 0xC0-0xC5: work and barriers.
  | spawn (d a : Opnd)
  | wid (d a : Opnd)
  | barr
  | barc (g : Bool)
  | arrv (g : Bool)
  | budg (d a : Opnd)
  -- 0xD0-0xD6: system.
  | trap (i : BitVec 17)
  | eret (a : Opnd) (s : BitVec 2)
  | sysr (d : Opnd) (i : BitVec 17)
  | sysw (d : Opnd) (i : BitVec 17)
  | ctxsv (d a : Opnd)
  | ctxld (a b : Opnd)
  | tlbi (a : Opnd) (s : BitVec 2)
  -- Control-register writes reaching the device (R371); `t` is the thread group whose SYSW it completes.
  | controlRegisterWrite (t : TgKey)
  | formatWindowWrite (t : TgKey)
  | stashWindowWrite (t : TgKey)
  | ctxidWrite (t : TgKey)
  | sqldImageLoad (t : TgKey)
  | sqldBaselineRestore (t : TgKey)
  | rrtabWrite (t : TgKey)
  | ertabWrite (t : TgKey)
  | errcntWrite (t : TgKey)
  -- The host command path (R195, R196, R272).
  | hostRingEntry (c : Nat)
  | contextCreate
  | contextDestroy
  | contextFree (c : Nat)
  | attestationQuote
  -- Scheduling (R184-R192, R203-R205, R311).
  | spawnAnswer
  | sliceCompletion (l : Nat)
  | gangPlacement
  | migration (l g : Nat)
  | quantumEnd
  | preemption (l g : Nat)
  | restore (l g : Nat)
  | budgetExpiry (l g wg : Nat)
  | ageCap (core ln : Nat)
  | workgroupEnd (l g wg : Nat)
  -- The memory system (R102, R107, R115, R119-R143).
  | loadValueReturn (t : TgKey) (op : Nat)
  | pageWalk (core ctx : Nat) (va : W64)
  | homeFill (k : Nat)
  | homeWriteAccept (k : Nat)
  | writeAcknowledgement (k : Nat)
  | speculativeValidation (k : Nat)
  | replicatedCommit (k : Nat)
  | replicaLockTimeout (k : Nat)
  | roundViewUpdate (core k : Nat)
  | stashFill (k : Nat)
  | stashUpgrade (k : Nat)
  | stashRecall (line : Nat)
  -- Engines (R151-R180, R221-R248).
  | copyCompletion (k : Nat)
  | fusedPassStart (core : Nat)
  | matrixPassEnd (core : Nat)
  | hobUpdateApply (line : Nat)
  | hobWindowClose (line : Nat)
  | emberContributionApply (k : Nat)
  | mergeWindowClose (line : Nat)
  | eldAtHome (k : Nat)
  | resultBlockPush (t : TgKey)
  | generationPublish (k : Nat)
  | stokerCommandComplete (k : Nat)
  | fireboxClaimGrant
  | fireboxConversion
  | fireboxOperationRun
  -- Graphics (R236-R239); `l` is the draw's slice.
  | drawBinning (l : Nat)
  | rasterise (l : Nat)
  | pixelBackEndWrite (l : Nat)
  | drawRelease (l : Nat)
  -- Hardware errors, security, bring-up, sideband, fabric (R263-R277).
  | correctedError
  | uncorrectableError (line : Nat)
  | dieLoss (die : BitVec 2)
  | securityAlarm (x : Alarm)
  | powerOn
  | deviceReset
  | testCommand
  | identityRequest
  | recoveryImage
  | sidebandStatusRequest
  | powerLimit (reached : Bool)
  | flitReceive (port : Nat) (crcOk : Bool)
  | remoteAccess (r : Remote)
  -- Fetch and time (R46, R47, R61, R87, R122).
  | illegalInstruction
  | instructionFetchFault
  | writeCompletionTime
  | slowPathCompletion (t : TgKey)
  deriving DecidableEq, Repr, Inhabited

/-- Holds of the rows that have an instruction word; the others are operations and events of the device. -/
def Instr.isWord : Instr → Bool
  | .controlRegisterWrite _ => false
  | .formatWindowWrite _ => false
  | .stashWindowWrite _ => false
  | .ctxidWrite _ => false
  | .sqldImageLoad _ => false
  | .sqldBaselineRestore _ => false
  | .rrtabWrite _ => false
  | .ertabWrite _ => false
  | .errcntWrite _ => false
  | .hostRingEntry _ => false
  | .contextCreate => false
  | .contextDestroy => false
  | .contextFree _ => false
  | .attestationQuote => false
  | .spawnAnswer => false
  | .sliceCompletion _ => false
  | .gangPlacement => false
  | .migration _ _ => false
  | .quantumEnd => false
  | .preemption _ _ => false
  | .restore _ _ => false
  | .budgetExpiry _ _ _ => false
  | .ageCap _ _ => false
  | .workgroupEnd _ _ _ => false
  | .loadValueReturn _ _ => false
  | .pageWalk _ _ _ => false
  | .homeFill _ => false
  | .homeWriteAccept _ => false
  | .writeAcknowledgement _ => false
  | .speculativeValidation _ => false
  | .replicatedCommit _ => false
  | .replicaLockTimeout _ => false
  | .roundViewUpdate _ _ => false
  | .stashFill _ => false
  | .stashUpgrade _ => false
  | .stashRecall _ => false
  | .copyCompletion _ => false
  | .fusedPassStart _ => false
  | .matrixPassEnd _ => false
  | .hobUpdateApply _ => false
  | .hobWindowClose _ => false
  | .emberContributionApply _ => false
  | .mergeWindowClose _ => false
  | .eldAtHome _ => false
  | .resultBlockPush _ => false
  | .generationPublish _ => false
  | .stokerCommandComplete _ => false
  | .fireboxClaimGrant => false
  | .fireboxConversion => false
  | .fireboxOperationRun => false
  | .drawBinning _ => false
  | .rasterise _ => false
  | .pixelBackEndWrite _ => false
  | .drawRelease _ => false
  | .correctedError => false
  | .uncorrectableError _ => false
  | .dieLoss _ => false
  | .securityAlarm _ => false
  | .powerOn => false
  | .deviceReset => false
  | .testCommand => false
  | .identityRequest => false
  | .recoveryImage => false
  | .sidebandStatusRequest => false
  | .powerLimit _ => false
  | .flitReceive _ _ => false
  | .remoteAccess _ => false
  | .illegalInstruction => false
  | .instructionFetchFault => false
  | .writeCompletionTime => false
  | .slowPathCompletion _ => false
  | _ => true

end Sys2Proof
end

