-- ==== Sys2Proof/Config.lean ====
section
/-! DEFINITION. What an implementation fixes and what the spec leaves open. Every `opaque` constant has no body: nothing can
evaluate it, so a claim that mentions it holds whatever it is. -/

namespace Sys2Proof

/-- Which agent moves next. The spec gives no order between agents beyond the guards of the steps themselves. -/
inductive Turn where
  | event (e : Instr)            -- an operation or event of the device (a row without a word)
  | lane (core ln : Nat)         -- a lane of a core issues one instruction (R17, R194)
  | wake (t : TgKey)             -- a waiting thread group tests its condition again (R28)
  deriving DecidableEq, Repr, Inhabited

namespace Config

/-- FREE (log 2). The agent that moves after the step at which the counter reads `n`. -/
opaque freeTurn (n : Nat) : Turn

/-- FREE (log 6). How many ns of GT pass with the step at counter `n`. -/
opaque gtAdvance (n : Nat) : Nat

/-- FREE (log 6). How many clocks of 1.1 GHz pass with the step at counter `n`. -/
opaque clockAdvance (n : Nat) : Nat

/-- FREE (log 9). Which of its copies a full L1 or instruction cache gives up at the fill at counter `n`, counted round. -/
opaque l1Victim (n : Nat) : Nat

/-- FREE (log 9). Which of its lines a full set of a home slice evicts at the fill at counter `n`, counted round. -/
opaque llcVictim (n : Nat) : Nat

/-- FREE (log 2). Which of the hob updates on their way to a line arrives at the event at counter `n`, counted round (R179, R255). -/
opaque hobArrival (n : Nat) : Nat

/-- FREE (log 9). Whether a way that the conversion at counter `n` takes from the cache holds this line. -/
opaque wayHolds (n line : Nat) : Bool

/-- FREE (log 15). Whether a function's evaluation of this operand takes the slow path (R87): it depends on the operands alone. -/
opaque slowPath (opcode : Nat) (a b : W64) : Bool

/-- FREE (log 27). What ACLD loads for an i64 element that does not fit the 56 bits of an accumulator word (R176 states none). -/
opaque acldWide (x : W64) : BitVec 56

/-- FREE (log 29). What a byte of scratch under an enabled stash window holds after a save at counter `n` (R204 does not save it). -/
opaque lostScratch (n off : Nat) : Byte

/-- FREE (log 13). What the binner writes for a pair of primitive and tile (R238 does not say). -/
opaque binEntry (prim tx ty : Nat) : W64

/-- FREE (log 13). The u8 that format 1 writes for a colour that is a NaN (R237 does not say). -/
opaque unormNan (x : W32) : Byte

/-- FREE (log 28). The first 40 bytes of a box node over bounds (in units of 2^-256) for which R226 has no exact origin or no
exponent. -/
opaque freeNodeHead (bounds : List Int) : List Byte

/-- FREE (log 16). The fabric node number that link training gives (R269). -/
opaque nodeId : BitVec 8

/-- FREE (log 11). The Gnoyx root public key that the boot ROM holds, and the hash of it that the fuses hold (R271). -/
opaque rootKey : List Byte
opaque fuseHash : List Byte

/-- FREE (log 11). The firmware images at the boot attempt at counter `n`, each with its signature, in the order of R271. -/
opaque bootImages (n : Nat) : List (List Byte × List Byte)

/-- FREE (log 11). The image that the BMC supplies in recovery at counter `n`, and its signature (R277). -/
opaque recoveryImage (n : Nat) : List Byte × List Byte

/-- FREE (log 19). The test firmware at counter `n` and its signature (R277): an image that begins with its launch header; the virtual
address in context 0 where it is loaded. -/
opaque testImage (n : Nat) : List Byte × List Byte
opaque testEntry : W64

/-- FREE (log 11). The identity key: its identifier (16 bytes) and seed (32 bytes), given at manufacture (R272). -/
opaque identityId : List Byte
opaque identitySeed : List Byte

/-- FREE (log 11). The randomizer of the quote signed with a leaf: 32 bytes of it. -/
opaque randomizer (leaf : Nat) : List Byte

/-- FREE (log 11). The identity key's certificate, signed by Gnoyx (R272). -/
opaque certificate : List Byte

/-- FREE (log 19). The temperatures and power that the device reports at counter `n` (R274). -/
opaque sensors (n : Nat) : List Byte

/-- FREE (log 22). What a flue under a sequencer image other than the baseline answers for a ray: kind, t, id, u, v, tag, front. -/
opaque imageRay (image ray : List Byte) (n : Nat) : List W32

/-- FREE (log 22). The fragments (x, y, z, weights of B and C, attribute) that a binner or rasteriser image draws for a primitive. -/
opaque imageRaster (image prim : List Byte) : List (List W32)

/-- FREE (log 22). Where a primitive stands under a binner or rasteriser image: its offset from the primitive buffer, and its bytes. -/
opaque imagePrim (image : List Byte) (prim : Nat) : Nat × Nat

/-- FREE (log 22). What a pixel back end image writes for a fragment: the bytes, each with its virtual address. -/
opaque imagePixel (image frag : List Byte) : List (W64 × Byte)

end Config

end Sys2Proof
end

