-- ==== Sys2Proof/Machine/State.lean ====
section
/-! DEFINITION. The state of the machine as plain data, the reasons a step can stop, and the state after reset. -/

namespace Sys2Proof.Machine

/-- Why the machine stops. -/
inductive Fault where
  /-- Raised by an instruction word when no thread group holds the issue slot. The spec runs an instruction only in a resident
  TG, and no step of the machine leads here. Safe: nothing follows it. -/
  | noThreadGroup
  deriving DecidableEq, Repr

/-- Why an instruction has no meaning. -/
inductive Refusal where
  /-- Raised by an arm of `exec` that is not written. Safe: no next state is claimed. -/
  | notModelled (mnemonic : String)
  deriving DecidableEq, Repr

/-! ### Memory -/

/-- Physical or scratch memory: (address, byte) pairs, addresses rising, no entry equal to what an unlisted address reads. -/
abbrev Memory := List Host.Cell

/-- A write accepted at a home that becomes the value at `wct` (R122). -/
structure Pend where
  wct : Nat
  pa : Nat
  data : List Byte
  tg : TgKey
  deriving DecidableEq, Repr, Inhabited

/-- Who owns a line (R132). -/
inductive Owner where
  | stash (l g w : Nat)       -- a workgroup's stash
  | engine (job : Nat)        -- a copy, an FBST or a stoker command
  deriving DecidableEq, Repr, Inhabited

/-- The format tag of a line: the window that tagged it at the fill (R86). -/
structure Tag where
  int8 : Bool
  scaleAt : Nat               -- physical address of the scale byte of the line's first row
  gran : Nat                  -- log2 of the row size
  off : Nat                   -- offset of the line from the window's base
  deriving DecidableEq, Repr, Inhabited

/-- What the home keeps for one 128-byte line (R119-R122, R132-R134, R145, R266, R267). -/
structure Line where
  no : Nat                    -- physical address / 128
  lease : Nat := 0            -- latest expiry granted
  wct : Nat := 0              -- WCT of the last accepted write
  version : Nat := 0          -- writes accepted so far: the fill identity of R133
  pend : List Pend := []
  owner : Option Owner := none
  locked : Option Nat := none -- R134: the GT at which the four copies were locked
  poison : Bool := false
  kindle : List (Nat × Byte) := []   -- valid kindle marks: word of the line, round tag
  tag : Option Tag := none
  resident : Bool := false    -- held in the home slice (R110)
  replicas : List Nat := []   -- other dies whose slice holds a replica (R111)
  deriving DecidableEq, Repr, Inhabited

/-- A copy of a line in a core's L1 (R119, R121, R139). -/
structure Copy where
  core : Nat
  ctx : Nat
  line : Nat
  data : List Byte
  expiry : Nat
  nc : Bool
  region : Option Nat
  round : W32
  version : Nat
  poison : Bool
  deriving DecidableEq, Repr, Inhabited

/-- A cached translation (R101): the page's virtual base, its size and its leaf entry. -/
structure TlbEntry where
  core : Nat
  ctx : Nat
  va : Nat
  size : Nat
  leaf : W64
  deriving DecidableEq, Repr, Inhabited

/-- A core's view of a round region (R138). -/
structure View where
  core : Nat
  ctx : Nat
  region : Nat
  val : W32
  deriving DecidableEq, Repr, Inhabited

/-- The new counter value of a RADV on its way to the L1s (R140), and the cores it has reached. -/
structure News where
  ctx : Nat
  region : Nat
  pa : Nat
  val : W32
  wct : Nat
  seen : List Nat
  deriving DecidableEq, Repr, Inhabited

/-- One read-modify-write of R280: the operation's number (0-7), its type, rounding and saturation, data, and ACAS's new value. -/
structure AOp where
  op : Nat
  et : BitVec 4
  rm : BitVec 3
  sat : Bool
  x : W64
  n : W64
  deriving DecidableEq, Repr, Inhabited

/-- An ember region entry as last read (R147). -/
structure EmberRegion where
  base : Nat
  limit : Nat
  target : W32
  rr : BitVec 5
  k : Nat
  wmin : W32
  cap : Nat
  tmpl : W64
  pidx : Nat
  deriving DecidableEq, Repr, Inhabited

/-- A round region entry as last read (R137). -/
structure RoundRegion where
  cva : W64
  base : Nat
  limit : Nat
  deriving DecidableEq, Repr, Inhabited

/-- A contribution to an ember (R150, R151). -/
inductive Contribution where
  | est (x : W32)
  | emrg (wb mb m2b : W32)
  deriving DecidableEq, Repr, Inhabited

/-- An issuer key: a work identifier and a count (R156, R180, R185). -/
structure Key where
  wid : W64
  n : Nat
  deriving DecidableEq, Repr, Inhabited

/-- How a fill is answered: lease length, non-coherent, fill region and round, whether an L1 copy is made (R119, R113, R139). -/
structure FillReq where
  lg : Nat
  nc : Bool
  region : Option Nat
  round : W32
  keep : Bool
  deriving DecidableEq, Repr, Inhabited

/-- What a message asks of the home of its address. -/
inductive Ask where
  | fill (size : Nat) (f : FillReq)
  | prefetch (f : FillReq)
  | write (data : List Byte) (floor : Nat) (nc : Bool) (counted : Bool)
  | atomic (ops : List AOp) (floor : Nat) (back : Bool) (nc : Bool)
  | spec (a : AOp) (old new : W64) (version : Nat)
  | hob (a : AOp) (key : Key) (det : Bool)
  | ember (c : Contribution) (r : W32) (region : EmberRegion) (key : Key) (det : Bool)
  | eld (r : W32) (n : Nat) (region : EmberRegion) (va : W64) (key : Key) (det : Bool)
  | radv (region : Nat) (floor : Nat)
  | stashFill (l g w : Nat) (win line : Nat) (f : FillReq)
  | stashOwn (l g w : Nat) (win line : Nat) (cited : Option (Nat × Nat)) (f : FillReq)   -- the lease and version it cites
  | stashGrant (l g w : Nat) (win line : Nat) (wct : Nat) (f : FillReq)   -- an ownership request accepted at its home
  | engineOwn (job : Nat)
  | pin (desc : W64)          -- GPIN (R223)
  deriving DecidableEq, Repr, Inhabited

/-- A message on its way to a home: the issuing TG and operation, the thread, the context, the core and the address. -/
structure Msg where
  tg : TgKey
  op : Nat
  t : Nat
  core : Nat
  ctx : Nat
  pa : Nat
  rep : Bool := false         -- the page is replicated (R134)
  dev : Bool := false         -- the page is a device page (R100)
  also : List (Nat × Nat) := []   -- further operations, with their threads, that its acknowledgement retires (R133)
  ask : Ask
  deriving DecidableEq, Repr, Inhabited

/-- An acknowledgement on its way back (R123). -/
structure Ack where
  tg : TgKey
  op : Nat
  wct : Nat
  counted : Bool              -- it lowers the unacknowledged-write count
  retires : Bool              -- it counts for the operation
  bad : Option Nat := none    -- the thread whose atomic without a result met a poisoned line (R281)
  near : Bool := true         -- the home is on the device (R125)
  deriving DecidableEq, Repr, Inhabited

/-- A hob update held in a deterministic launch (R180). -/
structure HeldHob where
  launch : Nat
  pa : Nat
  a : AOp
  key : Key
  deriving DecidableEq, Repr, Inhabited

/-- A contribution held in a merge window (R158). -/
structure HeldEmber where
  launch : Nat
  pa : Nat
  c : Contribution
  r : W32
  region : EmberRegion
  key : Key
  deriving DecidableEq, Repr, Inhabited

/-! ### Thread groups -/

inductive Priv where
  | u | s | m
  deriving DecidableEq, Repr, Inhabited

/-- An entry of the reconvergence stack (R21). -/
structure Entry where
  rm : Mask
  pm : Mask
  ppc : W64
  rpc : Option W64
  deriving DecidableEq, Repr, Inhabited

inductive Dir where
  | pop | push | sub
  deriving DecidableEq, Repr, Inhabited

/-- A queue binding (R163). -/
structure Binding where
  port : BitVec 8
  dir : Dir
  deriving DecidableEq, Repr, Inhabited

/-- A configured stream (R181, R182): its descriptor and the number of vectors consumed. -/
structure Stream where
  base : W64
  stride : W32
  count : W32
  inner : W32
  outer : W32
  type : BitVec 8
  write : Bool
  pos : Nat
  deriving DecidableEq, Repr, Inhabited

/-- An in-flight counter's path (R114). -/
inductive Path where
  | g | s | c | e | f | h
  deriving DecidableEq, Repr, Inhabited

/-- Where an arriving value goes: operand, element type, the taking threads, and whether it also enters a latch. -/
structure Sink where
  d : Opnd
  et : BitVec 4
  mask : Mask
  latch : Bool
  deriving DecidableEq, Repr, Inhabited

/-- One thread's value as it came back; it may be delivered from the GT `ready` on. -/
structure Piece where
  t : Nat
  data : W128
  poison : Bool
  ready : Nat
  deriving DecidableEq, Repr, Inhabited

/-- A place of bytes that an engine or a late result reads or writes: memory by its physical address, scratch by its offset, a port. -/
inductive Place where
  | mem (pa : Nat)
  | scratch (l g w : Nat) (off : Nat)
  | port (p : Nat)
  deriving DecidableEq, Repr, Inhabited

/-- Where one thread's late result is stored: an element of a write stream (R182), with its page attribute. -/
structure OutTo where
  t : Nat
  place : Place
  nc : Bool
  attr : Nat
  deriving DecidableEq, Repr, Inhabited

/-- An outstanding operation (R114, R115): responses still to come, values that came, whether it is finished. -/
structure Op where
  id : Nat
  path : Option Path
  pc : W64
  word : W32
  sink : Option Sink
  need : Nat
  got : List Piece
  load : Bool                 -- a load, an atomic or an ELD (the waits that name every earlier load and atomic)
  remote : Bool := false      -- some home of it is on another node
  near : Nat := 0             -- its H-path accesses to homes on the device that are not acknowledged (R125)
  acquire : Bool := false     -- later accesses wait for it (R129)
  mark : Bool := false        -- an atomic without a result: its acknowledgements can report poison (R281)
  raises : List (Nat × Nat) := []   -- threads that read a round counter by LDA, and its region (R142)
  outs : List OutTo := []     -- a stream destination's elements
  sync : Option Nat := none   -- the waiting instruction at `pc` takes the values itself, as its read number k
  moved : Option (Nat × Nat) := none   -- a moved thread's share of an operation: the TG that issued it, and its number there (R350)
  all : Bool := false         -- its one value goes to every taking thread, and to b0 of all eight (RCNT, R346)
  conf : Option (Nat × W64) := none   -- SPCFG: its values are this stream's descriptor, from this address (R363)
  done : Bool
  deriving DecidableEq, Repr, Inhabited

/-- Values that came for the waiting instruction at `pc`, as its read number `k`. -/
structure HeldRead where
  pc : W64
  k : Nat
  got : List Piece
  deriving DecidableEq, Repr, Inhabited

/-- A quantum atomic held in the core, with its thread (R133). -/
structure Quantum where
  op : Nat
  t : Nat
  pa : Nat
  a : AOp
  rep : Bool
  nc : Bool
  deriving DecidableEq, Repr, Inhabited

/-- A hit of a ray (R216, R220, R222). -/
structure Hit where
  t : W32
  id : W32
  u : W32
  v : W32
  front : Bool
  leaf : Nat
  tag : Byte
  kind : Nat                  -- 1 accepted hit, 2 any-hit call-out, 3 intersection call-out
  deriving DecidableEq, Repr, Inhabited

/-- What traversal has still to visit: a box node, the rest of a run of n triangles, or a procedural box of a node. -/
inductive Visit where
  | node (off : Nat)
  | tri (off n : Nat)
  | box (id : W32) (tag : Byte) (node : Nat)
  deriving DecidableEq, Repr, Inhabited

/-- A pending visit: what, and the child box it was found in (exact bounds as numerators over 2^256), or none at the root. -/
structure Todo where
  what : Visit
  box : Option (Vector Int 6)
  deriving DecidableEq, Repr, Inhabited

/-- A ray in flight (R217-R222, R233). -/
structure Ray where
  t : Nat
  q : Vector W32 8            -- origin, tmin, direction, tmax
  tmax : W32
  closest : Bool
  desc : W64
  ctx : Nat
  gen : BitVec 16
  pinned : Bool
  best : Option Hit
  todo : List Todo
  visits : Nat
  stopped : Option Hit        -- the call-out it stands at
  ended : Option Nat          -- its end: 0 miss or hit, 4 invalid, 5 malformed
  image : List Byte           -- the flue image it began with; empty is the baseline
  priv : Priv                 -- the privilege of its TRACE
  upd : Nat := 0              -- WCT of its descriptor updates (R259)
  deriving DecidableEq, Repr, Inhabited

/-- A thread's words in a result block, and whether its ray ends with them (R221). -/
structure Result where
  t : Nat
  words : List W32
  last : Bool
  deriving DecidableEq, Repr, Inhabited

/-- A result block that a TRACE or TRCONT still owes (R221), with the results of the rays that have come to stand. -/
structure Block where
  op : Nat
  threads : List Nat
  got : List Result := []
  deriving DecidableEq, Repr, Inhabited

/-- An armed monitor (R117). -/
structure Monitor where
  line : Nat
  fired : Bool
  overflow : Bool
  deriving DecidableEq, Repr, Inhabited

/-- An explicit pin (R223). -/
structure Pin where
  desc : W64
  gen : W64
  deriving DecidableEq, Repr, Inhabited

/-- A SYSW on its way (R371). -/
structure RegWrite where
  num : Nat
  val : W64
  deriving DecidableEq, Repr, Inhabited

/-- A place in the line at a FIFO (R164): the port, a push or a pop, and when the instruction came there. -/
structure Waiter where
  port : Nat
  push : Bool
  no : Nat
  deriving DecidableEq, Repr, Inhabited

/-- Where an instruction that acts across TGs stands. -/
inductive Phase where
  | fresh
  | arrived                   -- BARR or REGRP: arrived, waiting for the others
  | released                  -- the others have come
  deriving DecidableEq, Repr, Inhabited

/-- A thread group (R11, R204). -/
structure Tg where
  key : TgKey
  on : Bool                   -- resident and not ended
  ctx : Nat                   -- CTXID: the context the TG acts in (R196)
  core : Nat                  -- physical core
  slot : Nat                  -- TG slot of the core (R10)
  pc : W64
  v : Vector (Vector W32 8) 64
  s : Vector W64 32
  p : Vector Mask 8
  gm : W32
  b : Vector (Vector W64 8) 4
  bv : Vector Bool 4
  bop : Vector (Option Nat) 4 -- the outstanding operation that still owes the latch its value
  stack : List Entry          -- innermost first
  cm : Mask
  live : Mask
  home : Vector (Nat × Nat) 8 -- beat map: home TG and home beat
  q : Vector (Option Binding) 8
  sp : Vector (Option Stream) 8
  flags : Byte
  fptrap : Byte
  lease : BitVec 5
  priv : Priv
  trpc : W64
  tepc : W64
  taddr : W64
  trec : W64
  tcause : W64
  tmask : W64
  tgm : W32
  region : Option (Nat × Nat) -- code region of a context handler in force (R199): base and length
  wctMax : Nat
  unack : Nat
  floors : Vector W32 32      -- round floors (R142)
  rnd : Vector W64 8
  embers : Vector Nat 8       -- issuer-key counts of the threads
  elds : Vector Nat 8
  hobs : Vector Nat 8
  spawns : Vector Nat 8
  arrA : W32
  arrG : W32
  pins : List Pin
  monitor : Option Monitor
  ops : List Op               -- in issue order
  nextOp : Nat
  held : List HeldRead
  quantum : List Quantum
  rays : List Ray
  blocks : List Block
  aFifo : List (Byte × Bool)  -- port 0x00: bytes, poisoned
  aSide : List (Option Bool × BitVec 8 × Bool × Bool)  -- tag (INT8?), scale, mixed, poisoned scale
  rayOut : List W32           -- port 0x10
  phase : Phase
  waiting : Bool              -- not ready until its condition holds (R28)
  keepLane : Bool             -- waits without giving up the lane (R115)
  woken : Bool := false       -- waiting, and about to test its condition again (R28)
  turnDue : Bool := false     -- its lane chooses again at the next boundary (R20)
  place : List Waiter         -- the waiting instruction's places in the lines at its FIFOs (R164)
  slow : Bool                 -- on the slow path (R87)
  yielded : Bool
  budgetTrap : Bool           -- R192: due at the next boundary
  readyFor : Nat              -- clocks ready without issuing (R28)
  sysw : Option RegWrite
  word : W32                  -- the word last fetched, as delivered
  deriving DecidableEq, Repr, Inhabited

/-! ### Workgroups, gangs, launches, contexts -/

/-- A sidecar entry (R170): format tag (INT8?) or untagged, scale, mixed bit, poisoned scale byte. -/
abbrev Side := Option Bool × BitVec 8 × Bool × Bool

/-- A byte on its way into a FIFO: its value, its poison, and what a sidecar entry records of it (R170). -/
structure InByte where
  b : Byte
  bad : Bool
  side : Side
  deriving DecidableEq, Repr, Inhabited

/-- A FIFO of a workgroup (R162): its bytes (with poison), its sidecar. -/
structure Fifo where
  port : Nat
  data : List (Byte × Bool)
  side : List Side
  deriving DecidableEq, Repr, Inhabited

/-- A subscriber of a B FIFO (R165): the TG, its queue registers bound to it, its read position in bytes from the first byte kept. -/
structure Sub where
  port : Nat
  tg : Nat
  qs : List Nat
  shared : Bool
  pos : Nat
  deriving DecidableEq, Repr, Inhabited

/-- A stash line that is not invalid (R107): window, line of it, owned or leased, its dirty bytes. -/
structure StashLine where
  win : Nat
  idx : Nat                   -- line of the window's global range
  pa : Nat
  owned : Bool
  expiry : Nat
  version : Nat
  dirty : BitVec 128
  poison : Bool
  region : Option Nat
  round : W32
  bad : Bool := false         -- a copy has put poison into it (R168)
  deriving DecidableEq, Repr, Inhabited

/-- An accumulator tile (R80-R83). -/
structure Tile where
  words : Vector (BitVec 56) 512
  float : Option Bool         -- mode: unset, float or integer
  sa : Vector (Option (BitVec 8)) 32
  sb : Vector (Option (BitVec 8)) 16
  nv : Bool
  ofl : Bool
  sv : Bool
  pz : Bool
  deriving DecidableEq, Repr, Inhabited

/-- A workgroup (R13, R25, R35, R192). -/
structure Wg where
  launch : Nat
  gang : Nat
  no : Nat
  logical : Nat               -- logical core, fixed for the gang's life (R36)
  core : Nat                  -- physical core
  scratch : Memory
  size : Nat                  -- allocation A of R35
  empty : List Nat            -- scratch words whose full/empty bit reads empty
  stga : Vector W64 4
  stsc : Vector W64 4
  stash : List StashLine
  tiles : Vector Tile 4
  fifos : List Fifo
  subs : List Sub
  budget : Option Nat
  issued : Bool               -- a TG of it has issued (R192)
  expired : Bool := false     -- its TGs have been told that the budget reached 0
  gangTg : Option Nat := none -- the TG that issues the workgroup's MMACs (R175)
  status : Option (W32 × W64) -- reduced EXIT status and its work identifier
  killed : Bool
  ended : Bool
  wct : Nat
  deriving DecidableEq, Repr, Inhabited

/-- Where a gang stands: `stopping` is resident and chosen for pre-emption (R191, R203), `spilling` is
stopped, its rays run on, and waits for the descriptor updates of its last blocks (R233, R259); `loading` is restored to its slots and
waits for the statuses of its copies (R205). -/
inductive GangState where
  | waiting | resident | stopping | spilling | saved | loading | ended
  deriving DecidableEq, Repr, Inhabited

/-- A fragment of a draw (R237): the pixel, its depth, primitive and weights. -/
structure Frag where
  x : Nat
  y : Nat
  z : W32
  prim : Nat
  wb : W32
  wc : W32
  attr : W32
  done : Option (Option (List W32))   -- the thread's end: discarded, or its colour
  deriving DecidableEq, Repr, Inhabited

/-- The B data that the leading workgroup of a column has sent, with its sidecar (R175). -/
structure SentB where
  wg : Nat
  b : List (Byte × Bool)
  side : List Side
  deriving DecidableEq, Repr, Inhabited

/-- A pass of a gang under way (R175): the workgroups still to be accepted for it, and the B data that the leading workgroups of columns
have sent, with their sidecars. -/
structure GangPass where
  left : List Nat
  sent : List SentB
  deriving DecidableEq, Repr, Inhabited

/-- A gang (R15). -/
structure Gang where
  launch : Nat
  no : Nat
  cluster : Nat
  ox : Nat
  oy : Nat
  state : GangState
  frags : List Frag           -- a pixel-stage gang's fragments
  mmac : Option GangPass := none   -- a pass that every workgroup has come to, and not every one has been accepted for (R175)
  deriving DecidableEq, Repr, Inhabited

/-- A launch header as read (R59). -/
structure Header where
  flags : BitVec 16
  widths : List Nat
  vregs : Nat
  sregs : Nat
  scratch : Nat
  tiles : Nat
  queues : Nat
  tgs : Nat
  patchOff : Nat
  patchCount : Nat
  paramBytes : Nat
  trapOff : Nat
  saveBytes : Nat
  gx : Nat
  gy : Nat
  code : Nat                  -- virtual address of the code region's first word
  codeLen : Nat
  deriving DecidableEq, Repr, Inhabited

/-- A patch entry (R62). -/
structure Patch where
  off : Nat
  param : Nat
  width : Nat
  kind : Nat
  deriving DecidableEq, Repr, Inhabited

/-- A kindling request held in a deterministic launch (R154). -/
structure HeldKindle where
  region : Nat
  idx : Nat
  entry : EmberRegion
  ctx : Nat
  key : Key
  gt : Nat
  deriving DecidableEq, Repr, Inhabited

/-- An accepted slice (R183-R187). -/
structure Launch where
  no : Nat                    -- spawn number
  ctx : Nat
  record : W64
  hdr : Header
  patches : List Patch
  params : List Byte
  base : W64
  count : Nat
  deadline : Nat
  seed : W64
  cls : Nat
  budget : Nat
  ranges : List (Nat × Nat × Bool)   -- widened base, end, write
  after : Option Nat
  gangs : Nat                 -- how many gangs it has
  nextGang : Nat              -- the next one to place
  status : Option (W32 × W64)
  killed : Bool
  done : Bool
  wct : Nat                   -- the slice's latest WCT
  kindled : Option Nat        -- the ember region it was kindled by
  heldKindles : List HeldKindle
  draw : Option Nat           -- for a pixel stage: the slice of its draw
  written : Bool := true      -- its record is in memory (not a pixel stage's, not a kindled slice's)
  priv0 : Priv := .u          -- the spawner's privilege
  endAt : Option Nat := none  -- the WCT of its completion record
  deriving DecidableEq, Repr, Inhabited

/-- A checked slice held in a deterministic launch until that completes (R185). -/
structure HeldSpawn where
  parent : Nat
  key : Key
  slice : Launch
  after : W64                 -- its record's after field
  deriving DecidableEq, Repr, Inhabited

inductive CtxState where
  | free | live | closing
  deriving DecidableEq, Repr, Inhabited

/-- A loaded sequencer image (R235). -/
structure Image where
  unit : Nat
  header : List Byte
  body : List Byte
  deriving DecidableEq, Repr, Inhabited

/-- A context (R196, R206). -/
structure Ctx where
  id : Nat
  state : CtxState
  ptroot : W64
  tvec : W64
  ctxcap : W64
  ncb : Vector W64 16
  ncl : Vector W64 16
  rrtab : W64
  ertab : W64
  rr : List (Nat × Option RoundRegion)    -- entries read since the last write of RRTAB
  er : List (Nat × Option EmberRegion)
  dropped : Nat
  kindEn : Bool
  kindling : List W32
  sqld : W64
  images : List Image
  deriving DecidableEq, Repr, Inhabited

/-! ### Engines and the device -/

/-- Who asked for a spawn (R184, R195, R154). -/
inductive SpawnFrom where
  | tg (t : TgKey) (op : Nat) (d : Opnd) (key : Key) (det : Bool)
  | ring (c slot : Nat)                   -- a host ring entry: context and the entry's physical address
  | kindle (region idx : Nat) (deadline : Nat)
  deriving DecidableEq, Repr, Inhabited

/-- A slice handed to the scheduler (R184). -/
structure SpawnReq where
  source : SpawnFrom
  record : W64
  ctx : Nat
  priv : Priv
  region : Option EmberRegion
  deriving DecidableEq, Repr, Inhabited

/-- One byte of a copy: the byte it comes from, or the two nibbles' bytes (each its high half when `high`), and where it goes. -/
structure Move where
  src : List Place
  high : Bool
  dst : Place
  deriving DecidableEq, Repr, Inhabited

/-- A copy accepted by the engine (R166-R169): its byte moves in ascending order, what a failed check reports, its destination
lines, the FIFOs it has still to push into, each with the bytes pushed. -/
structure CopyJob where
  id : Nat
  tg : TgKey
  op : Nat
  d : Opnd
  moves : List Move
  err : Nat
  lines : List Nat
  ports : List (Nat × Nat)
  data : Option (List InByte)   -- the bytes as read, with poison and sidecar, from the reading on
  reps : List Nat := []       -- its source lines on replicated pages
  wrote : Bool := false       -- its bytes for memory and scratch are written
  deriving DecidableEq, Repr, Inhabited

inductive PassKind where
  | quarter (q : Nat) | blocks | gang (nr : Nat)
  deriving DecidableEq, Repr, Inhabited

/-- An accepted matrix pass (R172, R173): operands as taken from the FIFOs. -/
structure Pass where
  core : Nat
  tg : TgKey
  op : Nat
  kind : PassKind
  tile : Nat
  et : BitVec 4
  a : List (Byte × Bool)
  b : List (Byte × Bool)
  aBad : List Bool                         -- rows with a poisoned scale
  bBad : List Bool
  started : Bool
  clock : Nat                              -- the clock at acceptance
  bPort : Nat
  bPos : Nat                               -- the B entry it read, by position
  deriving DecidableEq, Repr, Inhabited

/-- A stoker command (R224, R232). -/
structure StokerCmd where
  id : Nat
  tg : TgKey
  op : Nat
  d : Opnd
  code : Nat                               -- opcode
  cluster : Nat
  ctx : Nat
  priv : Priv
  desc : W64
  arg : W64
  core : Nat
  result : Option (W64 × Nat) := none      -- its status word, and the WCT of its last write
  deriving DecidableEq, Repr, Inhabited

/-- Units of a structure's pool that return to it when a retiring slot is reclaimed (R229, R230): first unit and number of each run. -/
structure Frees where
  desc : Nat                  -- physical address of the descriptor
  slot : Nat
  runs : List (Nat × Nat)
  deriving DecidableEq, Repr, Inhabited

/-- The quality fields of a generation (R212, R231). -/
structure Quality where
  sah : Nat
  nodes : Nat
  tris : Nat
  depth : Nat
  flags : Nat
  inflation : Nat
  fullsah : Nat
  deriving DecidableEq, Repr, Inhabited

/-- What the stoker keeps of a structure's pending generation (R226, R227): the runs of units allocated to it, the runs to free at
its publish, and its quality. -/
structure Pending where
  desc : Nat
  own : List (Nat × Nat)
  frees : List (Nat × Nat)
  quality : Quality
  deriving DecidableEq, Repr, Inhabited

/-- One column's rows and latches (R241); bit r of `rows` is row r. -/
structure Column where
  rows : BitVec 256
  c : Bool
  p : Bool
  poison : Bool
  deriving DecidableEq, Repr, Inhabited

/-- A firebox operation sent to the controller (R246, R247): the values of its descriptors, FBPOP's register, FBST's destination
lines, and the elements' places. -/
structure FbOp where
  id : Nat
  tg : TgKey
  op : Nat
  code : Nat
  sub : Nat
  d : W64
  a : W64
  b : W64
  dst : Opnd
  lines : List Nat
  places : List Nat
  reps : List Nat := []       -- its lines on replicated pages
  deriving DecidableEq, Repr, Inhabited

/-- The firebox domain (R241-R248). -/
structure Firebox where
  owner : Option (Nat × Nat × Nat)
  ways : Nat
  claims : List TgKey
  queue : List FbOp
  cols : List (Nat × Column)               -- runs of equal columns, in index order
  deriving DecidableEq, Repr, Inhabited

/-- Where a draw stands: its mesh stage, binning, a batch to rasterise, its pixel threads, all written, released. -/
inductive DrawPhase where
  | mesh | bin | raster | pixels | written | released
  deriving DecidableEq, Repr, Inhabited

/-- A draw (R236-R240). -/
structure Draw where
  launch : Nat
  ctx : Nat
  prims : W64
  cap : Nat
  pixHeader : W64
  colour : W64
  pitch : Nat
  width : Nat
  height : Nat
  format : Nat
  depth : W64
  binBuf : W64
  binBytes : Nat
  release : W64
  number : W32
  target : W64
  phase : DrawPhase
  next : Nat                               -- next primitive to bin
  total : Nat
  binned : List (Nat × List Byte)          -- the batch: primitives by index, as read
  entries : Nat                            -- entries of the batch in the binned buffer
  pixHdr : Header                          -- the pixel stage's header and patches, as checked
  pixPatches : List Patch
  pixLaunch : Option Nat
  overflow : Bool
  error : Bool
  wct : Nat
  images : List Image
  deriving DecidableEq, Repr, Inhabited

/-- A format window (R85). -/
structure FmtWindow where
  base : W64
  lim : W64
  scale : W64
  ctl : W64
  deriving DecidableEq, Repr, Inhabited

inductive Maint where
  | startUp | recovery | test | service
  deriving DecidableEq, Repr, Inhabited

/-- An answer owed to another node, and the time before which it does not go (R157). -/
structure Owed where
  at_ : Nat
  b : List Byte
  deriving DecidableEq, Repr, Inhabited

/-- Device registers and the outside world (R207, R190, R85, R263-R277). -/
structure Dev where
  detm : Bool
  quant : W32
  fw : Vector FmtWindow 32
  nodeid : BitVec 8
  unc : W32
  cor : W32
  salvb : W64
  dropped : W32
  written : W32
  dieLost : BitVec 4
  maint : Maint
  alarm : Bool
  halted : Bool
  portsDown : Bool
  keyErased : Bool
  imageOk : Bool              -- recovery: a verifying image has been supplied
  booted : List Byte          -- the hashes of the images that the boot ROM verified, in order (R272)
  nextLeaf : Nat
  interrupts : Nat            -- in-band interrupts raised to the BMC
  report : List Byte          -- what the device last answered the BMC
  answer : List Byte          -- what the device last answered another node
  owed : List Owed := []      -- answers that wait for a WCT (R157)
  flits : Nat                 -- flits accepted
  retries : Nat               -- flits asked for again
  clockLow : Bool
  nextSpawn : Nat
  lastCluster : Option Nat
  nextJob : Nat
  lastQuantum : Nat           -- the multiple of q of the last quantum end
  deriving DecidableEq, Repr, Inhabited

/-- The whole machine. -/
structure State where
  ctr : Nat                   -- the model's: which free value is drawn next
  turn : Turn                 -- the model's: which agent moves
  gt : Nat
  cycle : Nat
  mem : Memory
  lines : List Line
  setFloors : List (Nat × Nat × Nat)       -- slice, set, lease floor (R244)
  l1 : List Copy
  icopies : List (Nat × Nat × Nat)         -- instruction caches: core, line, expiry (R121)
  tlb : List TlbEntry
  views : List View
  news : List News
  net : List Msg
  acks : List Ack
  overflowed : List Nat       -- slices whose monitors overflowed (R117)
  heldHob : List HeldHob
  heldEmber : List HeldEmber
  tg : Tg                     -- the thread group that issues
  rest : List Tg              -- every other thread group
  wgs : List Wg
  gangs : List Gang
  launches : List Launch
  lanes : List (Nat × Nat × TgKey)         -- core, lane, the TG it issues from
  engUse : List (Nat × Nat × Nat)          -- core, engine, clock of its last use (R194)
  ctxs : List Ctx
  spawnQ : List SpawnReq
  heldSpawns : List HeldSpawn
  copies : List CopyJob
  passes : List Pass
  stoker : List StokerCmd
  frees : List Frees
  pendings : List Pending
  fb : Firebox
  draws : List Draw
  dev : Dev
  waits : Bool                -- the model's: an access of the step under way waits for its line (R122, R132)
  deriving DecidableEq, Repr, Inhabited

/-! ### Reset -/

/-- The key of no thread group: a spawn number past the 48 bits of R184. -/
def noKey : TgKey := ⟨2 ^ 48, 0, 0, 0⟩

/-- A thread group with nothing in it: every register at the value R11, R49, R120 and R207 give, or at the value of log 4. -/
def Tg.empty : Tg :=
  { key := noKey, on := false, ctx := 0, core := 0, slot := 0, pc := 0
    v := Vector.replicate 64 (Vector.replicate 8 0), s := Vector.replicate 32 0, p := Vector.replicate 8 0, gm := 0
    b := Vector.replicate 4 (Vector.replicate 8 0), bv := Vector.replicate 4 false, bop := Vector.replicate 4 none
    stack := [], cm := 0, live := 0
    home := #v[(0, 0), (0, 1), (0, 2), (0, 3), (0, 4), (0, 5), (0, 6), (0, 7)]
    q := Vector.replicate 8 none, sp := Vector.replicate 8 none, flags := 0, fptrap := 0, lease := 10, priv := .u
    trpc := 0, tepc := 0, taddr := 0, trec := 0, tcause := 0, tmask := 0, tgm := 0, region := none
    wctMax := 0, unack := 0, floors := Vector.replicate 32 0, rnd := Vector.replicate 8 0
    embers := Vector.replicate 8 0, elds := Vector.replicate 8 0, hobs := Vector.replicate 8 0
    spawns := Vector.replicate 8 0, arrA := 0, arrG := 0, pins := [], monitor := none, ops := [], nextOp := 0
    held := [], quantum := [], rays := [], blocks := [], aFifo := [], aSide := [], rayOut := [], phase := .fresh
    waiting := false, keepLane := false, place := [], slow := false, yielded := false, budgetTrap := false, readyFor := 0
    sysw := none, word := 0 }

/-- A tile at its grant (R176, R82; words by log 17). -/
def Tile.empty : Tile :=
  { words := Vector.replicate 512 0, float := none, sa := Vector.replicate 32 none, sb := Vector.replicate 16 none
    nv := false, ofl := false, sv := false, pz := false }

/-- A context whose registers hold their reset values (R112, R136, R146, R155, R207, R235; log 18). -/
def Ctx.fresh (id : Nat) (state : CtxState) : Ctx :=
  { id := id, state := state, ptroot := 0, tvec := 0, ctxcap := 0, ncb := Vector.replicate 16 0
    ncl := Vector.replicate 16 0, rrtab := 0, ertab := 0, rr := [], er := [], dropped := 0, kindEn := false
    kindling := [], sqld := 0, images := [] }

/-- The device at power-on (R190, R207, R269, R273, R276, R277; logs 18, 26): the fabric ports stay down until they are trained. -/
def Dev.reset : Dev :=
  { detm := false, quant := 100000, fw := Vector.replicate 32 ⟨0, 0, 0, 0⟩, nodeid := 0, unc := 0, cor := 0, salvb := 0
    dropped := 0, written := 0, dieLost := 0, maint := .startUp, alarm := false, halted := false, portsDown := true
    keyErased := false, imageOk := false, booted := [], nextLeaf := 0, interrupts := 0, report := [], answer := [], flits := 0, retries := 0
    clockLow := false, nextSpawn := 0, lastCluster := none, nextJob := 0, lastQuantum := 0 }

/-- The machine right after power-on reset: start-up maintenance state, nothing resident, memory with nothing listed; the next
agent to move is bring-up (R276). -/
def State.reset : State :=
  { ctr := 0, turn := .event .powerOn, gt := 0, cycle := 0, mem := [], lines := [], setFloors := [], l1 := [], icopies := [], tlb := []
    views := [], news := [], net := [], acks := [], overflowed := [], heldHob := [], heldEmber := [], tg := Tg.empty
    rest := [], wgs := [], gangs := [], launches := [], lanes := [], engUse := [], ctxs := [], spawnQ := [], heldSpawns := [], copies := []
    passes := [], stoker := [], frees := [], pendings := []
    fb := { owner := none, ways := 0, claims := [], queue := [], cols := [] }
    draws := [], dev := Dev.reset, waits := false }

end Sys2Proof.Machine
end

