-- ==== Sys2Proof/Machine/Mem.lean ====
section
/-! DEFINITION. Memory as a list in one canonical form, and little-endian values in it (R3). An unlisted byte reads 0 (log 3);
scratch uses the same form with offsets as addresses (log 5). -/

namespace Sys2Proof.Machine

/-- What an unlisted address reads as (log 3). -/
def unlistedByte : Byte := 0

/-- The byte at address `a`. -/
def memGet : Memory → Nat → Byte
  | [], _ => unlistedByte
  | (k, b) :: m, a => if a = k then b else memGet m a

/-- An entry put in its place in a list that has none for its address. -/
def memInsert : Memory → Nat → Byte → Memory
  | [], a, b => [(a, b)]
  | (k, c) :: m, a, b => if a < k then (a, b) :: (k, c) :: m else (k, c) :: memInsert m a b

/-- `m` without an entry for address `a`. -/
def memDrop : Memory → Nat → Memory
  | [], _ => []
  | (k, c) :: m, a => if a = k then memDrop m a else (k, c) :: memDrop m a

/-- `m` with byte `b` at address `a`, in canonical form. -/
def memSet (m : Memory) (a : Nat) (b : Byte) : Memory := if b = unlistedByte then memDrop m a else memInsert (memDrop m a) a b

/-- Every address of the list is at or above `lo`, the addresses rise, and no entry is what an unlisted address reads. -/
def memFrom : Nat → Memory → Bool
  | _, [] => true
  | lo, (k, b) :: m => decide (lo ≤ k) && decide (b ≠ unlistedByte) && memFrom (k + 1) m

/-- The canonical form. -/
def Memory.wf (m : Memory) : Bool := memFrom 0 m

/-- `n` bytes from address `a` upwards. -/
def memBytes (m : Memory) (a : Nat) : Nat → List Byte
  | 0 => []
  | n + 1 => memGet m a :: memBytes m (a + 1) n

/-- `m` with the bytes at `a` upwards. -/
def memPut (m : Memory) (a : Nat) : List Byte → Memory
  | [] => m
  | b :: bs => memPut (memSet m a b) (a + 1) bs

/-- A little-endian byte list as a number (R3). -/
def leNat : List Byte → Nat
  | [] => 0
  | b :: bs => b.toNat + 256 * leNat bs

/-- The `n` low bytes of a number, little-endian. -/
def natLe : Nat → Nat → List Byte
  | 0, _ => []
  | n + 1, x => BitVec.ofNat 8 x :: natLe n (x / 256)

/-- The little-endian value of `n` bytes at `a`. -/
def memNat (m : Memory) (a n : Nat) : Nat := leNat (memBytes m a n)

/-- Byte `i` of a list, or 0 past its end. -/
def byteAt : List Byte → Nat → Byte
  | [], _ => 0
  | b :: _, 0 => b
  | _ :: bs, i + 1 => byteAt bs i

/-- The field of `n` bytes at offset `i` of a record. -/
def recNat (r : List Byte) (i n : Nat) : Nat := leNat ((r.drop i).take n)

/-- `xs` with its bytes from offset `i` replaced by `ys`. -/
def spliceAt (xs : List Byte) (i : Nat) (ys : List Byte) : List Byte := xs.take i ++ ys ++ xs.drop (i + ys.length)

/-- The numbers 0 to `n - 1`, rising. -/
def upTo : Nat → List Nat
  | 0 => []
  | n + 1 => upTo n ++ [n]

/-- The beats of a TG, rising (R10). -/
def beats : List Nat := [0, 1, 2, 3, 4, 5, 6, 7]

/-- Bit `t` of a mask. -/
def bitOf (m : Mask) (t : Nat) : Bool := m.getLsbD t

/-- The beats in a mask, rising. -/
def beatsOf (m : Mask) : List Nat := beats.filter (bitOf m)

/-- The mask of the beats for which `f` holds. -/
def maskOf (f : Nat → Bool) : Mask :=
  beats.foldr (fun t m => if f t then m ||| (1#8 <<< t) else m) 0

/-- Bits `hi` to `lo` of a number. -/
def bitsNat (x hi lo : Nat) : Nat := x / 2 ^ lo % 2 ^ (hi + 1 - lo)

/-- The first entry that satisfies `f`, replaced by `g` of it. -/
def replaceFirst {α : Type} (f : α → Bool) (g : α → α) : List α → List α
  | [] => []
  | x :: xs => if f x then g x :: xs else x :: replaceFirst f g xs

/-- The list without its first entry that satisfies `f`. -/
def dropFirst {α : Type} (f : α → Bool) : List α → List α
  | [] => []
  | x :: xs => if f x then xs else x :: dropFirst f xs

/-- The list without its entry `k`. -/
def dropAt {α : Type} : List α → Nat → List α
  | [], _ => []
  | _ :: xs, 0 => xs
  | x :: xs, k + 1 => x :: dropAt xs k

/-- `f` applied to each entry with its place, counted from `i`. -/
def mapFrom {α β : Type} (i : Nat) (f : Nat → α → β) : List α → List β
  | [] => []
  | x :: xs => f i x :: mapFrom (i + 1) f xs

/-- Insertion by a strict order, after the entries that are not later. -/
def insertBy {α : Type} (lt : α → α → Bool) (x : α) : List α → List α
  | [] => [x]
  | y :: ys => if lt x y then x :: y :: ys else y :: insertBy lt x ys

/-- A stable sort. -/
def sortBy {α : Type} (lt : α → α → Bool) : List α → List α
  | [] => []
  | x :: xs => insertBy (fun a b => !lt b a) x (sortBy lt xs)

end Sys2Proof.Machine
end

