-- ==== Sys2Proof/Machine/Num.lean ====
section
/-! DEFINITION. Number formats and exact arithmetic (03_numbers.md): a value is an exact dyadic number, rounded once. -/

namespace Sys2Proof.Machine

/-! ### Flags (R71) -/

def flagNv : Byte := 0x01
def flagDz : Byte := 0x02
def flagOf : Byte := 0x04
def flagUf : Byte := 0x08
def flagNx : Byte := 0x10
def flagIdz : Byte := 0x20
def flagSv : Byte := 0x40
def flagPz : Byte := 0x80

/-- A result as bits, with the flags it raises. -/
structure Res where
  bits : Nat
  flags : Byte
  deriving DecidableEq, Repr, Inhabited

/-- A result that raises no flag. -/
def Res.ok (x : Nat) : Res := ⟨x, 0⟩

/-- `flag` when `c` holds. -/
def flagIf (c : Bool) (flag : Byte) : Byte := if c then flag else 0

/-! ### Integer types (R43, R75) -/

/-- The element types by their gm.et code (R49). -/
def etI8 : Nat := 0
def etI32 : Nat := 4
def etU32 : Nat := 5
def etI64 : Nat := 6
def etU64 : Nat := 7
def etF16 : Nat := 8
def etBf16 : Nat := 9
def etF32 : Nat := 10
def etF64 : Nat := 11
def etMk8 : Nat := 12
def etEmb : Nat := 13
def etB128 : Nat := 14

/-- Bits of one element. -/
def etWidth (et : Nat) : Nat :=
  match et with
  | 0 => 8 | 1 => 8 | 2 => 16 | 3 => 16 | 4 => 32 | 5 => 32 | 6 => 64 | 7 => 64
  | 8 => 16 | 9 => 16 | 10 => 32 | 11 => 64 | 12 => 8 | _ => 128

/-- Elements of one container (R43). -/
def etLanes (et : Nat) : Nat :=
  match et with
  | 8 => 2 | 9 => 2 | 12 => 4 | _ => 1

/-- Bits of a container: 32, 64 or 128 (R43). -/
def etContainer (et : Nat) : Nat :=
  match et with
  | 6 => 64 | 7 => 64 | 11 => 64 | 13 => 128 | 14 => 128 | _ => 32

/-- Bytes of a memory access (R43, R97): a container, or one element of an 8- or 16-bit integer type. -/
def etBytes (et : Nat) : Nat :=
  match et with
  | 0 => 1 | 1 => 1 | 2 => 2 | 3 => 2 | 6 => 8 | 7 => 8 | 11 => 8 | 13 => 16 | 14 => 16 | _ => 4

/-- The signed integer types. -/
def etSigned (et : Nat) : Bool := et = 0 || et = 2 || et = 4 || et = 6

/-- The integer types. -/
def etInt (et : Nat) : Bool := et ≤ 7

/-- The bits of an integer type as a number. -/
def intVal (et x : Nat) : Int :=
  let w := etWidth et
  let y := x % 2 ^ w
  if etSigned et && 2 ^ (w - 1) ≤ y then (y : Int) - 2 ^ w else y

/-- The least and the greatest value of an integer type. -/
def intMin (et : Nat) : Int := if etSigned et then -(2 ^ (etWidth et - 1) : Nat) else 0
def intMax (et : Nat) : Int := if etSigned et then 2 ^ (etWidth et - 1) - 1 else 2 ^ etWidth et - 1

/-- The low `w` bits of a number. -/
def wrapBits (w : Nat) (x : Int) : Nat := (x % (2 ^ w : Nat)).toNat

/-- IntResult (R75). -/
def intResult (et : Nat) (sat : Bool) (x : Int) : Res :=
  let w := etWidth et
  if !sat then .ok (wrapBits w x)
  else if x < intMin et then ⟨wrapBits w (intMin et), flagSv⟩
  else if intMax et < x then ⟨wrapBits w (intMax et), flagSv⟩
  else .ok (wrapBits w x)

/-! ### Dyadic numbers -/

/-- The number `n * 2^e`. -/
structure Dy where
  n : Int
  e : Int
  deriving DecidableEq, Repr, Inhabited

def Dy.zero : Dy := ⟨0, 0⟩
def Dy.ofInt (n : Int) : Dy := ⟨n, 0⟩

/-- `n` with exponent brought down to `e`. -/
def Dy.at (x : Dy) (e : Int) : Int := x.n * (2 ^ (x.e - e).toNat : Nat)

def Dy.add (x y : Dy) : Dy := let e := min x.e y.e; ⟨x.at e + y.at e, e⟩
def Dy.neg (x : Dy) : Dy := ⟨-x.n, x.e⟩
def Dy.sub (x y : Dy) : Dy := x.add y.neg
def Dy.mul (x y : Dy) : Dy := ⟨x.n * y.n, x.e + y.e⟩
def Dy.lt (x y : Dy) : Bool := let e := min x.e y.e; decide (x.at e < y.at e)
def Dy.le (x y : Dy) : Bool := !y.lt x
def Dy.eq (x y : Dy) : Bool := let e := min x.e y.e; decide (x.at e = y.at e)
def Dy.abs (x : Dy) : Dy := ⟨x.n.natAbs, x.e⟩

/-- The greatest integer not above the number, and whether the number is above it. -/
def Dy.floor (x : Dy) : Int × Bool :=
  if 0 ≤ x.e then (x.n * (2 ^ x.e.toNat : Nat), false)
  else let d : Int := (2 ^ (-x.e).toNat : Nat); (x.n / d, decide (x.n % d ≠ 0))

/-- Rounds to an integer under rm (R67), with whether it was inexact. -/
def Dy.toInt (rm : Nat) (x : Dy) : Int × Bool :=
  if 0 ≤ x.e then (x.n * (2 ^ x.e.toNat : Nat), false)
  else
    let d : Nat := 2 ^ (-x.e).toNat
    let m := x.n.natAbs
    let q := m / d
    let r := m % d
    let neg := decide (x.n < 0)
    let up :=
      if r = 0 then false
      else if rm = 0 then decide (d < 2 * r) || (decide (2 * r = d) && q % 2 == 1)
      else if rm = 1 then false
      else if rm = 2 then !neg
      else if rm = 3 then neg
      else decide (d ≤ 2 * r)
    let q' := if up then q + 1 else q
    (if neg then -(q' : Int) else q', decide (r ≠ 0))

/-! ### IEEE formats (R66, R67) -/

/-- A format: exponent bits and fraction bits. -/
structure Fmt where
  eb : Nat
  fb : Nat
  deriving DecidableEq, Repr, Inhabited

def fmtF16 : Fmt := ⟨5, 10⟩
def fmtBf16 : Fmt := ⟨8, 7⟩
def fmtF32 : Fmt := ⟨8, 23⟩
def fmtF64 : Fmt := ⟨11, 52⟩
/-- The accumulator word (R80). -/
def fmtA56 : Fmt := ⟨10, 45⟩

/-- The format of a floating-point element type. -/
def etFmt (et : Nat) : Option Fmt :=
  match et with
  | 8 => some fmtF16 | 9 => some fmtBf16 | 10 => some fmtF32 | 11 => some fmtF64 | _ => none

def Fmt.width (f : Fmt) : Nat := 1 + f.eb + f.fb
def Fmt.bias (f : Fmt) : Int := 2 ^ (f.eb - 1) - 1
/-- The exponent of the smallest normal value. -/
def Fmt.emin (f : Fmt) : Int := 1 - f.bias
def Fmt.signBit (f : Fmt) : Nat := 2 ^ (f.eb + f.fb)
/-- The magnitude bits of infinity. -/
def Fmt.infBits (f : Fmt) : Nat := (2 ^ f.eb - 1) * 2 ^ f.fb
/-- The canonical NaN (R66). -/
def Fmt.canonNan (f : Fmt) : Nat := f.infBits + 2 ^ (f.fb - 1)
def Fmt.withSign (f : Fmt) (s : Bool) (m : Nat) : Nat := if s then f.signBit + m else m
/-- The sign of an element. -/
def Fmt.neg (f : Fmt) (x : Nat) : Bool := x / f.signBit % 2 == 1
/-- The element without its sign. -/
def Fmt.mag (f : Fmt) (x : Nat) : Nat := x % f.signBit
def Fmt.isNan (f : Fmt) (x : Nat) : Bool := decide (f.infBits < f.mag x)
def Fmt.isInf (f : Fmt) (x : Nat) : Bool := f.mag x == f.infBits
def Fmt.isZero (f : Fmt) (x : Nat) : Bool := f.mag x == 0
/-- Signalling: a NaN whose most significant fraction bit is 0 (R66). -/
def Fmt.isSnan (f : Fmt) (x : Nat) : Bool := f.isNan x && (x / 2 ^ (f.fb - 1) % 2 == 0)
/-- The NaN with its quiet bit set. -/
def Fmt.quiet (f : Fmt) (x : Nat) : Nat := if x / 2 ^ (f.fb - 1) % 2 == 0 then x + 2 ^ (f.fb - 1) else x

/-- The value of a finite element. -/
def Fmt.dy (f : Fmt) (x : Nat) : Dy :=
  let m := f.mag x
  let ex := m / 2 ^ f.fb
  let fr := m % 2 ^ f.fb
  let n : Int := if ex = 0 then fr else 2 ^ f.fb + fr
  let e : Int := (if ex = 0 then f.emin else ex - f.bias) - f.fb
  ⟨if f.neg x then -n else n, e⟩

/-- Whether a magnitude rounds away from zero: quotient `q`, remainder `r` of the divisor `d`, sign, rounding code (R67). -/
def roundUp (rm : Nat) (neg : Bool) (q r d : Nat) : Bool :=
  if r = 0 then false
  else if rm = 0 then decide (d < 2 * r) || (decide (2 * r = d) && q % 2 == 1)
  else if rm = 1 then false
  else if rm = 2 then !neg
  else if rm = 3 then neg
  else decide (d ≤ 2 * r)

/-- `m * 2^e` in units of `2^q`, rounded; and whether it was inexact. -/
def roundUnits (rm : Nat) (neg : Bool) (m : Nat) (e q : Int) : Nat × Bool :=
  if q ≤ e then (m * 2 ^ (e - q).toNat, false)
  else
    let d := 2 ^ (q - e).toNat
    let n := m / d
    let r := m % d
    (if roundUp rm neg n r d then n + 1 else n, decide (r ≠ 0))

/-- The bits of an overflowed result (R67). -/
def Fmt.overflow (f : Fmt) (rm : Nat) (neg : Bool) : Nat :=
  let toInf := rm = 0 || rm = 4 || (rm = 2 && !neg) || (rm = 3 && neg)
  f.withSign neg (if toInf then f.infBits else f.infBits - 1)

/-- Round of R67 for the non-zero number `±m * 2^e`. -/
def Fmt.roundMag (f : Fmt) (rm : Nat) (neg : Bool) (m : Nat) (e : Int) : Res :=
  let top : Int := e + Nat.log2 m                    -- exponent of the leading bit
  let base : Int := f.emin - f.fb
  let q : Int := max (top - f.fb) base
  let (n, inexact) := roundUnits rm neg m e q
  let mag := (q - base).toNat * 2 ^ f.fb + n
  if f.infBits ≤ mag then ⟨f.overflow rm neg, flagOf ||| flagNx⟩
  else
    let tiny :=
      if f.emin ≤ top then false
      else if top < f.emin - 1 then true
      else decide ((roundUnits rm neg m e (top - f.fb)).1 < 2 ^ (f.fb + 1))
    ⟨f.withSign neg mag, flagIf inexact flagNx ||| flagIf (inexact && tiny) flagUf⟩

/-- Round of a dyadic number; an exact zero takes the sign `zs`. -/
def Fmt.round (f : Fmt) (rm : Nat) (x : Dy) (zs : Bool) : Res :=
  if x.n = 0 then .ok (f.withSign zs 0) else f.roundMag rm (decide (x.n < 0)) x.n.natAbs x.e

/-- Round of a number that lies strictly between `m * 2^e` and `(m + 1) * 2^e`; `m` carries at least two bits more than the
format's precision. -/
def Fmt.roundBetween (f : Fmt) (rm : Nat) (neg : Bool) (m : Nat) (e : Int) : Res :=
  f.roundMag rm neg (2 * m + 1) (e - 1)

/-- Round of a magnitude known by its floor and by whether anything was cut off. -/
def Fmt.roundSticky (f : Fmt) (rm : Nat) (neg : Bool) (m : Nat) (e : Int) (sticky : Bool) : Res :=
  if sticky then f.roundBetween rm neg m e else f.roundMag rm neg m e

/-! ### Arithmetic (R67-R69) -/

/-- The first NaN of the operands, quiet, with nv when one of them signals (R69). -/
def Fmt.nanOf (f : Fmt) (xs : List Nat) : Option Res :=
  match xs.filter f.isNan with
  | [] => none
  | x :: _ => some ⟨f.quiet x, flagIf (xs.any f.isSnan) flagNv⟩

/-- A NaN made from operands that are none (R69). -/
def Fmt.invalid (f : Fmt) : Res := ⟨f.canonNan, flagNv⟩

/-- x + y. -/
def Fmt.add (f : Fmt) (rm x y : Nat) : Res :=
  match f.nanOf [x, y] with
  | some r => r
  | none =>
    if f.isInf x && f.isInf y then (if f.neg x == f.neg y then .ok x else f.invalid)
    else if f.isInf x then .ok x
    else if f.isInf y then .ok y
    else
      let zs := if f.isZero x && f.isZero y && f.neg x == f.neg y then f.neg x else rm == 3
      f.round rm ((f.dy x).add (f.dy y)) zs

/-- The element with its sign inverted. -/
def Fmt.flip (f : Fmt) (x : Nat) : Nat := if f.neg x then x - f.signBit else x + f.signBit

/-- x - y; a NaN keeps its sign. -/
def Fmt.sub (f : Fmt) (rm x y : Nat) : Res :=
  match f.nanOf [x, y] with
  | some r => r
  | none => f.add rm x (f.flip y)

/-- x * y. -/
def Fmt.mul (f : Fmt) (rm x y : Nat) : Res :=
  match f.nanOf [x, y] with
  | some r => r
  | none =>
    let s := f.neg x != f.neg y
    if f.isInf x || f.isInf y then
      (if f.isZero x || f.isZero y then f.invalid else .ok (f.withSign s f.infBits))
    else f.round rm ((f.dy x).mul (f.dy y)) s

/-- x * y + z, rounded once. NaNs are taken in the order given by `order`. -/
def Fmt.fma (f : Fmt) (rm x y z : Nat) : Res :=
  match f.nanOf [x, y, z] with
  | some r =>
    -- 0 × ∞ with a quiet NaN addend: the operands hold a NaN, so the first NaN stands (R69)
    r
  | none =>
    let ps := f.neg x != f.neg y
    if f.isInf x || f.isInf y then
      (if f.isZero x || f.isZero y then f.invalid
       else if f.isInf z && f.neg z != ps then f.invalid
       else .ok (f.withSign ps f.infBits))
    else if f.isInf z then .ok z
    else
      let p := (f.dy x).mul (f.dy y)
      let zs := if p.n = 0 && f.isZero z && ps == f.neg z then ps else rm == 3
      f.round rm (p.add (f.dy z)) zs

/-- The order of two elements that are no NaN: x before y, with −0 before +0 (R69). -/
def Fmt.before (f : Fmt) (x y : Nat) : Bool :=
  match f.neg x, f.neg y with
  | true, false => true
  | false, true => false
  | false, false => decide (f.mag x < f.mag y)
  | true, true => decide (f.mag y < f.mag x)

/-- MIN and MAX (R69). -/
def Fmt.minMax (f : Fmt) (isMax : Bool) (x y : Nat) : Res :=
  match f.nanOf [x, y] with
  | some r => r
  | none => .ok (if isMax then (if f.before x y then y else x) else (if f.before y x then y else x))

/-- Numeric order of two elements that are no NaN; the zeros are equal. -/
def Fmt.lt (f : Fmt) (x y : Nat) : Bool := f.before x y && !(f.isZero x && f.isZero y)
def Fmt.eq (f : Fmt) (x y : Nat) : Bool := f.mag x == f.mag y && (f.neg x == f.neg y || f.isZero x)

/-- The integer square root, from bit `k` downwards. -/
def isqrtGo : Nat → Nat → Nat → Nat
  | 0, _, r => r
  | k + 1, x, r => let r' := r + 2 ^ k; isqrtGo k x (if r' * r' ≤ x then r' else r)

/-- The greatest number whose square is not above `x`. -/
def isqrt (x : Nat) : Nat := isqrtGo (Nat.log2 x / 2 + 1) x 0

/-- The rounded quotient of two positive magnitudes: `(m / k) * 2^e`. -/
def Fmt.quotient (f : Fmt) (rm : Nat) (neg : Bool) (m k : Nat) (e : Int) : Res :=
  let up := f.fb + 4 + Nat.log2 k
  let n := m * 2 ^ up
  f.roundSticky rm neg (n / k) (e - up) (decide (n % k ≠ 0))

/-- x / y (R68, R69, R88). -/
def Fmt.div (f : Fmt) (rm x y : Nat) : Res :=
  match f.nanOf [x, y] with
  | some r => r
  | none =>
    let s := f.neg x != f.neg y
    if f.isInf x then (if f.isInf y then f.invalid else .ok (f.withSign s f.infBits))
    else if f.isInf y then .ok (f.withSign s 0)
    else if f.isZero y then
      (if f.isZero x then f.invalid else ⟨f.withSign s f.infBits, flagDz⟩)
    else if f.isZero x then .ok (f.withSign s 0)
    else
      let a := f.dy x
      let b := f.dy y
      f.quotient rm s a.n.natAbs b.n.natAbs (a.e - b.e)

/-- The rounded square root of a positive number. -/
def Fmt.sqrtMag (f : Fmt) (rm : Nat) (m : Nat) (e : Int) : Res :=
  -- bring the exponent to an even number and the magnitude to more than twice the precision
  let up := 2 * (f.fb + 4) + (if e % 2 = 0 then 0 else 1)
  let n := m * 2 ^ up
  let r := isqrt n
  f.roundSticky rm false r ((e - up) / 2) (decide (r * r ≠ n))

/-- The square root (R88). -/
def Fmt.sqrt (f : Fmt) (rm x : Nat) : Res :=
  match f.nanOf [x] with
  | some r => r
  | none =>
    if f.isZero x then .ok x
    else if f.neg x then f.invalid
    else if f.isInf x then .ok x
    else f.sqrtMag rm (f.dy x).n.natAbs (f.dy x).e

/-- 1 / √x for a positive number: rounded once, from the square root of its inverse. -/
def Fmt.rsqMag (f : Fmt) (rm : Nat) (m : Nat) (e : Int) : Res :=
  -- 1/√(m 2^e): with k even, √(2^(k - e) / m) * 2^(-k/2)
  let k : Nat := 2 * (f.fb + 6 + Nat.log2 m) + (if e % 2 = 0 then 0 else 1)
  let n := 2 ^ k
  let r := isqrt (n / m)
  f.roundSticky rm false r (-(k + e) / 2) (decide (r * r * m ≠ n))

/-- 1 / √x (R88). -/
def Fmt.rsq (f : Fmt) (rm x : Nat) : Res :=
  match f.nanOf [x] with
  | some r => r
  | none =>
    if f.isZero x then ⟨f.withSign (f.neg x) f.infBits, flagDz⟩
    else if f.neg x then f.invalid
    else if f.isInf x then .ok 0
    else f.rsqMag rm (f.dy x).n.natAbs (f.dy x).e

/-- 1 / x (R88). -/
def Fmt.rcp (f : Fmt) (rm x : Nat) : Res :=
  match f.nanOf [x] with
  | some r => r
  | none =>
    let s := f.neg x
    if f.isZero x then ⟨f.withSign s f.infBits, flagDz⟩
    else if f.isInf x then .ok (f.withSign s 0)
    else f.quotient rm s 1 (f.dy x).n.natAbs (-(f.dy x).e)

/-- A 12-bit significand with f32's exponents, for RSQS (R89). -/
def fmtRsqs : Fmt := ⟨8, 11⟩

/-- RSQS (R89): to nearest-even at 12 bits, delivered as an f32. -/
def rsqsF32 (x : Nat) : Res :=
  let f := fmtF32
  match f.nanOf [x] with
  | some r => r
  | none =>
    if f.isZero x then ⟨f.withSign (f.neg x) f.infBits, flagDz⟩
    else if f.neg x then f.invalid
    else if f.isInf x then .ok 0
    else .ok ((fmtRsqs.rsqMag 0 (f.dy x).n.natAbs (f.dy x).e).bits * 2 ^ 12)

/-! ### MK8 (R77-R79) -/

/-- Exponents of an MK8 byte by the number of exponent bits (R77). -/
def mk8Exp (z i : Nat) : Int :=
  match z with
  | 0 => 0
  | 1 => if i = 0 then -1 else 1
  | 2 => [(-3 : Int), -2, 2, 3].getD i 0
  | 3 => [(-7 : Int), -6, -5, -4, 4, 5, 6, 7].getD i 0
  | 4 => [(-9 : Int), -8, 8, 9].getD i 0
  | 5 => if i = 0 then -10 else 10
  | _ => -11

/-- Exponent bits by the number of leading zeros (R77). -/
def mk8W (z : Nat) : Nat := match z with | 0 => 0 | 1 => 1 | 2 => 2 | 3 => 3 | 4 => 2 | 5 => 1 | _ => 0

def mk8Nar : Nat := 0x80

/-- The magnitude of an MK8 payload. -/
def mk8Mag (p : Nat) : Dy :=
  if p = 0 then Dy.zero
  else
    let z := 6 - Nat.log2 p
    let n := 6 - z
    let w := mk8W z
    let fb := n - w
    let low := p % 2 ^ n
    ⟨2 ^ fb + (low % 2 ^ fb : Nat), mk8Exp z (low / 2 ^ fb) - fb⟩

/-- The value of an MK8 byte that is not NaR. -/
def mk8Dy (b : Nat) : Dy := let m := mk8Mag (b % 128); if b / 128 % 2 = 1 then m.neg else m

/-- The representable magnitude nearest below or at `x` (as a payload), and nearest at or above it, over payloads 1 to `n`. -/
def mk8Near (x : Dy) : Nat → Option Nat × Option Nat
  | 0 => (none, none)
  | p + 1 =>
    let (lo, hi) := mk8Near x p
    let v := mk8Mag (p + 1)
    let lo' := if v.le x then (match lo with | none => some (p + 1) | some q => if (mk8Mag q).lt v then some (p + 1) else lo) else lo
    let hi' := if x.le v then (match hi with | none => some (p + 1) | some q => if v.lt (mk8Mag q) then some (p + 1) else hi) else hi
    (lo', hi')

/-- Round(x, mk8, rm) of a number (R78). -/
def mk8Round (rm : Nat) (x : Dy) : Res :=
  if x.n = 0 then .ok 0
  else
    let neg := decide (x.n < 0)
    let m := x.abs
    let sign := fun (p : Nat) => if neg && p ≠ 0 then 128 + p else p
    if (Dy.ofInt 1024).lt m then ⟨sign 0x03, flagSv ||| flagNx⟩
    else if m.lt ⟨1, -11⟩ then
      let (n, _) := roundUnits rm neg m.n.natAbs m.e (-11)
      ⟨sign n, flagUf ||| flagNx⟩
    else
      match mk8Near m 127 with
      | (some a, some b) =>
        if a = b then .ok (sign a)
        else
          let twice : Dy := ⟨2 * m.n, m.e⟩
          let mid := (mk8Mag a).add (mk8Mag b)
          let pick := if twice.lt mid then a else if mid.lt twice then b
            else if a % 2 = b % 2 then a else if a % 2 = 0 then a else b
          ⟨sign pick, flagNx⟩
      | _ => .ok 0

/-- Elementwise arithmetic of an MK8 byte pair: exact, rounded once; NaR gives NaR and nv (R79). -/
def mk8Op (f : Dy → Dy → Dy) (rm x y : Nat) : Res :=
  if x = mk8Nar || y = mk8Nar then ⟨mk8Nar, flagNv⟩ else mk8Round rm (f (mk8Dy x) (mk8Dy y))

/-! ### Conversion between formats (R70, R78, R79) -/

/-- Round of a dyadic number to a floating-point element type. -/
def roundTo (et rm : Nat) (x : Dy) (zs : Bool) : Res :=
  match etFmt et with
  | some f => f.round rm x zs
  | none => mk8Round rm x

/-- A NaN carried to another format: sign kept, payload kept from its most significant end, quiet bit set (R70). -/
def nanCarry (f g : Fmt) (x : Nat) : Nat :=
  let fr := x % 2 ^ f.fb
  let fr' := if f.fb ≤ g.fb then fr * 2 ^ (g.fb - f.fb) else fr / 2 ^ (f.fb - g.fb)
  g.quiet (g.withSign (f.neg x) (g.infBits + fr' % 2 ^ (g.fb - 1)))

/-- The value a floating-point element holds, if it is finite. -/
def floatDy (et x : Nat) : Option Dy :=
  match etFmt et with
  | some f => if f.isNan x || f.isInf x then none else some (f.dy x)
  | none => if x = mk8Nar then none else some (mk8Dy x)

/-- Element `x` of floating-point type `a` to floating-point type `b`. -/
def floatToFloat (a b rm x : Nat) : Res :=
  if a = b then .ok x
  else
    match etFmt a, etFmt b with
    | some f, some g =>
      if f.isNan x then ⟨nanCarry f g x, flagIf (f.isSnan x) flagNv⟩
      else if f.isInf x then .ok (g.withSign (f.neg x) g.infBits)
      else g.round rm (f.dy x) (f.neg x)
    | some f, none =>
      if f.isNan x || f.isInf x then ⟨mk8Nar, flagNv⟩ else mk8Round rm (f.dy x)
    | none, some g =>
      if x = mk8Nar then ⟨g.canonNan, flagNv⟩ else g.round rm (mk8Dy x) false
    | none, none => .ok x

/-- A number to an integer type by rm: out of range gives the nearest end and nv (R70). -/
def dyToInt (et rm : Nat) (x : Dy) : Res :=
  let (n, inexact) := x.toInt rm
  if n < intMin et then ⟨wrapBits (etWidth et) (intMin et), flagNv⟩
  else if intMax et < n then ⟨wrapBits (etWidth et) (intMax et), flagNv⟩
  else ⟨wrapBits (etWidth et) n, flagIf inexact flagNx⟩

/-- A floating-point element to an integer type (R70): a NaN or NaR becomes 0, an infinity the nearest end. -/
def floatToInt (a b rm x : Nat) : Res :=
  match etFmt a with
  | some f =>
    if f.isNan x then ⟨0, flagNv⟩
    else if f.isInf x then ⟨wrapBits (etWidth b) (if f.neg x then intMin b else intMax b), flagNv⟩
    else dyToInt b rm (f.dy x)
  | none => if x = mk8Nar then ⟨0, flagNv⟩ else dyToInt b rm (mk8Dy x)

/-- An integer to a floating-point type: one Round (R70). -/
def intToFloat (a b rm x : Nat) : Res := roundTo b rm (Dy.ofInt (intVal a x)) false

end Sys2Proof.Machine
end

