-- ==== Sys2Proof/Machine/Func.lean ====
section
/-! DEFINITION. The correctly rounded functions EX2, LG2, SINP and COSP (R87, R88). The exact value is enclosed between two
fixed-point numbers; where both round to the same result with the same flags, that is the result. Wider enclosures are tried
first, and the last of the ladder is taken as it stands (log 10). -/

namespace Sys2Proof.Machine

/-- Guard bits of the fixed-point work; the enclosures below allow an error of 2^16 units. -/
def guardBits : Nat := 32

/-- The exponential series: `t` is the current term, of order `k`. -/
def expSeries : Nat → Nat → Nat → Nat → Nat → Nat → Nat
  | 0, _, _, _, _, acc => acc
  | fuel + 1, w, y, t, k, acc =>
    let t' := t * y / 2 ^ w / (k + 1)
    if t' = 0 then acc else expSeries fuel w y t' (k + 1) (acc + t')

/-- exp(y) for y in [0, 1), in units of 2^-w. -/
def expFix (w y : Nat) : Nat := expSeries w w y (2 ^ w) 0 (2 ^ w)

/-- `Σ z^(2k+1)/(2k+1)` from the power `p` and the odd number `k` on; `alt` alternates the signs. -/
def atanSeries : Nat → Nat → Nat → Nat → Nat → Bool → Int → Int
  | 0, _, _, _, _, _, acc => acc
  | fuel + 1, w, z2, p, k, alt, acc =>
    if p = 0 then acc
    else
      let t : Int := (p / k : Nat)
      let acc' := if alt && k % 4 = 3 then acc - t else acc + t
      atanSeries fuel w z2 (p * z2 / 2 ^ w) (k + 2) alt acc'

/-- atanh z for 0 ≤ z < 1/2, in units of 2^-w. -/
def atanhFix (w z : Nat) : Int := atanSeries w w (z * z / 2 ^ w) z 1 false 0

/-- ln 2 = 2 atanh(1/3). -/
def ln2Fix (w : Nat) : Nat := (2 * atanhFix w (2 ^ w / 3)).toNat

/-- π = 16 atan(1/5) − 4 atan(1/239). -/
def piFix (w : Nat) : Nat :=
  let a := fun (n : Nat) => let z := 2 ^ w / n; atanSeries w w (z * z / 2 ^ w) z 1 true 0
  (16 * a 5 - 4 * a 239).toNat

/-- `Σ ± t` of the sine or cosine series: `t` is the current term, `k` its order. -/
def trigSeries : Nat → Nat → Nat → Nat → Nat → Int → Int
  | 0, _, _, _, _, acc => acc
  | fuel + 1, w, y2, t, k, acc =>
    let t' := t * y2 / 2 ^ w / ((k + 1) * (k + 2))
    if t' = 0 then acc
    else trigSeries fuel w y2 t' (k + 2) (if (k + 2) / 2 % 2 = 1 then acc - t' else acc + t')

/-- sin y and cos y for 0 ≤ y < 1, in units of 2^-w. -/
def sinFix (w y : Nat) : Int := trigSeries w w (y * y / 2 ^ w) y 1 y
def cosFix (w y : Nat) : Int := trigSeries w w (y * y / 2 ^ w) (2 ^ w) 0 (2 ^ w : Nat)

/-- Rounds a positive value known to lie within 2^16 units of 2^-w of `a`, strictly between integers of units of 2^-(w-guard);
`none` where the two ends round differently. `lo` and `hi` bound the units further. -/
def enclose (f : Fmt) (rm : Nat) (neg : Bool) (a : Int) (w : Nat) (e : Int) (lo hi : Option Nat) : Option Res :=
  let clip := fun (n : Int) =>
    let n := n.toNat / 2 ^ guardBits
    let n := match lo with | some l => max l n | none => n
    match hi with | some h => min h n | none => n
  let r1 := f.roundBetween rm neg (clip (a - 2 ^ 16)) (e - (w - guardBits : Nat))
  let r2 := f.roundBetween rm neg (clip (a + 2 ^ 16)) (e - (w - guardBits : Nat))
  if r1 = r2 then some r1 else none

/-- The first answer of a ladder of precisions, or the last attempt's lower end. -/
def ladder (f : Nat → Option Res) (last : Res) : List Nat → Res
  | [] => last
  | p :: ps => match f p with | some r => r | none => ladder f last ps

/-- Precisions in bits that the evaluation tries. -/
def precisions : List Nat := [160, 320, 640, 1280]

/-- The exponent of the leading bit of a non-zero number. -/
def Dy.top (x : Dy) : Int := x.e + Nat.log2 x.n.natAbs

/-- The number as a fixed-point magnitude of `w` fraction bits, cut off. -/
def Dy.fix (x : Dy) (w : Nat) : Nat := (Dy.floor ⟨x.n.natAbs, x.e + w⟩).1.toNat

/-- 2^x for a finite x (R309). -/
def Fmt.ex2Fin (f : Fmt) (rm : Nat) (x : Dy) : Res :=
  let (n, part) := x.floor
  if !part then f.roundMag rm false 1 (max (-5000) (min 5000 n))
  else if 5000 < n then f.roundMag rm false 1 5000
  else if n < -5000 then f.roundBetween rm false 1 (-5000)
  else
    let frac := x.sub (Dy.ofInt n)                   -- in (0, 1)
    -- near 1 the value lies strictly on one side of it
    let up := decide (0 < x.n)
    ladder (fun p =>
      let w := p + guardBits
      if x.top < -((p : Int) - 8) then
        (if up then some (f.roundBetween rm false (2 ^ p) (-(p : Int)))
         else some (f.roundBetween rm false (2 ^ p - 1) (-(p : Int))))
      else enclose f rm false (expFix w (frac.fix w * ln2Fix w / 2 ^ w)) w n (some (2 ^ p)) (some (2 ^ (p + 1) - 1)))
      (f.roundBetween rm false (2 ^ 64) (n - 64)) precisions

/-- log2 of the positive number x (R329). -/
def Fmt.lg2Fin (f : Fmt) (rm : Nat) (x : Dy) : Res :=
  let m := x.n.natAbs
  let l := Nat.log2 m
  if m = 2 ^ l then f.round rm (Dy.ofInt x.top) false
  else
    -- x = r * 2^k with r in (√½, √2)
    let above := decide (2 ^ (2 * l + 1) < m * m)
    let k : Int := if above then x.top + 1 else x.top
    let r : Dy := ⟨m, -(if above then l + 1 else l : Nat)⟩
    ladder (fun p =>
      let w := p + guardBits
      let d := r.sub (Dy.ofInt 1)
      let s := r.add (Dy.ofInt 1)
      let z := d.fix (2 * w) * 2 ^ w / s.fix (2 * w)
      let a := 2 * atanhFix w z * (2 ^ w : Nat) / (ln2Fix w : Int)      -- |log2 r|
      let y : Int := k * (2 ^ w : Nat) + (if above then -a else a)
      enclose f rm (decide (y < 0)) y.natAbs w 0 none none)
      (f.round rm (Dy.ofInt k) false) precisions

/-- sin(π y) for y in (0, 1/4], or cos(π y) for y in (0, 1/4). -/
def Fmt.sinPos (f : Fmt) (rm : Nat) (neg : Bool) (y : Dy) : Res :=
  ladder (fun p =>
    let w := p + guardBits + (-y.top).toNat
    enclose f rm neg (sinFix w (y.fix w * piFix w / 2 ^ w)) w 0 none none)
    (f.roundBetween rm neg (2 ^ 64) (y.top - 64)) precisions

def Fmt.cosPos (f : Fmt) (rm : Nat) (neg : Bool) (y : Dy) : Res :=
  ladder (fun p =>
    let w := p + guardBits
    enclose f rm neg (cosFix w (y.fix w * piFix w / 2 ^ w)) w 0 none (some (2 ^ p - 1)))
    (f.roundBetween rm neg (2 ^ 64 - 1) (-64)) precisions

/-- sin(π r) for r in [0, 2), reduced to the first quarter. -/
def Fmt.sinTurn (f : Fmt) (rm : Nat) (r : Dy) : Res :=
  let (neg, r) := if (Dy.ofInt 1).le r then (true, r.sub (Dy.ofInt 1)) else (false, r)
  let r := if (⟨1, -1⟩ : Dy).lt r then (Dy.ofInt 1).sub r else r      -- now in [0, 1/2]
  if r.n = 0 then .ok (f.withSign neg 0)
  else if r.eq ⟨1, -1⟩ then f.roundMag rm neg 1 0
  else if r.le ⟨1, -2⟩ then f.sinPos rm neg r
  else f.cosPos rm neg ((⟨1, -1⟩ : Dy).sub r)

/-- x modulo 2, in [0, 2). -/
def Dy.mod2 (x : Dy) : Dy := x.sub (Dy.ofInt (2 * (Dy.floor ⟨x.n, x.e - 1⟩).1))

/-- EX2 (R88, R309). -/
def Fmt.ex2 (f : Fmt) (rm x : Nat) : Res :=
  match f.nanOf [x] with
  | some r => r
  | none =>
    if f.isInf x then .ok (if f.neg x then 0 else f.infBits)
    else f.ex2Fin rm (f.dy x)

/-- LG2 (R88, R329). -/
def Fmt.lg2 (f : Fmt) (rm x : Nat) : Res :=
  match f.nanOf [x] with
  | some r => r
  | none =>
    if f.isZero x then ⟨f.withSign true f.infBits, flagDz⟩
    else if f.neg x then f.invalid
    else if f.isInf x then .ok x
    else f.lg2Fin rm (f.dy x)

/-- SINP (R88, R358): an integral operand gives a zero of its own sign. -/
def Fmt.sinp (f : Fmt) (rm x : Nat) : Res :=
  match f.nanOf [x] with
  | some r => r
  | none =>
    if f.isInf x then f.invalid
    else
      let d := f.dy x
      if !d.floor.2 then .ok (f.withSign (f.neg x) 0) else f.sinTurn rm d.mod2

/-- COSP (R88, R298): n + 1/2 gives +0. -/
def Fmt.cosp (f : Fmt) (rm x : Nat) : Res :=
  match f.nanOf [x] with
  | some r => r
  | none =>
    if f.isInf x then f.invalid
    else
      let d := (f.dy x).add ⟨1, -1⟩
      if !d.floor.2 then .ok 0 else f.sinTurn rm d.mod2

end Sys2Proof.Machine
end

