-- ==== Sys2Proof/Machine/Look.lean ====
section
/-! DEFINITION. Finding and updating the parts of the state: thread groups, workgroups, launches, contexts, lines of memory;
work identifiers (R16), the guard (R5), homes (R110) and translation (R94-R102). -/

namespace Sys2Proof.Machine

/-- The outcome of a step of this machine. -/
abbrev Out := Host.Outcome State Fault Refusal

/-! ### Thread groups, workgroups, launches, contexts -/

/-- `f` applied to the thread group `k`, wherever it stands. -/
def State.modTgAt (s : State) (k : TgKey) (f : Tg → Tg) : State :=
  if s.tg.key = k then { s with tg := f s.tg } else { s with rest := replaceFirst (fun g => g.key = k) f s.rest }

/-- The thread group `k`. -/
def State.findTg (s : State) (k : TgKey) : Option Tg :=
  if s.tg.key = k then some s.tg else s.rest.find? (fun g => g.key = k)

/-- `f` applied to the issuing thread group. -/
def State.modTg (s : State) (f : Tg → Tg) : State := { s with tg := f s.tg }

/-- Every thread group. -/
def State.allTgs (s : State) : List Tg := s.tg :: s.rest

/-- The thread group `k` brought to issue. -/
def State.focus (s : State) (k : TgKey) : State :=
  if s.tg.key = k then s
  else
    match s.rest.find? (fun g => g.key = k) with
    | some g => { s with tg := g, rest := s.tg :: dropFirst (fun h => h.key = k) s.rest }
    | none => s

def Wg.is (w : Wg) (l g n : Nat) : Bool := w.launch = l && w.gang = g && w.no = n

/-- The workgroup of a thread group. -/
def State.findWg (s : State) (l g n : Nat) : Option Wg := s.wgs.find? (fun w => w.is l g n)

def State.modWg (s : State) (l g n : Nat) (f : Wg → Wg) : State :=
  { s with wgs := replaceFirst (fun w => w.is l g n) f s.wgs }

/-- The issuing thread group's workgroup. -/
def State.wg (s : State) : Wg := (s.findWg s.tg.key.launch s.tg.key.gang s.tg.key.wg).getD default

def State.modMyWg (s : State) (f : Wg → Wg) : State := s.modWg s.tg.key.launch s.tg.key.gang s.tg.key.wg f

def State.findLaunch (s : State) (l : Nat) : Option Launch := s.launches.find? (fun x => x.no = l)

def State.launchOf (s : State) (l : Nat) : Launch := (s.findLaunch l).getD default

/-- The issuing thread group's launch and its header. -/
def State.launch (s : State) : Launch := s.launchOf s.tg.key.launch
def State.hdr (s : State) : Header := s.launch.hdr

def State.modLaunch (s : State) (l : Nat) (f : Launch → Launch) : State :=
  { s with launches := replaceFirst (fun x => x.no = l) f s.launches }

def State.findGang (s : State) (l g : Nat) : Option Gang := s.gangs.find? (fun x => x.launch = l && x.no = g)

def State.modGang (s : State) (l g : Nat) (f : Gang → Gang) : State :=
  { s with gangs := replaceFirst (fun x => x.launch = l && x.no = g) f s.gangs }

def State.findCtx (s : State) (c : Nat) : Option Ctx := s.ctxs.find? (fun x => x.id = c)

def State.ctxOf (s : State) (c : Nat) : Ctx := (s.findCtx c).getD (Ctx.fresh c .free)

def State.modCtx (s : State) (c : Nat) (f : Ctx → Ctx) : State :=
  { s with ctxs := replaceFirst (fun x => x.id = c) f s.ctxs }

/-- The issuing thread group's context. -/
def State.ctx (s : State) : Ctx := s.ctxOf s.tg.ctx

def State.modDev (s : State) (f : Dev → Dev) : State := { s with dev := f s.dev }

/-- A header's flag bits (R59). -/
def Header.det (h : Header) : Bool := h.flags.getLsbD 0
def Header.fbx (h : Header) : Bool := h.flags.getLsbD 1
def Header.gfx (h : Header) : Bool := h.flags.getLsbD 2
def Header.emb (h : Header) : Bool := h.flags.getLsbD 3

/-- The launch is deterministic (R31). -/
def State.det (s : State) : Bool := s.hdr.det

/-- The launch privilege (R192, R197). -/
def Launch.priv (l : Launch) : Priv := if l.cls = 0 then .m else .u

def Priv.code : Priv → Nat
  | .u => 0 | .s => 1 | .m => 2

/-! ### Work identifiers (R16) -/

/-- Width of a field of the work identifier. -/
def Header.widthOf (h : Header) (i : Nat) : Nat := h.widths.getD i 0

/-- Bit position of field i. -/
def Header.fieldAt (h : Header) (i : Nat) : Nat := (h.widths.take i).foldl (· + ·) 0

/-- The work identifier of thread ordinal n: f0, f1, f2 by the table, and the gang added to the base above them. -/
def workId (h : Header) (base : W64) (n : Nat) : W64 :=
  let t := max 1 h.tgs
  let w := max 1 (h.gx * h.gy)
  base + BitVec.ofNat 64 (n % 8 + (n / 8 % t) * 2 ^ h.fieldAt 1 + (n / (8 * t) % w) * 2 ^ h.fieldAt 2
    + (n / (8 * t * w)) * 2 ^ h.fieldAt 3)

/-- The ordinal of the thread whose home is (TG `k`, beat `t`) of a workgroup. -/
def ordinal (h : Header) (gang wg k t : Nat) : Nat :=
  ((gang * max 1 (h.gx * h.gy) + wg) * max 1 h.tgs + k) * 8 + t

/-- The work identifier of the thread at beat t of a TG. -/
def Tg.wid (g : Tg) (l : Launch) (t : Nat) : W64 :=
  let (k, b) := (g.home.toList).getD t (0, 0)
  workId l.hdr l.base (ordinal l.hdr g.key.gang g.key.wg k b)

/-! ### Mode register and guard (R5, R49) -/

def gmEt (gm : W32) : Nat := bitsNat gm.toNat 8 5
def gmRm (gm : W32) : Nat := bitsNat gm.toNat 11 9
def gmSat (gm : W32) : Bool := gm.getLsbD 12
def gmSb (gm : W32) : Nat := bitsNat gm.toNat 15 13
def gmRr (gm : W32) : Nat := bitsNat gm.toNat 20 16
def gmAu (gm : W32) : Nat := bitsNat gm.toNat 23 21
def gmGe (gm : W32) : Bool := gm.getLsbD 4
def gmGi (gm : W32) : Bool := gm.getLsbD 3
def gmGp (gm : W32) : Nat := bitsNat gm.toNat 2 0

/-- Element `i` of a vector, or a default past its end. -/
def vget {α : Type} [Inhabited α] {n : Nat} (v : Vector α n) (i : Nat) : α := v.toList.getD i default

/-- The vector with element `i` replaced. -/
def vset {α : Type} {n : Nat} (v : Vector α n) (i : Nat) (x : α) : Vector α n := v.setIfInBounds i x

def Tg.et (g : Tg) : Nat := gmEt g.gm
def Tg.rm (g : Tg) : Nat := gmRm g.gm

/-- The threads for which the guard holds (R5). -/
def Tg.guard (g : Tg) : Mask :=
  if gmGe g.gm then (if gmGi g.gm then ~~~ (vget g.p (gmGp g.gm)) else vget g.p (gmGp g.gm)) else 0xFF

/-- The active threads (R5). -/
def Tg.active (g : Tg) : Mask := g.cm &&& g.live &&& g.guard

/-- The lowest thread of a mask. -/
def lowest (m : Mask) : Nat := (beatsOf m).headD 0

/-! ### Lines and homes (R110, R111) -/

/-- The home slice of a physical address (R110). -/
def homeOf (pa : Nat) : Nat :=
  (bitsNat pa 14 7) ^^^ (bitsNat pa 22 15) ^^^ (bitsNat pa 30 23) ^^^ (bitsNat pa 38 31) ^^^ (bitsNat pa 46 39)
    ^^^ (bitsNat pa 51 47)

/-- The set within the slice. -/
def setOf (pa : Nat) : Nat := bitsNat pa 24 15

def lineOf (pa : Nat) : Nat := pa / 128

def State.line (s : State) (no : Nat) : Line := (s.lines.find? (fun l => l.no = no)).getD { no := no }

def State.putLine (s : State) (l : Line) : State :=
  { s with lines := if s.lines.any (fun x => x.no = l.no) then replaceFirst (fun x => x.no = l.no) (fun _ => l) s.lines
                    else l :: s.lines }

def State.modLine (s : State) (no : Nat) (f : Line → Line) : State := s.putLine (f (s.line no))

/-- The fabric node of a physical address (R264). -/
def nodeOf (pa : Nat) : Nat := bitsNat pa 51 44

def offsetOf (pa : Nat) : Nat := pa % 2 ^ 44

/-- The first byte past the device's own memory, and of device-reserved memory (R196, R264). -/
def memTop : Nat := 0x6000000000
def reservedBase : Nat := 0x5C00000000

def State.isRemote (s : State) (pa : Nat) : Bool := nodeOf pa ≠ s.dev.nodeid.toNat

/-- The lines whose home is on a lost die (R267). -/
def State.orphaned (s : State) (no : Nat) : Bool :=
  !s.isRemote (no * 128) && s.dev.dieLost.getLsbD (homeOf (no * 128) / 64)

/-- The cache base die under a core: two clusters a die (R9, R110). -/
def dieOf (core : Nat) : Nat := core / 512

/-- The slice of die `d` that holds the copy of a replicated line: h, h ⊕ 64, h ⊕ 128 or h ⊕ 192 for the home h (R111). -/
def copySlice (pa d : Nat) : Nat := homeOf pa % 64 + 64 * d

/-- The slice whose copy of a replicated line serves a core: its own die's, or with that die lost the first surviving one (R111,
R267). -/
def servingSlice (s : State) (core pa : Nat) : Option Nat :=
  (([dieOf core % 4, 0, 1, 2, 3].filter (fun d => !s.dev.dieLost.getLsbD d)).map (copySlice pa)).head?

/-- The slice that serves a core's read of a line: the line's home, or for a replicated line the copy on the core's die (R110,
R111). -/
def readSlice (s : State) (core no : Nat) (rep : Bool) : Nat :=
  if rep then (servingSlice s core (no * 128)).getD (homeOf (no * 128)) else homeOf (no * 128)

/-- A slice holds the line: as its home, or as one of its replicas (R110, R111). -/
def Line.heldIn (l : Line) (slice : Nat) : Bool :=
  if homeOf (l.no * 128) = slice then l.resident
  else l.replicas.contains (slice / 64) && copySlice (l.no * 128) (slice / 64) = slice

/-- The slices that hold the line. -/
def Line.slices (l : Line) : List Nat :=
  (homeOf (l.no * 128) :: l.replicas.map (copySlice (l.no * 128))).eraseDups.filter l.heldIn

/-- Whether a read of the line delivers poison (R266, R267); a replicated line is read from a surviving replica, wherever its reader
stands. -/
def State.poisoned (s : State) (no : Nat) (rep : Bool) : Bool :=
  (s.line no).poison || (s.orphaned no && !(rep && [0, 1, 2, 3].any (fun d => !s.dev.dieLost.getLsbD d)))

/-- An engine owns the line: an access waits until it has written its last data (R132). -/
def engineOwned (s : State) (no : Nat) : Bool :=
  match (s.line no).owner with | some (.engine _) => true | _ => false

/-- The step under way has met a line that an engine owns: it is to wait for the engine's data (R132, R249). -/
def waitOwner (s : State) (no : Nat) : State := if engineOwned s no then { s with waits := true } else s

/-- Lines of a physical range. -/
def linesOf (pa n : Nat) : List Nat := (upTo (lineOf (pa + n - 1) - lineOf pa + 1)).map (fun i => lineOf pa + i)

/-! ### Values at the home (R107, R122, R132) -/

/-- Where a stash line stands in its owner's scratch: window `win`, line `idx` of its range. -/
def stashOffset (w : Wg) (win idx : Nat) : Nat := bitsNat (vget w.stsc win).toNat 17 8 * 256 + idx * 128

/-- The workgroup whose stash owns the line, and its stash line. -/
def ownerLine (s : State) (no : Nat) : Option (Wg × StashLine) :=
  match (s.line no).owner with
  | some (.stash l g n) =>
    (s.findWg l g n).bind (fun w => (w.stash.find? (fun x => x.pa = no && x.owned)).map (fun x => (w, x)))
  | _ => none

/-- The bytes that a recall brings back, laid over `xs`, the bytes from `pa`: the owner's dirty bytes of line `no` (R107, R132). -/
def overOwner (s : State) (pa no : Nat) (xs : List Byte) : List Byte :=
  match ownerLine s no with
  | none => xs
  | some (w, x) =>
    mapFrom 0 (fun i b =>
      if lineOf (pa + i) = no && x.dirty.getLsbD ((pa + i) % 128) then memGet w.scratch (stashOffset w x.win x.idx + (pa + i) % 128)
      else b) xs

/-- The bytes that a coherent read at the home of each line finds: memory, with an owner's dirty bytes recalled. -/
def homeBytes (s : State) (pa n : Nat) : List Byte := (linesOf pa n).foldl (fun xs no => overOwner s pa no xs) (memBytes s.mem pa n)

def homeNat (s : State) (pa n : Nat) : Nat := leNat (homeBytes s pa n)

/-! ### Virtual addresses (R94-R96) -/

/-- Bits [63:56] equal bit 55. -/
def canonical (va : W64) : Bool := bitsNat va.toNat 63 55 = 0 || bitsNat va.toNat 63 55 = 0x1FF

/-- The value with bit 55 sign-extended. -/
def sext56 (x : W64) : W64 := (x.extractLsb' 0 56).signExtend 64

inductive Region where
  | translated
  | port (p : Nat)
  | reserved
  | alias255 (off : Nat)
  | cluster (core off : Nat)
  | local (off : Nat)
  deriving DecidableEq, Repr, Inhabited

/-- The range of R94 that holds a canonical address. -/
def regionOf (va : W64) : Region :=
  let a := va.toNat
  if a < 0xFFFFFFFFF0000000 then .translated
  else if a < 0xFFFFFFFFF1000000 then .port (bitsNat a 23 16)
  else if a < 0xFFFFFFFFFBFC0000 then .reserved
  else if a < 0xFFFFFFFFFC000000 then .alias255 (a % 2 ^ 18)
  else if a < 0xFFFFFFFFFFFC0000 then .cluster (bitsNat a 25 18) (a % 2 ^ 18)
  else .local (a % 2 ^ 18)

/-! ### Translation (R98-R101, R196, R264, R265) -/

inductive Access where
  | read | write | atomic | fetch | engineRead | engineWrite
  deriving DecidableEq, Repr, Inhabited

/-- The access code of a trap record (R201). -/
def Access.code : Access → Nat
  | .read => 1 | .write => 2 | .atomic => 3 | .fetch => 4 | .engineRead => 5 | .engineWrite => 5

/-- The index bits and the mapped size of a level (R98). -/
def levelIndex (va : W64) (level : Nat) : Nat :=
  match level with
  | 0 => bitsNat va.toNat 55 48
  | 1 => bitsNat va.toNat 47 39
  | 2 => bitsNat va.toNat 38 30
  | 3 => bitsNat va.toNat 29 21
  | _ => bitsNat va.toNat 20 16

def levelSize (level : Nat) : Nat :=
  match level with | 2 => 2 ^ 30 | 3 => 2 ^ 21 | _ => 2 ^ 16

def pteV (e : W64) : Bool := e.getLsbD 0
def pteLeaf (e : W64) : Bool := e.getLsbD 1
def pteR (e : W64) : Bool := e.getLsbD 2
def pteW (e : W64) : Bool := e.getLsbD 3
def pteX (e : W64) : Bool := e.getLsbD 4
def pteU (e : W64) : Bool := e.getLsbD 5
def pteAttr (e : W64) : Nat := bitsNat e.toNat 8 7
def ptePa (e : W64) : Nat := bitsNat e.toNat 51 12 * 2 ^ 12

/-- An entry that breaks R99 at its level. -/
def pteMalformed (e : W64) (level : Nat) : Bool :=
  bitsNat e.toNat 63 52 ≠ 0 || bitsNat e.toNat 11 9 ≠ 0 || e.getLsbD 6
    || (pteLeaf e && level ≤ 1) || (!pteLeaf e && level = 4)
    || (!pteLeaf e && (pteAttr e ≠ 0 || pteU e || pteX e || pteW e || pteR e))
    || (pteLeaf e && ptePa e % levelSize level ≠ 0)

/-- The walk from a table at `table`, level `level` (R98, R99): the leaf and the size it maps, or the fault. DESIGN CHOICE (log 69):
an entry on another node and past the device's memory is R265's fault, not R264's. -/
def walkFrom (s : State) (va : W64) : Nat → Nat → Nat → Except Nat (W64 × Nat)
  | 0, _, _ => .error 0x05
  | fuel + 1, level, table =>
    let at_ := table + 8 * levelIndex va level
    if s.isRemote at_ then .error 0x06                    -- R265: a walk never goes to another node
    else if memTop ≤ offsetOf at_ then .error 0x05        -- R264: such an entry is malformed
    else
      let e := BitVec.ofNat 64 (homeNat s at_ 8)
      if !pteV e || pteMalformed e level then .error 0x05
      else if pteLeaf e then .ok (e, levelSize level)
      else walkFrom s va fuel (level + 1) (ptePa e)

/-- The walk of a context's tables. -/
def walk (s : State) (c : Nat) (va : W64) : Except Nat (W64 × Nat) :=
  walkFrom s va 5 0 (bitsNat (s.ctxOf c).ptroot.toNat 51 12 * 2 ^ 12)

def TlbEntry.hits (e : TlbEntry) (core c : Nat) (va : W64) : Bool :=
  e.core = core && e.ctx = c && e.va ≤ va.toNat && va.toNat < e.va + e.size

/-- A core number that no core has: the scheduler's own walks. -/
def noCore : Nat := 2048

/-- The translation of a page: the TLB's entry (R101), or a walk. -/
def leafOf (s : State) (core c : Nat) (va : W64) : Except Nat (W64 × Nat) :=
  match s.tlb.find? (fun e => e.hits core c va) with
  | some e => .ok (e.leaf, e.size)
  | none => walk s c va

/-- The permission rules of R99. -/
def permitted (acc : Access) (p : Priv) (leaf : W64) : Bool :=
  (p ≠ .u || pteU leaf) &&
  (match acc with
   | .read => pteR leaf
   | .write => pteW leaf
   | .atomic => pteR leaf && pteW leaf
   | .fetch => pteX leaf
   | .engineRead => pteR leaf
   | .engineWrite => pteW leaf)

/-- A translated address: physical address and page attribute (0 normal, 1 ember, 2 replicated, 3 device). -/
structure Hit4 where
  pa : Nat
  attr : Nat
  deriving DecidableEq, Repr, Inhabited

/-- Translate (R5): the cause on failure. -/
def translate (s : State) (core c : Nat) (p : Priv) (acc : Access) (va : W64) : Except Nat Hit4 :=
  match leafOf s core c va with
  | .error e => .error e
  | .ok (leaf, size) =>
    let pa := ptePa leaf + va.toNat % size
    if !permitted acc p leaf then .error 0x06
    else if memTop ≤ offsetOf pa then .error 0x06          -- R264: such an offset names no memory
    else if c ≠ 0 && !s.isRemote pa && reservedBase ≤ offsetOf pa then .error 0x06
    else if acc = .fetch && (pteAttr leaf ≠ 0 || s.isRemote pa) then .error 0x06
    else .ok ⟨pa, pteAttr leaf⟩

/-! ### Context windows and regions (R112, R113, R137, R147) -/

/-- The address lies in an enabled non-coherent window (R112). -/
def inNcWindow (x : Ctx) (va : W64) : Bool :=
  (upTo 16).any (fun n =>
    let b := vget x.ncb n
    let base := sext56 (BitVec.ofNat 64 (bitsNat b.toNat 55 16 * 2 ^ 16))
    let lim := sext56 (BitVec.ofNat 64 (bitsNat (vget x.ncl n).toNat 55 16 * 2 ^ 16))
    b.getLsbD 0 && decide (base.toNat ≤ va.toNat) && decide (va.toNat < lim.toNat))

/-- A non-coherent line: in a window and on a normal page (R112). -/
def isNc (s : State) (c : Nat) (h : Hit4) (va : W64) : Bool := h.attr = 0 && inNcWindow (s.ctxOf c) va

/-- Where round region entry `n` lies, and the counter's address in it (R137). -/
def roundEntry (s : State) (c n : Nat) : Nat := bitsNat (s.ctxOf c).rrtab.toNat 51 10 * 2 ^ 10 + 32 * n

def roundCva (s : State) (c n : Nat) : W64 := sext56 (BitVec.ofNat 64 (bitsNat (homeNat s (roundEntry s c n) 8) 55 7 * 2 ^ 7))

/-- Round region entry `n` as the table holds it now (R137). -/
def readRoundRegion (s : State) (c n : Nat) : Option RoundRegion :=
  let x := s.ctxOf c
  let at_ := roundEntry s c n
  let w0 := homeNat s at_ 8
  let w1 := homeNat s (at_ + 8) 8
  let w2 := homeNat s (at_ + 16) 8
  let w3 := homeNat s (at_ + 24) 8
  let cva := roundCva s c n
  let base := (sext56 (BitVec.ofNat 64 w1)).toNat
  let limit := (sext56 (BitVec.ofNat 64 w2)).toNat
  if x.rrtab.getLsbD 0 && w0 % 2 = 1 && bitsNat w0 63 56 = 0 && bitsNat w0 6 1 = 0 && bitsNat w1 63 56 = 0
      && bitsNat w1 15 0 = 0 && bitsNat w2 63 56 = 0 && bitsNat w2 15 0 = 0 && w3 = 0 && base < limit
      && regionOf cva = .translated
      && (match walk s c cva with | .ok (leaf, _) => pteAttr leaf = 0 | .error _ => false)
  then some ⟨cva, base, limit⟩ else none

/-- Round region `n` of a context: as last read since the last write of RRTAB, else as it stands. -/
def roundRegion (s : State) (c n : Nat) : Option RoundRegion :=
  match (s.ctxOf c).rr.find? (fun e => e.1 = n) with
  | some e => e.2
  | none => readRoundRegion s c n

/-- Whether an address range lies wholly in the low or the high space (R94). -/
def inLowOrHigh (base limit : Nat) : Bool :=
  limit ≤ 0x80000000000000 || (0xFF80000000000000 ≤ base && limit ≤ 0xFFFFFFFFF0000000)

/-- An f32 that is positive and finite, and one that is finite and not below zero. -/
def f32PosFin (x : Nat) : Bool := !fmtF32.neg x && !fmtF32.isNan x && !fmtF32.isInf x && !fmtF32.isZero x
def f32FinGe0 (x : Nat) : Bool := !fmtF32.isNan x && !fmtF32.isInf x && (!fmtF32.neg x || fmtF32.isZero x)

/-- Ember region entry `n` as the table holds it now (R147). -/
def readEmberRegion (s : State) (c n : Nat) : Option EmberRegion :=
  let x := s.ctxOf c
  let at_ := bitsNat x.ertab.toNat 51 10 * 2 ^ 10 + 64 * n
  let w := fun i => homeNat s (at_ + 8 * i) 8
  let base := (sext56 (BitVec.ofNat 64 (bitsNat (w 0) 55 16 * 2 ^ 16))).toNat
  let limit := (sext56 (BitVec.ofNat 64 (w 1))).toNat
  let k := bitsNat (w 2) 4 0
  let rr := bitsNat (w 2) 20 16
  if x.ertab.getLsbD 0 && w 0 % 2 = 1 && bitsNat (w 0) 63 56 = 0 && bitsNat (w 0) 15 1 = 0 && bitsNat (w 1) 63 56 = 0
      && bitsNat (w 1) 15 0 = 0 && bitsNat (w 2) 31 21 = 0 && bitsNat (w 2) 15 5 = 0 && bitsNat (w 3) 15 0 = 0
      && bitsNat (w 5) 63 16 = 0 && w 6 = 0 && w 7 = 0 && base < limit && limit - base ≤ 2 ^ 32 && inLowOrHigh base limit
      && k ≤ 24 && f32PosFin (bitsNat (w 2) 63 32) && f32FinGe0 (bitsNat (w 3) 63 32)
      && (k = 0 || (roundRegion s c rr).isSome)
  then some { base := base, limit := limit, target := BitVec.ofNat 32 (bitsNat (w 2) 63 32), rr := BitVec.ofNat 5 rr, k := k
              wmin := BitVec.ofNat 32 (bitsNat (w 3) 63 32), cap := bitsNat (w 3) 31 16
              tmpl := sext56 (BitVec.ofNat 64 (w 4)), pidx := bitsNat (w 5) 15 0 }
  else none

def emberRegion (s : State) (c n : Nat) : Option EmberRegion :=
  match (s.ctxOf c).er.find? (fun e => e.1 = n) with
  | some e => e.2
  | none => readEmberRegion s c n

/-- The ember region that holds an address: the lowest-numbered valid one (R147). -/
def emberRegionOf (s : State) (c : Nat) (va : W64) : Option (Nat × EmberRegion) :=
  (upTo 16).foldr (fun n acc =>
    match emberRegion s c n with
    | some r => if r.base ≤ va.toNat && va.toNat < r.limit then some (n, r) else acc
    | none => acc) none

/-! ### Round views (R138) -/

/-- a at or after b in serial arithmetic (R138). -/
def atOrAfter (a b : W32) : Bool := decide ((a - b).toNat < 2 ^ 31)

/-- The value of a round counter at its home. -/
def counterAt (s : State) (core c : Nat) (r : RoundRegion) : W32 :=
  match leafOf s core c r.cva with
  | .ok (leaf, size) => BitVec.ofNat 32 (homeNat s (ptePa leaf + r.cva.toNat % size) 4)
  | .error _ => 0

/-- The core's view of a region; without one, the counter at its home (R138). -/
def viewOf (s : State) (core c n : Nat) : W32 :=
  match s.views.find? (fun v => v.core = core && v.ctx = c && v.region = n) with
  | some v => v.val
  | none => match roundRegion s c n with | some r => counterAt s core c r | none => 0

/-- The region lies over the address (R137). -/
def RoundRegion.holds (r : RoundRegion) (va : W64) : Bool := r.base ≤ va.toNat && va.toNat < r.limit

/-- The fill region of R139. -/
def fillRegion (s : State) (c rr : Nat) (va : W64) : Option Nat :=
  let ok := fun n => match roundRegion s c n with | some r => r.holds va | none => false
  if ok rr then some rr else (upTo 32).find? ok

end Sys2Proof.Machine
end

