-- ==== Sys2Proof/Machine/Ember.lean ====
section
/-! DEFINITION. Ember arithmetic (R151, R153) and the read-modify-write operations of atomics and of the hob (R178, R280). -/

namespace Sys2Proof.Machine

/-! ### f32 steps of the ember unit: one Round each, to nearest-even, no flag -/

def fAdd (x y : Nat) : Nat := (fmtF32.add 0 x y).bits
def fSub (x y : Nat) : Nat := (fmtF32.sub 0 x y).bits
def fMul (x y : Nat) : Nat := (fmtF32.mul 0 x y).bits
def fDiv (x y : Nat) : Nat := (fmtF32.div 0 x y).bits
def fSqrt (x : Nat) : Nat := (fmtF32.sqrt 0 x).bits
def f32One : Nat := 0x3F800000
def f32Two : Nat := 0x40000000
def f32Inf : Nat := 0x7F800000

/-- A number between `m * 2^e` and `(m + d) * 2^e`. -/
structure Span where
  m : Nat
  d : Nat
  e : Int
  deriving DecidableEq, Repr, Inhabited

/-- The span cut to at most 192 bits. -/
def Span.cut (x : Span) : Span :=
  let k := Nat.log2 x.m - 192
  ⟨x.m / 2 ^ k, x.d / 2 ^ k + (if k = 0 then 0 else 2), x.e + k⟩

def Span.mul (x y : Span) : Span := Span.cut ⟨x.m * y.m, x.m * y.d + x.d * y.m + x.d * y.d, x.e + y.e⟩

/-- `b^n` by the bits of n from bit k - 1 down. -/
def spanPow (b : Span) (n : Nat) : Nat → Span → Span
  | 0, acc => acc
  | k + 1, acc =>
    let sq := acc.mul acc
    spanPow b n k (if n / 2 ^ k % 2 = 1 then sq.mul b else sq)

/-- Round((1 − 2^−k)^n, f32, 0) (R151). -/
def decayFactor (k n : Nat) : Nat :=
  if n * k ≤ 4096 then (fmtF32.roundMag 0 false ((2 ^ k - 1) ^ n) (-(k * n : Nat))).bits
  else
    let p := spanPow ⟨2 ^ k - 1, 0, -(k : Int)⟩ n 31 ⟨1, 0, 0⟩
    (fmtF32.roundBetween 0 false (p.m + p.d / 2) p.e).bits

/-- An ember word's fields (R144). -/
structure EmberWord where
  w : Nat
  mean : Nat
  m2 : Nat
  age : W32
  deriving DecidableEq, Repr, Inhabited

def EmberWord.ofBytes (b : List Byte) : EmberWord :=
  ⟨recNat b 0 4, recNat b 4 4, recNat b 8 4, BitVec.ofNat 32 (recNat b 12 4)⟩

def EmberWord.bytes (x : EmberWord) : List Byte := natLe 4 x.w ++ natLe 4 x.mean ++ natLe 4 x.m2 ++ natLe 4 x.age.toNat

/-- Decay(r) (R151). -/
def EmberWord.decay (x : EmberWord) (k : Nat) (r : W32) : EmberWord :=
  let n := (r - x.age).toNat
  if n ≠ 0 && n < 2 ^ 31 then
    if k ≠ 0 then
      let l := decayFactor k n
      { x with w := fMul x.w l, m2 := fMul x.m2 l, age := r }
    else { x with age := r }
  else x

/-- A contribution applied (R151). -/
def EmberWord.apply (x : EmberWord) (k : Nat) (r : W32) (c : Contribution) : EmberWord :=
  let x := x.decay k r
  match c with
  | .est s =>
    let w := fAdd x.w f32One
    let d := fSub s.toNat x.mean
    let mean := fAdd x.mean (fDiv d w)
    let e := fSub s.toNat mean
    { x with w := w, mean := mean, m2 := fAdd x.m2 (fMul d e) }
  | .emrg wb mb m2b =>
    if fmtF32.isZero wb.toNat then x
    else
      let w' := fAdd x.w wb.toNat
      let d := fSub mb.toNat x.mean
      let q := fDiv wb.toNat w'
      let mean := fAdd x.mean (fMul d q)
      let s := fDiv (fMul x.w wb.toNat) w'
      { x with w := w', mean := mean, m2 := fAdd (fAdd x.m2 m2b.toNat) (fMul (fMul d d) s) }

/-- A comparison x < y of f32 values; false with a NaN. -/
def f32Lt (x y : Nat) : Bool := !fmtF32.isNan x && !fmtF32.isNan y && fmtF32.lt x y

/-- What ELD delivers (R153): mean, half-width, decayed weight, age; and whether the word kindles. -/
structure Estimate where
  words : List Nat
  kindles : Bool
  deriving DecidableEq, Repr, Inhabited

def EmberWord.estimate (x : EmberWord) (r : W32) (g : EmberRegion) : Estimate :=
  let y := x.decay g.k r
  let h := if f32Lt y.w f32Two then f32Inf
    else fSqrt (fDiv y.m2 (fMul y.w (fSub y.w f32One)))
  let absMean := fmtF32.mag x.mean
  let k := f32Lt (fMul g.target.toNat absMean) h || f32Lt y.w g.wmin.toNat
  ⟨[x.mean, h, y.w, x.age.toNat], k⟩

/-! ### Read-modify-write (R280, R178, R69, R75) -/

/-- The lesser or greater of two elements: integers by signedness, f32 by R69 with `old` first. -/
def pickMinMax (et : Nat) (isMax : Bool) (x y : Nat) : Nat :=
  match etFmt et with
  | some f => (f.minMax isMax x y).bits
  | none =>
    let a := intVal et x
    let b := intVal et y
    if isMax then (if a < b then y else x) else (if b < a then y else x)

/-- Op(old, x) of R280: 0 AADD, 1 AMIN, 2 AMAX, 3 AAND, 4 AOR, 5 AXOR, 6 AXCH, 7 ACAS. -/
def AOp.apply (a : AOp) (old : Nat) : Nat :=
  let et := a.et.toNat
  let w := etWidth et
  let x := a.x.toNat % 2 ^ w
  match a.op with
  | 0 =>
    match etFmt et with
    | some f => (f.add a.rm.toNat old x).bits
    | none => (intResult et a.sat (intVal et old + intVal et x)).bits
  | 1 => pickMinMax et false old x
  | 2 => pickMinMax et true old x
  | 3 => old &&& x
  | 4 => old ||| x
  | 5 => old ^^^ x
  | 6 => x
  | _ => if old = x then a.n.toNat % 2 ^ w else old

/-- Bytes of the location. -/
def AOp.size (a : AOp) : Nat := etBytes a.et.toNat

end Sys2Proof.Machine
end

