-- ==== Sys2Proof/Machine/Home.lean ====
section
/-! DEFINITION. The homes of memory (R122): accepting a write, the write completion time, the value after every accepted write,
monitors (R117), recalls (R107, R132), deterministic windows (R158, R180), and a TG's own stores (R109). -/

namespace Sys2Proof.Machine

/-! ### Values at the home -/

/-- `xs`, the bytes from address `a`, with the bytes of a write at `pa` laid over them. -/
def overlay (a : Nat) (xs : List Byte) (pa : Nat) (data : List Byte) : List Byte :=
  mapFrom 0 (fun i b => if pa ≤ a + i && a + i < pa + data.length then byteAt data (a + i - pa) else b) xs

/-- The bytes at `pa` after every write accepted at the homes of their lines. -/
def latestBytes (s : State) (pa n : Nat) : List Byte :=
  (upTo (lineOf (pa + n - 1) - lineOf pa + 1)).foldl (fun xs i =>
    (s.line (lineOf pa + i)).pend.foldl (fun xs (p : Pend) => overlay pa xs p.pa p.data) xs) (homeBytes s pa n)

def latestNat (s : State) (pa n : Nat) : Nat := leNat (latestBytes s pa n)

/-- The latest WCT of the line's accepted writes that have not become its value. -/
def pendTime (l : Line) : Nat := l.pend.foldl (fun t p => max t p.wct) 0

/-! ### Monitors (R117) -/

/-- A write of a line that its home accepts (`write`), its recall or its eviction fires the monitors armed on it (R334); a write also
fires every overflowed monitor of its slice. -/
def fireMonitors (s : State) (no : Nat) (write : Bool) : State :=
  let hit := fun (m : Monitor) => m.line = no || (write && m.overflow && homeOf (m.line * 128) = homeOf (no * 128))
  let f := fun (g : Tg) =>
    match g.monitor with
    | some m => if hit m then { g with monitor := some { m with fired := true } } else g
    | none => g
  { s with tg := f s.tg, rest := s.rest.map f }

/-- The accepted writes of a line whose WCT has come. -/
def Line.due (l : Line) (gt : Nat) : List Pend := l.pend.filter (fun p => p.wct ≤ gt)

/-- The accepted writes whose WCT has come become the line's value, in order of acceptance (R122); with the last of them the lock of
R134 opens. -/
def applyDue (s : State) (no : Nat) : State :=
  let l := s.line no
  let due := l.due s.gt
  if due = [] then s
  else
    let left := l.pend.filter (fun p => !decide (p.wct ≤ s.gt))
    { s with mem := due.foldl (fun (m : Memory) (p : Pend) => memPut m p.pa p.data) s.mem }.putLine
      { l with pend := left, locked := if left = [] then none else l.locked }

/-- Every accepted write whose WCT has come is its line's value. -/
def applyAllDue (s : State) : State := (s.lines.filter (fun l => l.due s.gt ≠ [])).foldl (fun s l => applyDue s l.no) s

/-! ### Residence and format tags (R85, R86) -/

/-- Fields of a format window. -/
def FmtWindow.en (f : FmtWindow) : Bool := f.ctl.getLsbD 0
def FmtWindow.int8 (f : FmtWindow) : Bool := f.ctl.getLsbD 1
def FmtWindow.gran (f : FmtWindow) : Nat := bitsNat f.ctl.toNat 7 4 + 4
def FmtWindow.lo (f : FmtWindow) : Nat := bitsNat f.base.toNat 51 0
def FmtWindow.hi (f : FmtWindow) : Nat := bitsNat f.lim.toNat 51 0

/-- The tag that a line takes at its fill into the home slice. -/
def tagOf (s : State) (no : Nat) : Option Tag :=
  let a := no * 128
  match s.dev.fw.toList.find? (fun f => f.en && decide (f.lo ≤ a) && decide (a < f.hi)) with
  | some f => some ⟨f.int8, bitsNat f.scale.toNat 51 0 + (a - f.lo) / 2 ^ f.gran, f.gran, a - f.lo⟩
  | none => none

/-- The line is held in its home slice, tagged if it was not held before. -/
def makeResident (s : State) (no : Nat) : State :=
  let l := s.line no
  if l.resident then s else s.putLine { l with resident := true, tag := tagOf s no }

/-- Physical address of the scale byte of a byte's row. -/
def Tag.scaleOf (t : Tag) (i : Nat) : Nat := t.scaleAt + ((t.off + i) / 2 ^ t.gran - t.off / 2 ^ t.gran)

/-! ### Accepting a write (R122) -/

/-- The lease floor of the line's set (R244). -/
def setFloor (s : State) (no : Nat) : Nat :=
  match s.setFloors.find? (fun f => f.1 = homeOf (no * 128) && f.2.1 = setOf (no * 128)) with
  | some f => f.2.2
  | none => 0

/-- The WCT of a write that arrives now with floor `floor`: R122, or GT for a non-coherent line (R113), whatever the floor. -/
def writeTime (s : State) (no floor : Nat) (nc : Bool) : Nat :=
  let l := s.line no
  if nc then s.gt
  else max s.gt (max (if s.gt < l.lease then l.lease else 0) (max l.wct (max floor (setFloor s no))))

/-- An ownership grant of a line accepted at its home, a write under R122 (R132): the state and its WCT. -/
def acceptGrant (s : State) (tg : TgKey) (no : Nat) : State × Nat :=
  let t := writeTime s no 0 false
  (fireMonitors (s.modLine no (fun l => { l with wct := t, version := l.version + 1, pend := l.pend ++ [⟨t, no * 128, [], tg⟩] })) no true, t)

/-- The bytes that a write changes in one line: a full line clears poison (R266), and the words it touches lose their kindle
marks (R145). -/
def Line.written (l : Line) (pa n : Nat) : Line :=
  { l with
    poison := l.poison && n < 128
    kindle := l.kindle.filter (fun k => !(decide (l.no * 128 + 16 * k.1 < pa + n) && decide (pa < l.no * 128 + 16 * k.1 + 16))) }

/-- An uncorrectable event counted, with its interrupt to the BMC (R266, R269, R274). -/
def countUnc (s : State) : State :=
  s.modDev (fun d => if d.unc = 0xFFFFFFFF then d else { d with unc := d.unc + 1, interrupts := d.interrupts + 1 })

/-! ### Recall (R107, R132) -/

/-- The dirty bytes of a stash line go back to its home, byte by byte: poison goes when all 128 are replaced (R266) and
comes with poison that a copy has put there (R168), and the kindle mark of a word that they touch goes (R145). A lost home discards
them (R267). -/
def writeBackLine (s : State) (w : Wg) (x : StashLine) : State :=
  if x.dirty = 0 then s
  else if s.orphaned x.pa then countUnc s
  else
    let off := stashOffset w x.win x.idx
    let dirty := (upTo 128).filter (fun i => x.dirty.getLsbD i)
    { s with mem := dirty.foldl (fun (m : Memory) i => memSet m (x.pa * 128 + i) (memGet w.scratch (off + i))) s.mem }.modLine x.pa
      (fun l => dirty.foldl (fun (l : Line) i => l.written (x.pa * 128 + i) 1) { l with poison := (l.poison && x.dirty != BitVec.allOnes 128) || x.bad })

/-- A line that a stash owns is recalled: its dirty bytes come back and the stash line is invalid (R107). The grant of ownership was
the write under R122, and no lease is out, so the bytes are the line's value at once. -/
def recallLine (s : State) (no : Nat) : State :=
  match (s.line no).owner with
  | some (.stash l g n) =>
    let back := ownerLine s no
    let s := match back with
      | some (w, x) => writeBackLine s w x
      | none => s
    let s := s.modWg l g n (fun w => { w with stash := w.stash.filter (fun x => !(x.pa = no && x.owned)) })
    fireMonitors (s.modLine no (fun x => { x with owner := none })) no (back.any (fun b => b.2.dirty != 0))
  | _ => s

/-- A write of bytes within one line accepted at its home, its owner recalled first: the state and its WCT. A lost home discards it
(R267). `marks` says whether the kindle marks go, as they do at an ordinary store. -/
def acceptWrite (s : State) (tg : TgKey) (pa : Nat) (data : List Byte) (floor : Nat) (nc marks : Bool) : State × Nat :=
  let no := lineOf pa
  if s.orphaned no then (countUnc s, s.gt)
  else
    let s := recallLine s no
    let t := writeTime s no floor nc
    let l := s.line no
    let l := if marks then l.written pa data.length else { l with poison := l.poison && data.length < 128 }
    let l := { l with wct := max l.wct t, version := l.version + 1, pend := l.pend ++ [⟨t, pa, data, tg⟩] }
    (applyDue (fireMonitors (s.putLine l) no true) no, t)

/-- The same for bytes that may span lines, by an agent that is no engine: it waits for an engine's line; the WCT is the latest. -/
def acceptBytes (s : State) (tg : TgKey) (pa : Nat) (data : List Byte) (floor : Nat) : State × Nat :=
  let go := fun (acc : State × Nat) (c : Nat) =>
    let first := max pa (c * 128)
    let stop := min (pa + data.length) (c * 128 + 128)
    let (s', t) := acceptWrite (waitOwner acc.1 c) tg first ((data.drop (first - pa)).take (stop - first)) floor false true
    (s', max acc.2 t)
  if data = [] then (s, s.gt)
  else ((upTo (lineOf (pa + data.length - 1) - lineOf pa + 1)).map (· + lineOf pa)).foldl go (s, 0)

/-! ### Deterministic windows (R158, R180) -/

def keyLt (a b : Key) : Bool := decide (a.wid.toNat < b.wid.toNat) || (a.wid = b.wid && decide (a.n < b.n))

/-- The bytes of a line change at the home, as a unit's update and not as an ordinary store: no kindle mark is cleared. -/
def unitWrite (s : State) (tg : TgKey) (pa : Nat) (data : List Byte) : State := (acceptWrite s tg pa data 0 false false).1

/-- Some held hob updates of a line, applied in issuer-key order. -/
def closeHobOf (s : State) (no : Nat) (mine : HeldHob → Bool) : State :=
  let xs := sortBy (fun (a b : HeldHob) => keyLt a.key b.key) (s.heldHob.filter (fun h => lineOf h.pa = no && mine h))
  let s := { s with heldHob := s.heldHob.filter (fun h => !(lineOf h.pa = no && mine h)) }
  xs.foldl (fun s h =>
    let old := latestNat s h.pa h.a.size
    if s.poisoned no false then s else unitWrite s noKey h.pa (natLe h.a.size (h.a.apply old))) s

/-- Every hob window of a line closes: an access to the line other than a hob update (R180). -/
def closeHob (s : State) (no : Nat) : State := closeHobOf s no (fun _ => true)

/-- The held contributions of some embers of a line, applied in issuer-key order; a poisoned line discards them (R152). -/
def closeMergeOf (s : State) (no : Nat) (mine : HeldEmber → Bool) : State :=
  let xs := sortBy (fun (a b : HeldEmber) => keyLt a.key b.key) (s.heldEmber.filter (fun h => lineOf h.pa = no && mine h))
  let s := { s with heldEmber := s.heldEmber.filter (fun h => !(lineOf h.pa = no && mine h)) }
  xs.foldl (fun s h =>
    if s.poisoned no false then s
    else unitWrite s noKey h.pa (EmberWord.apply (.ofBytes (latestBytes s h.pa 16)) h.region.k h.r h.c).bytes) s

/-- Every merge window of a line closes: a fill, a recall or an eviction (R158). -/
def closeMerge (s : State) (no : Nat) : State := closeMergeOf s no (fun _ => true)

/-- The merge windows of the embers that the bytes touch: an ELD of one, or a store to it (R158). -/
def closeMergeIn (s : State) (pa n : Nat) : State :=
  closeMergeOf s (lineOf pa) (fun h => decide (h.pa < pa + n) && decide (pa < h.pa + 16))

/-- The windows that a launch has updates or contributions in close at its end: of those addresses and those embers alone, each with all
that it holds (R158, R180). -/
def closeLaunch (s : State) (l : Nat) : State :=
  let hobs := s.heldHob.filter (fun h => h.launch = l)
  let embers := s.heldEmber.filter (fun h => h.launch = l)
  let s := hobs.foldl (fun s x => closeHobOf s (lineOf x.pa) (fun h => decide (h.pa < x.pa + x.a.size) && decide (x.pa < h.pa + h.a.size))) s
  embers.foldl (fun s x => closeMergeIn s x.pa 16) s

/-- Both windows of a line closed. -/
def closeWindows (s : State) (no : Nat) : State := closeMerge (closeHob s no) no

/-! ### Evictions and arrivals (R107, R132, R244) -/

/-- The unexpired lease of a line that leaves, kept in the lease floor of its set (R244). -/
def keepLease (s : State) (no : Nat) : State :=
  let l := s.line no
  let here := fun (f : Nat × Nat × Nat) => f.1 = homeOf (no * 128) && f.2.1 = setOf (no * 128)
  let floor := max (setFloor s no) (if s.gt < l.lease then l.lease else 0)
  if floor = 0 then s
  else { s with setFloors := (homeOf (no * 128), setOf (no * 128), floor) :: s.setFloors.filter (fun f => !here f) }

/-- A line leaves its home slice (R244): recalled and its windows closed, its monitors fired, its tag dropped, its lease kept. Its
kindle marks stay with it (R145). -/
def evictLine (s : State) (no : Nat) : State :=
  let s := fireMonitors (closeWindows (recallLine s no) no) no false
  (keepLease s no).modLine no (fun l => { l with resident := false, tag := none })

/-- An ordinary access reaches the home: recall, and windows close first. -/
def arrive (s : State) (no : Nat) : State := closeWindows (recallLine s no) no

/-- A store or an ELD of `n` bytes of one line reaches the home: recall, the line's hob window and the embers' windows close. -/
def arriveAt (s : State) (pa n : Nat) : State := closeMergeIn (closeHob (recallLine s (lineOf pa)) (lineOf pa)) pa n

/-- An access that fills reaches the line: due writes are its value, it is recalled and its windows close. -/
def reach (s : State) (no : Nat) : State := arrive (applyDue s no) no

/-- An ownership grant of the line has been accepted and not yet begun (R132). -/
def granting (s : State) (no : Nat) : Bool :=
  s.net.any (fun m => lineOf m.pa = no && (match m.ask with | .stashGrant _ _ _ _ _ _ _ => true | _ => false))

/-- A fill of the line is held: a write of it is pending, or an ownership grant has still to begin, or an engine owns it (R122,
R132). -/
def fillHeld (s : State) (no : Nat) : Bool := !(s.line no).pend.isEmpty || granting s no || engineOwned s no

/-- A read of the range is answered now: no accepted write of it is pending and no engine owns a line of it (R122, R132). -/
def rangeReady (s : State) (pa n : Nat) : Bool :=
  (linesOf pa n).all (fun no => ((applyDue s no).line no).pend.isEmpty && !engineOwned s no)

/-- A coherent access of any agent reaches the line; where an engine owns it the recall waits for the engine's data, and the step is
tried again (R132, R249). -/
def visit (s : State) (no : Nat) : State := reach (waitOwner s no) no

/-- The lines of the range after due writes, recalls and window closes. -/
def arriveRange (s : State) (pa n : Nat) : State := (linesOf pa n).foldl visit s

/-! ### A thread group's own stores (R109) -/

/-- Messages of a TG to a line that have not reached its home. -/
def State.toLine (s : State) (k : TgKey) (no : Nat) : List Msg := s.net.filter (fun m => m.tg = k && lineOf m.pa = no)

/-- The message is a plain store. -/
def Msg.plain (m : Msg) : Bool := match m.ask with | .write _ _ _ _ => true | _ => false

def Msg.data (m : Msg) : List Byte := match m.ask with | .write d _ _ _ => d | _ => []

/-- The TG's own stores to a line that are not yet performed at its home, in issue order. -/
def ownStores (s : State) (k : TgKey) (no : Nat) : List (Nat × List Byte) :=
  ((s.line no).pend.filter (fun p => p.tg = k && decide (s.gt < p.wct))).map (fun p => (p.pa, p.data))
    ++ ((s.toLine k no).filter Msg.plain).map (fun m => (m.pa, m.data))

/-- The TG's own stores laid over bytes that came from a copy. -/
def overlayOwn (s : State) (k : TgKey) (pa : Nat) (xs : List Byte) : List Byte :=
  (ownStores s k (lineOf pa)).foldl (fun xs p => overlay pa xs p.1 p.2) xs

/-- The TG's own stores cover every one of the bytes. -/
def ownCovers (s : State) (k : TgKey) (pa n : Nat) : Bool :=
  let ws := ownStores s k (lineOf pa)
  (upTo n).all (fun i => ws.any (fun p => decide (p.1 ≤ pa + i) && decide (pa + i < p.1 + p.2.length)))

/-- The copy of a line in a core's L1. -/
def State.copyOf (s : State) (core no : Nat) : Option Copy := s.l1.find? (fun c => c.core = core && c.line = no)

/-- Usable under R121, or non-coherent (R113). -/
def Copy.usable (c : Copy) (gt : Nat) : Bool := c.nc || decide (gt + 8 < c.expiry)

/-- A store drops the core's copy of the line (R109). -/
def dropCopy (s : State) (core no : Nat) : State :=
  { s with l1 := s.l1.filter (fun c => !(c.core = core && c.line = no)) }

/-- An acquire drops the core's non-coherent copies (R113). -/
def dropNc (s : State) (core : Nat) : State := { s with l1 := s.l1.filter (fun c => !(c.core = core && c.nc)) }

/-! ### Room in the caches (R109, R110, R244) -/

/-- The ways of a set that cache: 16, less the firebox domain's. -/
def cacheWays (s : State) : Nat := 16 - s.fb.ways

/-- The other lines held in a line's set of a slice. -/
def setLines (s : State) (no slice : Nat) : List Line :=
  s.lines.filter (fun l => l.heldIn slice && l.no != no && setOf (l.no * 128) = setOf (no * 128))

/-- A slice takes the line: the home slice, or the slice of a replica (R86, R111). -/
def holdLine (s : State) (no slice : Nat) : State :=
  if homeOf (no * 128) = slice then makeResident s no else s.modLine no (fun l => { l with replicas := slice / 64 :: l.replicas })

/-- A slice gives the line up: its home with what an eviction does there, the slice of a replica only its copy, whose lease the line
keeps (R111, R134, R244). -/
def leaveSlice (s : State) (no slice : Nat) : State :=
  if homeOf (no * 128) = slice then evictLine s no
  else s.modLine no (fun l => { l with replicas := l.replicas.filter (fun d => d ≠ slice / 64) })

/-- The line comes into a slice: a full set evicts one of its lines (log 9); where it can give up none, the line stays in HBM4. -/
def admitAt (s : State) (no slice : Nat) : State :=
  if (s.line no).heldIn slice || s.isRemote (no * 128) then s
  else if (setLines s no slice).length < cacheWays s then holdLine s no slice
  else
    let free := (setLines s no slice).filter (fun l => !engineOwned s l.no)
    match free[Config.llcVictim s.ctr % free.length]? with
    | some v => holdLine (leaveSlice s v.no slice) no slice
    | none => s

/-- The line comes into its home slice. -/
def admitLine (s : State) (no : Nat) : State := admitAt s no (homeOf (no * 128))

/-- Lines that an L1 or an instruction cache holds: 64 KiB of 128 bytes. -/
def l1Lines : Nat := 512

/-- A copy comes into its core's L1: a full one gives up another (R109; log 9). -/
def admitCopy (s : State) (c : Copy) : State :=
  let s := dropCopy s c.core c.line
  let mine := s.l1.filter (fun x => x.core = c.core)
  let s := if mine.length < l1Lines then s
    else match mine[Config.l1Victim s.ctr % mine.length]? with
      | some v => dropCopy s v.core v.line
      | none => s
  { s with l1 := c :: s.l1 }

/-- A code line comes into a core's instruction cache, as a copy comes into its L1 (R121; log 58). -/
def admitCode (s : State) (core no expiry : Nat) : State :=
  let rest := s.icopies.filter (fun x => !(x.1 = core && x.2.1 = no))
  let mine := rest.filter (fun x => x.1 = core)
  let rest := if mine.length < l1Lines then rest
    else match mine[Config.l1Victim s.ctr % mine.length]? with
      | some v => rest.filter (fun x => x ≠ v)
      | none => rest
  { s with icopies := (core, no, expiry) :: rest }

/-- A lease of 2^lg ns granted (R119). -/
def leaseLine (s : State) (no lg : Nat) : State := s.modLine no (fun l => { l with lease := max l.lease (s.gt + 2 ^ lg) })

/-! ### Coherent reads of the tables (R102, R137, R138, R147) -/

/-- The table entries that a walk reads, each reached at its home (R102); the walk waits for a line that an engine owns (R249). -/
def reachWalk (s : State) (va : W64) : Nat → Nat → Nat → State
  | 0, _, _ => s
  | fuel + 1, level, table =>
    let at_ := table + 8 * levelIndex va level
    if s.isRemote at_ || memTop ≤ offsetOf at_ then s
    else
      let s := visit s (lineOf at_)
      let e := BitVec.ofNat 64 (homeNat s at_ 8)
      if !pteV e || pteMalformed e level || pteLeaf e then s else reachWalk s va fuel (level + 1) (ptePa e)

def reachTables (s : State) (c : Nat) (va : W64) : State := reachWalk s va 5 0 (bitsNat (s.ctxOf c).ptroot.toNat 51 12 * 2 ^ 12)

/-- The walk of an access by an agent that finds no entry of the page in its TLB: the tables are reached as it reads them (R102). -/
def walkTo (s : State) (core c : Nat) (va : W64) : State :=
  if canonical va && regionOf va == .translated && !s.tlb.any (fun e => e.hits core c va) then reachTables s c va else s

/-- The state with the page's translation cached, when it is not yet and its walk succeeds (R101, R102). A cached translation stays
until a TLBI removes it or its context is freed (log 55). -/
def cachePage (s : State) (core c : Nat) (va : W64) : State :=
  if s.tlb.any (fun e => e.hits core c va) then s
  else
    let s := reachTables s c va
    match walk s c va with
    | .ok (leaf, size) => { s with tlb := ⟨core, c, va.toNat / size * size, size, leaf⟩ :: s.tlb }
    | .error _ => s

/-- The state in which entry `n` has been read (R137). -/
def noteRound (s : State) (c n : Nat) : State :=
  let x := s.ctxOf c
  if !x.rrtab.getLsbD 0 || x.rr.any (fun e => e.1 = n) then s
  else
    let s := arriveRange s (roundEntry s c n) 32
    let s := walkTo s noCore c (roundCva s c n)
    let r := readRoundRegion s c n
    s.modCtx c (fun x => { x with rr := (n, r) :: x.rr })

/-- The state in which every ember entry has been read (R147). -/
def noteEmbers (s : State) (c : Nat) : State :=
  (upTo 16).foldl (fun s n =>
    let x := s.ctxOf c
    if !x.ertab.getLsbD 0 || x.er.any (fun e => e.1 = n) then s
    else
      let s := arriveRange s (bitsNat x.ertab.toNat 51 10 * 2 ^ 10 + 64 * n) 64
      let r := readEmberRegion s c n
      s.modCtx c (fun x => { x with er := (n, r) :: x.er })) s

/-- The line of a round counter reached at its home, through the core's translation (R138). -/
def reachCounter (s : State) (core c : Nat) (va : W64) : State :=
  let s := cachePage s core c va
  match leafOf s core c va with
  | .ok (leaf, size) => visit s (lineOf (ptePa leaf + va.toNat % size))
  | .error _ => s

/-- The state in which the core's view of region `n` exists: an L1 without one reads the counter at its home (R138). -/
def noteView (s : State) (core c n : Nat) : State :=
  let s := noteRound s c n
  if s.views.any (fun v => v.core = core && v.ctx = c && v.region = n) then s
  else
    match roundRegion s c n with
    | none => s
    | some r =>
      let s := reachCounter s core c r.cva
      { s with views := ⟨core, c, n, viewOf s core c n⟩ :: s.views }

/-- The state in which the fill region of an access is chosen, and the core's view of it exists (R138, R139). -/
def noteFill (s : State) (core c rr : Nat) (va : W64) : State :=
  let s := noteRound s c rr
  let own := match roundRegion s c rr with | some r => r.holds va | none => false
  if own then noteView s core c rr
  else
    let s := (upTo 32).foldl (fun s n => noteRound s c n) s
    match fillRegion s c rr va with
    | some n => noteView s core c n
    | none => s

end Sys2Proof.Machine
end

