-- ==== Sys2Proof/Machine/Gen.lean ====
section
/-! DEFINITION. The structure descriptor at its home (R212): ring slots, pins (R219, R223), the pool's allocation bits and
reclamation (R230). Reads take the value after every accepted write; updates are writes under R122. -/

namespace Sys2Proof.Machine

/-- Physical address of a virtual one in a context, whatever the permissions. -/
def paOf (s : State) (core c : Nat) (va : W64) : Option Nat :=
  match leafOf s core c va with
  | .ok (leaf, size) => some (ptePa leaf + va.toNat % size)
  | .error _ => none

/-- A structure: the context it is reached in, its descriptor's virtual and physical address, a core to translate on. -/
structure Desc where
  core : Nat
  ctx : Nat
  va : W64
  pa : Nat
  deriving DecidableEq, Repr, Inhabited

/-- The structure at a virtual address, if it is mapped. -/
def descAt (s : State) (core c : Nat) (va : W64) : Option Desc :=
  (paOf s core c va).map (fun pa => ⟨core, c, va, pa⟩)

/-- A field of `n` bytes at an offset of the descriptor, and its update. -/
def Desc.get (d : Desc) (s : State) (off n : Nat) : Nat := latestNat s (d.pa + off) n
def Desc.put (d : Desc) (s : State) (off n x : Nat) : State :=
  (acceptWrite (waitOwner s (lineOf (d.pa + off))) noKey (d.pa + off) (natLe n x) 0 false true).1

def Desc.g (d : Desc) (s : State) : Nat := d.get s 0x00 2
def Desc.pool (d : Desc) (s : State) : W64 := BitVec.ofNat 64 (d.get s 0x08 8)
def Desc.units (d : Desc) (s : State) : Nat := d.get s 0x10 4

/-- Offsets of the fields of ring slot k: root, pins, deferred-free units, generation, state. -/
def slotAt (k : Nat) : Nat := 0x20 + 16 * (k % 8)
def Desc.root (d : Desc) (s : State) (k : Nat) : Nat := d.get s (slotAt k) 4
def Desc.pins (d : Desc) (s : State) (k : Nat) : Nat := d.get s (slotAt k + 4) 4
def Desc.slotGen (d : Desc) (s : State) (k : Nat) : Nat := d.get s (slotAt k + 12) 2
def Desc.slotState (d : Desc) (s : State) (k : Nat) : Nat := d.get s (slotAt k + 14) 1

/-- Ring slot g mod 8 is live and holds g (R219). -/
def Desc.liveGen (d : Desc) (s : State) (g : Nat) : Bool := d.slotState s g = 1 && d.slotGen s g = g

/-- Units that hold the pool's own allocation state (R212). -/
def stateUnits (units : Nat) : Nat := (units + 511) / 512 * 4

/-- Physical address of a byte of the pool, reached through its own translation. -/
def Desc.poolPa (d : Desc) (s : State) (off : Nat) : Option Nat := paOf s d.core d.ctx (d.pool s + BitVec.ofNat 64 off)

/-- `n` bytes of the pool. -/
def Desc.poolBytes (d : Desc) (s : State) (off n : Nat) : List Byte :=
  match d.poolPa s off with | some pa => latestBytes s pa n | none => []

/-- Bytes of the pool, written. -/
def Desc.poolPut (d : Desc) (s : State) (off : Nat) (data : List Byte) : State :=
  match d.poolPa s off with
  | some pa => (acceptBytes s noKey pa data 0).1
  | none => s

/-- Whether unit u is allocated. -/
def Desc.unitUsed (d : Desc) (s : State) (u : Nat) : Bool := leNat (d.poolBytes s (u / 8) 1) / 2 ^ (u % 8) % 2 = 1

/-- Units `u` to `u + n - 1` marked allocated or free. -/
def Desc.markUnits (d : Desc) (s : State) (u : Nat) (used : Bool) : Nat → State
  | 0 => s
  | n + 1 =>
    let old := leNat (d.poolBytes s (u / 8) 1)
    let bit := 2 ^ (u % 8)
    let new := if old / bit % 2 = 1 then (if used then old else old - bit) else (if used then old + bit else old)
    Desc.markUnits d (d.poolPut s (u / 8) (natLe 1 new)) (u + 1) used n

/-- Runs of units returned to the pool; `free` rises by their number (R212). -/
def Desc.freeRuns (d : Desc) (s : State) (runs : List (Nat × Nat)) : State :=
  let total := runs.foldl (fun n r => n + r.2) 0
  let s := runs.foldl (fun s r => d.markUnits s r.1 false r.2) s
  d.put s 0x14 4 (d.get s 0x14 4 + total)

/-- The slot to reclaim next: the oldest that is not free, if it is retiring and has no pins (R230). -/
def Desc.reclaimable (d : Desc) (s : State) : Option Nat :=
  let g := d.g s
  let busy := beats.filter (fun k => d.slotState s k ≠ 0)
  let age := fun k => (g + 65536 - d.slotGen s k) % 65536
  let oldest := busy.foldl (fun acc k => match acc with
    | none => some k
    | some j => if age j < age k then some k else some j) none
  match oldest with
  | some k => if d.slotState s k = 2 && d.pins s k = 0 then some k else none
  | none => none

/-- One slot reclaimed: its listed units return, reclaimed rises, the slot is free: all its bytes are zero (R230, R262). -/
def Desc.reclaimOne (d : Desc) (s : State) (k : Nat) : State :=
  let runs := (s.frees.filter (fun f => f.desc = d.pa && f.slot = k)).flatMap (fun f => f.runs)
  let total := runs.foldl (fun n r => n + r.2) 0
  let s := { s with frees := s.frees.filter (fun f => !(f.desc = d.pa && f.slot = k)) }
  let s := d.freeRuns s runs
  let s := d.put s 0xC8 4 ((d.get s 0xC8 4 + total) % 2 ^ 32)
  d.put s (slotAt k) 16 0

/-- Every slot that can be reclaimed, oldest first. -/
def Desc.reclaim (d : Desc) : Nat → State → State
  | 0, s => s
  | n + 1, s => match d.reclaimable s with | some k => d.reclaim n (d.reclaimOne s k) | none => s

/-- A pin of generation g taken or given back (R219, R223); a release tests for reclamation. -/
def Desc.addPin (d : Desc) (s : State) (g n : Nat) : State := d.put s (slotAt g + 4) 4 (d.pins s g + n)
def Desc.dropPin (d : Desc) (s : State) (g : Nat) : State :=
  d.reclaim 8 (d.put s (slotAt g + 4) 4 (d.pins s g - 1))

/-- A pin released by the address of its structure. -/
def releasePin (s : State) (core c : Nat) (va : W64) (g : Nat) : State :=
  match descAt s core c va with
  | some d => d.dropPin s g
  | none => s

/-- The latest WCT of the writes accepted between two states (R122). -/
def lastWct (s t : State) : Nat := t.lines.foldl (fun w l => if (s.line l.no).version = l.version then w else max w l.wct) 0

/-- The new value is for this view (R140): of the region that the RADV acted on, or of another whose counter is the same word. -/
def newsFor (s : State) (n : News) (v : View) : Bool :=
  decide (n.ctx = v.ctx) && (decide (n.region = v.region) || (roundRegion s v.ctx v.region).any (fun r => paOf s v.core v.ctx r.cva = some n.pa))

end Sys2Proof.Machine
end

