-- ==== Sys2Proof/Machine/Header.lean ====
section
/-! DEFINITION. Launch headers, their checks, and the patch table (R59, R60, R62, R204). -/

namespace Sys2Proof.Machine

/-- The header in 128 bytes at `va` (R59). -/
def Header.ofBytes (va : W64) (b : List Byte) : Header :=
  { flags := BitVec.ofNat 16 (recNat b 0x06 2), widths := (upTo 6).map (fun i => recNat b (0x10 + i) 1)
    vregs := recNat b 0x16 1, sregs := recNat b 0x17 1, scratch := recNat b 0x18 4, tiles := recNat b 0x1C 1
    queues := recNat b 0x1D 1, tgs := recNat b 0x1E 2, patchOff := recNat b 0x20 4, patchCount := recNat b 0x24 2
    paramBytes := recNat b 0x26 2, trapOff := recNat b 0x28 4, saveBytes := recNat b 0x2C 4
    gx := recNat b 0x30 2, gy := recNat b 0x32 2, code := (va + BitVec.ofNat 64 (recNat b 0x08 4)).toNat
    codeLen := recNat b 0x0C 4 }

/-- The scratch allocation A of R35. -/
def Header.alloc (h : Header) : Nat := (h.scratch + 255) / 256 * 256

/-- Save bytes that R204 requires. -/
def Header.needSave (h : Header) : Nat :=
  64 * h.tgs + h.tgs * (1024 + 32 * h.vregs + 8 * h.sregs) + h.alloc + 3648 * h.tiles

/-- The field-width rules of R16. -/
def Header.widthsOk (h : Header) : Bool :=
  h.widthOf 0 = 3 && h.fieldAt 6 ≤ 64 && h.tgs ≤ 2 ^ h.widthOf 1 && h.gx * h.gy ≤ 2 ^ h.widthOf 2

/-- The last gang number of a slice (R16). -/
def Header.lastGang (h : Header) (count : Nat) : Nat :=
  let per := 8 * max 1 h.tgs * max 1 (h.gx * h.gy)
  (count + per - 1) / per - 1

/-- The last gang number fits f3 to f5 without a carry out (R16). -/
def Header.gangsFit (h : Header) (base : W64) (count : Nat) : Bool :=
  let w := h.widthOf 3 + h.widthOf 4 + h.widthOf 5
  base.toNat / 2 ^ h.fieldAt 3 % 2 ^ w + h.lastGang count < 2 ^ w

/-- The checks of R60 that the header's bytes alone decide: the first code that applies, 0 when none. `countOk` is R16's rule
for the slice's count. -/
def headerCode (va : W64) (b : List Byte) (countOk : Bool) : Nat :=
  let h := Header.ofBytes va b
  if recNat b 0 4 ≠ 0x4C474E50 || recNat b 4 2 ≠ 1 then 0x01
  else if h.flags.toNat / 16 ≠ 0 || ((b.drop 0x34).any (fun x => x ≠ 0)) then 0x02
  else if !h.widthsOk || !countOk then 0x03
  else if va.toNat % 16 ≠ 0 || recNat b 8 4 < 0x80 || recNat b 8 4 % 4 ≠ 0 || h.codeLen = 0 || h.codeLen % 4 ≠ 0
      || (h.trapOff ≠ 0 && (h.trapOff % 4 ≠ 0 || h.codeLen ≤ h.trapOff)) then 0x04
  else if h.vregs = 0 || 64 < h.vregs || 32 < h.sregs || 262144 < h.scratch || 4 < h.tiles || 8 < h.queues || h.tgs = 0
      || 128 < h.tgs || h.gx = 0 || 16 < h.gx || h.gy = 0 || 16 < h.gy then 0x05
  else 0

/-- A context handler's header as R199 wants it: R59's checks, and no patches. -/
def handlerHeaderOk (va : W64) (b : List Byte) : Bool :=
  headerCode va b true = 0 && recNat b 0x24 2 = 0 && (Header.ofBytes va b).needSave ≤ recNat b 0x2C 4

/-- A patch entry in 8 bytes (R62). -/
def Patch.ofBytes (b : List Byte) : Patch := ⟨recNat b 0 4, recNat b 4 2, recNat b 6 1, recNat b 7 1⟩

/-- The opcodes of the I format and of the B format (R48). -/
def isIFormat (op : Nat) : Bool := op ∈ [0x31, 0x32, 0x47, 0x48, 0x55, 0xD0, 0xD2, 0xD3]
def isBFormat (op : Nat) : Bool := op ∈ [0x40, 0x41, 0x42, 0x45, 0x4C]

/-- A patch entry obeys R62 for the stored word it patches. -/
def Patch.ok (p : Patch) (h : Header) (word : Nat) : Bool :=
  let op := bitsNat word 31 24
  p.off % 4 = 0 && p.off < h.codeLen && p.param + p.width ≤ h.paramBytes && (p.width = 1 || p.width = 2 || p.width = 4)
    && (match p.kind with
        | 0 => isIFormat op
        | 1 => op = 0x32 && p.width = 4
        | 2 => isBFormat op
        | _ => false)

/-- No two patches name one word (R62). -/
def patchesDistinct : List Patch → Bool
  | [] => true
  | p :: ps => ps.all (fun q => q.off ≠ p.off) && patchesDistinct ps

/-- The word delivered for a stored word under a launch's patches and parameter image (R63). -/
def deliver (l : Launch) (off : Nat) (word : W32) : W32 :=
  match l.patches.find? (fun p => p.off = off) with
  | none => word
  | some p =>
    let v := recNat l.params p.param p.width
    let w := word.toNat
    let op := bitsNat w 31 24
    match p.kind with
    | 0 => BitVec.ofNat 32 (w / 2 ^ 17 * 2 ^ 17 + v % 2 ^ 17)
    | 1 => BitVec.ofNat 32 (w / 2 ^ 17 * 2 ^ 17 + v / 2 ^ 17 % 2 ^ 15)
    | _ =>
      if op = 0x41 then BitVec.ofNat 32 (w / 2 ^ 22 * 2 ^ 22 + v % 2 ^ 22)
      else BitVec.ofNat 32 (w / 2 ^ 24 * 2 ^ 24 + v % 2 ^ 24)

end Sys2Proof.Machine
end

