-- ==== Sys2Proof/Machine/Access.lean ====
section
/-! DEFINITION. The checks of one thread's memory access, in the order of R97: canonical form, alignment, window rules (R35,
R94-R96, R105, R107), then Translate; and where the access goes. -/

namespace Sys2Proof.Machine

/-- Where a checked access goes. -/
inductive Target where
  | mem (pa attr : Nat) (nc remote : Bool)
  | scratch (l g w off : Nat)
  | stash (win idx off line : Nat) (va : W64)
  deriving DecidableEq, Repr, Inhabited

/-- The enabled stash window that holds an allocation offset: window, line of its range (R106, R107). -/
def stashWindow (w : Wg) (off : Nat) : Option Nat :=
  [0, 1, 2, 3].find? (fun n =>
    let c := (vget w.stsc n).toNat
    c % 2 = 1 && bitsNat c 17 8 * 256 ≤ off && off < (bitsNat c 17 8 + bitsNat c 28 18) * 256)

/-- The global address behind an allocation offset of window n (R107). -/
def stashVa (w : Wg) (n off : Nat) : W64 :=
  let ga := bitsNat (vget w.stga n).toNat 55 8 * 2 ^ 8
  sext56 (BitVec.ofNat 64 (ga + off - bitsNat (vget w.stsc n).toNat 17 8 * 256))

def StashLine.is (x : StashLine) (win idx : Nat) : Bool := x.win = win && x.idx = idx

/-- A scratch access within an allocation, or the fault. -/
def inAlloc (w : Wg) (off size : Nat) (viaWindow : Bool) : Except Nat Target :=
  if w.size < off + size then .error 0x06
  else if viaWindow && (stashWindow w off).isSome then .error 0x06
  else .ok (.scratch w.launch w.gang w.no off)

/-- The workgroup of the caller's own gang on a logical core (R35). -/
def onLogical (s : State) (g : Tg) (core : Nat) : Option Wg :=
  s.wgs.find? (fun w => w.launch = g.key.launch && w.gang = g.key.gang && w.logical = core && !w.ended)

/-- A stash access: the line's translation when it must be filled or upgraded (R107, R265). -/
def stashTarget (s : State) (g : Tg) (w : Wg) (acc : Access) (off win : Nat) : Except Nat Target :=
  let va := stashVa w win off
  let idx := (off - bitsNat (vget w.stsc win).toNat 17 8 * 256) / 128
  let write := acc != .read
  match w.stash.find? (fun x => x.is win idx) with
  | some x =>
    if x.owned || (!write && s.gt + 8 < x.expiry) then .ok (.stash win idx off x.pa va)
    else
      match translate s g.core g.ctx g.priv (if write then .write else .read) va with
      | .error e => .error e
      | .ok h => if h.attr ≠ 0 || s.isRemote h.pa then .error 0x06 else .ok (.stash win idx off (lineOf h.pa) va)
  | none =>
    match translate s g.core g.ctx g.priv (if write then .write else .read) va with
    | .error e => .error e
    | .ok h => if h.attr ≠ 0 || s.isRemote h.pa then .error 0x06 else .ok (.stash win idx off (lineOf h.pa) va)

/-- The window rules and Translate for a canonical, aligned address (R97). -/
def placeAccess (s : State) (g : Tg) (acc : Access) (size : Nat) (va : W64) : Except Nat Target :=
  match regionOf va with
  | .port _ => .error 0x06
  | .reserved => .error 0x06
  | .local off =>
    match s.findWg g.key.launch g.key.gang g.key.wg with
    | none => .error 0x06
    | some w =>
      if w.size < off + size then .error 0x06
      else
        match stashWindow w off with
        | some win => stashTarget s g w acc off win
        | none => .ok (.scratch w.launch w.gang w.no off)
  | .cluster core off =>
    match onLogical s g core with | none => .error 0x06 | some w => inAlloc w off size true
  | .alias255 off =>
    match onLogical s g 255 with | none => .error 0x06 | some w => inAlloc w off size true
  | .translated =>
    match translate s g.core g.ctx g.priv acc va with
    | .error e => .error e
    | .ok h =>
      if (acc = .write || acc = .atomic) && h.attr = 1 && g.priv = .u then .error 0x07      -- R161
      else .ok (.mem h.pa h.attr (isNc s g.ctx h va) (s.isRemote h.pa))

/-- The code region of a TG: its first byte and its length; a context handler's while one is in force (R61, R199). -/
def codeRegion (s : State) (g : Tg) : Nat × Nat :=
  match g.region with
  | some r => r
  | none => let h := (s.launchOf g.key.launch).hdr; (h.code, h.codeLen)

/-- The code region of a TG holds some byte of the range (R61). -/
def touchesCode (s : State) (g : Tg) (va size : Nat) : Bool :=
  let (base, len) := codeRegion s g
  decide (va < base + len) && decide (base < va + size)

/-- R97 for one thread: the cause of the first check that fails, or where the access goes. -/
def checkAccess (s : State) (g : Tg) (acc : Access) (size align : Nat) (va : W64) : Except Nat Target :=
  if !canonical va then .error 0x06
  else if va.toNat % align ≠ 0 then .error 0x04
  else if (acc = .write || acc = .atomic) && touchesCode s g va.toNat size then .error 0x06
  else placeAccess s g acc size va

/-- R97 for a write by a unit that R161 does not hold back: as a store's, but no trap for an ember page at U. -/
def checkUnitWrite (s : State) (g : Tg) (size align : Nat) (va : W64) : Except Nat Target :=
  if canonical va && va.toNat % align = 0 && touchesCode s g va.toNat size then .error 0x06
  else checkAccess s g .engineWrite size align va

/-- The error of a result, if it is one. -/
def errOf {α : Type} : Except Nat α → Option Nat
  | .error e => some e
  | .ok _ => none

/-- What a trap carries (R200, R201). -/
structure TrapInfo where
  cause : Nat
  mask : Mask
  va : W64 := 0
  access : Nat := 0
  detail : List Byte := []
  deriving DecidableEq, Repr, Inhabited

/-- R97 over the threads of an instruction: the fault of the lowest failing thread, with every thread that fails with the
same cause in the mask. -/
def threadFault (acc : Access) (xs : List (Nat × W64 × Option Nat)) : Option TrapInfo :=
  match xs.find? (fun x => x.2.2.isSome) with
  | none => none
  | some (_, va, c) =>
    some { cause := c.getD 0, mask := xs.foldl (fun m x => if x.2.2 = c then m ||| (1#8 <<< x.1) else m) 0
           va := va, access := acc.code }

end Sys2Proof.Machine
end

