-- ==== Sys2Proof/Machine/Ops.lean ====
section
/-! DEFINITION. The operations that instructions share: in-flight operations (R114), latches (R18, R19), ending threads and TGs
(R24, R25, R310, R311), taking an exception (R199-R201) and returning from one (R202), and how an instruction ends. -/

namespace Sys2Proof.Machine

/-! ### In-flight operations (R114) -/

/-- The in-flight counter of a path. -/
def Tg.count (g : Tg) (p : Path) : Nat := (g.ops.filter (fun o => o.path = some p)).length

/-- Finished operations leave in issue order on each path (R114). -/
def retireOps : List Path → List Op → List Op
  | _, [] => []
  | stuck, o :: os =>
    match o.path with
    | none => if o.done then retireOps stuck os else o :: retireOps stuck os
    | some p =>
      if o.done && !stuck.contains p then retireOps stuck os
      else o :: retireOps (p :: stuck) os

def Tg.retire (g : Tg) : Tg := { g with ops := retireOps [] g.ops }

/-- Operation `id` changed. -/
def Tg.modOp (g : Tg) (id : Nat) (f : Op → Op) : Tg := { g with ops := replaceFirst (fun o => o.id = id) f g.ops }

def Tg.finishOp (g : Tg) (id : Nat) : Tg := (g.modOp id (fun o => { o with done := true })).retire

/-- A fresh operation at the end of the list; its number is the old `nextOp`. -/
def Tg.addOp (g : Tg) (o : Op) : Tg := { g with ops := g.ops ++ [{ o with id := g.nextOp }], nextOp := g.nextOp + 1 }

/-- An operation's number taken by a write that no in-flight counter follows. -/
def Tg.skipOp (g : Tg) : Tg := { g with nextOp := g.nextOp + 1 }

/-- An operation of the issuing instruction on a path, with nothing else yet. -/
def Tg.opOn (g : Tg) (p : Option Path) : Op :=
  { id := g.nextOp, path := p, pc := g.pc, word := g.word, sink := none, need := 0, got := [], load := false, done := false }

/-- An operation of the issuing instruction on a path that is finished at once: behind an outstanding one of the path it still counts
(R114). -/
def Tg.doneOp (g : Tg) (p : Path) : Tg := (g.addOp { g.opOn (some p) with done := true }).retire

/-- The operand's register is written by the operation when its value comes. -/
def Sink.covers (k : Sink) (o : Opnd) : Bool :=
  match k.d, o with
  | .v n, .v m =>
    let w := etContainer k.et.toNat / 32
    decide (n.toNat ≤ m.toNat) && decide (m.toNat < n.toNat + w)
  | .s n, .s m =>
    let w := if etContainer k.et.toNat = 128 then 2 else 1
    decide (n.toNat ≤ m.toNat) && decide (m.toNat < n.toNat + w)
  | .p n, .p m => n = m
  | _, _ => false

/-- The registers that an operand of `bits` bits names. -/
def opndSpan (o : Opnd) (bits : Nat) : List Opnd :=
  match o with
  | .v n => (upTo (bits / 32)).map (fun i => .v (n + BitVec.ofNat 6 i))
  | .s n => (upTo (if bits = 128 then 2 else 1)).map (fun i => .s (n + BitVec.ofNat 5 i))
  | o => [o]

/-- The descriptor of stream `n` is still to come (R363). -/
def Tg.confPending (g : Tg) (n : Nat) : Bool := g.ops.any (fun x => !x.done && x.conf.any (fun c => c.1 = n))

/-- A pending register (R115), or a stream whose SPCFG is outstanding (R363). -/
def Tg.pending (g : Tg) (o : Opnd) : Bool :=
  match o with
  | .sp n => g.confPending n.toNat
  | o => g.ops.any (fun x => !x.done && (match x.sink with | some k => k.covers o | none => false))

/-- The guard reads a pending predicate (R5, R115, R128). -/
def Tg.guardPending (g : Tg) : Bool := gmGe g.gm && g.pending (.p (BitVec.ofNat 3 (gmGp g.gm)))

/-- A latch whose value an outstanding operation still owes. -/
def Tg.latchPending (g : Tg) (n : Nat) : Bool :=
  match vget g.bop n with
  | some id => g.ops.any (fun x => x.id = id && !x.done)
  | none => false

/-- Every earlier load, atomic and ELD of the TG has its value (R129). -/
def Tg.loadsIn (g : Tg) : Bool := g.ops.all (fun o => o.done || !o.load)

/-- Later accesses wait for an acquire (R129, R133). -/
def Tg.acquiring (g : Tg) : Bool := g.ops.any (fun o => o.acquire && !o.done)

/-! ### Latches (R18, R19) -/

/-- A result enters b0 and the older ones move up; b0 is valid. -/
def Tg.shift (g : Tg) (vals : Vector W64 8) (owed : Option Nat) : Tg :=
  { g with b := #v[vals, vget g.b 0, vget g.b 1, vget g.b 2]
           bv := #v[true, vget g.bv 0, vget g.bv 1, vget g.bv 2]
           bop := #v[owed, vget g.bop 0, vget g.bop 1, vget g.bop 2] }

/-- After a switch-capable instruction b1 to b3 are invalid. -/
def Tg.loseOlder (g : Tg) : Tg := { g with bv := #v[vget g.bv 0, false, false, false] }

/-- Every latch invalid. -/
def Tg.clearLatches (g : Tg) : Tg := { g with bv := Vector.replicate 4 false }

/-- One value for all eight threads. -/
def sameLatch (x : W64) : Vector W64 8 := Vector.replicate 8 x

def zeroLatch : Vector W64 8 := Vector.replicate 8 0

/-! ### Ending threads (R24, R25, R310, R311) -/

/-- The greater status stands; among equals the lower work identifier (R25). -/
def betterStatus (a b : Option (W32 × W64)) : Option (W32 × W64) :=
  match a, b with
  | none, b => b
  | a, none => a
  | some (x, i), some (y, j) =>
    if x.toNat < y.toNat then some (y, j) else if y.toNat < x.toNat then some (x, i)
    else if j.toNat < i.toNat then some (y, j) else some (x, i)

/-- The status of the thread at beat t of the issuing TG is recorded with its workgroup. -/
def recordStatus (s : State) (t : Nat) (st : W32) : State :=
  let wid := s.tg.wid s.launch t
  s.modMyWg (fun w => { w with status := betterStatus w.status (some (st, wid)) })

/-- A pixel-stage thread's end goes to its fragment (R237; log 13): v8 to v11 with status 0, else a discard. -/
def recordFragment (s : State) (t : Nat) (st : W32) : State :=
  match s.launch.draw with
  | none => s
  | some _ =>
    let (k, b) := (s.tg.home.toList).getD t (0, 0)
    let colour := [8, 9, 10, 11].map (fun i => vget (vget s.tg.v i) t)
    s.modGang s.tg.key.launch s.tg.key.gang (fun x =>
      { x with frags := mapFrom 0 (fun i f => if i = 8 * (s.tg.key.wg * s.hdr.tgs + k) + b then { f with done := some (if st = 0 then some colour else none) } else f) x.frags })

/-- The rays of the threads in a mask are cancelled and their pins released (R223); their blocks shrink (R221). -/
def cancelRays (s : State) (m : Mask) : State :=
  let gone := s.tg.rays.filter (fun r => bitOf m r.t)
  let s := gone.foldl (fun s r => if r.pinned then releasePin s s.tg.core r.ctx r.desc r.gen.toNat else s) s
  s.modTg (fun g => { g with rays := g.rays.filter (fun r => !bitOf m r.t)
                             blocks := g.blocks.map (fun b => { b with threads := b.threads.filter (fun t => !bitOf m t) }) })

/-- A held quantum atomic joins the ones of its location, unless one that overlaps it came since; the latest group stands first. -/
def joinQuantum (q : Quantum) : List (List Quantum) → Option (List (List Quantum))
  | [] => none
  | [] :: gs => joinQuantum q gs
  | (x :: xs) :: gs =>
    if x.pa = q.pa && x.a.size = q.a.size then some ((x :: xs ++ [q]) :: gs)
    else if decide (x.pa < q.pa + q.a.size) && decide (q.pa < x.pa + x.a.size) then none
    else (joinQuantum q gs).map (fun ys => (x :: xs) :: ys)

/-- Held quantum atomics combined per address, in issue order (R133). -/
def combineQuantum (qs : List Quantum) : List (List Quantum) :=
  (qs.foldl (fun gs q => (joinQuantum q gs).getD ([q] :: gs)) []).reverse

/-- The held quantum atomics of a TG, combined and sent (R133). -/
def sendQuantum (s : State) (k : TgKey) : State :=
  match s.findTg k with
  | none => s
  | some g =>
    let msgs := (combineQuantum g.quantum).filterMap (fun xs =>
      match xs with
      | [] => none
      | q :: qs => some ({ tg := k, op := q.op, core := g.core, ctx := g.ctx, t := q.t, pa := q.pa, rep := q.rep
                           also := qs.map (fun x => (x.op, x.t)), ask := .atomic (xs.map (fun x => x.a)) 0 false q.nc } : Msg))
    { s with net := s.net ++ msgs }.modTgAt k (fun g => { g with quantum := [] })

/-! ### Subscribers of B FIFOs (R165) -/

/-- `n` bytes leave the front of a workgroup's B FIFO, with their sidecar entries; positions count from the first byte kept. -/
def dropFront (s : State) (l g w p n : Nat) : State :=
  let s := s.modWg l g w (fun x =>
    { x with subs := x.subs.map (fun y => if y.port = p then { y with pos := y.pos - n } else y)
             fifos := x.fifos.map (fun f =>
               if f.port = p then { f with data := f.data.drop n, side := f.side.drop (n / 128) } else f) })
  { s with passes := s.passes.map (fun y =>
      if y.tg.launch = l && y.tg.gang = g && y.tg.wg = w && y.bPort = p then { y with bPos := y.bPos - n } else y) }

/-- The entries at the front of a B FIFO that every subscriber's ended passes have read leave it (R165); without a subscriber, the
first `rest` bytes do. -/
def dropRead (s : State) (l g w p rest : Nat) : State :=
  let subs := ((s.findWg l g w).getD default).subs.filter (fun x => x.port = p)
  let busy := s.passes.filter (fun y => y.tg.launch = l && y.tg.gang = g && y.tg.wg = w && y.bPort = p
    && subs.any (fun x => x.tg = y.tg.tg))
  match subs with
  | [] => dropFront s l g w p rest
  | x :: xs =>
    dropFront s l g w p (busy.foldl (fun n y => min n y.bPos) (xs.foldl (fun n y => min n y.pos) x.pos))

/-- Queue register `q` of the issuing TG no longer subscribes; with its last one the TG leaves the set. -/
def unsubscribe (s : State) (q : Nat) : State :=
  let k := s.tg.key
  match s.wg.subs.find? (fun x => x.tg = k.tg && x.qs.contains q) with
  | none => s
  | some x =>
    let s := s.modMyWg (fun w =>
      { w with subs := (w.subs.map (fun y => if y.tg = k.tg then { y with qs := y.qs.filter (fun n => n ≠ q) } else y)).filter (fun y => y.qs ≠ []) })
    if x.qs.any (fun n => n ≠ q) then s else dropRead s k.launch k.gang k.wg x.port x.pos

/-- The claim of a TG's waiting FBMODE to the firebox domain is withdrawn; that of one accepted behind an FBMODE 0 stands (R243). -/
def dropClaim (s : State) (k : TgKey) : State :=
  let accepted := s.fb.queue.any (fun o => o.tg = k && o.code = 0xB0 && o.a != 0)
  { s with fb := { s.fb with claims := s.fb.claims.filter (fun x => x ≠ k || accepted) } }

/-- The issuing TG ends: monitor, pins, rays, subscriptions and bindings go; held quantum atomics are sent (R25, R133, R311). -/
def endTg (s : State) : State :=
  let s := cancelRays (dropClaim s s.tg.key) 0xFF
  let s := s.tg.pins.foldl (fun s p => releasePin s s.tg.core s.tg.ctx p.desc p.gen.toNat) s
  let s := sendQuantum s s.tg.key
  let s := beats.foldl unsubscribe s
  { s.modTg (fun g => { g with on := false, live := 0, cm := 0, monitor := none, pins := [], q := Vector.replicate 8 none
                               waiting := false, woken := false, place := [], phase := .fresh }) with
    lanes := s.lanes.filter (fun x => x.2.2 ≠ s.tg.key) }

/-- Resolve (R24), by the depth of the stack. -/
def resolve : Nat → State → State
  | 0, s => endTg s
  | n + 1, s =>
    match s.tg.stack with
    | [] => endTg s
    | e :: es =>
      let pend := e.pm &&& s.tg.live
      let m := e.rm &&& s.tg.live
      if pend ≠ 0 then s.modTg (fun g => { g with cm := pend, stack := { e with pm := 0 } :: es, pc := e.ppc })
      else
        match e.rpc with
        | some pc =>
          if m ≠ 0 then s.modTg (fun g => { g with stack := es, cm := m, pc := pc })
          else resolve n (s.modTg (fun g => { g with stack := es }))
        | none =>
          if m ≠ 0 then s.modTg (fun g => { g with cm := m, pc := e.ppc })
          else resolve n (s.modTg (fun g => { g with stack := es }))

/-- Resolve when the current mask has become empty. -/
def settle (s : State) : State := if s.tg.cm = 0 then resolve 17 s else s

/-- The threads of a mask exit with their statuses (R24, R310): out of cm and of every stack entry. The caller sets the PC
before Resolve runs. -/
def exitThreads (s : State) (x : Mask) (st : Nat → W32) : State :=
  let s := (beatsOf x).foldl (fun s t => recordFragment (recordStatus s t (st t)) t (st t)) s
  let s := cancelRays s x
  s.modTg (fun g => { g with cm := g.cm &&& ~~~ x, live := g.live &&& ~~~ x
                             stack := g.stack.map (fun e => { e with rm := e.rm &&& ~~~ x, pm := e.pm &&& ~~~ x }) })

/-! ### Kills and traps (R199-R201) -/

/-- An in-band interrupt to the BMC (R274). -/
def raiseInterrupt (s : State) : State := s.modDev (fun d => { d with interrupts := d.interrupts + 1 })

/-- A kill: every live thread ends with status 0x8000_0000 | cause; the killed bit is set; a firebox domain of the workgroup is
released (R250); at M a management event follows. -/
def kill (s : State) (cause : Nat) : State :=
  let atM := s.tg.priv = .m
  let s := exitThreads s s.tg.live (fun _ => BitVec.ofNat 32 (0x80000000 + cause))
  let s := s.modMyWg (fun w => { w with killed := true })
  let mine := s.fb.owner = some (s.tg.key.launch, s.tg.key.gang, s.tg.key.wg)
  let s := if mine then { s with fb := { s.fb with owner := none, ways := 0, cols := [] } } else s
  let s := endTg (s.modTg (fun g => { g.clearLatches with stack := [] }))
  if atM then raiseInterrupt s else s

/-- The trap record (R201). -/
def trapRecord (s : State) (i : TrapInfo) : List Byte :=
  let g := s.tg
  [BitVec.ofNat 8 i.cause, BitVec.ofNat 8 i.access, BitVec.ofNat 8 g.priv.code, i.mask, g.cm, BitVec.ofNat 8 g.stack.length, 0, 0]
    ++ natLe 8 g.pc.toNat ++ natLe 8 i.va.toNat ++ natLe 4 g.word.toNat ++ natLe 4 g.gm.toNat
    ++ natLe 8 (if s.det then 0 else s.gt)
    ++ (i.detail ++ List.replicate 24 0).take 24

/-- The handler's first word, and the context handler's region when it is one; none where its header cannot be read, be it poisoned
or lost, or fails R59 (R199, R266, R267). -/
def handlerOf (s : State) : Option (W64 × Option (Nat × Nat)) :=
  let h := s.hdr
  if h.trapOff ≠ 0 then some (BitVec.ofNat 64 (h.code + h.trapOff), none)
  else
    let va := s.ctx.tvec
    if va = 0 then none
    else
      match translate s s.tg.core s.tg.ctx .s .read va, translate s s.tg.core s.tg.ctx .s .read (va + 127) with
      | .ok a, .ok b =>
        let n := min 128 (65536 - va.toNat % 65536)
        let bytes := homeBytes s a.pa n ++ homeBytes s (b.pa + 1 - (128 - n)) (128 - n)
        let hh := Header.ofBytes va bytes
        let lost := s.poisoned (lineOf a.pa) (a.attr = 2) || s.poisoned (lineOf b.pa) (b.attr = 2)
        if !lost && canonical va && regionOf va = .translated && handlerHeaderOk va bytes
        then some (BitVec.ofNat 64 hh.code, some (hh.code, hh.codeLen)) else none
      | _, _ => none

/-- The context handler's header reached at its home, where a trap reads it (R199). -/
def reachHandler (s : State) : State :=
  let va := s.ctx.tvec
  if s.hdr.trapOff ≠ 0 || va = 0 then s
  else
    let s := cachePage (cachePage s s.tg.core s.tg.ctx va) s.tg.core s.tg.ctx (va + 127)
    match translate s s.tg.core s.tg.ctx .s .read va, translate s s.tg.core s.tg.ctx .s .read (va + 127) with
    | .ok a, .ok b => arriveRange (arriveRange s a.pa 1) b.pa 1
    | _, _ => s

/-- How a trap record's write ends: written, not possible, or waiting for a stash line. -/
inductive RecordWrite where
  | written (s : State)
  | failed
  | stalled (s : State)
  deriving Repr, Inhabited

/-- A request for a stash line, made once (R107). -/
def askStash (s : State) (win idx line : Nat) (own : Bool) (va : W64) : State :=
  let g := s.tg
  let w := s.wg
  let s := noteFill s g.core g.ctx (gmRr g.gm) va
  let region := fillRegion s g.ctx (gmRr g.gm) va
  let round := match region with | some r => viewOf s g.core g.ctx r | none => 0
  let f : FillReq := ⟨g.lease.toNat, false, region, round, false⟩
  let cited := (w.stash.find? (fun x => x.is win idx)).map (fun x => (x.expiry, x.version))
  let ask := if own then Ask.stashOwn w.launch w.gang w.no win idx cited f else Ask.stashFill w.launch w.gang w.no win idx f
  let dup := s.net.any (fun m =>
    match m.ask with
    | .stashOwn l g' n a b _ _ => own && l = w.launch && g' = w.gang && n = w.no && a = win && b = idx
    | .stashGrant l g' n a b _ _ => l = w.launch && g' = w.gang && n = w.no && a = win && b = idx
    | .stashFill l g' n a b _ => !own && l = w.launch && g' = w.gang && n = w.no && a = win && b = idx
    | _ => false)
  if dup then s
  else
    let m : Msg := { tg := g.key, op := 0, t := 0, core := g.core, ctx := g.ctx, pa := line * 128, ask := ask }
    ({ s with net := s.net ++ [m] } : State).modTg (fun g => if own then { g with unack := g.unack + 1 } else g)

/-- Scratch bytes stored; in an owned stash line they become dirty. -/
def scratchStore (s : State) (l g w off : Nat) (data : List Byte) : State :=
  s.modWg l g w (fun x =>
    let x := { x with scratch := memPut x.scratch off data }
    match stashWindow x off with
    | none => x
    | some win =>
      let base := bitsNat (vget x.stsc win).toNat 17 8 * 256
      let idx := (off - base) / 128
      { x with stash := x.stash.map (fun y =>
          if y.is win idx then
            { y with dirty := (upTo data.length).foldl (fun d i => d ||| (1#128 <<< ((off + i) % 128))) y.dirty }
          else y) })

/-- The stash line is owned by the workgroup. -/
def stashOwned (w : Wg) (win idx : Nat) : Bool := w.stash.any (fun x => x.is win idx && x.owned)

/-- A store of bytes within one line by the issuing TG, on its way to its target (R105, R109, R123): a message, counted as an
unacknowledged write, for operation `op`. -/
def sendStore (s : State) (op t : Nat) (pa : Nat) (attr : Nat) (nc : Bool) (data : List Byte) (floor : Nat) : State :=
  let g := s.tg
  let m : Msg := { tg := g.key, op := op, t := t, core := g.core, ctx := g.ctx, pa := pa, rep := attr = 2, dev := attr = 3
                   ask := .write data floor nc true }
  ({ dropCopy s g.core (lineOf pa) with net := s.net ++ [m] } : State).modTg (fun g => { g with unack := g.unack + 1 })

/-- The trap record written at TREC as stores of this TG (R200, R201). -/
def writeRecord (s : State) (i : TrapInfo) : RecordWrite :=
  let va := BitVec.ofNat 64 (s.tg.trec.toNat / 64 * 64)
  let data := trapRecord s i
  match checkAccess s s.tg .write 64 64 va with
  | .error _ => .failed
  | .ok (.mem pa attr nc _) =>
    let s := cachePage s s.tg.core s.tg.ctx va
    .written ((sendStore s s.tg.nextOp 0 pa attr nc data 0).modTg Tg.skipOp)
  | .ok (.scratch l g w off) => .written (scratchStore s l g w off data)
  | .ok (.stash win idx off line va) =>
    if stashOwned s.wg win idx then .written (scratchStore s s.wg.launch s.wg.gang s.wg.no off data)
    else .stalled (askStash s win idx line true va)

/-- The TG waits: not ready until it is tried again; the lane stays with it when `keep` (R115). -/
def waitIn (s : State) (keep : Bool) : Out :=
  .next (s.modTg (fun g => { g with waiting := true, woken := false, keepLane := keep }))

/-- A register or counter wait: the lane stays with the TG unless the instruction switches or b1 to b3 are invalid (R115). -/
def registerWait (s : State) (sw : Bool) : Out :=
  let g := s.tg
  waitIn s (!(sw || (!vget g.bv 1 && !vget g.bv 2 && !vget g.bv 3)))

/-- The instruction is over: the TG is no longer waiting, and values fetched for it are dropped. -/
def Tg.fresh (g : Tg) : Tg :=
  { g with waiting := false, woken := false, keepLane := false, place := [], yielded := false, phase := .fresh, held := [], readyFor := 0 }

/-- The lane chooses again at this switch point (R17). -/
def giveLane (s : State) : State := { s with lanes := s.lanes.filter (fun x => x.2.2 ≠ s.tg.key) }

/-- The walk that a faulting access has made (R102). -/
def faultWalk (s : State) (i : TrapInfo) : State := if i.access = 0 then s else walkTo s s.tg.core s.tg.ctx i.va

/-- TAKING AN EXCEPTION: Trap(cause, mask, va) with TEPC at `next` (R198-R200). -/
def enterTrap (s : State) (i : TrapInfo) (tepc : W64) : Out :=
  let s := (faultWalk s i).modTg (fun g => { g with monitor := g.monitor.map (fun m => { m with fired := true }) })
  if s.tg.priv ≠ .u then .next (kill s i.cause)
  else
    let s := reachHandler s
    match handlerOf s with
    | none => .next (kill s i.cause)
    | some (handler, region) =>
      let go := fun (s : State) =>
        Host.Outcome.next ((giveLane (dropClaim s s.tg.key)).modTg (fun g =>
          { (g.clearLatches).fresh with
            trpc := g.pc, tepc := tepc, taddr := i.va, tgm := g.gm
            tcause := BitVec.ofNat 64 (i.cause + g.priv.code * 2 ^ 8 + g.stack.length * 2 ^ 16)
            tmask := BitVec.ofNat 64 (i.mask.toNat + g.cm.toNat * 2 ^ 8)
            priv := .s, gm := g.gm &&& 0xFF000000, pc := handler, region := region, slow := false, sysw := none
            budgetTrap := g.budgetTrap && i.cause != 0x0A }))
      if s.tg.trec = 0 then go s
      else
        match writeRecord s i with
        | .written s => go s
        | .failed => .next (kill s i.cause)
        | .stalled s => waitIn s false

/-- A synchronous trap: TEPC is the trapping instruction (R198). -/
def trap (s : State) (i : TrapInfo) : Out := enterTrap s i s.tg.pc

/-! ### Returning from a trap (R202, R308) -/

/-- pp, dep and cm as the trap registers hold them. -/
def Tg.savedPriv (g : Tg) : Nat := bitsNat g.tcause.toNat 9 8
def Tg.savedDepth (g : Tg) : Nat := bitsNat g.tcause.toNat 20 16
def Tg.savedCm (g : Tg) : Mask := BitVec.ofNat 8 (bitsNat g.tmask.toNat 15 8)

def Priv.ofCode (n : Nat) : Priv := if n = 0 then .u else if n = 1 then .s else .m

/-- RETURNING FROM AN EXCEPTION: gm from TGM (det keeps its value), PRIV and cm restored, every latch invalid, the launch's
own code region in force again. -/
def restoreFromTrap (s : State) : State :=
  s.modTg (fun g =>
    { (g.clearLatches).fresh with
      gm := (g.gm &&& 0xFF000000) ||| (g.tgm &&& 0x00FFFFFF), priv := Priv.ofCode g.savedPriv
      cm := g.savedCm &&& g.live, region := none })

/-! ### How an instruction ends -/

/-- The next word. -/
def Tg.next (g : Tg) : Tg := { g.fresh with pc := g.pc + 4 }

/-- Done, at the next word. -/
def done (s : State) : Out := .next (s.modTg Tg.next)

/-- Done after a control transfer to `pc`: every latch is invalid (R19). -/
def jump (s : State) (pc : W64) : Out := .next (s.modTg (fun g => { (g.clearLatches).fresh with pc := pc }))

/-- The instruction runs on a TG that holds the issue slot, whatever the guard. -/
def onAny (s : State) (f : Tg → Out) : Out := if s.tg.on then f s.tg else .fault .noThreadGroup

/-- The instruction runs on a TG that holds the issue slot; it reads the guard, and waits for a pending predicate first (R115). `sw`
says that it is switch-capable. -/
def onTg (s : State) (f : Tg → Out) (sw : Bool := false) : Out :=
  onAny s (fun g => if g.guardPending then registerWait s sw else f g)

/-- Done at a switch point: the lane chooses again (R17). -/
def doneSwitch (s : State) : Out := .next ((giveLane s).modTg Tg.next)

/-- The first of a list of checks that fails (R46). -/
def firstTrap : List (Option TrapInfo) → Option TrapInfo
  | [] => none
  | some i :: _ => some i
  | none :: cs => firstTrap cs

/-- The body, unless a check fails. -/
def guarded (s : State) (checks : List (Option TrapInfo)) (body : Out) : Out :=
  match firstTrap checks with
  | some i => trap s i
  | none => body

/-- A check that fails with a cause over a mask when `bad` holds. -/
def check (bad : Bool) (cause : Nat) (mask : Mask) : Option TrapInfo := if bad then some { cause := cause, mask := mask } else none

end Sys2Proof.Machine
end

