-- ==== Sys2Proof/Machine/Load.lean ====
section
/-! DEFINITION. Reading memory for threads whose accesses have been checked: from scratch, from a stash line, from the TG's own
stores, from a usable copy, or by a message to the home (R105, R107, R109, R113, R121, R141). -/

namespace Sys2Proof.Machine

/-- One thread's checked access. -/
structure Acc1 where
  t : Nat
  va : W64
  target : Target
  deriving DecidableEq, Repr, Inhabited

/-- The value that a poisoned read delivers (R266), in a container. -/
def poisonValue (et : Nat) : W128 :=
  match et with
  | 8 => 0x7E007E00
  | 9 => 0x7FC07FC0
  | 10 => 0x7FC00000
  | 11 => 0x7FF8000000000000
  | 12 => 0x80808080
  | 13 => 0x7FC000007FC000007FC000007FC00000
  | 14 => BitVec.allOnes 128
  | 0 => 0xFFFFFFFF | 1 => 0xFF | 2 => 0xFFFFFFFF | 3 => 0xFFFF
  | 6 => 0xFFFFFFFFFFFFFFFF | 7 => 0xFFFFFFFFFFFFFFFF
  | _ => 0xFFFFFFFF

/-- Bytes as they stand, delivered as gm.et gives (R324): small integers extended to 32 bits. -/
def deliverBytes (et : Nat) (b : List Byte) : W128 :=
  let x := leNat b
  if et = 0 || et = 2 then BitVec.ofNat 128 (wrapBits 32 (intVal et x)) else BitVec.ofNat 128 x

/-- A piece from bytes. -/
def mkPiece (et t : Nat) (b : List Byte) (poison : Bool) (ready : Nat) : Piece :=
  ⟨t, if poison then poisonValue et else deliverBytes et b, poison, ready⟩

/-- A round region that LDB may use for this access: none where LDB acts as LD (R141). -/
def boundedRegion (s : State) (g : Tg) (va : W64) (attr : Nat) (nc remote : Bool) : Option RoundRegion :=
  if s.det || attr ≠ 0 || nc || remote then none
  else
    match roundRegion s g.ctx (gmRr g.gm) with
    | some r => if r.holds va then some r else none
    | none => none

/-- gm.sb in rounds; none is unbounded (R49). -/
def boundOf (sb : Nat) : Option Nat := [some 0, some 1, some 2, some 4, some 8, some 16, some 64, none].getD sb none

/-- The core's view of region gm.rr is not at or after the TG's floor of it (R141). -/
def floorAhead (s : State) (g : Tg) : Bool := !atOrAfter (viewOf s g.core g.ctx (gmRr g.gm)) (vget g.floors (gmRr g.gm))

/-- A resident line with this fill region and fill round may be read by an LDB whatever its lease: the region is gm.rr and the
round is within the bound (R141). -/
def inBound (s : State) (g : Tg) (region : Option Nat) (round : W32) : Bool :=
  region = some (gmRr g.gm) &&
    (match boundOf (gmSb g.gm) with
     | none => true
     | some b => decide ((viewOf s g.core g.ctx (gmRr g.gm) - round).toNat ≤ b))

/-- The copy that an LDB may read whatever its lease (R141). -/
def staleCopy (s : State) (g : Tg) (no : Nat) : Option Copy :=
  match s.copyOf g.core no with
  | none => none
  | some c => if c.ctx = g.ctx && inBound s g c.region c.round then some c else none

/-- How one access is served. -/
inductive Served where
  | value (b : List Byte) (poison : Bool)
  | ask                                       -- a message to the home
  | stash (win idx line : Nat) (va : W64)     -- the stash line must first be filled
  | stall                                     -- LDB below the floor (R141)
  deriving DecidableEq, Repr, Inhabited

/-- Where one read finds its bytes. -/
def serve (s : State) (size : Nat) (ldb : Bool) (a : Acc1) : Served :=
  let g := s.tg
  match a.target with
  | .scratch l gg w off =>
    match s.findWg l gg w with
    | some x => .value (memBytes x.scratch off size) false
    | none => .value (memBytes [] off size) false
  | .stash win idx off line va =>
    let w := s.wg
    match w.stash.find? (fun x => x.is win idx) with
    | some x =>
      let region := if ldb then boundedRegion s g va 0 (inNcWindow (s.ctxOf g.ctx) va) false else none
      if x.owned then .value (memBytes w.scratch off size) x.poison
      else if region.isSome && floorAhead s g then .stall
      else if s.gt + 8 < x.expiry || (region.isSome && inBound s g x.region x.round) then .value (memBytes w.scratch off size) x.poison
      else .stash win idx line va
    | none =>
      if ldb && (boundedRegion s g va 0 (inNcWindow (s.ctxOf g.ctx) va) false).isSome && floorAhead s g then .stall
      else .stash win idx line va
  | .mem pa attr nc remote =>
    let no := lineOf pa
    let mixed := (s.toLine g.key no).any (fun m => !m.plain)
    let region := if ldb then boundedRegion s g a.va attr nc remote else none
    if region.isSome && floorAhead s g then .stall
    else if attr = 3 || remote || mixed || (s.orphaned no && attr ≠ 2) then .ask
    else if ownCovers s g.key pa size then .value (overlayOwn s g.key pa (List.replicate size 0)) false
    else
      let copy :=
        match (if region.isSome then staleCopy s g no else none) with
        | some c => some c
        | none => match s.copyOf g.core no with
          | some c => if c.usable s.gt then some c else none
          | none => none
      match copy with
      | some c => .value (overlayOwn s g.key pa ((c.data.drop (pa % 128)).take size)) c.poison
      | none => .ask

/-- The fill that an access requests (R119, R113, R139). -/
def fillReq (s : State) (va : W64) (attr : Nat) (nc remote : Bool) : FillReq :=
  let g := s.tg
  let region := fillRegion s g.ctx (gmRr g.gm) va
  let round := match region with | some r => viewOf s g.core g.ctx r | none => 0
  ⟨g.lease.toNat, nc, region, round, attr ≠ 3 && !remote⟩

/-- What a set of reads came to: pieces at hand, messages to send, lines a stash must fill, or a stall. -/
structure Gathered where
  got : List Piece
  msgs : List Msg
  fills : List (Nat × Nat × Nat × W64)
  stall : Bool
  deriving DecidableEq, Repr, Inhabited

/-- Every thread's read, in ascending order, for operation `op`, as values of type `et`. -/
def gather (s : State) (et op size : Nat) (ldb : Bool) (accs : List Acc1) : Gathered :=
  let g := s.tg
  accs.foldl (fun r a =>
    match serve s size ldb a with
    | .value b poison => { r with got := r.got ++ [mkPiece et a.t b poison 0] }
    | .stall => { r with stall := true }
    | .stash win idx line va => { r with fills := r.fills ++ [(win, idx, line, va)] }
    | .ask =>
      match a.target with
      | .mem pa attr nc remote =>
        { r with msgs := r.msgs ++ [{ tg := g.key, op := op, t := a.t, core := g.core, ctx := g.ctx, pa := pa
                                      rep := attr = 2, dev := attr = 3, ask := .fill size (fillReq s a.va attr nc remote) }] }
      | _ => r) ⟨[], [], [], false⟩

/-- The pages of a set of accesses cached, and the core's views of their fill regions and of region gm.rr taken (R101, R138,
R139). -/
def cachePages (s : State) (accs : List Acc1) : State :=
  let note := fun (s : State) (va : W64) =>
    noteView (noteFill (cachePage s s.tg.core s.tg.ctx va) s.tg.core s.tg.ctx (gmRr s.tg.gm) va) s.tg.core s.tg.ctx (gmRr s.tg.gm)
  accs.foldl (fun s a =>
    match a.target with
    | .mem _ _ _ _ => note s a.va
    | .stash _ _ _ _ va => note s va
    | .scratch _ _ _ _ => s) s

/-- The TG's held quantum atomics go out before a later access of it to the same bytes (R127). -/
def sendHeld (s : State) (accs : List Acc1) : State :=
  if accs.any (fun a => match a.target with
      | .mem pa _ _ _ => s.tg.quantum.any (fun q => q.pa / 16 = pa / 16)
      | _ => false)
  then sendQuantum s s.tg.key else s

/-- What every access but a quantum atomic does before it goes out. -/
def touchPages (s : State) (accs : List Acc1) : State := sendHeld (cachePages s accs) accs

/-- Requests for the stash lines that reads need. -/
def askFills (s : State) (fills : List (Nat × Nat × Nat × W64)) : State :=
  fills.foldl (fun s f => askStash s f.1 f.2.1 f.2.2.1 false f.2.2.2) s

/-- The path of a set of accesses (R114): G when any is translated. DESIGN CHOICE (log 70): an instruction whose threads name scratch
and translated addresses is one operation on G (R114 gives one path, R325 and R366 the path of each thread). -/
def pathOf (accs : List Acc1) : Path :=
  if accs.any (fun a => match a.target with | .mem _ _ _ _ => true | _ => false) then .g else .s

/-- Accesses to homes on the device. -/
def nearCount (accs : List Acc1) : Nat :=
  (accs.filter (fun a => match a.target with | .mem _ _ _ r => !r | _ => false)).length

def anyRemote (accs : List Acc1) : Bool :=
  accs.any (fun a => match a.target with | .mem _ _ _ r => r | _ => false)

/-- A read that the waiting instruction takes itself, as its read number k. -/
inductive SyncRead where
  | values (got : List Piece)
  | waits (s : State)
  deriving Repr, Inhabited

/-- The values, as type `et`, if they are at hand; else the request is under way and the instruction waits. -/
def syncRead (s : State) (k et size : Nat) (accs : List Acc1) : SyncRead :=
  let g := s.tg
  match g.held.find? (fun h => h.pc = g.pc && h.k = k) with
  | some h => .values h.got
  | none =>
    if g.ops.any (fun o => o.sync = some k && o.pc = g.pc && !o.done) then .waits s
    else
      let s := touchPages s accs
      let r := gather s et g.nextOp size false accs
      if r.stall || r.fills ≠ [] then .waits (askFills s r.fills)
      else if r.msgs = [] then .values r.got
      else
        let o := { g.opOn (some (pathOf accs)) with need := r.msgs.length, got := r.got, load := true, sync := some k
                                                    sink := some ⟨.zr, BitVec.ofNat 4 et, 0xFF, false⟩
                                                    remote := anyRemote accs }
        .waits ({ s with net := s.net ++ r.msgs }.modTg (fun g => g.addOp o))

end Sys2Proof.Machine
end

