-- ==== Sys2Proof/Machine/Operands.lean ====
section
/-! DEFINITION. Operand forms (R41-R45): which codes are legal where, reading sources in the order of R44 with queue pops (R164)
and stream vectors (R182), writing destinations, and the instruction that finds no active thread (R27). -/

namespace Sys2Proof.Machine

/-! ### Queues (R162-R164) -/

/-- Bytes of a FIFO as words. -/
def wordsOf : List Byte → List W32
  | a :: b :: c :: d :: rest => BitVec.ofNat 32 (leNat [a, b, c, d]) :: wordsOf rest
  | _ => []

def State.fifo (s : State) (p : Nat) : Fifo := (s.wg.fifos.find? (fun f => f.port = p)).getD ⟨p, [], []⟩

/-- The words that stand in a port's FIFO. -/
def portWords (s : State) (p : Nat) : List W32 :=
  if p = 0x10 then s.tg.rayOut
  else if p = 0x11 then s.ctx.kindling
  else if p = 0x00 then wordsOf (s.tg.aFifo.map (fun b => b.1))
  else wordsOf ((s.fifo p).data.map (fun b => b.1))

/-- Capacity in words (R162). -/
def portCapacity (p : Nat) : Nat :=
  if p ≤ 4 then 2048 else if 8 ≤ p && p ≤ 0xB then 512 else if p = 0x10 then 40 else if p = 0x11 then 1024 else 256

/-- The port has an agent (R162). -/
def portExists (p : Nat) : Bool :=
  p ≤ 4 || (8 ≤ p && p ≤ 0xB) || p = 0x10 || p = 0x11 || (0x20 ≤ p && p ≤ 0x3F)

/-- Push bindings are allowed to the matrix, drain and user FIFOs; pop bindings to every port; words are popped by ordinary
instructions from all but the matrix FIFOs (R162, R163). -/
def pushable (p : Nat) : Bool := p ≤ 4 || (8 ≤ p && p ≤ 0xB) || (0x20 ≤ p && p ≤ 0x3F)
def wordPop (p : Nat) : Bool := 4 < p

def State.modFifo (s : State) (p : Nat) (f : Fifo → Fifo) : State :=
  s.modMyWg (fun w =>
    { w with fifos := if w.fifos.any (fun x => x.port = p) then replaceFirst (fun x => x.port = p) f w.fifos
                      else f ⟨p, [], []⟩ :: w.fifos })

/-- The first n words leave a port's FIFO. -/
def popWords (s : State) (p n : Nat) : State :=
  if p = 0x10 then s.modTg (fun g => { g with rayOut := g.rayOut.drop n })
  else if p = 0x11 then s.modCtx s.tg.ctx (fun x => { x with kindling := x.kindling.drop n })
  else s.modFifo p (fun f => { f with data := f.data.drop (4 * n) })

/-- A byte pushed by a queue register: untagged, scale 0. -/
def plainByte (b : Byte) : InByte := ⟨b, false, (none, 0, false, false)⟩

/-- A sidecar entry with its mixed bit set when what joins it is itself mixed, or of another tag or scale. -/
def mixSide (x e : Side) : Side :=
  (e.1, e.2.1, e.2.2.1 || x.2.2.1 || !(e.1 == x.1 && e.2.1 == x.2.1 && e.2.2.2 == x.2.2.2), e.2.2.2)

/-- The last sidecar entry, joined by a byte. -/
def mixLast (x : Side) : List Side → List Side
  | [] => []
  | [e] => [mixSide x e]
  | e :: es => e :: mixLast x es

/-- One byte into a matrix FIFO and its sidecar: one entry for each 128 bytes since the FIFO was last empty (R162, R170). -/
def intoFifo (d : List (Byte × Bool)) (side : List Side) (x : InByte) : List (Byte × Bool) × List Side :=
  (d ++ [(x.b, x.bad)], if d.length % 128 = 0 then side ++ [x.side] else mixLast x.side side)

def allIntoFifo (d : List (Byte × Bool)) (side : List Side) (xs : List InByte) : List (Byte × Bool) × List Side :=
  xs.foldl (fun a x => intoFifo a.1 a.2 x) (d, side)

/-- Bytes pushed into a matrix, drain or user FIFO. -/
def pushBytes (s : State) (p : Nat) (data : List InByte) : State :=
  if p = 0x00 then
    s.modTg (fun g => let r := allIntoFifo g.aFifo g.aSide data; { g with aFifo := r.1, aSide := r.2 })
  else if p ≤ 4 then
    s.modFifo p (fun f => let r := allIntoFifo f.data f.side data; { f with data := r.1, side := r.2 })
  else s.modFifo p (fun f => { f with data := f.data ++ data.map (fun x => (x.b, x.bad)) })

/-- Bytes that stand in a port's FIFO. -/
def portFill (s : State) (p : Nat) : Nat :=
  if p = 0x10 then 4 * s.tg.rayOut.length
  else if p = 0x11 then 4 * s.ctx.kindling.length
  else if p = 0x00 then s.tg.aFifo.length else (s.fifo p).data.length

/-- The binding of a queue register. -/
def Tg.binding (g : Tg) (n : BitVec 3) : Option Binding := vget g.q n.toNat

/-! ### Legal operands (R41-R43) -/

def isSReg : Opnd → Bool | .s _ => true | _ => false
def isVReg : Opnd → Bool | .v _ => true | _ => false
def isQReg : Opnd → Bool | .q _ => true | _ => false

/-- An operand names a q register, which makes its instruction switch-capable (R19). -/
def anyQ (os : List Opnd) : Bool := os.any isQReg

/-- v and s codes within the declared counts and aligned for `bits` (R42, R43). -/
def vOk (h : Header) (bits : Nat) (n : BitVec 6) : Bool :=
  let k := bits / 32
  n.toNat % k = 0 && n.toNat + k ≤ h.vregs

def sOk (h : Header) (bits : Nat) (n : BitVec 5) : Bool :=
  if bits = 128 then n.toNat % 2 = 0 && n.toNat + 2 ≤ h.sregs else n.toNat < h.sregs

/-- A stream code can be used in a direction (R41, R182); one whose SPCFG is outstanding is judged when its descriptor has come
(R363). -/
def streamOk (g : Tg) (n : BitVec 3) (write uniform : Bool) : Bool :=
  match vget g.sp n.toNat with
  | none => g.confPending n.toNat && !uniform
  | some x => !uniform && (g.confPending n.toNat || (x.write == write && etBytes x.type.toNat = etBytes g.et))

/-- A q code with no binding (R163): Trap(0x0E), a check of R46's order 6. -/
def unbound (g : Tg) (o : Opnd) : Bool := match o with | .q n => (g.binding n).isNone | _ => false

/-- The cause of an illegal source of `bits` bits (R41). -/
def readCause (h : Header) (g : Tg) (uniform : Bool) (o : Opnd) (bits : Nat) : Option Nat :=
  let bad := fun (c : Bool) => if c then none else some 0x02
  match o with
  | .v n => bad (vOk h bits n)
  | .b n => bad (bits ≠ 128 && vget g.bv n.toNat)
  | .zr => none
  | .tix => none
  | .rsv _ => some 0x02
  | .p _ => none
  | .sp n => bad (streamOk g n false uniform)
  | .q n =>
    if h.queues ≤ n.toNat || bits ≠ 32 then some 0x02
    else match g.binding n with
      | none => none
      | some b => bad (b.dir != .push && wordPop b.port.toNat)
  | .s n => bad (sOk h bits n)

/-- The cause of an illegal destination of `bits` bits (R41). -/
def writeCause (h : Header) (g : Tg) (uniform : Bool) (o : Opnd) (bits : Nat) : Option Nat :=
  let bad := fun (c : Bool) => if c then none else some 0x02
  match o with
  | .v n => bad (vOk h bits n)
  | .b _ => some 0x02
  | .zr => none
  | .tix => some 0x02
  | .rsv _ => some 0x02
  | .p _ => none
  | .sp n => bad (streamOk g n true uniform)
  | .q n =>
    if h.queues ≤ n.toNat || bits ≠ 32 then some 0x02
    else match g.binding n with
      | none => none
      | some b => bad (b.dir = .push)
  | .s n => bad (sOk h bits n)

/-- A base or similar address operand: an s register or an even v register naming a pair (R325). -/
def addrOk (h : Header) (o : Opnd) : Bool :=
  match o with
  | .s n => sOk h 64 n
  | .v n => vOk h 64 n
  | _ => false

/-- An s register within the declared count. -/
def sRegOk (h : Header) (o : Opnd) : Bool := match o with | .s n => sOk h 64 n | _ => false

def sOrZr (h : Header) (o : Opnd) : Bool := match o with | .s n => sOk h 64 n | .zr => true | _ => false

/-- A check from a cause. -/
def causeTrap (c : Option Nat) (mask : Mask) : Option TrapInfo := c.map (fun k => { cause := k, mask := mask })

/-! ### Reading plain operands (R5, R43) -/

/-- `n` registers from v register k on, for thread t. -/
def vWords (g : Tg) (k t : Nat) : Nat → Nat
  | 0 => 0
  | n + 1 => (vget (vget g.v k) t).toNat + 2 ^ 32 * vWords g (k + 1) t n

/-- The value of an operand that is neither a queue nor a stream, of `bits` bits, for thread t. -/
def readPlain (g : Tg) (o : Opnd) (bits t : Nat) : W128 :=
  match o with
  | .v n => BitVec.ofNat 128 (vWords g n.toNat t (bits / 32))
  | .b n => BitVec.ofNat 128 ((vget (vget g.b n.toNat) t).toNat % 2 ^ bits)
  | .tix => BitVec.ofNat 128 t
  | .p n => BitVec.ofNat 128 (vget g.p n.toNat).toNat
  | .s n =>
    let lo := (vget g.s n.toNat).toNat
    if bits = 128 then BitVec.ofNat 128 (lo + 2 ^ 64 * (vget g.s (n.toNat + 1)).toNat)
    else BitVec.ofNat 128 (lo % 2 ^ bits)
  | _ => 0

/-- The whole 64-bit value of an s register (0 for zr). -/
def readS (g : Tg) (o : Opnd) : W64 := match o with | .s n => vget g.s n.toNat | _ => 0

/-! ### Reading every source of an instruction (R44) -/

/-- Sources as read: for each, the eight threads' values; the threads that read poison; the state after the pops; the streams
that the instruction has consumed when it completes. -/
structure Reads where
  vals : List (Vector W128 8)
  poison : Mask
  st : State
  streams : List Nat
  deriving Repr, Inhabited

inductive Ready where
  | go (r : Reads)
  | stop (o : Out)
  deriving Repr, Inhabited

/-- The value for source `i`, thread `t`. -/
def Reads.at (r : Reads) (i t : Nat) : W128 := vget (r.vals.getD i (Vector.replicate 8 0)) t

/-- Queues that sources or destinations name: port and words, in order. -/
def queueWords (g : Tg) (xs : List (Opnd × Nat)) (threads : Nat) : List (Nat × Nat) :=
  xs.filterMap (fun x => match x.1 with
    | .q n => (g.binding n).map (fun b => (b.port.toNat, threads))
    | _ => none)

/-- Words that an instruction moves through one port. -/
def wordsFor (p : Nat) (xs : List (Nat × Nat)) : Nat := (xs.filter (fun x => x.1 = p)).foldl (fun n x => n + x.2) 0

/-- An instruction needs more words of one FIFO than it holds at most (R164). -/
def tooMany (xs : List (Nat × Nat)) : Bool := xs.any (fun x => portCapacity x.1 < wordsFor x.1 xs)

/-- A copy stands in the middle of its contiguous run into a port's FIFO (R167). -/
def portBusy (s : State) (p : Nat) : Bool :=
  s.copies.any (fun c => c.ports.any (fun x => x.1 = p && x.2 ≠ 0) && c.tg.launch = s.tg.key.launch && c.tg.gang = s.tg.key.gang
    && c.tg.wg = s.tg.key.wg && (p ≠ 0 || c.tg.tg = s.tg.key.tg))

/-- Port `p` is one FIFO for both TGs: their own ports are not, the kindling queue is the context's, the rest the workgroup's
(R162). -/
def sameFifo (g h : Tg) (p : Nat) : Bool :=
  g.key = h.key || (if p = 0x11 then g.ctx = h.ctx
    else p ≠ 0 && p ≠ 0x10 && g.key.launch = h.key.launch && g.key.gang = h.key.gang && g.key.wg = h.key.wg)

/-- An instruction stands in line at a port's FIFO, as `g` sees the port, having come there before `no` (R164). -/
def inLine (s : State) (g : Tg) (p : Nat) (push : Bool) (no : Option Nat) : Bool :=
  s.allTgs.any (fun h => h.on && sameFifo g h p
    && h.place.any (fun x => x.port = p && x.push == push && (match no with | some n => decide (x.no < n) | none => true)))

/-- An earlier instruction waits at a FIFO that the issuing TG's instruction pops or pushes (R164). -/
def behind (s : State) (p : Nat) (push : Bool) : Bool :=
  inLine s s.tg p push ((s.tg.place.find? (fun x => x.port = p && x.push == push)).map (fun x => x.no))

/-- Every source queue holds its words, every destination queue has room, and the instruction is first in line at each (R164). -/
def queuesReady (s : State) (pops pushes : List (Nat × Nat)) : Bool :=
  pops.all (fun x => wordsFor x.1 pops ≤ (portWords s x.1).length && !behind s x.1 false)
    && pushes.all (fun x => !portBusy s x.1 && !behind s x.1 true)
    && pushes.all (fun x => portFill s x.1 + 4 * wordsFor x.1 pushes ≤ 4 * portCapacity x.1)

/-- The instruction takes its places in the lines at its FIFOs, if it has none yet. -/
def lineUp (s : State) (pops pushes : List (Nat × Nat)) : State :=
  s.modTg (fun g =>
    if g.place = [] then { g with place := pops.map (fun x => ⟨x.1, false, s.ctr⟩) ++ pushes.map (fun x => ⟨x.1, true, s.ctr⟩) }
    else g)

/-- The wait of R164, and of what else the instruction waits for: in line, where the queues are not ready. -/
def queueWait (s : State) (pops pushes : List (Nat × Nat)) : Out :=
  waitIn (if queuesReady s pops pushes then s else lineUp s pops pushes) false

/-- Position p of a stream (R182). -/
def Stream.addr (x : Stream) (p : Nat) : W64 :=
  let inner := max 1 x.inner.toNat
  x.base + BitVec.ofInt 64 ((p / inner : Nat) * x.outer.toInt + (p % inner : Nat) * x.stride.toInt)

/-- The accesses of a stream's vector number k for the threads of a mask; positions at or beyond count make none (R182). -/
def streamVas (x : Stream) (k : Nat) (m : Mask) : List (Nat × W64) :=
  ((beatsOf m).filter (fun t => 8 * k + t < x.count.toNat)).map (fun t => (t, x.addr (8 * k + t)))

/-- A check of each of a list of thread addresses: the fault, or the accesses. -/
def checkEach (acc : Access) (one : W64 → Except Nat Target) (xs : List (Nat × W64)) : Option TrapInfo × List Acc1 :=
  let rs := xs.map (fun x => (x.1, x.2, one x.2))
  (threadFault acc (rs.map (fun r => (r.1, r.2.1, errOf r.2.2))),
   rs.filterMap (fun r => match r.2.2 with | .ok t => some ⟨r.1, r.2.1, t⟩ | .error _ => none))

/-- R97 for a list of thread addresses. -/
def checkAll (s : State) (acc : Access) (size align : Nat) (xs : List (Nat × W64)) : Option TrapInfo × List Acc1 :=
  checkEach acc (checkAccess s s.tg acc size align) xs

/-- A further check of a place that has passed R97. -/
def thenCheck (extra : Target → Option Nat) (x : Except Nat Target) : Except Nat Target :=
  match x with
  | .ok t => (match extra t with | some e => .error e | none => .ok t)
  | .error e => .error e

/-- How often the streams of a list were consumed before its end, for stream n. -/
def consumedOf (n : Nat) (xs : List Nat) : Nat := (xs.filter (fun m => m = n)).length

/-- Values of pieces by thread. -/
def pieceVector (got : List Piece) : Vector W128 8 :=
  got.foldl (fun v p => vset v p.t p.data) (Vector.replicate 8 0)

def piecePoison (got : List Piece) : Mask := got.foldl (fun m p => if p.poison then m ||| (1#8 <<< p.t) else m) 0

/-- The values of the eight threads of a plain operand, for the threads of a mask. -/
def plainVector (g : Tg) (o : Opnd) (bits : Nat) (m : Mask) : Vector W128 8 :=
  (beatsOf m).foldl (fun v t => vset v t (readPlain g o bits t)) (Vector.replicate 8 0)

/-- Words handed to the threads of a mask in ascending order. -/
def dealWords (ws : List W32) (ts : List Nat) : Vector W128 8 :=
  (ts.zip ws).foldl (fun v x => vset v x.1 (x.2.setWidth 128)) (Vector.replicate 8 0)

/-- The values of the waiting instruction's read number k have come, and were counted when they were asked for. -/
def seenRead (g : Tg) (k : Nat) : Bool := g.held.any (fun h => h.pc = g.pc && h.k = k)

/-- The counter of the path of a set of accesses is at its maximum: an issue that would raise it waits (R114). -/
def pathFull (g : Tg) (accs : List Acc1) : Bool := accs != [] && decide (255 ≤ g.count (pathOf accs))

/-- A stream's reads whose values are at hand, counted behind the outstanding operations of their path (R114, R182). -/
def countRead (s : State) (accs : List Acc1) : State := if accs = [] then s else s.modTg (fun g => g.doneOp (pathOf accs))

/-- Reads the sources in order (R44). Queue words come from the front of each port's FIFO; a stream's values are read from memory
under the checks of R97. The wait for them gives up the lane only under the condition of R115; `sw` says that the instruction is
switch-capable. -/
def readSources (s : State) (sw : Bool) (m : Mask) : List (Opnd × Nat) → Nat → Reads → Ready
  | [], _, r => .go r
  | (o, bits) :: rest, k, r =>
    let ts := beatsOf m
    match o with
    | .q n =>
      match s.tg.binding n with
      | none => readSources s sw m rest (k + 1) { r with vals := r.vals ++ [Vector.replicate 8 0] }
      | some b =>
        let p := b.port.toNat
        let v := dealWords ((portWords r.st p).take ts.length) ts
        readSources s sw m rest (k + 1) { r with vals := r.vals ++ [v], st := popWords r.st p ts.length }
    | .sp n =>
      match vget s.tg.sp n.toNat with
      | none => readSources s sw m rest (k + 1) { r with vals := r.vals ++ [Vector.replicate 8 0] }
      | some x =>
        let size := etBytes s.tg.et
        let (fault, accs) := checkAll s .read size size (streamVas x (x.pos + consumedOf n.toNat r.streams) m)
        if s.tg.acquiring then .stop (registerWait s sw) else
        match fault with
        | some i => .stop (trap s i)
        | none =>
          if !seenRead s.tg k && pathFull r.st.tg accs then .stop (registerWait s sw) else
          match syncRead s k s.tg.et size accs with
          | .waits s => .stop (registerWait s sw)
          | .values got =>
            readSources s sw m rest (k + 1)
              { r with vals := r.vals ++ [pieceVector got], poison := r.poison ||| piecePoison got
                       st := if seenRead s.tg k then r.st else countRead r.st accs, streams := r.streams ++ [n.toNat] }
    | _ => readSources s sw m rest (k + 1) { r with vals := r.vals ++ [plainVector s.tg o bits m] }

/-! ### Shapes -/

/-- An instruction's operands: sources with their widths, destination with its width, switch-capable or not. -/
structure Shape where
  reads : List (Opnd × Nat)
  dst : Opnd
  dbits : Nat
  sw : Bool
  deriving DecidableEq, Repr, Inhabited

def Shape.uniform (x : Shape) : Bool := isSReg x.dst

/-- Switch-capable: by its kind, or because it names a queue (R19). -/
def Shape.switches (x : Shape) : Bool := x.sw || isQReg x.dst || x.reads.any (fun r => isQReg r.1)

/-- The first illegal operand, sources in order, then the destination. -/
def Shape.operandTrap (x : Shape) (s : State) (mask : Mask) : Option TrapInfo :=
  let g := s.tg
  let h := s.hdr
  firstTrap (x.reads.map (fun r => causeTrap (readCause h g x.uniform r.1 r.2) mask)
    ++ [causeTrap (writeCause h g x.uniform x.dst x.dbits) mask,
        check (tooMany (queueWords g x.reads (if x.uniform then 1 else (beatsOf mask).length))
          || tooMany (queueWords g [(x.dst, x.dbits)] (if x.uniform then 1 else (beatsOf mask).length))) 0x02 mask])

/-- A q code among the operands has no binding: taken after the checks of R46's orders 4 and 5 (R163). -/
def Shape.bindTrap (x : Shape) (s : State) (mask : Mask) : Option TrapInfo :=
  check (x.reads.any (fun r => unbound s.tg r.1) || unbound s.tg x.dst) 0x0E mask

/-- Some register or latch that the instruction reads or writes is pending (R115). -/
def Shape.pending (x : Shape) (g : Tg) : Bool :=
  (x.reads ++ [(x.dst, x.dbits)]).any (fun r =>
    match r.1 with
    | .b n => g.latchPending n.toNat
    | o => (opndSpan o r.2).any g.pending)

/-- The latch reads of an instruction that finds no active thread are still checked (R27). -/
def latchTrap (g : Tg) (reads : List Opnd) (mask : Mask) : Option TrapInfo :=
  check (reads.any (fun o => match o with | .b n => !vget g.bv n.toNat | _ => false)) 0x02 mask

/-- Latch validity after an instruction (R19). -/
def Tg.after (g : Tg) (sw : Bool) : Tg := if sw then g.loseOlder else g

/-- An instruction with no active thread (R27): with a result, zeros enter b0. -/
def idle (s : State) (reads : List Opnd) (result sw : Bool) : Out :=
  guarded s [latchTrap s.tg reads 0]
    (done (s.modTg (fun g => (if result then g.shift zeroLatch none else g).after sw)))

/-! ### Writing destinations (R41, R43) -/

/-- 32 bits or fewer written to an s register (R43): sign-extended from bit 31 for the signed types, else zero-extended. -/
def extendS (sext : Bool) (x : Nat) : W64 :=
  if sext then (BitVec.ofNat 32 x).signExtend 64 else BitVec.ofNat 64 (x % 2 ^ 32)

/-- Types whose 32-bit values are sign-extended in an s register. -/
def etSext (et : Nat) : Bool := et = 0 || et = 2 || et = 4

/-- `n` registers from v register k on, for thread t. -/
def setVWords (g : Tg) (k t x : Nat) : Nat → Tg
  | 0 => g
  | n + 1 =>
    setVWords { g with v := vset g.v k (vset (vget g.v k) t (BitVec.ofNat 32 x)) } (k + 1) t (x / 2 ^ 32) n

/-- The value written for thread t to a v, s or p register; zr discards it. -/
def writeReg (g : Tg) (o : Opnd) (bits : Nat) (sext : Bool) (t : Nat) (x : W128) : Tg :=
  match o with
  | .v n => setVWords g n.toNat t x.toNat (bits / 32)
  | .p n =>
    let old := vget g.p n.toNat
    { g with p := vset g.p n.toNat (if x.getLsbD 0 then old ||| (1#8 <<< t) else old &&& ~~~ (1#8 <<< t)) }
  | .s n =>
    if bits = 128 then
      { g with s := vset (vset g.s n.toNat (x.extractLsb' 0 64)) (n.toNat + 1) (x.extractLsb' 64 64) }
    else if bits = 64 then { g with s := vset g.s n.toNat (x.extractLsb' 0 64) }
    else { g with s := vset g.s n.toNat (extendS sext x.toNat) }
  | _ => g

/-- What a result puts into b0 for a thread (R18). -/
def latchValue (o : Opnd) (bits : Nat) (sext : Bool) (x : W128) : W64 :=
  match o with
  | .p _ => BitVec.ofNat 64 (x.toNat % 2)
  | .s _ => if bits = 32 then extendS sext x.toNat else x.extractLsb' 0 64
  | _ => if bits = 32 then BitVec.ofNat 64 (x.toNat % 2 ^ 32) else x.extractLsb' 0 64

/-- The accesses of a destination stream (R182): the fault, or the accesses. -/
def destStream (s : State) (o : Opnd) (m : Mask) (streams : List Nat) : Option TrapInfo × List Acc1 :=
  match o with
  | .sp n =>
    match vget s.tg.sp n.toNat with
    | none => (none, [])
    | some x => let size := etBytes s.tg.et; checkAll s .write size size (streamVas x (x.pos + consumedOf n.toNat streams) m)
  | _ => (none, [])

/-- Stash lines that a store needs and the workgroup does not own. -/
def needOwn (s : State) (accs : List Acc1) : List Acc1 :=
  accs.filter (fun a => match a.target with
    | .stash win idx _ _ _ => !stashOwned s.wg win idx
    | _ => false)

def askOwns (s : State) (accs : List Acc1) : State :=
  accs.foldl (fun s a => match a.target with
    | .stash win idx _ line va => askStash s win idx line true va
    | _ => s) s

/-- A store of each thread's bytes, in ascending order, for operation `op` (R366, R367). -/
def storeAll (s : State) (op : Nat) (floor : Nat) (xs : List (Acc1 × List Byte)) : State :=
  xs.foldl (fun s x =>
    match x.1.target with
    | .scratch l g w off => scratchStore s l g w off x.2
    | .stash _ _ off _ _ => scratchStore s s.wg.launch s.wg.gang s.wg.no off x.2
    | .mem pa attr nc _ => sendStore s op x.1.t pa attr nc x.2 floor) s

/-- Messages that a set of stores sends. -/
def storeCount (accs : List Acc1) : Nat :=
  (accs.filter (fun a => match a.target with | .mem _ _ _ _ => true | _ => false)).length

/-- The operation of a set of stores, counted on G until every acknowledgement has come, or on S, where they are performed at once
(R114). -/
def storeOp (s : State) (accs : List Acc1) : State :=
  if accs = [] then s
  else if storeCount accs = 0 then s.modTg (fun g => g.doneOp .s)
  else s.modTg (fun g => g.addOp { g.opOn (some .g) with need := storeCount accs, remote := anyRemote accs })

/-- The streams that an instruction consumed move on by one vector each. -/
def advanceStreams (g : Tg) (xs : List Nat) : Tg :=
  xs.foldl (fun g n => { g with sp := vset g.sp n ((vget g.sp n).map (fun x => { x with pos := x.pos + 1 })) }) g

/-- Writes a vector result: to registers, to a queue in ascending t, or through a stream. -/
def writeVector (s : State) (o : Opnd) (bits : Nat) (m : Mask) (vals : Vector W128 8) (accs : List Acc1) : State :=
  match o with
  | .q n =>
    match s.tg.binding n with
    | some b => pushBytes s b.port.toNat ((beatsOf m).flatMap (fun t => (natLe 4 (vget vals t).toNat).map plainByte))
    | none => s
  | .sp n =>
    let size := etBytes s.tg.et
    let s := touchPages s accs
    let op := s.tg.nextOp
    let s := storeOp s accs
    let s := storeAll s op 0 (accs.map (fun a => (a, natLe size (vget vals a.t).toNat)))
    s.modTg (fun g => advanceStreams g [n.toNat])
  | _ => s.modTg (fun g => (beatsOf m).foldl (fun g t => writeReg g o bits false t (vget vals t)) g)

/-- The latches' new b0 for a vector result. -/
def latchOf (o : Opnd) (bits : Nat) (m : Mask) (vals : Vector W128 8) : Vector W64 8 :=
  (beatsOf m).foldl (fun v t => vset v t (latchValue o bits false (vget vals t))) zeroLatch

end Sys2Proof.Machine
end

