-- ==== Sys2Proof/Machine/Flags.lean ====
section
/-! DEFINITION. Sticky flags and their traps (R71-R73), and the one mould of the instructions that read operands, compute for
each thread and write a destination (R12, R18, R27, R44-R46). -/

namespace Sys2Proof.Machine

/-- What an instruction computes for a thread: the result, the flags, and the further registers of a run. -/
structure Elem where
  val : W128
  flags : Byte := 0
  more : List W128 := []
  deriving DecidableEq, Repr, Inhabited

/-- The flags of the threads of a mask, together. -/
def flagsOf (m : Mask) (fl : Nat → Byte) : Byte := (beatsOf m).foldl (fun b t => b ||| fl t) 0

/-- The trap that raised flags call for, if their enable bits are set (R73): poison first. -/
def flagTrap (fptrap : Byte) (m : Mask) (fl : Nat → Byte) : Option TrapInfo :=
  let pz := m &&& maskOf (fun t => fl t &&& flagPz != 0)
  let en := fptrap &&& 0x1F
  let fp := m &&& maskOf (fun t => fl t &&& en != 0)
  if fptrap &&& flagPz != 0 && pz != 0 then some { cause := 0x12, mask := pz }
  else if fp != 0 then some { cause := 0x0B, mask := fp }
  else none

/-- The instruction's flags set in FLAGS (R71). -/
def State.raise (s : State) (b : Byte) : State := s.modTg (fun g => { g with flags := g.flags ||| b })

/-- The threads that read the sources: a uniform instruction reads for its lowest thread (R45). -/
def Shape.readers (x : Shape) (m : Mask) : Mask := if x.uniform then 1#8 <<< lowest m else m

/-- Further destination registers of a run, written for the threads of a mask. -/
def writeMore (g : Tg) (ds : List Opnd) (bits : Nat) (sext : Bool) (m : Mask) (e : Nat → Elem) : Tg :=
  (beatsOf m).foldl (fun g t =>
    (ds.zip (e t).more).foldl (fun g x => writeReg g x.1 bits sext t x.2) g) g

/-- The result of an instruction written and latched, its streams consumed, at the next word. `sext` extends an s result. -/
def finishElem (s : State) (x : Shape) (more : List Opnd) (sext : Bool) (m : Mask) (streams : List Nat) (accs : List Acc1)
    (e : Nat → Elem) (post : Tg → Tg) : State :=
  if x.uniform then
    let y := (e (lowest m)).val
    s.modTg (fun g =>
      let g := writeReg g x.dst x.dbits sext 0 y
      let g := writeMore g more x.dbits sext (1#8 <<< lowest m) e
      let g := g.shift (sameLatch (latchValue x.dst x.dbits sext y)) none
      post ((advanceStreams g streams).after x.switches))
  else
    let vals := (beatsOf m).foldl (fun v t => vset v t (e t).val) (Vector.replicate 8 0)
    let s := writeVector s x.dst x.dbits m vals accs
    s.modTg (fun g =>
      let g := writeMore g more x.dbits false m e
      let g := g.shift (latchOf x.dst x.dbits m vals) none
      post ((advanceStreams g streams).after x.switches))

/-- After the sources: the flags, their trap, and the result. `rm` is the mask whose threads raise the flags. -/
def computeElem (x : Shape) (more : List Opnd) (sext : Bool) (m rm : Mask) (accs : List Acc1) (r : Reads)
    (f : Reads → Nat → Elem) (post : Reads → Tg → Tg) : Out :=
  let e := fun t => let y := f r t; { y with flags := y.flags ||| (if bitOf r.poison t then flagPz else 0) }
  let fl := fun t => (e t).flags
  let s := r.st.raise (flagsOf rm fl)
  match flagTrap s.tg.fptrap rm fl with
  | some i => trap s i
  | none => done (finishElem s x more sext m r.streams accs e (post r))

/-- Queues, the destination stream's accesses (R182), then the sources and the rest. -/
def readAndCompute (s : State) (x : Shape) (more : List Opnd) (sext : Bool) (m rm : Mask) (f : Reads → Nat → Elem)
    (post : Reads → Tg → Tg) : Out :=
  let g := s.tg
  let n := (beatsOf rm).length
  let pops := queueWords g x.reads n
  let pushes := queueWords g [(x.dst, x.dbits)] n
  if !queuesReady s pops pushes then queueWait s pops pushes
  else
    let (fault, accs) := destStream s x.dst m []
    guarded s [fault]
      (if accs ≠ [] && g.acquiring then registerWait s x.switches
       else if needOwn s accs ≠ [] then registerWait (askOwns s (needOwn s accs)) x.switches
       else
         match readSources s x.switches rm x.reads 0 ⟨[], 0, s, []⟩ with
         | .stop o => o
         | .go r => if pathFull r.st.tg accs then registerWait s x.switches else computeElem x more sext m rm accs r f post)

/-- The mould: with no active thread R27; else the checks of R46 in order, the register wait of R115, the queue wait of R164, the
sources in the order of R44, the flags of R71 to R73, and the result. `m` is the mask of acting threads. -/
def elemInstr (s : State) (x : Shape) (more : List Opnd) (typeOk sext : Bool) (m : Mask) (whole : Bool)
    (own : List (Option TrapInfo)) (f : Reads → Nat → Elem) (post : Reads → Tg → Tg) : Out :=
  if m = 0 then idle s (x.reads.map (fun r => r.1)) true x.switches
  else
    let g := s.tg
    guarded s ([x.operandTrap s m] ++ more.map (fun d => causeTrap (writeCause s.hdr g x.uniform d x.dbits) m)
        ++ [check (!typeOk) 0x13 m, x.bindTrap s m] ++ own)
      (if x.pending g || more.any (fun d => (opndSpan d x.dbits).any g.pending) then registerWait s x.switches
       else readAndCompute s x more sext m (if whole then m else x.readers m) f post)

/-- nw: the destination is zr and the result goes to b0 alone; rd must then be zr (R38). -/
def nwCheck (w : Bool) (d : Opnd) (m : Mask) : Option TrapInfo := check (w && d != .zr) 0x02 m

/-- The common case: sources and destination of the container of gm.et, over the active threads. -/
def plainInstr (s : State) (d : Opnd) (w : Bool) (reads : List Opnd) (sw : Bool) (types : Nat → Bool)
    (f : Tg → Reads → Nat → Elem) : Out :=
  onTg (sw := sw || anyQ (d :: reads)) s (fun g =>
    let bits := etContainer g.et
    let m := g.active
    let x : Shape := ⟨reads.map (fun o => (o, bits)), d, bits, sw⟩
    if m ≠ 0 && w && d ≠ .zr then trap s { cause := 0x02, mask := m }
    else elemInstr s x [] (types g.et) (etSext g.et) m false [] (f g) (fun _ g => g))

/-! ### Elements of a container (R43) -/

/-- Elements `i` and up of a container. -/
def elemsFrom (w x : Nat) : Nat → List Nat
  | 0 => []
  | n + 1 => x % 2 ^ w :: elemsFrom w (x / 2 ^ w) n

def elemsOf (et : Nat) (x : W128) : List Nat := elemsFrom (etWidth et) x.toNat (etLanes et)

/-- Elements put together; a small integer is extended to 32 bits. -/
def packElems (et : Nat) (ys : List Nat) : W128 :=
  match ys with
  | [y] => if et = 0 || et = 2 then BitVec.ofNat 128 (wrapBits 32 (intVal et y)) else BitVec.ofNat 128 y
  | ys => BitVec.ofNat 128 (ys.foldr (fun y acc => y + 2 ^ etWidth et * acc) 0)

/-- Results of the elements as a container with the flags together. -/
def packRes (et : Nat) (rs : List Res) : Elem :=
  { val := packElems et (rs.map (fun r => r.bits)), flags := rs.foldl (fun b r => b ||| r.flags) 0 }

def lift1 (et : Nat) (f : Nat → Res) (x : W128) : Elem := packRes et ((elemsOf et x).map f)

def lift2 (et : Nat) (f : Nat → Nat → Res) (x y : W128) : Elem :=
  packRes et (((elemsOf et x).zip (elemsOf et y)).map (fun p => f p.1 p.2))

def lift3 (et : Nat) (f : Nat → Nat → Nat → Res) (x y z : W128) : Elem :=
  packRes et (((elemsOf et x).zip ((elemsOf et y).zip (elemsOf et z))).map (fun p => f p.1 p.2.1 p.2.2))

end Sys2Proof.Machine
end

