-- ==== Sys2Proof/Machine/Arith.lean ====
section
/-! DEFINITION. Opcodes 0x01-0x10 (R282, R284, R295-R297, R303-R306, R330, R331, R338, R339, R343, R351, R355, R369). -/

namespace Sys2Proof.Machine

/-- gm.et codes 0 to 12, and the integer types. -/
def anyArith (et : Nat) : Bool := et ≤ 12
def anyInt (et : Nat) : Bool := et ≤ 7

/-- An element operation: by the integer type, by the IEEE format, or in mk8. -/
def elemOp (et : Nat) (i : Int → Int → Res) (f : Fmt → Nat → Nat → Res) (k : Nat → Nat → Res) (x y : Nat) : Res :=
  if anyInt et then i (intVal et x) (intVal et y)
  else match etFmt et with | some g => f g x y | none => k x y

/-- a + b (R284). -/
def addElem (et rm : Nat) (sat : Bool) : Nat → Nat → Res :=
  elemOp et (fun a b => intResult et sat (a + b)) (fun f => f.add rm) (mk8Op Dy.add rm)

/-- a − b (R369). -/
def subElem (et rm : Nat) (sat : Bool) : Nat → Nat → Res :=
  elemOp et (fun a b => intResult et sat (a - b)) (fun f => f.sub rm) (mk8Op Dy.sub rm)

/-- a × b (R338). -/
def mulElem (et rm : Nat) (sat : Bool) : Nat → Nat → Res :=
  elemOp et (fun a b => intResult et sat (a * b)) (fun f => f.mul rm) (mk8Op Dy.mul rm)

/-- The high half of the exact product (R338). -/
def mulhElem (et : Nat) (x y : Nat) : Res :=
  .ok (wrapBits (etWidth et) (intVal et x * intVal et y / (2 ^ etWidth et : Nat)))

/-- a × b + c with one rounding (R330). -/
def madElem (et rm : Nat) (sat : Bool) (x y z : Nat) : Res :=
  if anyInt et then intResult et sat (intVal et x * intVal et y + intVal et z)
  else match etFmt et with
    | some f => f.fma rm x y z
    | none =>
      if x = mk8Nar || y = mk8Nar || z = mk8Nar then ⟨mk8Nar, flagNv⟩
      else mk8Round rm (((mk8Dy x).mul (mk8Dy y)).add (mk8Dy z))

/-- Integer division (R76, R306). -/
def idiv (et : Nat) (sat : Bool) (a b : Int) : Res :=
  if b = 0 then
    ⟨if etSigned et then wrapBits (etWidth et) (if a < 0 then intMin et else intMax et) else 2 ^ etWidth et - 1, flagIdz⟩
  else intResult et sat (a.tdiv b)

/-- Integer remainder (R76, R351). -/
def irem (et : Nat) (a b : Int) : Res :=
  if b = 0 then ⟨wrapBits (etWidth et) a, flagIdz⟩ else .ok (wrapBits (etWidth et) (a.tmod b))

def divElem (et rm : Nat) (sat : Bool) : Nat → Nat → Res :=
  elemOp et (idiv et sat) (fun f => f.div rm) (fun x _ => .ok x)

def remElem (et : Nat) (x y : Nat) : Res := irem et (intVal et x) (intVal et y)

/-- MIN and MAX (R331). -/
def minMaxElem (et : Nat) (isMax : Bool) : Nat → Nat → Res :=
  elemOp et (fun a b => .ok (wrapBits (etWidth et) (if isMax then max a b else min a b))) (fun f => f.minMax isMax)
    (fun x y => if x = mk8Nar || y = mk8Nar then ⟨mk8Nar, flagNv⟩
      else .ok (if isMax then (if (mk8Dy x).lt (mk8Dy y) then y else x) else (if (mk8Dy y).lt (mk8Dy x) then y else x)))

/-- |a| (R282). -/
def absElem (et : Nat) (sat : Bool) (x : Nat) : Res :=
  if anyInt et then intResult et sat (intVal et x).natAbs
  else match etFmt et with
    | some f => match f.nanOf [x] with | some r => r | none => .ok (f.mag x)
    | none => if x = mk8Nar then ⟨x, flagNv⟩ else .ok (x % 128)

/-- −a (R339). -/
def negElem (et : Nat) (sat : Bool) (x : Nat) : Res :=
  if anyInt et then intResult et sat (-(intVal et x))
  else match etFmt et with
    | some f => match f.nanOf [x] with | some r => r | none => .ok (f.flip x)
    | none => if x = mk8Nar then ⟨x, flagNv⟩ else if x = 0 then .ok 0 else .ok (if x < 128 then x + 128 else x - 128)

/-- Leading zeros and ones counted in the low W bits (R295, R343). -/
def clzElem (et : Nat) (x : Nat) : Res := .ok (if x = 0 then etWidth et else etWidth et - 1 - Nat.log2 x)

def popcFrom (x : Nat) : Nat → Nat
  | 0 => 0
  | n + 1 => x % 2 + popcFrom (x / 2) n

def popcElem (et : Nat) (x : Nat) : Res := .ok (popcFrom x (etWidth et))

/-! ### The meanings -/

def execAdd (d a b : Opnd) (w : Bool) (s : State) : Out :=
  plainInstr s d w [a, b] false anyArith (fun g r t => lift2 g.et (addElem g.et g.rm (gmSat g.gm)) (r.at 0 t) (r.at 1 t))

def execSub (d a b : Opnd) (w : Bool) (s : State) : Out :=
  plainInstr s d w [a, b] false anyArith (fun g r t => lift2 g.et (subElem g.et g.rm (gmSat g.gm)) (r.at 0 t) (r.at 1 t))

def execMul (d a b : Opnd) (w : Bool) (s : State) : Out :=
  plainInstr s d w [a, b] false anyArith (fun g r t => lift2 g.et (mulElem g.et g.rm (gmSat g.gm)) (r.at 0 t) (r.at 1 t))

def execMulh (d a b : Opnd) (w : Bool) (s : State) : Out :=
  plainInstr s d w [a, b] false anyInt (fun g r t => lift2 g.et (mulhElem g.et) (r.at 0 t) (r.at 1 t))

/-- MAD (R330): the addend is the old rd (zr under nw) or a latch. -/
def execMad (d a b : Opnd) (w : Bool) (k : BitVec 2) (s : State) : Out :=
  let c : Opnd := if k = 0 then d else .b (k - 1)
  onTg (sw := anyQ [d, a, b]) s (fun g =>
    let okD := (isVReg d || isSReg d) && !w || (w && d == .zr)
    if g.active ≠ 0 && !okD then trap s { cause := 0x02, mask := g.active }
    else
      plainInstr s d w [a, b, c] false anyArith
        (fun g r t => lift3 g.et (madElem g.et g.rm (gmSat g.gm)) (r.at 0 t) (r.at 1 t) (r.at 2 t)))

def execMin (d a b : Opnd) (w : Bool) (s : State) : Out :=
  plainInstr s d w [a, b] false anyArith (fun g r t => lift2 g.et (minMaxElem g.et false) (r.at 0 t) (r.at 1 t))

def execMax (d a b : Opnd) (w : Bool) (s : State) : Out :=
  plainInstr s d w [a, b] false anyArith (fun g r t => lift2 g.et (minMaxElem g.et true) (r.at 0 t) (r.at 1 t))

def execAbs (d a : Opnd) (w : Bool) (s : State) : Out :=
  plainInstr s d w [a] false anyArith (fun g r t => lift1 g.et (absElem g.et (gmSat g.gm)) (r.at 0 t))

def execNeg (d a : Opnd) (w : Bool) (s : State) : Out :=
  plainInstr s d w [a] false anyArith (fun g r t => lift1 g.et (negElem g.et (gmSat g.gm)) (r.at 0 t))

def execClz (d a : Opnd) (w : Bool) (s : State) : Out :=
  plainInstr s d w [a] false anyInt (fun g r t => lift1 g.et (clzElem g.et) (r.at 0 t))

def execPopc (d a : Opnd) (w : Bool) (s : State) : Out :=
  plainInstr s d w [a] false anyInt (fun g r t => lift1 g.et (popcElem g.et) (r.at 0 t))

def execRem (d a b : Opnd) (w : Bool) (s : State) : Out :=
  plainInstr s d w [a, b] true anyInt (fun g r t => lift2 g.et (remElem g.et) (r.at 0 t) (r.at 1 t))

/-- Some thread's evaluation takes the slow path (R87). -/
def slowIn (op : Nat) (m : Mask) (r : Reads) : Bool :=
  (beatsOf m).any (fun t => Config.slowPath op ((r.at 0 t).setWidth 64) ((r.at 1 t).setWidth 64))

/-- The mould of the functions with a slow path: float types, switch-capable; on the slow path the TG is not ready until
SLOW_PATH_COMPLETION (R87). -/
def funcInstr (s : State) (op : Nat) (d : Opnd) (w : Bool) (reads : List Opnd) (types : Nat → Bool)
    (f : Tg → Reads → Nat → Elem) : Out :=
  onTg (sw := true) s (fun g =>
    let bits := etContainer g.et
    let m := g.active
    let x : Shape := ⟨reads.map (fun o => (o, bits)), d, bits, true⟩
    if m ≠ 0 && w && d ≠ .zr then trap s { cause := 0x02, mask := m }
    else
      elemInstr s x [] (types g.et) (etSext g.et) m false [] (f g)
        (fun r g => { g with slow := !anyInt g.et && slowIn op (x.readers m) r }))

def execDiv (d a b : Opnd) (w : Bool) (s : State) : Out :=
  funcInstr s 0x06 d w [a, b] (fun et => et ≤ 11)
    (fun g r t => lift2 g.et (divElem g.et g.rm (gmSat g.gm)) (r.at 0 t) (r.at 1 t))

/-! ### CMP (R296, R297) -/

/-- Cond(a, b) for one element, with nv. -/
def condElem (et c : Nat) (x y : Nat) : Bool × Byte :=
  let pick := fun (eq lt : Bool) =>
    match c with
    | 0 => eq | 1 => !eq | 2 => lt | 3 => lt || eq | 4 => !(lt || eq) | 5 => !lt | 6 => false | _ => true
  let nan := fun (signals : Bool) => (c = 1 || c = 6, flagIf (signals || (2 ≤ c && c ≤ 5)) flagNv)
  if anyInt et then (pick (intVal et x = intVal et y) (intVal et x < intVal et y), 0)
  else match etFmt et with
    | some f =>
      if f.isNan x || f.isNan y then nan (f.isSnan x || f.isSnan y) else (pick (f.eq x y) (f.lt x y), 0)
    | none =>
      if x = mk8Nar || y = mk8Nar then nan false
      else (pick ((mk8Dy x).eq (mk8Dy y)) ((mk8Dy x).lt (mk8Dy y)), 0)

/-- CMP's result: 1 or 0, or for a packed type all ones or zeros in each element. -/
def cmpElem (et c : Nat) (x y : W128) : Elem :=
  let rs := ((elemsOf et x).zip (elemsOf et y)).map (fun p => condElem et c p.1 p.2)
  let flags := rs.foldl (fun b r => b ||| r.2) (0 : Byte)
  match rs with
  | [r] => { val := if r.1 then 1 else 0, flags := flags }
  | rs => { val := packElems et (rs.map (fun r => if r.1 then 2 ^ etWidth et - 1 else 0)), flags := flags }

def execCmp (d a b : Opnd) (c : BitVec 3) (s : State) : Out :=
  onTg (sw := anyQ [d, a, b]) s (fun g =>
    let bits := etContainer g.et
    let m := g.active
    let isP := match d with | .p _ => true | _ => false
    let okD := isP || isVReg d || isSReg d || d == .zr
    let x : Shape := ⟨[(a, bits), (b, bits)], d, 32, false⟩
    if m ≠ 0 && !okD then trap s { cause := 0x02, mask := m }
    else
      elemInstr s x [] (anyArith g.et && !(isP && 1 < etLanes g.et)) false m false []
        (fun r t => cmpElem g.et c.toNat (r.at 0 t) (r.at 1 t)) (fun _ g => g))

/-! ### SEL (R355) -/

/-- No q or sp code under a 64- or 128-bit type (R336, R355). -/
def wideQueue (bits : Nat) (os : List Opnd) : Bool :=
  32 < bits && os.any (fun o => match o with | .q _ => true | .sp _ => true | _ => false)

def execSel (d a b : Opnd) (w : Bool) (s : State) : Out :=
  onTg (sw := anyQ [d, a, b]) s (fun g =>
    let bits := etContainer g.et
    let m := g.cm
    let x : Shape := ⟨[(a, bits), (b, bits)], d, bits, false⟩
    guarded s [check (w && d != .zr) 0x02 m, check (wideQueue bits [d, a, b]) 0x02 m]
      (elemInstr s x [] true (etSext g.et) m false []
        (fun r t => { val := if bitOf g.guard t then r.at 0 t else r.at 1 t }) (fun _ g => g)))

/-! ### CVT (R303-R305) -/

/-- Elements per register, and registers per 64-bit element in v registers. -/
def perReg (et : Nat) : Nat := etLanes et

/-- The i-th register of a run that starts at an operand: step `k`. -/
def runReg (o : Opnd) (k : Nat) (i : Nat) : Option Opnd :=
  match o with
  | .v n => if n.toNat + k * i < 64 then some (.v (n + BitVec.ofNat 6 (k * i))) else none
  | .s n => if n.toNat + i < 32 then some (.s (n + BitVec.ofNat 5 i)) else none
  | .zr => some .zr
  | o => if i = 0 then some o else none

/-- A run of `n` registers, or none when it cannot be named. -/
def runOf (o : Opnd) (et n : Nat) : Option (List Opnd) :=
  let k := etContainer et / 32
  (upTo n).foldr (fun i acc => match acc, runReg o k i with
    | some xs, some x => some (x :: xs)
    | _, _ => none) (some [])

/-- One element of type `a` as type `b` (R305). -/
def cvtElem (a b rm : Nat) (sat : Bool) (x : Nat) : Res :=
  if a = b then .ok x
  else if anyInt a then (if anyInt b then intResult b sat (intVal a x) else intToFloat a b rm x)
  else if anyInt b then floatToInt a b rm x
  else floatToFloat a b rm x

/-- The elements of a list in groups of `n`, as containers of type `et`. -/
def groupElems (et n : Nat) (rs : List Res) : Nat → List Elem
  | 0 => []
  | k + 1 => packRes et (rs.take n) :: groupElems et n (rs.drop n) k

/-- Every element converted: the first destination container, the further ones, the flags of all. -/
def cvtAll (a b rm : Nat) (sat : Bool) (k : Nat) (xs : List W128) : Elem :=
  let es := (xs.flatMap (elemsOf a)).take k
  let rs := es.map (cvtElem a b rm sat)
  let flags := rs.foldl (fun f r => f ||| r.flags) (0 : Byte)
  match groupElems b (perReg b) rs (k / perReg b) with
  | [] => { val := 0, flags := flags }
  | e :: more => { val := e.val, flags := flags, more := more.map (fun y => y.val) }

def execCvt (d a : Opnd) (ty : BitVec 7) (w truncate : Bool) (s : State) : Out :=
  onTg (sw := anyQ [d, a]) s (fun g =>
    let m := g.active
    let from_ := ty.toNat
    let to_ := g.et
    let rm := if truncate then 1 else g.rm
    let known := from_ ≤ 12 && to_ ≤ 12
    let k := max (perReg from_) (perReg to_)
    match runOf a from_ (k / perReg from_), runOf d to_ (k / perReg to_) with
    | some srcs, some (d0 :: ds) =>
      let x : Shape := ⟨srcs.map (fun o => (o, etContainer from_)), d0, etContainer to_, false⟩
      guarded s [check (m ≠ 0 && w && d ≠ .zr) 0x02 m]
        (elemInstr s x (if w then [] else ds) known (etSext to_) m false []
          (fun r t => cvtAll from_ to_ rm (gmSat g.gm) k ((upTo srcs.length).map (fun i => r.at i t))) (fun _ g => g))
    | _, _ => if m = 0 then idle s [a] true false else trap s { cause := 0x02, mask := m })

end Sys2Proof.Machine
end

