-- ==== Sys2Proof/WellFormed.lean ====
section
/-! DEFINITION. Well-formed instructions: the values of their fields that a legal word can carry (R38-R40 and each entry). -/

namespace Sys2Proof

/-- The control-register numbers of R206 and R269. -/
def knownRegister (n : Nat) : Bool :=
  n ≤ 0x004 || (0x010 ≤ n && n ≤ 0x017) || (0x020 ≤ n && n ≤ 0x022) || (0x030 ≤ n && n ≤ 0x053)
    || n = 0x060 || n = 0x061 || (0x070 ≤ n && n ≤ 0x077) || (0x080 ≤ n && n ≤ 0x084) || n = 0x090
    || (0x100 ≤ n && n ≤ 0x17F)

/-- A legal word exists for the instruction. Every operand code is encodable, so only sub-ops, selectors, immediates and
register numbers are restricted; whether a code is legal in its position is check 4 of R46, made when the word runs. -/
def Instr.wf : Instr → Bool
  | .cvt _ _ t _ _ => t.toNat ≤ 14                               -- R303
  | .bcst _ _ b _ s => s ≠ 3 && (s = 0 || b = .v 0)              -- R288: rb is a zero field for .first and .last
  | .red _ _ c => c.toNat ≤ 5                                    -- R348
  | .brp c _ => c ≠ 3                                            -- R39
  | .brk n => n.toNat ≤ 15                                       -- R291
  | .fence _ sc => sc.toNat ≤ 5                                  -- R124
  | .waitc _ c => c ≠ 7                                          -- R116
  | .cpy _ _ _ c => c.toNat ≤ 2                                  -- R166
  | .eret a s => s = 3 || a = .v 0                               -- R202
  | .sysr _ i => knownRegister i.toNat                           -- R370
  | .sysw _ i => knownRegister i.toNat
  | .tlbi _ s => s ≠ 3                                           -- R373
  | _ => true

end Sys2Proof
end

