-- ==== Sys2Proof/Decode.lean ====
section
/-! DEFINITION. Decoding a 32-bit instruction word (R37-R48) and, after it, the encoder. `decode` makes exactly the word checks
of order 2 of R46, and rejects by name; a patched word is decoded as delivered (R63). -/

namespace Sys2Proof

/-- Why a word is no instruction (R38-R40, R47). Each is Trap(0x01). -/
inductive DecodeError where
  | opcodeNotInMap
  | nonZeroField
  | reservedSubOp
  | nwNotAllowed
  | reservedSelector
  | reservedCondition
  | unknownRegister
  | tooFewBytes
  deriving DecidableEq, Repr

/-- The operand of a 7-bit code (R41). -/
def decodeOpnd (c : BitVec 7) : Opnd :=
  let n := c.toNat
  if n < 64 then .v (c.extractLsb' 0 6)
  else if n < 68 then .b (c.extractLsb' 0 2)
  else if n = 68 then .zr
  else if n = 69 then .tix
  else if n < 72 then .rsv (c.extractLsb' 0 1)
  else if n < 80 then .p (c.extractLsb' 0 3)
  else if n < 88 then .sp (c.extractLsb' 0 3)
  else if n < 96 then .q (c.extractLsb' 0 3)
  else .s (c.extractLsb' 0 5)

/-- The 7-bit code of an operand (R41). -/
def encodeOpnd : Opnd → BitVec 7
  | .v n => 0b0#1 ++ n
  | .b n => 0b10000#5 ++ n
  | .zr => 68#7
  | .tix => 69#7
  | .rsv n => 0b100011#6 ++ n
  | .p n => 0b1001#4 ++ n
  | .sp n => 0b1010#4 ++ n
  | .q n => 0b1011#4 ++ n
  | .s n => 0b11#2 ++ n

/-- The fields of an R-format word (R37). -/
structure RFields where
  d : BitVec 7
  a : BitVec 7
  b : BitVec 7
  x3 : BitVec 3
  deriving DecidableEq, Repr

/-- The R-format fields of a word (R37). -/
def rFields (w : W32) : RFields :=
  { d := w.extractLsb' 17 7, a := w.extractLsb' 10 7, b := w.extractLsb' 3 7, x3 := w.extractLsb' 0 3 }

/-- The result of decoding. -/
abbrev Dec := Except DecodeError Instr

/-- `c`, or the error. -/
def need (c : Bool) (e : DecodeError) (k : Dec) : Dec := if c then k else .error e

/-- The nw bit of x3 (R38). -/
def RFields.nw (f : RFields) : Bool := f.x3.getLsbD 2
/-- The sub-op of x3 (R38). -/
def RFields.sub (f : RFields) : BitVec 2 := f.x3.extractLsb' 0 2
def RFields.od (f : RFields) : Opnd := decodeOpnd f.d
def RFields.oa (f : RFields) : Opnd := decodeOpnd f.a
def RFields.ob (f : RFields) : Opnd := decodeOpnd f.b

/-- rd, ra, rb with nw and sub-op 0. -/
def decABW (k : Opnd → Opnd → Opnd → Bool → Instr) (f : RFields) : Dec :=
  need (f.sub = 0) .reservedSubOp (.ok (k f.od f.oa f.ob f.nw))

/-- rd, ra with rb zero, nw and sub-op 0. -/
def decAW (k : Opnd → Opnd → Bool → Instr) (f : RFields) : Dec :=
  need (f.b = 0) .nonZeroField (need (f.sub = 0) .reservedSubOp (.ok (k f.od f.oa f.nw)))

/-- rd, ra, rb with x3 zero (no nw). -/
def decAB0 (k : Opnd → Opnd → Opnd → Instr) (f : RFields) : Dec :=
  need (!f.nw) .nwNotAllowed (need (f.sub = 0) .reservedSubOp (.ok (k f.od f.oa f.ob)))

/-- rd, ra with rb and x3 zero. -/
def decA0 (k : Opnd → Opnd → Instr) (f : RFields) : Dec :=
  need (f.b = 0) .nonZeroField (need (!f.nw) .nwNotAllowed (need (f.sub = 0) .reservedSubOp (.ok (k f.od f.oa))))

/-- ra, rb with rd and x3 zero. -/
def decNAB (k : Opnd → Opnd → Instr) (f : RFields) : Dec :=
  need (f.d = 0) .nonZeroField (need (!f.nw) .nwNotAllowed (need (f.sub = 0) .reservedSubOp (.ok (k f.oa f.ob))))

/-- ra alone. -/
def decNA (k : Opnd → Instr) (f : RFields) : Dec :=
  need (f.d = 0 && f.b = 0) .nonZeroField (need (!f.nw) .nwNotAllowed (need (f.sub = 0) .reservedSubOp (.ok (k f.oa))))

/-- No field at all. -/
def decNone (i : Instr) (f : RFields) : Dec :=
  need (f.d = 0 && f.a = 0 && f.b = 0) .nonZeroField (need (!f.nw) .nwNotAllowed (need (f.sub = 0) .reservedSubOp (.ok i)))

/-- rd, ra with rb zero, nw 0 and any sub-op. -/
def decAS (k : Opnd → Opnd → BitVec 2 → Instr) (f : RFields) : Dec :=
  need (f.b = 0) .nonZeroField (need (!f.nw) .nwNotAllowed (.ok (k f.od f.oa f.sub)))

/-- rd, ra, rb with nw 0 and any sub-op. -/
def decABS (k : Opnd → Opnd → Opnd → BitVec 2 → Instr) (f : RFields) : Dec :=
  need (!f.nw) .nwNotAllowed (.ok (k f.od f.oa f.ob f.sub))

/-- A sub-op of one bit. -/
def RFields.sub1 (f : RFields) (k : Bool → Dec) : Dec := need (!f.x3.getLsbD 1) .reservedSubOp (k (f.x3.getLsbD 0))

/-- The I-format fields: rd and imm17 (R37). -/
def iD (w : W32) : BitVec 7 := w.extractLsb' 17 7
def iImm (w : W32) : BitVec 17 := w.extractLsb' 0 17

/-- The instruction of a word as delivered: the opcode map of R48 with each entry's word checks. -/
def decode (w : W32) : Dec :=
  let f := rFields w
  match (w.extractLsb' 24 8).toNat with
  | 0x01 => decABW .add f
  | 0x02 => decABW .sub f
  | 0x03 => decABW .mul f
  | 0x04 => decABW .mulh f
  | 0x05 => .ok (.mad f.od f.oa f.ob f.nw f.sub)
  | 0x06 => decABW .div f
  | 0x07 => decABW .rem f
  | 0x08 => decABW .min f
  | 0x09 => decABW .max f
  | 0x0A => decAW .abs f
  | 0x0B => decAW .neg f
  | 0x0C => .ok (.cmp f.od f.oa f.ob f.x3)
  | 0x0D => decABW .sel f
  | 0x0E => need (f.b.toNat ≤ 14) .reservedSelector (f.sub1 fun r => .ok (.cvt f.od f.oa f.b f.nw r))
  | 0x0F => decAW .clz f
  | 0x10 => decAW .popc f
  | 0x11 => decABW .and f
  | 0x12 => decABW .or f
  | 0x13 => decABW .xor f
  | 0x14 => decABW .shl f
  | 0x15 => decABW .shr f
  | 0x16 => decABW .sra f
  | 0x17 => f.sub1 fun s => .ok (.bfx f.od f.oa f.ob f.nw s)
  | 0x20 => decAW .rcp f
  | 0x21 => decAW .rsq f
  | 0x22 => decAW .rsqs f
  | 0x23 => decAW .sqrt f
  | 0x24 => decAW .ex2 f
  | 0x25 => decAW .lg2 f
  | 0x26 => decAW .sinp f
  | 0x27 => decAW .cosp f
  | 0x30 => decAW .mov f
  | 0x31 => .ok (.movi (decodeOpnd (iD w)) (iImm w))
  | 0x32 => need ((iImm w).extractLsb' 15 2 = 0) .nonZeroField (.ok (.movh (decodeOpnd (iD w)) ((iImm w).extractLsb' 0 15)))
  | 0x33 => .ok (.lane f.od f.oa f.ob f.nw f.sub)
  | 0x34 => need (f.sub ≠ 3) .reservedSubOp (need (f.sub = 0 || f.b = 0) .nonZeroField (.ok (.bcst f.od f.oa f.ob f.nw f.sub)))
  | 0x35 => need (f.b = 0) .nonZeroField (need (f.x3.toNat ≤ 5) .reservedSelector (.ok (.red f.od f.oa f.x3)))
  | 0x36 => need (f.a = 0 && f.b = 0) .nonZeroField (need (f.sub = 0) .reservedSubOp (.ok (.rnd f.od f.nw)))
  | 0x37 => .ok (.plog f.od f.oa f.ob f.x3)
  | 0x40 => .ok (.br (w.extractLsb' 0 24))
  | 0x41 => need (w.extractLsb' 22 2 ≠ 3) .reservedCondition (.ok (.brp (w.extractLsb' 22 2) (w.extractLsb' 0 22)))
  | 0x42 => .ok (.call (w.extractLsb' 0 24))
  | 0x43 => decNA .ret f
  | 0x44 => decNAB .jmpi f
  | 0x45 => .ok (.split (w.extractLsb' 0 24))
  | 0x46 => decNone .join f
  | 0x47 => need (iD w = 0) .nonZeroField (need ((iImm w).toNat ≤ 15) .reservedSelector (.ok (.brk (iImm w))))
  | 0x48 => need (iD w = 0) .nonZeroField (.ok (.land (iImm w)))
  | 0x49 => decNA .exit f
  | 0x4A => decNone .yield f
  | 0x4B => decNA .regrp f
  | 0x4C => .ok (.mode (w.extractLsb' 0 24))
  | 0x4D => decA0 .modes f
  | 0x4E => decNone .nop f
  | 0x50 => decABW .ld f
  | 0x51 => decABW .ldb f
  | 0x52 => decABW .lda f
  | 0x53 => decAB0 .st f
  | 0x54 => decAB0 .str f
  | 0x55 => need (iD w = 0 && (iImm w).extractLsb' 5 12 = 0) .nonZeroField (need ((w.extractLsb' 0 3).toNat ≤ 5) .reservedSelector (.ok (.fence (w.extractLsb' 3 2) (w.extractLsb' 0 3))))
  | 0x56 => need (f.d = 0) .nonZeroField (need (!f.nw) .nwNotAllowed (f.sub1 fun s => .ok (.prf f.oa f.ob s)))
  | 0x57 => decNAB .mon f
  | 0x58 => decNone .mwait f
  | 0x59 => need (f.d = 0 && f.b = 0) .nonZeroField (need (f.x3 ≠ 7) .reservedSelector (.ok (.waitc f.oa f.x3)))
  | 0x5A => decNone .radv f
  | 0x5B => need (f.a = 0) .nonZeroField (decA0 (fun d _ => .rcnt d) f)
  | 0x5C => decAB0 .ldfe f
  | 0x5D => decAB0 .stfe f
  | 0x60 => decAB0 .aadd f
  | 0x61 => decAB0 .amin f
  | 0x62 => decAB0 .amax f
  | 0x63 => decAB0 .aand f
  | 0x64 => decAB0 .aor f
  | 0x65 => decAB0 .axor f
  | 0x66 => decAB0 .axch f
  | 0x67 => decAB0 .acas f
  | 0x68 => decAB0 .hbadd f
  | 0x69 => decAB0 .hbmax f
  | 0x6A => decAB0 .hbmin f
  | 0x70 => need (f.x3.toNat ≤ 2) .reservedSelector (.ok (.cpy f.od f.oa f.ob f.x3))
  | 0x71 => decAS .cpyt f
  | 0x72 => decA0 .ctst f
  | 0x73 => decAS .qbind f
  | 0x74 => decA0 .spcfg f
  | 0x80 => need (f.d = 0) .nonZeroField (decABS (fun _ a b t => .mma a b t) f)
  | 0x81 => need (f.d = 0) .nonZeroField (decABS (fun _ a b t => .mmab a b t) f)
  | 0x82 => decAB0 .mmac f
  | 0x83 => need (f.d = 0 && f.a = 0 && f.b = 0) .nonZeroField (need (!f.nw) .nwNotAllowed (.ok (.acz f.sub)))
  | 0x84 => decAS .acdr f
  | 0x85 => decAS .acld f
  | 0x90 => need (f.d = 0) .nonZeroField (need (!f.nw) .nwNotAllowed (f.sub1 fun s => .ok (.trace f.oa f.ob s)))
  | 0x91 => decNAB .trcont f
  | 0x92 => decA0 .gpin f
  | 0x93 => decNAB .gunp f
  | 0x94 => decAB0 .skb f
  | 0x95 => decAB0 .skr f
  | 0x96 => decA0 .skl f
  | 0x97 => decA0 .skp f
  | 0x98 => decAB0 .skq f
  | 0xA0 => decAB0 .eld f
  | 0xA1 => decAB0 .est f
  | 0xA2 => decAB0 .emrg f
  | 0xB0 => decNA .fbmode f
  | 0xB1 => decABS .fbadd f
  | 0xB2 => decABS .fbsub f
  | 0xB3 => decABS .fblog f
  | 0xB4 => need (f.d = 0) .nonZeroField (decABS (fun _ a b s => .fbcmp a b s) f)
  | 0xB5 => decAB0 .fbsel f
  | 0xB6 => need (!f.nw) .nwNotAllowed (f.sub1 fun s => .ok (.fbmul f.od f.oa f.ob s))
  | 0xB7 => decA0 .fbpop f
  | 0xB8 => decAB0 .fbshf f
  | 0xB9 => decABS .fbld f
  | 0xBA => decABS .fbst f
  | 0xC0 => decA0 .spawn f
  | 0xC1 => decA0 .wid f
  | 0xC2 => decNone .barr f
  | 0xC3 => need (f.d = 0 && f.a = 0 && f.b = 0) .nonZeroField (need (!f.nw) .nwNotAllowed (f.sub1 fun g => .ok (.barc g)))
  | 0xC4 => need (f.d = 0 && f.a = 0 && f.b = 0) .nonZeroField (need (!f.nw) .nwNotAllowed (f.sub1 fun g => .ok (.arrv g)))
  | 0xC5 => decA0 .budg f
  | 0xD0 => need (iD w = 0) .nonZeroField (.ok (.trap (iImm w)))
  | 0xD1 => need (f.d = 0 && f.b = 0) .nonZeroField (need (!f.nw) .nwNotAllowed (need (f.sub = 3 || f.a = 0) .nonZeroField (.ok (.eret f.oa f.sub))))
  | 0xD2 => need (knownRegister (iImm w).toNat) .unknownRegister (.ok (.sysr (decodeOpnd (iD w)) (iImm w)))
  | 0xD3 => need (knownRegister (iImm w).toNat) .unknownRegister (.ok (.sysw (decodeOpnd (iD w)) (iImm w)))
  | 0xD4 => decA0 .ctxsv f
  | 0xD5 => decNAB .ctxld f
  | 0xD6 => need (f.d = 0 && f.b = 0) .nonZeroField (need (!f.nw) .nwNotAllowed (need (f.sub ≠ 3) .reservedSubOp (.ok (.tlbi f.oa f.sub))))
  | _ => .error .opcodeNotInMap

/-- A word from its four bytes, the first at the lowest address (R3, R37). -/
def wordOfBytes (b0 b1 b2 b3 : Byte) : W32 := b3 ++ b2 ++ b1 ++ b0

/-- Decoding from bytes: the instruction and the bytes after it. -/
def decodeBytes : List Byte → Except DecodeError (Instr × List Byte)
  | b0 :: b1 :: b2 :: b3 :: rest => (decode (wordOfBytes b0 b1 b2 b3)).map (·, rest)
  | _ => .error .tooFewBytes

/-- The bytes of a word as the hardware stores it (R3). -/
def bytesOfWord (w : W32) : List Byte :=
  [w.extractLsb' 0 8, w.extractLsb' 8 8, w.extractLsb' 16 8, w.extractLsb' 24 8]

/-- The instruction that the decoder reads from an instruction whose bits are `w` as opcode_table.json numbers them. Every
instruction is one word of 32 bits, so the bits above `nbits` are 0. -/
def decodeTableWord (nbits w : Nat) : Option Instr :=
  match decodeBytes (bytesOfWord (BitVec.ofNat 32 (w % 2 ^ nbits))) with
  | .ok (i, _) => some i
  | .error _ => none

/-- An R-format word (R37). -/
def encR (op : BitVec 8) (d a b : BitVec 7) (x3 : BitVec 3) : W32 := op ++ d ++ a ++ b ++ x3
/-- An I-format word (R37). -/
def encI (op : BitVec 8) (d : BitVec 7) (i : BitVec 17) : W32 := op ++ d ++ i
/-- A B-format word (R37). -/
def encB (op : BitVec 8) (i : BitVec 24) : W32 := op ++ i

/-- x3 as nw and sub-op (R38). -/
def x3Of (w : Bool) (s : BitVec 2) : BitVec 3 := BitVec.ofBool w ++ s
/-- A sub-op of one bit. -/
def sub1Of (s : Bool) : BitVec 2 := 0#1 ++ BitVec.ofBool s

/-- The word of an instruction, from the same tables; an operation or event of the device has none. -/
def encode : Instr → Option W32
  | .add d a b w => some (encR 0x01#8 (encodeOpnd d) (encodeOpnd a) (encodeOpnd b) (x3Of w 0))
  | .sub d a b w => some (encR 0x02#8 (encodeOpnd d) (encodeOpnd a) (encodeOpnd b) (x3Of w 0))
  | .mul d a b w => some (encR 0x03#8 (encodeOpnd d) (encodeOpnd a) (encodeOpnd b) (x3Of w 0))
  | .mulh d a b w => some (encR 0x04#8 (encodeOpnd d) (encodeOpnd a) (encodeOpnd b) (x3Of w 0))
  | .mad d a b w s => some (encR 0x05#8 (encodeOpnd d) (encodeOpnd a) (encodeOpnd b) (x3Of w s))
  | .div d a b w => some (encR 0x06#8 (encodeOpnd d) (encodeOpnd a) (encodeOpnd b) (x3Of w 0))
  | .rem d a b w => some (encR 0x07#8 (encodeOpnd d) (encodeOpnd a) (encodeOpnd b) (x3Of w 0))
  | .min d a b w => some (encR 0x08#8 (encodeOpnd d) (encodeOpnd a) (encodeOpnd b) (x3Of w 0))
  | .max d a b w => some (encR 0x09#8 (encodeOpnd d) (encodeOpnd a) (encodeOpnd b) (x3Of w 0))
  | .abs d a w => some (encR 0x0A#8 (encodeOpnd d) (encodeOpnd a) 0 (x3Of w 0))
  | .neg d a w => some (encR 0x0B#8 (encodeOpnd d) (encodeOpnd a) 0 (x3Of w 0))
  | .cmp d a b c => some (encR 0x0C#8 (encodeOpnd d) (encodeOpnd a) (encodeOpnd b) c)
  | .sel d a b w => some (encR 0x0D#8 (encodeOpnd d) (encodeOpnd a) (encodeOpnd b) (x3Of w 0))
  | .cvt d a t w r => some (encR 0x0E#8 (encodeOpnd d) (encodeOpnd a) t (x3Of w (sub1Of r)))
  | .clz d a w => some (encR 0x0F#8 (encodeOpnd d) (encodeOpnd a) 0 (x3Of w 0))
  | .popc d a w => some (encR 0x10#8 (encodeOpnd d) (encodeOpnd a) 0 (x3Of w 0))
  | .and d a b w => some (encR 0x11#8 (encodeOpnd d) (encodeOpnd a) (encodeOpnd b) (x3Of w 0))
  | .or d a b w => some (encR 0x12#8 (encodeOpnd d) (encodeOpnd a) (encodeOpnd b) (x3Of w 0))
  | .xor d a b w => some (encR 0x13#8 (encodeOpnd d) (encodeOpnd a) (encodeOpnd b) (x3Of w 0))
  | .shl d a b w => some (encR 0x14#8 (encodeOpnd d) (encodeOpnd a) (encodeOpnd b) (x3Of w 0))
  | .shr d a b w => some (encR 0x15#8 (encodeOpnd d) (encodeOpnd a) (encodeOpnd b) (x3Of w 0))
  | .sra d a b w => some (encR 0x16#8 (encodeOpnd d) (encodeOpnd a) (encodeOpnd b) (x3Of w 0))
  | .bfx d a b w s => some (encR 0x17#8 (encodeOpnd d) (encodeOpnd a) (encodeOpnd b) (x3Of w (sub1Of s)))
  | .rcp d a w => some (encR 0x20#8 (encodeOpnd d) (encodeOpnd a) 0 (x3Of w 0))
  | .rsq d a w => some (encR 0x21#8 (encodeOpnd d) (encodeOpnd a) 0 (x3Of w 0))
  | .rsqs d a w => some (encR 0x22#8 (encodeOpnd d) (encodeOpnd a) 0 (x3Of w 0))
  | .sqrt d a w => some (encR 0x23#8 (encodeOpnd d) (encodeOpnd a) 0 (x3Of w 0))
  | .ex2 d a w => some (encR 0x24#8 (encodeOpnd d) (encodeOpnd a) 0 (x3Of w 0))
  | .lg2 d a w => some (encR 0x25#8 (encodeOpnd d) (encodeOpnd a) 0 (x3Of w 0))
  | .sinp d a w => some (encR 0x26#8 (encodeOpnd d) (encodeOpnd a) 0 (x3Of w 0))
  | .cosp d a w => some (encR 0x27#8 (encodeOpnd d) (encodeOpnd a) 0 (x3Of w 0))
  | .mov d a w => some (encR 0x30#8 (encodeOpnd d) (encodeOpnd a) 0 (x3Of w 0))
  | .movi d i => some (encI 0x31#8 (encodeOpnd d) i)
  | .movh d i => some (encI 0x32#8 (encodeOpnd d) (0#2 ++ i))
  | .lane d a b w s => some (encR 0x33#8 (encodeOpnd d) (encodeOpnd a) (encodeOpnd b) (x3Of w s))
  | .bcst d a b w s => some (encR 0x34#8 (encodeOpnd d) (encodeOpnd a) (encodeOpnd b) (x3Of w s))
  | .red d a c => some (encR 0x35#8 (encodeOpnd d) (encodeOpnd a) 0 c)
  | .rnd d w => some (encR 0x36#8 (encodeOpnd d) 0 0 (x3Of w 0))
  | .plog d a b c => some (encR 0x37#8 (encodeOpnd d) (encodeOpnd a) (encodeOpnd b) c)
  | .br disp => some (encB 0x40#8 disp)
  | .brp c disp => some (encB 0x41#8 (c ++ disp))
  | .call disp => some (encB 0x42#8 disp)
  | .ret a => some (encR 0x43#8 0 (encodeOpnd a) 0 0)
  | .jmpi a b => some (encR 0x44#8 0 (encodeOpnd a) (encodeOpnd b) 0)
  | .split disp => some (encB 0x45#8 disp)
  | .join => some (encR 0x46#8 0 0 0 0)
  | .brk n => some (encI 0x47#8 0 n)
  | .land i => some (encI 0x48#8 0 i)
  | .exit a => some (encR 0x49#8 0 (encodeOpnd a) 0 0)
  | .yield => some (encR 0x4A#8 0 0 0 0)
  | .regrp a => some (encR 0x4B#8 0 (encodeOpnd a) 0 0)
  | .mode i => some (encB 0x4C#8 i)
  | .modes d a => some (encR 0x4D#8 (encodeOpnd d) (encodeOpnd a) 0 0)
  | .nop => some (encR 0x4E#8 0 0 0 0)
  | .ld d a b w => some (encR 0x50#8 (encodeOpnd d) (encodeOpnd a) (encodeOpnd b) (x3Of w 0))
  | .ldb d a b w => some (encR 0x51#8 (encodeOpnd d) (encodeOpnd a) (encodeOpnd b) (x3Of w 0))
  | .lda d a b w => some (encR 0x52#8 (encodeOpnd d) (encodeOpnd a) (encodeOpnd b) (x3Of w 0))
  | .st d a b => some (encR 0x53#8 (encodeOpnd d) (encodeOpnd a) (encodeOpnd b) 0)
  | .str d a b => some (encR 0x54#8 (encodeOpnd d) (encodeOpnd a) (encodeOpnd b) 0)
  | .fence k sc => some (encI 0x55#8 0 (0#12 ++ k ++ sc))
  | .prf a b s => some (encR 0x56#8 0 (encodeOpnd a) (encodeOpnd b) (x3Of false (sub1Of s)))
  | .mon a b => some (encR 0x57#8 0 (encodeOpnd a) (encodeOpnd b) 0)
  | .mwait => some (encR 0x58#8 0 0 0 0)
  | .waitc a c => some (encR 0x59#8 0 (encodeOpnd a) 0 c)
  | .radv => some (encR 0x5A#8 0 0 0 0)
  | .rcnt d => some (encR 0x5B#8 (encodeOpnd d) 0 0 0)
  | .ldfe d a b => some (encR 0x5C#8 (encodeOpnd d) (encodeOpnd a) (encodeOpnd b) 0)
  | .stfe d a b => some (encR 0x5D#8 (encodeOpnd d) (encodeOpnd a) (encodeOpnd b) 0)
  | .aadd d a b => some (encR 0x60#8 (encodeOpnd d) (encodeOpnd a) (encodeOpnd b) 0)
  | .amin d a b => some (encR 0x61#8 (encodeOpnd d) (encodeOpnd a) (encodeOpnd b) 0)
  | .amax d a b => some (encR 0x62#8 (encodeOpnd d) (encodeOpnd a) (encodeOpnd b) 0)
  | .aand d a b => some (encR 0x63#8 (encodeOpnd d) (encodeOpnd a) (encodeOpnd b) 0)
  | .aor d a b => some (encR 0x64#8 (encodeOpnd d) (encodeOpnd a) (encodeOpnd b) 0)
  | .axor d a b => some (encR 0x65#8 (encodeOpnd d) (encodeOpnd a) (encodeOpnd b) 0)
  | .axch d a b => some (encR 0x66#8 (encodeOpnd d) (encodeOpnd a) (encodeOpnd b) 0)
  | .acas d a b => some (encR 0x67#8 (encodeOpnd d) (encodeOpnd a) (encodeOpnd b) 0)
  | .hbadd d a b => some (encR 0x68#8 (encodeOpnd d) (encodeOpnd a) (encodeOpnd b) 0)
  | .hbmax d a b => some (encR 0x69#8 (encodeOpnd d) (encodeOpnd a) (encodeOpnd b) 0)
  | .hbmin d a b => some (encR 0x6A#8 (encodeOpnd d) (encodeOpnd a) (encodeOpnd b) 0)
  | .cpy d a b c => some (encR 0x70#8 (encodeOpnd d) (encodeOpnd a) (encodeOpnd b) c)
  | .cpyt d a s => some (encR 0x71#8 (encodeOpnd d) (encodeOpnd a) 0 (x3Of false s))
  | .ctst d a => some (encR 0x72#8 (encodeOpnd d) (encodeOpnd a) 0 0)
  | .qbind d a s => some (encR 0x73#8 (encodeOpnd d) (encodeOpnd a) 0 (x3Of false s))
  | .spcfg d a => some (encR 0x74#8 (encodeOpnd d) (encodeOpnd a) 0 0)
  | .mma a b t => some (encR 0x80#8 0 (encodeOpnd a) (encodeOpnd b) (x3Of false t))
  | .mmab a b t => some (encR 0x81#8 0 (encodeOpnd a) (encodeOpnd b) (x3Of false t))
  | .mmac d a b => some (encR 0x82#8 (encodeOpnd d) (encodeOpnd a) (encodeOpnd b) 0)
  | .acz t => some (encR 0x83#8 0 0 0 (x3Of false t))
  | .acdr d a t => some (encR 0x84#8 (encodeOpnd d) (encodeOpnd a) 0 (x3Of false t))
  | .acld d a t => some (encR 0x85#8 (encodeOpnd d) (encodeOpnd a) 0 (x3Of false t))
  | .trace a b f => some (encR 0x90#8 0 (encodeOpnd a) (encodeOpnd b) (x3Of false (sub1Of f)))
  | .trcont a b => some (encR 0x91#8 0 (encodeOpnd a) (encodeOpnd b) 0)
  | .gpin d a => some (encR 0x92#8 (encodeOpnd d) (encodeOpnd a) 0 0)
  | .gunp a b => some (encR 0x93#8 0 (encodeOpnd a) (encodeOpnd b) 0)
  | .skb d a b => some (encR 0x94#8 (encodeOpnd d) (encodeOpnd a) (encodeOpnd b) 0)
  | .skr d a b => some (encR 0x95#8 (encodeOpnd d) (encodeOpnd a) (encodeOpnd b) 0)
  | .skl d a => some (encR 0x96#8 (encodeOpnd d) (encodeOpnd a) 0 0)
  | .skp d a => some (encR 0x97#8 (encodeOpnd d) (encodeOpnd a) 0 0)
  | .skq d a b => some (encR 0x98#8 (encodeOpnd d) (encodeOpnd a) (encodeOpnd b) 0)
  | .eld d a b => some (encR 0xA0#8 (encodeOpnd d) (encodeOpnd a) (encodeOpnd b) 0)
  | .est d a b => some (encR 0xA1#8 (encodeOpnd d) (encodeOpnd a) (encodeOpnd b) 0)
  | .emrg d a b => some (encR 0xA2#8 (encodeOpnd d) (encodeOpnd a) (encodeOpnd b) 0)
  | .fbmode a => some (encR 0xB0#8 0 (encodeOpnd a) 0 0)
  | .fbadd d a b s => some (encR 0xB1#8 (encodeOpnd d) (encodeOpnd a) (encodeOpnd b) (x3Of false s))
  | .fbsub d a b s => some (encR 0xB2#8 (encodeOpnd d) (encodeOpnd a) (encodeOpnd b) (x3Of false s))
  | .fblog d a b s => some (encR 0xB3#8 (encodeOpnd d) (encodeOpnd a) (encodeOpnd b) (x3Of false s))
  | .fbcmp a b s => some (encR 0xB4#8 0 (encodeOpnd a) (encodeOpnd b) (x3Of false s))
  | .fbsel d a b => some (encR 0xB5#8 (encodeOpnd d) (encodeOpnd a) (encodeOpnd b) 0)
  | .fbmul d a b s => some (encR 0xB6#8 (encodeOpnd d) (encodeOpnd a) (encodeOpnd b) (x3Of false (sub1Of s)))
  | .fbpop d a => some (encR 0xB7#8 (encodeOpnd d) (encodeOpnd a) 0 0)
  | .fbshf d a b => some (encR 0xB8#8 (encodeOpnd d) (encodeOpnd a) (encodeOpnd b) 0)
  | .fbld d a b s => some (encR 0xB9#8 (encodeOpnd d) (encodeOpnd a) (encodeOpnd b) (x3Of false s))
  | .fbst d a b s => some (encR 0xBA#8 (encodeOpnd d) (encodeOpnd a) (encodeOpnd b) (x3Of false s))
  | .spawn d a => some (encR 0xC0#8 (encodeOpnd d) (encodeOpnd a) 0 0)
  | .wid d a => some (encR 0xC1#8 (encodeOpnd d) (encodeOpnd a) 0 0)
  | .barr => some (encR 0xC2#8 0 0 0 0)
  | .barc g => some (encR 0xC3#8 0 0 0 (x3Of false (sub1Of g)))
  | .arrv g => some (encR 0xC4#8 0 0 0 (x3Of false (sub1Of g)))
  | .budg d a => some (encR 0xC5#8 (encodeOpnd d) (encodeOpnd a) 0 0)
  | .trap i => some (encI 0xD0#8 0 i)
  | .eret a s => some (encR 0xD1#8 0 (encodeOpnd a) 0 (x3Of false s))
  | .sysr d i => some (encI 0xD2#8 (encodeOpnd d) i)
  | .sysw d i => some (encI 0xD3#8 (encodeOpnd d) i)
  | .ctxsv d a => some (encR 0xD4#8 (encodeOpnd d) (encodeOpnd a) 0 0)
  | .ctxld a b => some (encR 0xD5#8 0 (encodeOpnd a) (encodeOpnd b) 0)
  | .tlbi a s => some (encR 0xD6#8 0 (encodeOpnd a) 0 (x3Of false s))
  | .controlRegisterWrite _ => none
  | .formatWindowWrite _ => none
  | .stashWindowWrite _ => none
  | .ctxidWrite _ => none
  | .sqldImageLoad _ => none
  | .sqldBaselineRestore _ => none
  | .rrtabWrite _ => none
  | .ertabWrite _ => none
  | .errcntWrite _ => none
  | .hostRingEntry _ => none
  | .contextCreate => none
  | .contextDestroy => none
  | .contextFree _ => none
  | .attestationQuote => none
  | .spawnAnswer => none
  | .sliceCompletion _ => none
  | .gangPlacement => none
  | .migration _ _ => none
  | .quantumEnd => none
  | .preemption _ _ => none
  | .restore _ _ => none
  | .budgetExpiry _ _ _ => none
  | .ageCap _ _ => none
  | .workgroupEnd _ _ _ => none
  | .loadValueReturn _ _ => none
  | .pageWalk _ _ _ => none
  | .homeFill _ => none
  | .homeWriteAccept _ => none
  | .writeAcknowledgement _ => none
  | .speculativeValidation _ => none
  | .replicatedCommit _ => none
  | .replicaLockTimeout _ => none
  | .roundViewUpdate _ _ => none
  | .stashFill _ => none
  | .stashUpgrade _ => none
  | .stashRecall _ => none
  | .copyCompletion _ => none
  | .fusedPassStart _ => none
  | .matrixPassEnd _ => none
  | .hobUpdateApply _ => none
  | .hobWindowClose _ => none
  | .emberContributionApply _ => none
  | .mergeWindowClose _ => none
  | .eldAtHome _ => none
  | .resultBlockPush _ => none
  | .generationPublish _ => none
  | .stokerCommandComplete _ => none
  | .fireboxClaimGrant => none
  | .fireboxConversion => none
  | .fireboxOperationRun => none
  | .drawBinning _ => none
  | .rasterise _ => none
  | .pixelBackEndWrite _ => none
  | .drawRelease _ => none
  | .correctedError => none
  | .uncorrectableError _ => none
  | .dieLoss _ => none
  | .securityAlarm _ => none
  | .powerOn => none
  | .deviceReset => none
  | .testCommand => none
  | .identityRequest => none
  | .recoveryImage => none
  | .sidebandStatusRequest => none
  | .powerLimit _ => none
  | .flitReceive _ _ => none
  | .remoteAccess _ => none
  | .illegalInstruction => none
  | .instructionFetchFault => none
  | .writeCompletionTime => none
  | .slowPathCompletion _ => none

end Sys2Proof
end

