-- ==== Sys2Proof/Machine/Fetch.lean ====
section
/-! DEFINITION. Fetching an instruction word (R61, R63, R199) and the checks of an indirect target (R318). -/

namespace Sys2Proof.Machine

/-- The address lies in the TG's code region. -/
def inCode (s : State) (g : Tg) (va : W64) : Bool :=
  let (base, len) := codeRegion s g
  decide (base ≤ va.toNat) && decide (va.toNat < base + len)

/-- How a fetch ends. -/
inductive Fetched where
  | word (w : W32)
  | fault (cause : Nat)
  deriving DecidableEq, Repr, Inhabited

/-- An address that instructions can be fetched from: in canonical form, in the low or the high space (R94, R96). -/
def fetchable (va : W64) : Bool := canonical va && regionOf va == .translated

/-- The word at a virtual address as a TG's fetch delivers it: from memory at its home, with the launch's patches unless a context
handler runs (R61, R63, R199). -/
def fetchAt (s : State) (g : Tg) (va : W64) : Fetched :=
  if !inCode s g va || !fetchable va then .fault 0x06
  else if va.toNat % 4 ≠ 0 then .fault 0x04
  else
    match translate s g.core g.ctx g.priv .fetch va with
    | .error e => .fault e
    | .ok h =>
      let stored : W32 := BitVec.ofNat 32 (homeNat s h.pa 4)
      match g.region with
      | some _ => .word stored
      | none => let l := s.launchOf g.key.launch; .word (deliver l (va.toNat - l.hdr.code) stored)

/-- The core's instruction cache holds a usable copy of the line (R121). No write of the line becomes its value before the copy's
lease has expired (R122), so the copy's bytes are the line's. -/
def codeUsable (s : State) (core no : Nat) : Bool := s.icopies.any (fun x => x.1 = core && x.2.1 = no && decide (s.gt + 8 < x.2.2))

/-- The line of a fetch in the core's instruction cache: a usable copy, or a fill from the home with a lease; none while the fill is
held (R121, R122). -/
def fetchFill (s : State) (g : Tg) (pa : Nat) : State × Bool :=
  let no := lineOf pa
  if codeUsable s g.core no then (s, true)
  else
    let s := reach s no
    if fillHeld s no then (s, false)
    else (admitCode (admitLine (leaseLine s no g.lease.toNat) no) g.core no (s.gt + 2 ^ g.lease.toNat), true)

/-- The fetch at a virtual address brought to its line: nothing to do where the fetch faults. -/
def fetchLine (s : State) (g : Tg) (va : W64) : State × Bool :=
  if !inCode s g va || !fetchable va || va.toNat % 4 ≠ 0 then (s, true)
  else
    match translate s g.core g.ctx g.priv .fetch va with
    | .error _ => (s, true)
    | .ok h => fetchFill (cachePage s g.core g.ctx va) g h.pa

/-- The reason for which a target of JMPI fails, 0 when it passes (R318). `tag` is the expected tag. -/
def targetReason (s : State) (g : Tg) (tag : Option Nat) (va : W64) : Nat :=
  if !(canonical va && inCode s g va) then 1
  else if va.toNat % 4 ≠ 0 then 2
  else
    match fetchAt s g va with
    | .fault _ => 3
    | .word w =>
      if bitsNat w.toNat 31 24 ≠ 0x48 then 4
      else match tag with
        | some t => if bitsNat w.toNat 16 0 = t then 0 else 5
        | none => 0

end Sys2Proof.Machine
end

