-- ==== Sys2Proof/Machine/Order.lean ====
section
/-! DEFINITION. Releases and acquires (R124-R126, R129), as fences, barriers, STR, RADV, SPAWN and strong atomics use them. Every
scratch write is performed when it issues (log 7), so no release waits for one. -/

namespace Sys2Proof.Machine

/-- Every earlier H-path access to a home on the device is acknowledged, of an operation with others too. -/
def Tg.hobsIn (g : Tg) : Bool := g.ops.all (fun o => o.done || o.path ≠ some .h || o.near = 0)

/-- Every earlier write, atomic, hob and ember operation to a remote address is acknowledged. -/
def Tg.remoteIn (g : Tg) : Bool := g.ops.all (fun o => o.done || !o.remote || (o.path = some .g && o.load))

/-- Every replicated commit of the TG is complete (R134). -/
def commitsDone (s : State) : Bool :=
  s.lines.all (fun l => l.locked.isNone || l.pend.all (fun p => p.tg ≠ s.tg.key))

/-- The release part of a scope is complete (R125): 0 group, 1 workgroup, 2 core, 3 cluster, 4 device, 5 system. -/
def released (s : State) (scope : Nat) : Bool :=
  let g := s.tg
  (scope < 1 || (g.unack = 0 && g.hobsIn))
    && (scope < 4 || (decide (g.wctMax ≤ s.gt) && commitsDone s))
    && (scope < 5 || g.remoteIn)

/-- The physical address of the counter of region n, when the entry is valid and its line is mapped. -/
def counterPa (s : State) (n : Nat) : Option Nat :=
  match roundRegion s s.tg.ctx n with
  | none => none
  | some r => paOf s s.tg.core s.tg.ctx r.cva

/-- A read of the counter's line at its home is answered at once: no write of it is pending, and none of the TG's own is on its
way (R122, R127). -/
def counterFree (s : State) (n : Nat) : Bool :=
  match counterPa s n with
  | none => true
  | some pa =>
    let no := lineOf pa
    !fillHeld (applyDue s no) no && (s.toLine s.tg.key no).isEmpty

/-- A floor moves forward only (R142). -/
def raiseFloor (g : Tg) (n : Nat) (x : W32) : Tg :=
  { g with floors := if atOrAfter x (vget g.floors n) then vset g.floors n x else g.floors }

/-- The acquire part can be performed: every earlier load and atomic has its value, and the region's counter can be read. -/
def acquirable (s : State) : Bool := s.tg.loadsIn && counterFree s (gmRr s.tg.gm)

/-- The acquire part (R125): non-coherent lines leave the core's L1 and the floor of region gm.rr rises to its counter. -/
def acquire (s : State) : State :=
  let n := gmRr s.tg.gm
  let s := dropNc (noteRound s s.tg.ctx n) s.tg.core
  let s := match roundRegion s s.tg.ctx n with | some r => cachePage s s.tg.core s.tg.ctx r.cva | none => s
  match counterPa s n with
  | none => s
  | some pa =>
    let s := reach s (lineOf pa)
    s.modTg (fun g => raiseFloor g n (BitVec.ofNat 32 (latestNat s pa 4)))

/-- What STR waits for (R129): no unacknowledged write, and every earlier load and atomic has its value. -/
def strReady (s : State) : Bool := s.tg.unack = 0 && s.tg.loadsIn

end Sys2Proof.Machine
end

