-- ==== Sys2Proof/Machine/Control.lean ====
section
/-! DEFINITION. Opcodes 0x40-0x4E: control transfer, divergence, regrouping and mode (R21-R26, R49-R53, R210, R290-R292, R294, R310,
R318-R322, R333, R340, R350, R352, R364, R381). -/

namespace Sys2Proof.Machine

/-- PC + 4 + 4 × disp (R39). -/
def branchTarget (g : Tg) (disp : Int) : W64 := g.pc + 4 + BitVec.ofInt 64 (4 * disp)

/-- A control transfer that does not run: the next word, every latch invalid (R19, R27). -/
def fallThrough (s : State) : Out := jump s (s.tg.pc + 4)

/-- BR (R290). -/
def execBr (disp : BitVec 24) (s : State) : Out :=
  onTg s (fun g => if g.active = 0 then fallThrough s else jump s (branchTarget g disp.toInt))

/-- BRP (R292). -/
def execBrp (c : BitVec 2) (disp : BitVec 22) (s : State) : Out :=
  onTg s (fun g =>
    let t := g.cm &&& g.guard
    let taken : Bool := match c.toNat with | 0 => t ≠ 0 | 1 => t = g.cm | _ => t = 0
    if taken then jump s (branchTarget g disp.toInt) else fallThrough s)

/-- CALL (R294). -/
def execCall (disp : BitVec 24) (s : State) : Out :=
  onTg s (fun g =>
    if g.active = 0 then fallThrough s
    else
      guarded s [check (s.hdr.sregs < 32) 0x02 g.active]
        (if g.pending (.s 31) then registerWait s false
         else jump (s.modTg (fun g => { g with s := vset g.s 31 (g.pc + 4) })) (branchTarget g disp.toInt)))

/-- RET (R352). -/
def execRet (a : Opnd) (s : State) : Out :=
  onTg s (fun g =>
    if g.active = 0 then fallThrough s
    else
      guarded s [check (!sRegOk s.hdr a) 0x02 g.cm]
        (if g.pending a then registerWait s false
         else
           let target := readS g a
           if target.toNat % 4 ≠ 0 then trap s { cause := 0x04, mask := g.cm, va := target }
           else jump s target))

/-- A mask without the threads of another. -/
def maskDiff (a b : Mask) : Mask := a &&& ~~~ b

/-- JMPI (R318-R320). -/
def execJmpi (a b : Opnd) (s : State) : Out :=
  onAny s (fun g =>
    guarded s [check (!(addrOk s.hdr a && sOrZr s.hdr b)) 0x02 g.cm]
      (if (opndSpan a 64).any g.pending || g.pending b then registerWait s false
       else
         let expect := readS g b
         let tag := if b = .zr then none else some (bitsNat expect.toNat 16 0)
         if expect.toNat / 2 ^ 17 ≠ 0 then trap s { cause := 0x02, mask := g.cm }
         else
           let tgt := fun t => (readPlain g a 64 t).setWidth 64
           let reason := fun t => if bitOf g.cm t then targetReason s g tag (tgt t) else 0
           let bad := g.cm &&& maskOf (fun t => reason t ≠ 0)
           if bad ≠ 0 then
             trap s { cause := 0x09, mask := bad, va := tgt (lowest bad)
                      detail := beats.map (fun t => BitVec.ofNat 8 (reason t)) }
           else
             let target := tgt (lowest g.cm)
             let same := g.cm &&& maskOf (fun t => tgt t = target)
             let others := maskDiff g.cm same
             let again := match g.stack with | e :: _ => e.ppc = g.pc && e.pm = 0 | [] => false
             if others ≠ 0 && !again && g.stack.length ≥ 16 then trap s { cause := 0x08, mask := g.cm }
             else
               let stack :=
                 if others = 0 then g.stack
                 else match g.stack with
                   | e :: es => if again then { e with pm := others } :: es else ⟨g.cm, others, g.pc, none⟩ :: g.stack
                   | [] => [⟨g.cm, others, g.pc, none⟩]
               jump (s.modTg (fun g => { g with stack := stack, cm := same })) target))

/-- SPLIT (R24, R364). -/
def execSplit (disp : BitVec 24) (s : State) : Out :=
  onTg s (fun g =>
    let t := g.cm &&& g.guard
    let p := maskDiff g.cm t
    let other := branchTarget g disp.toInt
    if g.stack.length ≥ 16 then trap s { cause := 0x08, mask := g.cm }
    else if t ≠ 0 then
      jump (s.modTg (fun g => { g with stack := ⟨g.cm, p, other, none⟩ :: g.stack, cm := t })) (g.pc + 4)
    else
      jump (s.modTg (fun g => { g with stack := ⟨g.cm, 0, other, none⟩ :: g.stack, cm := p })) other)

/-- The state at the next word with every latch invalid, and Resolve when the current mask is empty (R24). -/
def settleNext (s : State) : Out :=
  .next (settle (s.modTg (fun g => { (g.clearLatches).fresh with pc := g.pc + 4 })))

/-- JOIN (R24, R321). -/
def execJoin (s : State) : Out :=
  onAny s (fun g =>
    match g.stack with
    | [] => trap s { cause := 0x08, mask := g.cm }
    | e :: es =>
      let pend := e.pm &&& g.live
      if pend ≠ 0 then
        jump (s.modTg (fun g => { g with cm := pend, stack := { e with pm := 0, rpc := some (g.pc + 4) } :: es })) e.ppc
      else settleNext (s.modTg (fun g => { g with cm := e.rm &&& g.live, stack := es })))

/-- BRK (R24, R291). -/
def execBrk (n : BitVec 17) (s : State) : Out :=
  onTg s (fun g =>
    let b := g.active
    if b = 0 then fallThrough s
    else if 15 ≤ n.toNat || g.stack.length < n.toNat + 1 then trap s { cause := 0x08, mask := b }
    else
      settleNext (s.modTg (fun g =>
        { g with cm := maskDiff g.cm b
                 stack := mapFrom 0 (fun i e => if i < n.toNat then { e with rm := maskDiff e.rm b } else e) g.stack })))

/-- LAND (R322) has no effect. -/
def execLand (_ : BitVec 17) (s : State) : Out := onAny s (fun _ => done s)

/-- A source of EXIT and of ERET.kill is neither a queue nor a stream (R310). -/
def statusCause (h : Header) (g : Tg) (o : Opnd) : Option Nat :=
  match o with
  | .q _ => some 0x02
  | .sp _ => some 0x02
  | o => readCause h g false o 32

/-- EXIT (R24, R25, R310). -/
def execExit (a : Opnd) (s : State) : Out :=
  onTg s (fun g =>
    let x := g.active
    if x = 0 then guarded s [latchTrap g [a] 0] (fallThrough s)
    else
      guarded s [causeTrap (statusCause s.hdr g a) x]
        (if Shape.pending ⟨[(a, 32)], .zr, 32, false⟩ g then registerWait s false
         else settleNext (exitThreads s x (fun t => (readPlain g a 32 t).setWidth 32))))

/-- YIELD (R381): the lane chooses again, another ready TG first. -/
def execYield (s : State) : Out :=
  onAny s (fun _ =>
    .next ((giveLane s).modTg (fun g => { (g.loseOlder).next with yielded := true })))

/-! ### REGRP (R26, R350) -/

/-- The p register that a waiting TG's REGRP names. -/
def regrpPred (g : Tg) : Nat :=
  match decode g.word with | .ok (.regrp (.p n)) => n.toNat | _ => 0

/-- An operation's value goes to registers thread by thread. -/
def Op.perThread (o : Op) : Bool :=
  !o.done && (match o.sink with | some k => (match k.d with | .v _ => true | .p _ => true | _ => false) | none => false)

/-- The values still due to beat t of a TG no longer come to it: its thread has moved. -/
def leaveBeat (t : Nat) (ops : List Op) : List Op :=
  (ops.map (fun o => if o.perThread then { o with sink := o.sink.map (fun k => { k with mask := k.mask &&& ~~~ (1#8 <<< t) }) } else o)).filter
    (fun o => !(o.moved.isSome && o.sink.any (fun k => k.mask = 0)))

/-- The values still due to the thread at beat t of `src` come to `dst` (R350). -/
def joinBeat (src : Tg) (t : Nat) (dst : Tg) : Tg :=
  (src.ops.filter (fun o => o.perThread && o.sink.any (fun k => bitOf k.mask t))).foldl (fun g o =>
    g.addOp { o with path := none, need := 1, got := [], acquire := false, raises := []
                     moved := some (o.moved.getD (src.key.tg, o.id)), sink := o.sink.map (fun k => { k with mask := 1#8 <<< t }) }) dst

/-- The thread at beat t of `src` put into beat t of `dst`: its home, v registers, p bits and per-thread counts. -/
def carry (src : Tg) (t : Nat) (dst : Tg) : Tg :=
  { dst with
    home := vset dst.home t (vget src.home t)
    v := (upTo 64).foldl (fun v i => vset v i (vset (vget v i) t (vget (vget src.v i) t))) dst.v
    p := beats.foldl (fun p i =>
      vset p i (if bitOf (vget src.p i) t then vget p i ||| (1#8 <<< t) else vget p i &&& ~~~ (1#8 <<< t))) dst.p
    rnd := vset dst.rnd t (vget src.rnd t), embers := vset dst.embers t (vget src.embers t)
    elds := vset dst.elds t (vget src.elds t), hobs := vset dst.hobs t (vget src.hobs t)
    spawns := vset dst.spawns t (vget src.spawns t) }

/-- The same for another TG's thread, with the values still due. -/
def move (src : Tg) (t : Nat) (dst : Tg) : Tg :=
  if src.key = dst.key then carry src t dst else joinBeat src t { carry src t dst with ops := leaveBeat t dst.ops }

/-- One beat of one lane class: the live threads, p bit 1 first, dealt to the TGs in ascending k. `old` holds every TG as it was. -/
def dealBeat (old : List Tg) (pred : Tg → Nat) (t : Nat) (new : List Tg) : List Tg :=
  let here := old.filter (fun g => bitOf g.live t)
  let ones := here.filter (fun g => bitOf (vget g.p (pred g)) t)
  let zeros := here.filter (fun g => !bitOf (vget g.p (pred g)) t)
  let order := ones ++ zeros
  mapFrom 0 (fun i g =>
    match order[i]? with
    | some src => { move src t g with live := g.live ||| (1#8 <<< t) }
    | none => { g with live := g.live &&& ~~~ (1#8 <<< t) }) new

/-- The TGs of one lane class after regrouping, each at its next word. -/
def dealClass (pred : Tg → Nat) (gs : List Tg) : List Tg :=
  (beats.foldl (fun new t => dealBeat gs pred t new) gs).map (fun g =>
    { (g.clearLatches).fresh with cm := g.live, pc := g.pc + 4 })

/-- Every TG of a workgroup that has a live thread, in ascending k. -/
def State.tgsOf (s : State) (l g w : Nat) : List Tg :=
  sortBy (fun (a b : Tg) => decide (a.key.tg < b.key.tg))
    (s.allTgs.filter (fun x => x.on && x.live ≠ 0 && x.key.launch = l && x.key.gang = g && x.key.wg = w))

/-- A TG put back in its place. -/
def State.putTg (s : State) (g : Tg) : State := s.modTgAt g.key (fun _ => g)

/-- The word that a TG waits at is a REGRP. -/
def atRegrp (g : Tg) : Bool := match decode g.word with | .ok (.regrp _) => true | _ => false

/-- The regrouping of the issuing TG's workgroup; a TG left with no live thread ends. -/
def regroup (s : State) (pred : Tg → Nat) : State :=
  let k := s.tg.key
  let gs := s.tgsOf k.launch k.gang k.wg
  let new := (upTo 32).flatMap (fun c => dealClass pred (gs.filter (fun g => g.key.tg % 32 = c)))
  let s := new.foldl (fun s g => s.putTg g) s
  (new.foldl (fun s g => if g.live = 0 then endTg (s.focus g.key) else s) s).focus k

def execRegrp (a : Opnd) (s : State) : Out :=
  onAny s (fun g =>
    let rayMask := g.rays.foldl (fun m (r : Ray) => m ||| (1#8 <<< r.t)) 0
    match a with
    | .p n =>
      guarded s [check (g.stack ≠ []) 0x08 g.cm, check (rayMask ≠ 0) 0x0F rayMask]
        (if g.pending a then registerWait s true
         else
           let s := s.modTg (fun g => { g with phase := .arrived })
           let k := g.key
           if (s.tgsOf k.launch k.gang k.wg).all (fun x => x.key = k || (x.phase = .arrived && atRegrp x))
           then .next (regroup s (fun x => if x.key = k then n.toNat else regrpPred x))
           else waitIn s false)
    | _ => trap s { cause := 0x02, mask := g.cm })

/-! ### The mode register (R49-R53) -/

/-- A reserved et, rm or au value. -/
def modeReserved (n : W32) : Bool := gmEt n = 15 || 4 < gmRm n || 5 < gmAu n

/-- gm[23:0] replaced. -/
def setMode (g : Tg) (n : W32) : Tg := { g with gm := (g.gm &&& 0xFF000000) ||| (n &&& 0x00FFFFFF) }

/-- MODE (R52). -/
def execMode (i : BitVec 24) (s : State) : Out :=
  onAny s (fun g =>
    let n : W32 := i.setWidth 32
    if modeReserved n then trap s { cause := 0x13, mask := g.cm } else done (s.modTg (fun g => setMode g n)))

/-- MODES (R53). -/
def execModes (d a : Opnd) (s : State) : Out :=
  onAny s (fun g =>
    guarded s [check (!(sOrZr s.hdr d && sOrZr s.hdr a)) 0x02 g.cm]
      (if g.pending d || g.pending a then registerWait s false
       else
         let n : W32 := (readS g a).extractLsb' 0 24 |>.setWidth 32
         if a ≠ .zr && modeReserved n then trap s { cause := 0x13, mask := g.cm }
         else
           let old : W64 := g.gm.setWidth 64
           done (s.modTg (fun g =>
             let g := if a = .zr then g else setMode g n
             (writeReg g d 64 false 0 (old.setWidth 128)).shift (sameLatch old) none))))

/-- NOP (R340). -/
def execNop (s : State) : Out := onAny s (fun _ => done s)

end Sys2Proof.Machine
end

