-- ==== Sys2Proof/Machine/Issue.lean ====
section
/-! DEFINITION. Issue within a core (R17, R20, R28, R194), budgets (R192), and what passes with every step: GT, clocks, ages,
budgets, and the arrival of round news (R140). -/

namespace Sys2Proof.Machine

/-! ### Ready thread groups -/

/-- With FPTRAP.pze set, a TG waits for values whose poison would trap at the instruction that asked for them (R73, R266). -/
def Tg.poisonHold (g : Tg) : Bool := g.fptrap.getLsbD 7 && g.ops.any (fun o => !o.done && (o.sink.isSome || o.mark || o.conf.isSome))

/-- A gang holds its cores. -/
def Gang.holds (x : Gang) : Bool := x.state = .resident || x.state = .stopping || x.state = .spilling || x.state = .loading

/-- The TG's gang holds its cores, and is not still waiting for statuses after a restore (R205). -/
def isResident (s : State) (g : Tg) : Bool :=
  match s.findGang g.key.launch g.key.gang with | some x => x.holds && x.state != .loading | none => false

/-- A boundary of R20: b1 to b3 are invalid, or the TG waits at a switch point. -/
def atBoundary (g : Tg) : Bool := (!vget g.bv 1 && !vget g.bv 2 && !vget g.bv 3) || (g.waiting && !g.keepLane)

/-- The TG has stopped for a pre-emption: at a boundary of a gang that is to be saved (R203). -/
def hasStopped (s : State) (g : Tg) : Bool :=
  atBoundary g && (match s.findGang g.key.launch g.key.gang with | some x => x.state = .stopping || x.state = .spilling | none => false)

/-- The TG can issue its next instruction, or test again the condition that it waits for (R28). -/
def isReady (s : State) (g : Tg) : Bool :=
  g.on && (!g.waiting || g.woken) && !g.slow && !g.poisonHold && isResident s g && !hasStopped s g

/-- The budget trap is due (R192): not above the launch privilege, at a boundary; a pre-emption at that boundary follows it (R202). -/
def budgetDue (s : State) (g : Tg) : Bool :=
  g.on && g.budgetTrap && g.priv = (s.launchOf g.key.launch).priv && atBoundary g && isResident s g

/-- The lane may issue from the TG. -/
def canIssue (s : State) (g : Tg) : Bool := isReady s g || budgetDue s g

/-! ### The lane's choice (R194) -/

/-- The engine of an opcode: 0 vector, 1 transcendental, 2 load/store, 3 copy, 4 matrix, 5 flue, 6 ember port, 7 firebox port. -/
def engineOf (op : Nat) : Nat :=
  if (0x20 ≤ op && op ≤ 0x27) || op = 0x06 || op = 0x07 then 1
  else if (0x50 ≤ op && op ≤ 0x5D) || (0x60 ≤ op && op ≤ 0x6A) || op = 0x74 then 2
  else if op = 0x70 || op = 0x71 || op = 0x72 then 3
  else if 0x80 ≤ op && op ≤ 0x85 then 4
  else if 0x90 ≤ op && op ≤ 0x98 then 5
  else if 0xA0 ≤ op && op ≤ 0xA2 then 6
  else if 0xB0 ≤ op && op ≤ 0xBA then 7
  else 0

/-- The engine of a TG's next instruction. -/
def nextEngine (s : State) (g : Tg) : Nat :=
  match fetchAt s g g.pc with | .word w => engineOf (bitsNat w.toNat 31 24) | .fault _ => 0

/-- The clock of an engine's last use on a core. -/
def lastUse (s : State) (core e : Nat) : Nat :=
  match s.engUse.find? (fun x => x.1 = core && x.2.1 = e) with | some x => x.2.2 | none => 0

def noteUse (s : State) (core e : Nat) : State :=
  { s with engUse := (core, e, s.cycle) :: s.engUse.filter (fun x => !(x.1 = core && x.2.1 = e)) }

/-- `a` is chosen before `b`: the age cap first, then the engine idle longest, then the lower slot. -/
def chosenBefore (s : State) (core : Nat) (a b : Tg) : Bool :=
  let oldA := decide (256 ≤ a.readyFor)
  let oldB := decide (256 ≤ b.readyFor)
  if oldA || oldB then
    (oldA && !oldB) || (oldA && oldB && (decide (b.readyFor < a.readyFor) || (a.readyFor = b.readyFor && decide (a.slot < b.slot))))
  else
    let ua := lastUse s core (nextEngine s a)
    let ub := lastUse s core (nextEngine s b)
    decide (ua < ub) || (ua = ub && decide (a.slot < b.slot))

/-- The best of a list. -/
def bestOf {α : Type} (before : α → α → Bool) : List α → Option α
  | [] => none
  | x :: xs => match bestOf before xs with
    | none => some x
    | some y => if before y x then some y else some x

/-- The TG is one of the lane's. -/
def Tg.onLane (g : Tg) (core ln : Nat) : Bool := g.core = core && g.key.tg % 32 = ln

/-- The TG that the lane has. -/
def laneTg (s : State) (core ln : Nat) : Option Tg :=
  (s.lanes.find? (fun x => x.1 = core && x.2.1 = ln)).bind (fun x => s.findTg x.2.2)

/-- The TGs of a lane that may be chosen: a yielding TG only if no other is ready (R381). -/
def laneChoices (s : State) (core ln : Nat) : List Tg :=
  let xs := s.allTgs.filter (fun g => g.onLane core ln && canIssue s g)
  let ys := xs.filter (fun g => !g.yielded)
  if ys = [] then xs else ys

/-- Another TG of the lane has reached the age cap (R28). -/
def agedOther (s : State) (core ln : Nat) (g : Tg) : Bool :=
  s.allTgs.any (fun h => h.onLane core ln && h.key != g.key && canIssue s h && decide (256 ≤ h.readyFor))

/-- The running TG meets a switch point before its next instruction: at a boundary, for a quantum end or the age cap (R17, R20). -/
def mustTurn (s : State) (core ln : Nat) (g : Tg) : Bool := atBoundary g && (g.turnDue || agedOther s core ln g)

/-- The TG that the lane issues from: the one it has while that can issue and meets no switch point, or waits without giving up the
lane; else its choice (R17). -/
def pick (s : State) (core ln : Nat) : Option TgKey :=
  let held := match laneTg s core ln with
    | some g =>
      if (canIssue s g && !mustTurn s core ln g) || (g.on && g.waiting && g.keepLane && isResident s g) then some g.key else none
    | none => none
  match held with
  | some k => some k
  | none => (bestOf (chosenBefore s core) (laneChoices s core ln)).map (fun g => g.key)

/-- What the lane's turn to `k` leaves of one of its TGs: a TG that it turns away from loses b1 to b3, but one that waits has read
its latch operands already (R19); yields and quantum ends have had their switch point. -/
def Tg.laneTurns (g : Tg) (k : TgKey) (had : Option TgKey) : Tg :=
  let g := if had = some g.key && g.key ≠ k && !g.waiting then g.loseOlder else g
  { g with yielded := false, turnDue := g.turnDue && g.key = k && !atBoundary g }

/-- The lane issues from TG `k`. -/
def takeLane (s : State) (core ln : Nat) (k : TgKey) : State :=
  let had := (laneTg s core ln).map (fun g => g.key)
  let f := fun (g : Tg) => if g.onLane core ln then g.laneTurns k had else g
  ({ s with lanes := (core, ln, k) :: s.lanes.filter (fun x => !(x.1 = core && x.2.1 = ln))
            tg := f s.tg, rest := s.rest.map f } : State).focus k

/-- The translations that a step has brought into TLBs: its misses (R102). -/
def newPages (s t : State) : List TlbEntry := t.tlb.filter (fun e => !s.tlb.contains e)

/-- The issuing TG waits at the instruction that `t` is the outcome of, with none of its effects: a switch point, but the lane stays
with it where neither before the instruction nor after it b1 to b3 are all invalid (R17, R102, R115). -/
def holdTg (s t : State) : State :=
  let built := fun (g : Tg) => vget g.bv 1 || vget g.bv 2 || vget g.bv 3
  s.modTg (fun g => { g with waiting := true, woken := false, keepLane := built s.tg && built t.tg && (!t.tg.waiting || t.tg.keepLane) })

/-- The TG waits for the walks of the pages that it has missed (R102): their tables are reached and their translations cached. -/
def walkWait (s t : State) : State :=
  let pages := newPages s t
  let s := pages.foldl (fun s e => reachTables s e.ctx (BitVec.ofNat 64 e.va)) s
  holdTg { s with tlb := pages ++ s.tlb } t

/-- An instruction's outcome with the waits of its translations: one that would go on, having missed a TLB, waits for the walk (R102);
one that has met a line that an engine owns waits with none of its effects (R132, R249). -/
def missed (s : State) (o : Out) : Out :=
  match o with
  | .next t =>
    if t.waits && !s.waits then .next (holdTg s t)
    else if newPages s t ≠ [] && !t.tg.waiting then .next (walkWait s t)
    else o
  | o => o

/-- An event's outcome: one that has met a line that an engine owns is tried again (R132, R249). -/
def kept (s : State) (o : Out) : Out :=
  match o with
  | .next t => if t.waits && !s.waits then .next s else o
  | o => o

/-- A row that only a lane runs: an instruction word, or what its fetch comes to. -/
def laneOnly (i : Instr) : Bool :=
  i.isWord || (match i with | .illegalInstruction => true | .instructionFetchFault => true | _ => false)

/-- What a lane does in its turn. -/
inductive Issue where
  | idle
  | budget (s : State)
  | run (i : Instr) (s : State)
  | held (s : State)          -- the fetch waits: for a walk, or for the fill of its line (R102, R121, R122)
  deriving Repr, Inhabited

/-- The instruction at the issuing TG's PC once its page is in the TLB and its line in the instruction cache, with the word in the TG,
its engine noted, its workgroup issued. -/
def fetchNext (s : State) : Issue :=
  let g := s.tg
  let (t, here) := fetchLine s g g.pc
  if t.waits && !s.waits then .held s
  else if newPages s t ≠ [] then .held (walkWait (s.modTg (fun g => { g with word := 0 })) t)
  else if !here then .held t
  else
    let s := t
    match fetchAt s g g.pc with
    | .fault _ => .run .instructionFetchFault (s.modTg (fun g => { g with word := 0 }))
    | .word w =>
      let s := noteUse s g.core (engineOf (bitsNat w.toNat 31 24))
      let s := (s.modTg (fun g => { g with word := w })).modMyWg (fun x => { x with issued := true })
      match decode w with
      | .ok i => .run i s
      | .error _ => .run .illegalInstruction s

/-- A lane's turn; none while the cores are halted (R273, R277). -/
def laneTurn (s : State) (core ln : Nat) : Issue :=
  match (if s.dev.halted then none else pick s core ln) with
  | none => .idle
  | some k =>
    let s := takeLane s core ln k
    if budgetDue s s.tg then .budget s else fetchNext s

/-- The asynchronous trap of an exhausted budget (R192, R198): TEPC names the next instruction, or the waiting one. -/
def budgetStop (s : State) : Out :=
  let s := if s.tg.waiting then s else s.modTg (fun g => { g with word := 0 })
  enterTrap s { cause := 0x0A, mask := s.tg.cm } s.tg.pc

/-- A waiting TG tests its condition again at its next turn; one that had given up its lane is chosen anew (R17). -/
def wakeTg (s : State) (k : TgKey) : State :=
  let gave := match s.findTg k with | some g => g.waiting && !g.keepLane | none => false
  { s.modTgAt k (fun g => { g with woken := g.waiting }) with lanes := if gave then s.lanes.filter (fun x => x.2.2 ≠ k) else s.lanes }

/-! ### What passes with a step -/

/-- A view moves forward to a value (R138). -/
def View.forward (v : View) (x : W32) : View := if atOrAfter x v.val then { v with val := x } else v

/-- News that 200 ns have passed over reaches every L1 (R140). -/
def deliverNews (s : State) : State :=
  let due := s.news.filter (fun n => n.wct + 200 ≤ s.gt)
  { s with news := s.news.filter (fun n => !decide (n.wct + 200 ≤ s.gt))
           views := s.views.map (fun v =>
             due.foldl (fun (v : View) (n : News) => if newsFor s n v then v.forward n.val else v) v) }

/-- `c` clocks pass for a TG. -/
def Tg.age (s : State) (c : Nat) (g : Tg) : Tg := if canIssue s g then { g with readyFor := g.readyFor + c } else g

/-- `c` clocks pass for a workgroup: its budget counts while it is resident, from its first issue (R192). -/
def Wg.spend (s : State) (c : Nat) (w : Wg) : Wg :=
  if w.issued && !w.ended && (match s.findGang w.launch w.gang with | some x => x.holds | none => false)
  then { w with budget := w.budget.map (fun b => b - c) } else w

/-- The workgroup's budget has reached 0 and its TGs have not been told. -/
def Wg.overBudget (w : Wg) : Bool := w.budget = some 0 && w.issued && !w.expired && !w.ended

/-- A budget has run out: each TG of its workgroup is to trap at its next boundary (R192, R293). DESIGN CHOICE (log 71): once, and again
only after a BUDG has set the budget anew. -/
def budgetsOut (s : State) (mine : Wg → Bool) : State :=
  let spent := s.wgs.filter (fun w => w.overBudget && mine w)
  let f := fun (g : Tg) => if g.on && spent.any (fun w => w.is g.key.launch g.key.gang g.key.wg) then { g with budgetTrap := true } else g
  if spent = [] then s
  else { s with tg := f s.tg, rest := s.rest.map f, wgs := s.wgs.map (fun w => if w.overBudget && mine w then { w with expired := true } else w) }

/-- Time passes and the next agent is drawn. -/
def passTime (s : State) : State :=
  let n := s.ctr
  let c := Config.clockAdvance n
  { s with ctr := n + 1, waits := false, turn := Config.freeTurn n, gt := s.gt + Config.gtAdvance n, cycle := s.cycle + c
           tg := s.tg.age s c, rest := s.rest.map (Tg.age s c), wgs := s.wgs.map (Wg.spend s c) }

/-- The first answer owed to another node whose time has come goes back (R157). -/
def sendOwed (s : State) : State :=
  match s.dev.owed.find? (fun x => x.at_ ≤ s.gt) with
  | none => s
  | some x => s.modDev (fun d => { d with answer := x.b, owed := dropFirst (fun y => y.at_ ≤ s.gt) d.owed })

/-- The end of every step: time passes, and what it brings about: writes whose WCT has come (R122), budgets that have run out, news
(R140), answers to other nodes. -/
def finish (s : State) : State := sendOwed (deliverNews (budgetsOut (applyAllDue (passTime s)) (fun _ => true)))

/-- A step's outcome with time passed. -/
def finished : Out → Out
  | .next s => .next (finish s)
  | .fault f => .fault f
  | .refused r => .refused r

/-! ### A word placed for the next fetch -/

/-- Where the program stands that a load from outside places (log 1): header at virtual 0x10000, code 128 bytes later; the page is
its own physical page. -/
def placeVa : Nat := 0x10080

/-- The launch of that load: class 0, every resource granted. -/
def placeHeader : Header :=
  { flags := 0x000A, widths := [3, 7, 8, 16, 0, 0], vregs := 64, sregs := 32, scratch := 0x40000, tiles := 4, queues := 8
    tgs := 1, patchOff := 0, patchCount := 0, paramBytes := 0, trapOff := 0, saveBytes := 0x100000, gx := 1, gy := 1
    code := placeVa, codeLen := 0x1000 }

def placeLaunch : Launch :=
  { no := 0, ctx := 0, record := 0, hdr := placeHeader, patches := [], params := [], base := 0, count := 8, deadline := 0
    seed := 0, cls := 0, budget := 0, ranges := [], after := none, gangs := 1, nextGang := 1, status := none
    killed := false, done := false, wct := 0, kindled := none, heldKindles := [], draw := none }

def placeWg : Wg :=
  { launch := 0, gang := 0, no := 0, logical := 0, core := 0, scratch := [], size := 0x40000, empty := []
    stga := Vector.replicate 4 0, stsc := Vector.replicate 4 0, stash := [], tiles := Vector.replicate 4 Tile.empty
    fifos := [], subs := [], budget := none, issued := false, status := none, killed := false, ended := false, wct := 0 }

/-- The machine with that launch resident: one TG at M in context 0, its code page cached, lane 0 of core 0 about to issue. -/
def placeProgram (s : State) : State :=
  { s with
    turn := .lane 0 0
    tlb := ⟨0, 0, 0x10000, 0x10000, 0x1003F⟩ :: s.tlb
    tg := { Tg.empty with key := ⟨0, 0, 0, 0⟩, on := true, pc := BitVec.ofNat 64 placeVa, cm := 0xFF, live := 0xFF, priv := .m }
    wgs := [placeWg]
    gangs := [{ launch := 0, no := 0, cluster := 0, ox := 0, oy := 0, state := .resident, frags := [] }]
    launches := [placeLaunch]
    lanes := [(0, 0, ⟨0, 0, 0, 0⟩)]
    ctxs := Ctx.fresh 0 .live :: s.ctxs }

/-- The word's bytes where the issuing TG fetches next, and its lane's turn. -/
def placeWord (s : State) (w : Nat) : State :=
  let g := s.tg
  let s := cachePage s g.core g.ctx g.pc
  match translate s g.core g.ctx g.priv .fetch g.pc with
  | .ok h =>
    { s with mem := memPut s.mem h.pa (natLe 4 w), turn := .lane g.core (g.key.tg % 32)
             lanes := (g.core, g.key.tg % 32, g.key) :: s.lanes.filter (fun x => !(x.1 = g.core && x.2.1 = g.key.tg % 32)) }
  | .error _ => s

end Sys2Proof.Machine
end

