-- ==== Sys2Proof/Machine/MemOps.lean ====
section
/-! DEFINITION. What loads, stores and atomics share: addresses (R325), the delivery of values (R18, R43, R324), and the way a load
or a store goes out (R115, R366). -/

namespace Sys2Proof.Machine

/-- The address of thread t: base plus the sign-extended offset (R325). -/
def effVa (g : Tg) (a : Opnd) (off : W128) (t : Nat) : W64 :=
  (readPlain g a 64 t).setWidth 64 + (off.setWidth 32).signExtend 64

/-- The addresses of the threads of a mask, with the offsets read as source `i`. -/
def effVas (g : Tg) (a : Opnd) (r : Reads) (i : Nat) (m : Mask) : List (Nat × W64) :=
  (beatsOf m).map (fun t => (t, effVa g a (r.at i t) t))

/-- The pages that engine accesses name, cached (R101). -/
def cacheAll (s : State) (vas : List W64) : State :=
  vas.foldl (fun s va => if regionOf va = .translated && canonical va then cachePage s s.tg.core s.tg.ctx va else s) s

/-! ### Delivering values -/

/-- The latch that an operation owes its value, set from the pieces. `word` takes their low 32 bits (ELD, R149). -/
def setLatch (g : Tg) (n : Nat) (k : Sink) (word : Bool) (got : List Piece) : Tg :=
  let bits := if word then 32 else etContainer k.et.toNat
  let one := fun (p : Piece) => latchValue k.d bits (etSext k.et.toNat) p.data
  let vals : Vector W64 8 :=
    if isSReg k.d then sameLatch (match got with | p :: _ => one p | [] => 0)
    else got.foldl (fun v p => vset v p.t (one p)) zeroLatch
  { g with b := vset g.b n vals }

/-- Values written to the destination of the taking threads: an exited thread's value is dropped (R311). -/
def deliverRegs (g : Tg) (k : Sink) (got : List Piece) : Tg :=
  let bits := etContainer k.et.toNat
  if isSReg k.d then
    match got with | p :: _ => writeReg g k.d bits (etSext k.et.toNat) 0 p.data | [] => g
  else got.foldl (fun g p => if bitOf g.live p.t && bitOf k.mask p.t then writeReg g k.d bits false p.t p.data else g) g

/-- One value for every beat (RCNT, R346). -/
def spreadPieces (got : List Piece) : List Piece := match got with | p :: _ => beats.map (fun t => { p with t := t }) | [] => []

/-- The latch that owes its value to operation `op`. -/
def owedLatch (g : Tg) (op : Nat) : Option Nat := [0, 1, 2, 3].find? (fun n => vget g.bop n = some op)

/-- An operation's values in its destination and its latch. -/
def deliverOp (g : Tg) (o : Op) : Tg :=
  match o.sink with
  | none => g
  | some k =>
    let got := sortBy (fun (a b : Piece) => decide (a.t < b.t)) (if o.all then spreadPieces o.got else o.got)
    let g := deliverRegs g k got
    match owedLatch g o.id with
    | some n => if k.latch then setLatch g n k (o.path = some .e) got else g
    | none => g

/-- An operation's values for the threads that REGRP has moved to other TGs (R350). -/
def deliverMoved (s : State) (k : TgKey) (o : Op) : State :=
  let got := if o.all then spreadPieces o.got else o.got
  let f := fun (h : Tg) =>
    if h.key.launch = k.launch && h.key.gang = k.gang && h.key.wg = k.wg then
      (h.ops.filter (fun x => !x.done && x.moved = some (k.tg, o.id))).foldl (fun (h : Tg) x =>
        match x.sink with
        | some q => (deliverRegs h q got).finishOp x.id
        | none => h) h
    else h
  { s with tg := f s.tg, rest := s.rest.map f }

/-- The floors that an LDA raises (R142). -/
def raiseFloors (g : Tg) (raises : List (Nat × Nat)) (got : List Piece) : Tg :=
  raises.foldl (fun g r =>
    match got.find? (fun p => p.t = r.1) with
    | some p => raiseFloor g r.2 (p.data.setWidth 32)
    | none => g) g

/-! ### Streams (R181) -/

/-- The stream of a 32-byte descriptor, or the cause of its breach. -/
def streamOf (b : List Byte) : Except Nat Stream :=
  let ty := recNat b 0x18 1
  let size := etBytes ty
  let x : Stream := { base := BitVec.ofNat 64 (recNat b 0 8), stride := BitVec.ofNat 32 (recNat b 8 4)
                      count := BitVec.ofNat 32 (recNat b 0xC 4), inner := BitVec.ofNat 32 (recNat b 0x10 4)
                      outer := BitVec.ofNat 32 (recNat b 0x14 4), type := BitVec.ofNat 8 ty
                      write := recNat b 0x19 1 = 1, pos := 0 }
  if 12 < ty then .error 0x13
  else if x.base.toNat % size ≠ 0 || x.stride.toNat % size ≠ 0 || x.outer.toNat % size ≠ 0 then .error 0x04
  else if x.count = 0 || x.inner = 0 || 1 < recNat b 0x19 1 || (b.drop 0x1A).any (fun y => y ≠ 0) then .error 0x13
  else .ok x

/-! ### Loads -/

inductive LoadKind where
  | plain | acquire | bounded
  deriving DecidableEq, Repr, Inhabited

/-- v, s and p registers and zr (R324). -/
def loadDst (d : Opnd) : Bool := match d with | .v _ => true | .s _ => true | .p _ => true | .zr => true | _ => false

/-- The regions whose counter word an access reads, by thread (R142). -/
def counterRaises (s : State) (accs : List Acc1) : List (Nat × Nat) :=
  accs.flatMap (fun a =>
    (upTo 32).filterMap (fun n => match roundRegion s s.tg.ctx n with
      | some r => if r.cva = a.va then some (a.t, n) else none
      | none => none))

/-- The threads' poison in the sources and values at hand, set in FLAGS; the trap of R73 with FPTRAP.pze. -/
def poisonTrap (s : State) (m : Mask) : State × Option TrapInfo :=
  (s.raise (if m = 0 then 0 else flagPz), check (s.tg.fptrap.getLsbD 7 && m != 0) 0x12 m)

/-- A load whose accesses have been checked: served at once when every value is at hand, else outstanding (R115). `s` is the state
before the queue pops, `r` the sources. -/
def issueLoad (s : State) (kind : LoadKind) (x : Shape) (accs : List Acc1) (r : Reads) : Out :=
  let size := etBytes s.tg.et
  let path := pathOf accs
  if 255 ≤ r.st.tg.count path then registerWait s true
  else
    let s1 := touchPages r.st accs
    let s1 := if kind = .acquire then dropNc s1 s1.tg.core else s1
    let id := s1.tg.nextOp
    let y := gather s1 s1.tg.et id size (kind = .bounded) accs
    let sink : Sink := ⟨x.dst, BitVec.ofNat 4 s.tg.et, x.readers s.tg.active, true⟩
    let raises := if kind = .acquire && 4 ≤ size then counterRaises s1 accs else []
    if y.stall || y.fills ≠ [] then waitIn (askFills (touchPages s accs) y.fills) false
    else
      let (s1, bad) := poisonTrap s1 ((if y.msgs = [] then piecePoison y.got else 0) ||| r.poison)
      match bad with
      | some i => trap s1 i
      | none =>
        let s1 := s1.modTg (fun g => (advanceStreams g r.streams).shift zeroLatch (some id))
        if y.msgs = [] then
          done (s1.modTg (fun g =>
            let g := (setLatch (deliverRegs g sink y.got) 0 sink false y.got).loseOlder
            (raiseFloors g raises y.got).doneOp path))
        else
          let o : Op := { s1.tg.opOn (some path) with
                          sink := some sink, need := y.msgs.length, got := y.got, load := true, remote := anyRemote accs
                          acquire := kind = .acquire, raises := raises }
          doneSwitch ({ s1 with net := s1.net ++ y.msgs }.modTg (fun g => (g.addOp o).loseOlder))

/-- Where an LDB finds a leased stash line that it may read whatever its lease, so that nothing is translated (R107, R141). -/
def staleStash (s : State) (g : Tg) (size : Nat) (va : W64) : Option Target :=
  match regionOf va, s.findWg g.key.launch g.key.gang g.key.wg with
  | .local off, some w =>
    if va.toNat % size ≠ 0 || w.size < off + size then none
    else
      (stashWindow w off).bind (fun win =>
        let idx := (off - stashOffset w win 0) / 128
        let gva := stashVa w win off
        (w.stash.find? (fun x => x.is win idx)).bind (fun x =>
          if (boundedRegion s g gva 0 (inNcWindow (s.ctxOf g.ctx) gva) false).isSome && inBound s g x.region x.round
          then some (.stash win idx off x.pa gva) else none))
  | _, _ => none

/-- R97 for the threads of a load: the fault, or the accesses. -/
def checkLoads (s : State) (kind : LoadKind) (size : Nat) (xs : List (Nat × W64)) : Option TrapInfo × List Acc1 :=
  let stale := fun va => if kind = .bounded then staleStash s s.tg size va else none
  let (fault, accs) := checkAll s .read size size (xs.filter (fun x => (stale x.2).isNone))
  (fault, sortBy (fun (a b : Acc1) => decide (a.t < b.t))
    (xs.filterMap (fun x => (stale x.2).map (fun t => ⟨x.1, x.2, t⟩)) ++ accs))

/-- LD, LDB and LDA (R324-R326). -/
def loadInstr (kind : LoadKind) (d a b : Opnd) (w : Bool) (s : State) : Out :=
  onTg (sw := true) s (fun g =>
    let m := g.active
    let x : Shape := ⟨[(b, 32)], d, etContainer g.et, true⟩
    if m = 0 then idle s [b] true true
    else
      guarded s [check ((w && d != .zr) || !loadDst d || !addrOk s.hdr a) 0x02 m, x.operandTrap s m, x.bindTrap s m]
        (if x.pending g || (opndSpan a 64).any g.pending then registerWait s true
         else if g.acquiring || !queuesReady s (queueWords g x.reads (beatsOf (x.readers m)).length) []
         then queueWait s (queueWords g x.reads (beatsOf (x.readers m)).length) []
         else
           match readSources s true (x.readers m) x.reads 0 ⟨[], 0, s, []⟩ with
           | .stop o => o
           | .go r =>
             let size := etBytes g.et
             let (fault, accs) := checkLoads s kind size (effVas g a r 0 (x.readers m))
             guarded s [fault] (issueLoad s kind x accs r)))

/-! ### Stores -/

/-- A store whose accesses have been checked (R366). -/
def issueStore (s : State) (floor : Nat) (sw : Bool) (accs : List Acc1) (r : Reads) (i : Nat) : Out :=
  if 255 ≤ r.st.tg.count (pathOf accs) then registerWait s sw
  else if needOwn s accs ≠ [] then registerWait (askOwns (touchPages s accs) (needOwn s accs)) sw
  else
    let (s1, bad) := poisonTrap r.st r.poison
    match bad with
    | some t => trap s1 t
    | none =>
      let size := etBytes s.tg.et
      let s1 := touchPages s1 accs
      let op := s1.tg.nextOp
      let s1 := storeOp s1 accs
      let s1 := storeAll s1 op floor (accs.map (fun a => (a, natLe size (r.at i a.t).toNat)))
      done (s1.modTg (fun g => (advanceStreams g r.streams).after sw))

/-- ST and STR (R366-R368). DESIGN CHOICE (log 37): STR waits before any thread is checked, as R368's words and R126 say, where R366's
pseudocode checks first. -/
def storeInstr (release : Bool) (d a b : Opnd) (s : State) : Out :=
  onTg (sw := release || anyQ [d, b]) s (fun g =>
    let m := g.active
    let x : Shape := ⟨[(b, 32), (d, etContainer g.et)], .zr, 32, release⟩
    if m = 0 then idle s [b, d] false x.switches
    else
      guarded s [check (!addrOk s.hdr a) 0x02 m, x.operandTrap s m, x.bindTrap s m]
        (if x.pending g || (opndSpan a 64).any g.pending || (g.acquiring && !x.switches) then registerWait s x.switches
         else if g.acquiring || (release && !strReady s)
            || !queuesReady s (queueWords g x.reads (beatsOf m).length) []
         then queueWait s (queueWords g x.reads (beatsOf m).length) []
         else
           match readSources s x.switches m x.reads 0 ⟨[], 0, s, []⟩ with
           | .stop o => o
           | .go r =>
             let size := etBytes g.et
             let (fault, accs) := checkAll s .write size size (effVas g a r 0 m)
             guarded s [fault] (issueStore s (if release then g.wctMax else 0) x.switches accs r 1)))

end Sys2Proof.Machine
end

