-- ==== Sys2Proof/Machine/Atomics.lean ====
section
/-! DEFINITION. Opcodes 0x60-0x6A: atomics (R133, R279-R281, R382) and hob updates (R178-R180, R317). -/

namespace Sys2Proof.Machine

/-- Types of an atomic (R280). -/
def atomicType (op et : Nat) : Bool := (4 ≤ et && et ≤ 7) || (et = 10 && !(3 ≤ op && op ≤ 5))

/-- The use that gm.au gives (R133). -/
def auOf (g : Tg) : Nat := gmAu g.gm

/-- Commutative or quantum use: no value returns. -/
def noReturn (au : Nat) : Bool := au = 2 || au = 4

/-- A device page, which atomics and hob updates may not name. -/
def deviceFault (t : Target) : Option Nat := match t with | .mem _ 3 _ _ => some 0x06 | _ => none

/-- The operation of thread t. -/
def aopOf (g : Tg) (op : Nat) (r : Reads) (t : Nat) : AOp :=
  { op := op, et := BitVec.ofNat 4 g.et, rm := BitVec.ofNat 3 g.rm, sat := gmSat g.gm, x := (r.at 0 t).setWidth 64
    n := (r.at 1 t).setWidth 64 }

/-- The message of one access to memory. A speculative one acts on the core's usable copy, if there is one. -/
def atomicMsg (s : State) (id : Nat) (floor : Nat) (a : AOp) (y : Acc1) : Option Msg :=
  let g := s.tg
  match y.target with
  | .mem pa attr nc remote =>
    let base : Msg := { tg := g.key, op := id, t := y.t, core := g.core, ctx := g.ctx, pa := pa, rep := attr = 2
                        ask := .atomic [a] floor (!noReturn (auOf g)) nc }
    if auOf g = 5 && !remote && attr ≠ 2 then
      match s.copyOf g.core (lineOf pa) with
      | some c =>
        if c.usable s.gt && !c.poison && (s.toLine g.key (lineOf pa)).isEmpty then
          let old := leNat ((c.data.drop (pa % 128)).take a.size)
          some { base with ask := .spec a (BitVec.ofNat 64 old) (BitVec.ofNat 64 (a.apply old)) c.version }
        else some base
      | none => some base
    else some base
  | _ => none

/-- The access is to a stash line that holds poison (R266, R281). -/
def stashPoison (s : State) (y : Acc1) : Bool :=
  match y.target with
  | .stash win idx _ _ _ => s.wg.stash.any (fun x => x.is win idx && x.poison)
  | _ => false

/-- The scratch accesses, in ascending t: the state and the old values. A stash line that holds poison is not changed (R281). -/
def scratchAtomics (s : State) (f : Nat → AOp) (accs : List Acc1) : State × List Piece :=
  accs.foldl (fun acc y =>
    let a := f y.t
    let go := fun (l gg w off : Nat) =>
      let old := match acc.1.findWg l gg w with | some x => memBytes x.scratch off a.size | none => []
      (scratchStore acc.1 l gg w off (natLe a.size (a.apply (leNat old))),
        acc.2 ++ [mkPiece s.tg.et y.t old false 0])
    match y.target with
    | .scratch l gg w off => go l gg w off
    | .stash _ _ off _ _ =>
      if stashPoison s y then (acc.1, acc.2 ++ [mkPiece s.tg.et y.t [] true 0]) else go s.wg.launch s.wg.gang s.wg.no off
    | .mem _ _ _ _ => acc) (s, [])

/-- Distinct addresses that a TG's held quantum atomics name (R133). -/
def quantumAddrs (g : Tg) : Nat :=
  (g.quantum.foldl (fun (as : List Nat) q => if as.contains q.pa then as else q.pa :: as) []).length

/-- Quantum atomics held in the core, and sent at 64 pending addresses (R133); under FPTRAP.pze they go at once, so that the trap of
R281 finds its instruction (log 59). -/
def holdQuantum (s : State) (id : Nat) (f : Nat → AOp) (accs : List Acc1) : State :=
  let qs := accs.filterMap (fun y => match y.target with
    | .mem pa attr nc _ => some (⟨id, y.t, pa, f y.t, attr = 2, nc⟩ : Quantum)
    | _ => none)
  let s := s.modTg (fun g => { g with quantum := g.quantum ++ qs, unack := g.unack + qs.length })
  let s := accs.foldl (fun s y => match y.target with | .mem pa _ _ _ => dropCopy s s.tg.core (lineOf pa) | _ => s) s
  if 64 ≤ quantumAddrs s.tg || s.tg.fptrap.getLsbD 7 then sendQuantum s s.tg.key else s

/-- Where a stream destination's elements go (R182). -/
def outsOf (s : State) (accs : List Acc1) : List OutTo :=
  accs.map (fun a => match a.target with
    | .mem pa attr nc _ => ⟨a.t, .mem pa, nc, attr⟩
    | .scratch l g w off => ⟨a.t, .scratch l g w off, false, 0⟩
    | .stash _ _ off _ _ => ⟨a.t, .scratch s.wg.launch s.wg.gang s.wg.no off, false, 0⟩)

/-- The stores of a destination stream, counted on their own path from the atomic's issue (R182); their operation follows the atomic's. -/
def addOuts (g : Tg) (dests : List Acc1) : Tg :=
  if dests = [] then g
  else g.addOp { g.opOn (some (pathOf dests)) with need := max 1 (storeCount dests), remote := anyRemote dests }

/-- An atomic whose accesses have been checked. `s` is the state before the queue pops; `dests` a destination stream's accesses. -/
def issueAtomic (s : State) (op : Nat) (x : Shape) (accs dests : List Acc1) (r : Reads) : Out :=
  let au := auOf s.tg
  let path := if pathOf accs = .g then Path.h else .s
  if 255 ≤ r.st.tg.count path || pathFull (r.st.tg.doneOp path) dests then registerWait s true
  else if needOwn s (accs ++ dests) ≠ [] then waitIn (askOwns (touchPages s accs) (needOwn s (accs ++ dests))) false
  else
    let (s1, bad) := poisonTrap r.st (r.poison ||| maskOf (fun t => accs.any (fun y => y.t = t && stashPoison s y)))
    match bad with
    | some i => trap s1 i
    | none =>
      let f := fun t => aopOf s.tg op r t
      let s1 := if au = 4 then cachePages s1 accs else touchPages s1 accs
      let s1 := if au = 0 then dropNc s1 s1.tg.core else s1
      let id := s1.tg.nextOp
      let (s1, got) := scratchAtomics s1 f accs
      let floor := if au = 0 then s.tg.wctMax else 0
      let msgs := if au = 4 then [] else accs.filterMap (fun y => atomicMsg s1 id floor (f y.t) y)
      let held := if au = 4 then storeCount accs else 0
      let sink : Sink := ⟨x.dst, BitVec.ofNat 4 s.tg.et, x.readers s.tg.active, true⟩
      let s1 := s1.modTg (fun g => advanceStreams g r.streams)
      let s1 := match x.dst with | .sp n => s1.modTg (fun g => advanceStreams g [n.toNat]) | _ => s1
      let outs := outsOf s1 dests
      let o : Op := { s1.tg.opOn (some path) with need := msgs.length + held, remote := anyRemote accs, near := nearCount accs
                                                  mark := noReturn au }
      if noReturn au then
        let s1 := s1.modTg (fun g => (g.shift zeroLatch none).loseOlder)
        if path = .s then done (s1.modTg (fun g => g.doneOp .s))
        else
          let s1 := s1.modTg (fun g => { g.addOp o with unack := g.unack + msgs.length })
          let s1 := msgs.foldl (fun s m => dropCopy s m.core (lineOf m.pa)) { s1 with net := s1.net ++ msgs }
          done (if au = 4 then holdQuantum s1 id f accs else s1)
      else if msgs = [] && !isQReg x.dst && outs = [] then
        done (s1.modTg (fun g => (setLatch (deliverRegs (g.shift zeroLatch none) sink got) 0 sink false got).loseOlder.doneOp path))
      else
        let o := { o with sink := some sink, got := got, load := true, acquire := au = 0, outs := outs }
        let s1 := msgs.foldl (fun s m => dropCopy s m.core (lineOf m.pa)) { s1 with net := s1.net ++ msgs }
        doneSwitch (s1.modTg (fun g =>
          addOuts { ((g.shift zeroLatch (some id)).loseOlder).addOp o with unack := g.unack + msgs.length } dests))

/-- The mould of the atomics (R279-R281). -/
def atomicInstr (op : Nat) (d a b : Opnd) (s : State) : Out :=
  onTg (sw := true) s (fun g =>
    let m := g.active
    let bits := etContainer g.et
    let au := auOf g
    let x : Shape := ⟨if op = 7 then [(b, bits), (d, bits)] else [(b, bits)], d, bits, true⟩
    let ts := x.readers m
    if m = 0 then idle s (x.reads.map (fun r => r.1)) true true
    else
      guarded s [check ((noReturn au && d != .zr) || !addrOk s.hdr a) 0x02 m, x.operandTrap s m,
          check (!atomicType op g.et || (noReturn au && 6 ≤ op)) 0x13 m, x.bindTrap s m]
        (if x.pending g || (opndSpan a 64).any g.pending then registerWait s true
         else if g.acquiring || (au = 0 && !strReady s)
            || !queuesReady s (queueWords g x.reads (beatsOf ts).length) (queueWords g [(d, bits)] (beatsOf ts).length)
         then queueWait s (queueWords g x.reads (beatsOf ts).length) (queueWords g [(d, bits)] (beatsOf ts).length)
         else
           match readSources s true ts x.reads 0 ⟨[], 0, s, []⟩ with
           | .stop o => o
           | .go r =>
             let size := etBytes g.et
             let vas := (beatsOf ts).map (fun t => (t, (readPlain g a 64 t).setWidth 64))
             let (fault, accs) := checkEach .atomic (fun va => thenCheck deviceFault (checkAccess s g .atomic size size va)) vas
             let (fault2, dests) := destStream s d ts r.streams
             guarded s [fault, fault2] (issueAtomic s op x accs dests r)))

def execAadd (d a b : Opnd) (s : State) : Out := atomicInstr 0 d a b s
def execAmin (d a b : Opnd) (s : State) : Out := atomicInstr 1 d a b s
def execAmax (d a b : Opnd) (s : State) : Out := atomicInstr 2 d a b s
def execAand (d a b : Opnd) (s : State) : Out := atomicInstr 3 d a b s
def execAor (d a b : Opnd) (s : State) : Out := atomicInstr 4 d a b s
def execAxor (d a b : Opnd) (s : State) : Out := atomicInstr 5 d a b s
def execAxch (d a b : Opnd) (s : State) : Out := atomicInstr 6 d a b s
def execAcas (d a b : Opnd) (s : State) : Out := atomicInstr 7 d a b s

/-! ### Hob updates -/

/-- Pages that a hob update may not name (R178, R161). -/
def hobFault (t : Target) : Option Nat :=
  match t with
  | .mem _ 1 _ _ => some 0x07
  | .mem _ 3 _ _ => some 0x06
  | _ => none

/-- R97 for a thread of a hob update; an address that is not translated fails with the window rules, before any translation (R178,
R317). -/
def checkHob (s : State) (size : Nat) (va : W64) : Except Nat Target :=
  if canonical va && va.toNat % size = 0 && regionOf va != .translated then .error 0x06
  else thenCheck hobFault (checkAccess s s.tg .atomic size size va)

/-- The update of one access, with its issuer key (R180). -/
def hobMsg (s : State) (l : Launch) (a : AOp) (y : Acc1) : Option Msg :=
  let g := s.tg
  match y.target with
  | .mem pa attr _ _ =>
    some { tg := g.key, op := g.nextOp, t := y.t, core := g.core, ctx := g.ctx, pa := pa, rep := attr = 2
           ask := .hob a ⟨g.wid l y.t, vget g.hobs y.t⟩ s.det }
  | _ => none

/-- The mould of HBADD, HBMAX and HBMIN. -/
def hobInstr (op : Nat) (d a b : Opnd) (s : State) : Out :=
  onTg (sw := true) s (fun g =>
    let m := g.active
    let bits := etContainer g.et
    let x : Shape := ⟨[(b, 32), (d, bits)], .zr, 32, true⟩
    if m = 0 then idle s [b, d] false true
    else
      guarded s [check (!addrOk s.hdr a) 0x02 m, x.operandTrap s m, check (!atomicType 0 g.et) 0x13 m, x.bindTrap s m]
        (if x.pending g || (opndSpan a 64).any g.pending || 255 ≤ g.count .h then registerWait s true
         else if g.acquiring || !queuesReady s (queueWords g x.reads (beatsOf m).length) []
         then queueWait s (queueWords g x.reads (beatsOf m).length) []
         else
           match readSources s true m x.reads 0 ⟨[], 0, s, []⟩ with
           | .stop o => o
           | .go r =>
             let size := etBytes g.et
             let (fault, accs) := checkEach .atomic (checkHob s size) (effVas g a r 0 m)
             guarded s [fault]
               (let (s1, bad) := poisonTrap r.st r.poison
                match bad with
                | some i => trap s1 i
                | none =>
                  let s1 := touchPages s1 accs
                  let l := s1.launch
                  let msgs := accs.filterMap (fun y =>
                    hobMsg s1 l { aopOf g op r y.t with x := (r.at 1 y.t).setWidth 64, n := 0 } y)
                  let o : Op := { s1.tg.opOn (some .h) with need := msgs.length, remote := anyRemote accs
                                                            near := nearCount accs }
                  let s1 := msgs.foldl (fun s m => dropCopy s m.core (lineOf m.pa)) { s1 with net := s1.net ++ msgs }
                  doneSwitch (s1.modTg (fun g =>
                    { (((advanceStreams g r.streams).addOp o).loseOlder) with
                      hobs := (beatsOf m).foldl (fun v t => vset v t (vget v t + 1)) g.hobs })))))

def execHbadd (d a b : Opnd) (s : State) : Out := hobInstr 0 d a b s
def execHbmax (d a b : Opnd) (s : State) : Out := hobInstr 2 d a b s
def execHbmin (d a b : Opnd) (s : State) : Out := hobInstr 1 d a b s

end Sys2Proof.Machine
end

