-- ==== Sys2Proof/Machine/Engines.lean ====
section
/-! DEFINITION. Opcodes 0x70-0x74: copies, the status test, queue bindings and streams (R163-R171, R181, R182, R299, R345, R363). -/

namespace Sys2Proof.Machine

/-! ### Places of an engine's bytes -/

/-- An engine's view of one address: a place, an engine error (R168), a trap at issue, or a stash line to be had first. -/
inductive EngPlace where
  | place (p : Place)
  | err (e : Nat)
  | trap (e : Nat)
  | stash (own : Bool) (win idx line : Nat) (va : W64)
  deriving DecidableEq, Repr, Inhabited

/-- Where an engine access of `size` bytes goes (R97, R161, R166, R167): windows at issue, translation in the engine. The low bits of
a port that it may push into are ignored. -/
def engPlace (s : State) (size : Nat) (write : Bool) (va : W64) : EngPlace :=
  let g := s.tg
  if !canonical va then .trap 0x06
  else
    match regionOf va with
    | .port p => if write then (if pushable p then .place (.port p) else .trap 0x06)
      else if va.toNat % size ≠ 0 then .trap 0x04 else .trap 0x06
    | .reserved => if va.toNat % size ≠ 0 then .trap 0x04 else .trap 0x06
    | .translated =>
      if va.toNat % size ≠ 0 then .trap 0x04
      else
        match translate s g.core g.ctx g.priv (if write then .engineWrite else .engineRead) va with
        | .error e => .err e
        | .ok h => if write && h.attr = 1 && g.priv = .u then .err 0x07 else .place (.mem h.pa)
    | _ =>
      if va.toNat % size ≠ 0 then .trap 0x04
      else
        match placeAccess s g (if write then .write else .read) size va with
        | .error e => .trap e
        | .ok (.scratch l gg w off) => .place (.scratch l gg w off)
        | .ok (.stash win idx off line va) =>
          let w := s.wg
          let ok := w.stash.any (fun x => x.is win idx && (x.owned || (!write && decide (s.gt + 8 < x.expiry))))
          if ok then .place (.scratch w.launch w.gang w.no off) else .stash write win idx line va
        | .ok (.mem pa _ _ _) => .place (.mem pa)

/-- The place `i` bytes on. -/
def Place.plus (p : Place) (i : Nat) : Place :=
  match p with
  | .mem pa => .mem (pa + i)
  | .scratch l g w off => .scratch l g w (off + i)
  | .port n => .port n

/-- The lines of memory that a list of places names. -/
def placeLines (ps : List Place) : List Nat :=
  ps.foldl (fun ls p => match p with
    | .mem pa => if ls.contains (lineOf pa) then ls else ls ++ [lineOf pa]
    | _ => ls) []

/-- Requests for the ownership of lines, in ascending order, each counted as an unacknowledged write (R125, R132). -/
def askLines (s : State) (job : Nat) (ls : List Nat) : State :=
  let g := s.tg
  let order := sortBy (fun (a b : Nat) => decide (a < b)) ls
  let ms := order.map (fun no => ({ tg := g.key, op := g.nextOp, t := 0, core := g.core, ctx := g.ctx, pa := no * 128
                                    ask := .engineOwn job } : Msg))
  ({ s with net := s.net ++ ms } : State).modTg (fun g => { g with unack := g.unack + ms.length })

/-- The first error of a list, threads in order. -/
def firstErr : List EngPlace → Nat
  | [] => 0
  | .err e :: _ => e
  | _ :: ps => firstErr ps

/-- The stash lines that engine places still need, requested. -/
def askPlaces (s : State) (ps : List EngPlace) : State :=
  ps.foldl (fun s p => match p with | .stash own win idx line va => askStash s win idx line own va | _ => s) s

def needsStash (ps : List EngPlace) : Bool := ps.any (fun p => match p with | .stash _ _ _ _ _ => true | _ => false)

def placesOf (ps : List EngPlace) : List Place := ps.filterMap (fun p => match p with | .place q => some q | _ => none)

/-- The ports that a list of places names, each once. -/
def portsOf (ps : List Place) : List Nat :=
  ps.foldl (fun ns p => match p with | .port n => if ns.contains n then ns else ns ++ [n] | _ => ns) []

/-- The lines on replicated pages among addresses that an engine reads for the issuing TG (R111). -/
def repLines (s : State) (vas : List W64) : List Nat :=
  vas.foldl (fun ls va =>
    match (if canonical va && regionOf va = .translated then translate s s.tg.core s.tg.ctx s.tg.priv .engineRead va else .error 0) with
    | .ok h => if h.attr = 2 && !ls.contains (lineOf h.pa) then ls ++ [lineOf h.pa] else ls
    | .error _ => ls) []

/-- The TG's held quantum atomics go out before an engine's later access for it to the same bytes (R127). -/
def sendHeldTo (s : State) (ps : List Place) : State :=
  if ps.any (fun p => match p with | .mem pa => s.tg.quantum.any (fun q => q.pa / 16 = pa / 16) | _ => false)
  then sendQuantum s s.tg.key else s

/-- A copy handed to the engine: its operation on the C path, its status register pending, its destination lines requested. It reads
`reads` and touches `vas`. -/
def issueCopy (s : State) (d : Opnd) (moves : List Move) (err : Nat) (ports : List Nat) (reads vas : List W64) : Out :=
  let s := sendHeldTo (cacheAll s vas) (moves.flatMap (fun m => m.dst :: m.src))
  let id := s.dev.nextJob
  let lines := if err = 0 then placeLines (moves.map (fun m => m.dst)) else []
  let job : CopyJob := { id := id, tg := s.tg.key, op := s.tg.nextOp, d := d, moves := if err = 0 then moves else []
                         err := err, lines := lines, ports := ports.map (fun p => (p, 0)), data := none, reps := repLines s reads }
  let s := askLines s id lines
  let s := ({ s with copies := s.copies ++ [job] } : State).modDev (fun x => { x with nextJob := id + 1 })
  doneSwitch (s.modTg (fun g =>
    (g.addOp { g.opOn (some .c) with sink := some ⟨d, BitVec.ofNat 4 6, 0xFF, false⟩, need := 1 }).loseOlder))

/-- The trap of the lowest failing thread among places checked at issue. -/
def placeTrap (xs : List (Nat × W64 × EngPlace)) : Option TrapInfo :=
  threadFault .engineRead (xs.map (fun x => (x.1, x.2.1, match x.2.2 with | .trap e => some e | _ => none)))

/-- CPY (R166, R167): one copy of 4, 8 or 16 bytes for each active thread. -/
def execCpy (d a b : Opnd) (c : BitVec 3) (s : State) : Out :=
  onTg (sw := true) s (fun g =>
    let m := g.active
    if m = 0 then idle s [] false true
    else
      guarded s [check (!(sRegOk s.hdr d && addrOk s.hdr a && addrOk s.hdr b)) 0x02 m]
        (if (opndSpan a 64 ++ opndSpan b 64 ++ [d]).any g.pending || 255 ≤ g.count .c then registerWait s true
         else if g.acquiring then waitIn s false
         else
           let size := 4 * 2 ^ c.toNat
           let at_ := fun (o : Opnd) (t : Nat) => ((readPlain g o 64 t).setWidth 64 : W64)
           let xs := (beatsOf m).flatMap (fun t =>
             [(t, at_ a t, engPlace s size false (at_ a t)), (t, at_ b t, engPlace s size true (at_ b t))])
           let ps := xs.map (fun x => x.2.2)
           guarded s [placeTrap xs]
             (if needsStash ps then waitIn (askPlaces s ps) false
              else
                let moves := (beatsOf m).flatMap (fun t =>
                  match engPlace s size false (at_ a t), engPlace s size true (at_ b t) with
                  | .place p, .place q => (upTo size).map (fun i => ⟨[p.plus i], false, q.plus i⟩)
                  | _, _ => [])
                issueCopy s d moves (firstErr ps) (portsOf (placesOf ps)) ((beatsOf m).map (at_ a)) (xs.map (fun x => x.2.1)))))

/-! ### CPYT (R169) -/

/-- The four registers of a tile copy. -/
structure TileCopy where
  src : W64
  dst : W64
  rows : Nat
  cols : Nat
  sstride : Int
  dstride : Int
  deriving DecidableEq, Repr, Inhabited

def tileCopyOf (g : Tg) (n : Nat) : TileCopy :=
  let r := fun i => vget g.s (n + i)
  { src := r 0, dst := r 1, rows := bitsNat (r 2).toNat 31 16, cols := bitsNat (r 2).toNat 15 0
    sstride := ((r 3).extractLsb' 32 32).toInt, dstride := ((r 3).extractLsb' 0 32).toInt }

def TileCopy.srcRow (x : TileCopy) (r : Nat) : W64 := x.src + BitVec.ofInt 64 (r * x.sstride)
def TileCopy.dstRow (x : TileCopy) (c : Nat) : W64 := x.dst + BitVec.ofInt 64 (c * x.dstride)

/-- The destination is a port. -/
def TileCopy.toPort (x : TileCopy) : Option Nat :=
  if canonical x.dst then (match regionOf x.dst with | .port p => some p | _ => none) else none

/-- The shape is out of range (R169). -/
def TileCopy.bad (x : TileCopy) (g : Tg) (n bits : Nat) : Bool :=
  (vget g.s (n + 2)).toNat / 2 ^ 32 ≠ 0 || x.rows = 0 || 4096 < x.rows || x.cols = 0 || 4096 < x.cols
    || (bits = 4 && (x.rows % 2 ≠ 0 || x.cols % 2 ≠ 0))

/-- The address of each destination byte with the addresses of the bytes or nibbles it takes, in order. -/
def TileCopy.pairs (x : TileCopy) (bits : Nat) : List (W64 × List W64 × Bool) :=
  (upTo x.cols).flatMap (fun c =>
    if bits = 4 then
      (upTo (x.rows / 2)).map (fun j =>
        (x.dstRow c + BitVec.ofNat 64 j,
          [x.srcRow (2 * j) + BitVec.ofNat 64 (c / 2), x.srcRow (2 * j + 1) + BitVec.ofNat 64 (c / 2)], c % 2 = 1))
    else
      (upTo x.rows).flatMap (fun r => (upTo (bits / 8)).map (fun i =>
        (x.dstRow c + BitVec.ofNat 64 (r * (bits / 8) + i), [x.srcRow r + BitVec.ofNat 64 (c * (bits / 8) + i)], false))))

/-- The fault of the first row base that fails, source rows first: canonical form, alignment to the element, windows (R97, R299). -/
def TileCopy.rowTrap (x : TileCopy) (s : State) (bits : Nat) (m : Mask) : Option TrapInfo :=
  let look := fun (write : Bool) (va : W64) => match engPlace s (max 1 (bits / 8)) write va with
    | .trap e => some ({ cause := e, mask := m, va := va, access := 5 } : TrapInfo)
    | _ => none
  ((upTo x.rows).map x.srcRow).findSome? (look false)
    <|> (if x.toPort.isSome then none else ((upTo x.cols).map x.dstRow).findSome? (look true))

def execCpyt (d a : Opnd) (k : BitVec 2) (s : State) : Out :=
  onTg (sw := true) s (fun g =>
    let m := g.active
    let n := match a with | .s n => n.toNat | _ => 32
    if m = 0 then idle s [] false true
    else
      guarded s [check (!(sRegOk s.hdr d && decide (n % 4 = 0) && decide (n + 4 ≤ s.hdr.sregs))) 0x02 m]
        (if ([0, 1, 2, 3].map (fun i => Opnd.s (BitVec.ofNat 5 (n + i))) ++ [d]).any g.pending || 255 ≤ g.count .c
         then registerWait s true
         else if g.acquiring then waitIn s false
         else
           let bits := 4 * 2 ^ k.toNat
           let x := tileCopyOf g n
           guarded s [check (x.bad g n bits) 0x02 m, x.rowTrap s bits m]
             (let prs := x.pairs bits
              let dstOf := fun (va : W64) => match x.toPort with
                | some p => if pushable p then EngPlace.place (.port p) else .trap 0x06
                | none => engPlace s 1 true va
              let srcs := prs.flatMap (fun p => p.2.1.map (fun va => (va, engPlace s 1 false va)))
              let dsts := prs.map (fun p => (p.1, dstOf p.1))
              let ps := (srcs ++ dsts).map (fun y => y.2)
              match (srcs ++ dsts).find? (fun y => match y.2 with | .trap _ => true | _ => false) with
              | some (va, .trap e) => trap s { cause := e, mask := m, va := va, access := 5 }
              | _ =>
                if needsStash ps then waitIn (askPlaces s ps) false
                else
                  let moves := prs.filterMap (fun p =>
                    match placesOf (p.2.1.map (fun va => engPlace s 1 false va)), dstOf p.1 with
                    | from_, .place q => some ⟨from_, p.2.2, q⟩
                    | _, _ => none)
                  issueCopy s d moves (firstErr ps) x.toPort.toList (prs.flatMap (fun p => p.2.1))
                    ((upTo x.rows).map x.srcRow ++ (if x.toPort.isSome then [] else (upTo x.cols).map x.dstRow)))))

/-- CTST (R171). -/
def execCtst (d a : Opnd) (s : State) : Out :=
  onTg (sw := true) s (fun g =>
    let m := g.active
    let x : Shape := ⟨[], d, if isSReg d then 64 else 32, true⟩
    if m = 0 then idle s [] true true
    else
      guarded s [check (!(loadDst d && sRegOk s.hdr a)) 0x02 m]
        (if s.det && g.pending a then waitIn s false
         else
           let c : W128 := if g.pending a then 0 else 1
           elemInstr s x [] true false m false [] (fun _ _ => { val := c }) (fun _ g => g)))

/-! ### QBIND (R163, R165) -/

def isBFifo (p : Nat) : Bool := 1 ≤ p && p ≤ 4

/-- The TG subscribes to the port through this queue register alone. -/
def Sub.onlyBy (x : Sub) (tg q : Nat) : Bool := x.tg = tg && x.qs.all (fun n => n = q)

/-- Subscribers of a port as though a queue register of a TG were not bound (R163). -/
def othersOf (w : Wg) (p tg q : Nat) : List Sub := w.subs.filter (fun x => x.port = p && !x.onlyBy tg q)

/-- A pop binding of a B FIFO that R165 forbids. -/
def subBreach (w : Wg) (p tg q : Nat) (shared : Bool) : Bool :=
  let xs := othersOf w p tg q
  if shared then
    xs.any (fun x => !x.shared) || (!xs.any (fun x => x.tg = tg) && 32 ≤ xs.length)
  else xs ≠ []

/-- Queue register `n` of TG `k` subscribes to B FIFO `p`: it joins the TG's entry, which keeps its read position, or the TG enters the
set, to read from the first entry that is kept. -/
def subscribe (w : Wg) (p k n : Nat) (shared : Bool) : Wg :=
  { w with subs :=
      if w.subs.any (fun x => x.port = p && x.tg = k) then
        w.subs.map (fun x => if x.port = p && x.tg = k then { x with qs := n :: x.qs.filter (fun m => m ≠ n), shared := shared } else x)
      else w.subs ++ [⟨p, k, [n], shared, 0⟩] }

/-- The binding made; a rebinding to the B FIFO that the queue register already pops leaves the set as it is. -/
def bindQueue (s : State) (n : Nat) (b : Binding) : State :=
  let k := s.tg.key.tg
  let p := b.port.toNat
  let reads := b.dir != .push && isBFifo p
  let again := reads && s.wg.subs.any (fun x => x.port = p && x.tg = k && x.qs.contains n)
  let s := if again then s else unsubscribe s n
  let s := if reads then s.modMyWg (fun w => subscribe w p k n (b.dir == .sub)) else s
  s.modTg (fun g => { g with q := vset g.q n (some b) })

def execQbind (d a : Opnd) (k : BitVec 2) (s : State) : Out :=
  onTg (sw := true) s (fun g =>
    if g.active = 0 then idle s [] false true
    else
      let bad := trap s { cause := 0x02, mask := g.cm }
      match d with
      | .q n =>
        if s.hdr.queues ≤ n.toNat then bad
        else if k = 2 then
          if a ≠ .zr then bad
          else
            done ((unsubscribe s n.toNat).modTg (fun g =>
              ({ g with q := vset g.q n.toNat none }).loseOlder))
        else if !sRegOk s.hdr a then bad
        else if g.pending a then registerWait s true
        else
          let v := (readS g a).toNat
          if 255 < v then bad
          else if !portExists v then trap s { cause := 0x06, mask := g.cm }
          else
            let dir : Dir := if k = 1 then .push else if k = 3 then .sub else .pop
            if (dir = .push && !pushable v) || (dir = .sub && !isBFifo v) then bad
            else if dir ≠ .push && isBFifo v && subBreach s.wg v g.key.tg n.toNat (dir == .sub) then bad
            else done ((bindQueue s n.toNat ⟨BitVec.ofNat 8 v, dir⟩).modTg Tg.loseOlder)
      | _ => bad)

/-! ### SPCFG (R181) -/

/-- SPCFG with its descriptor at hand. -/
def configureNow (s : State) (n : Nat) (va : W64) (got : List Piece) : Out :=
  let v := pieceVector got
  let (s, bad) := poisonTrap s (if piecePoison got = 0 then 0 else s.tg.active)
  match bad with
  | some i => trap s i
  | none =>
    match streamOf (natLe 16 (vget v 0).toNat ++ natLe 16 (vget v 1).toNat) with
    | .error e => trap s { cause := e, mask := s.tg.cm, va := va, access := 1 }
    | .ok st =>
      let counted := s.tg.held.any (fun h => h.pc = s.tg.pc)
      done (s.modTg (fun g => ({ (if counted then g else g.doneOp .g) with sp := vset g.sp n (some st) }).loseOlder))

/-- The bytes at a target as they stand now, for the TG. -/
def bytesNow (s : State) (t : Target) (n : Nat) : List Byte :=
  match t with
  | .mem pa _ _ _ => overlayOwn s s.tg.key pa (latestBytes s pa n)
  | .scratch l g w off => memBytes ((s.findWg l g w).getD default).scratch off n
  | .stash _ _ off _ _ => memBytes s.wg.scratch off n

/-- SPCFG with its descriptor's halves checked: the load goes out and spN is pending until it returns (R363). Where the descriptor as
it stands now breaks R181, the instruction waits for its values, so that its trap names it (log 66). -/
def loadDescriptor (s : State) (n : Nat) (va : W64) (accs : List Acc1) : Out :=
  let g := s.tg
  let sound := match streamOf (accs.flatMap (fun a => bytesNow s a.target 16)) with | .ok _ => true | .error _ => false
  let asked := g.held.any (fun h => h.pc = g.pc) || g.ops.any (fun o => o.sync = some 0 && o.pc = g.pc && !o.done)
  let s1 := touchPages s accs
  let y := gather s1 etB128 s1.tg.nextOp 16 false accs
  if sound && !asked && !y.stall && y.fills = [] then
    let o : Op := { s1.tg.opOn (some .g) with
                    need := y.msgs.length, got := y.got, load := true, remote := anyRemote accs, conf := some (n, va) }
    if y.msgs = [] then configureNow s1 n va y.got
    else doneSwitch ({ s1 with net := s1.net ++ y.msgs }.modTg (fun g => (g.addOp o).loseOlder))
  else
    match syncRead s 0 etB128 16 accs with
    | .waits s => waitIn s false
    | .values got => configureNow s n va got

def execSpcfg (d a : Opnd) (s : State) : Out :=
  onTg (sw := true) s (fun g =>
    if g.active = 0 then idle s [] false true
    else
      match d with
      | .sp n =>
        guarded s [check (!sRegOk s.hdr a) 0x02 g.cm]
          (if g.pending a || g.pending d || 255 ≤ g.count .g then registerWait s true
           else if g.acquiring then waitIn s false
           else
             let va := readS g a
             match checkAccess s g .read 32 32 va, checkAccess s g .read 16 16 (va + 16) with
             | .ok x, .ok y => loadDescriptor s n.toNat va [⟨0, va, x⟩, ⟨1, va + 16, y⟩]
             | .error e, _ => trap s { cause := e, mask := g.cm, va := va, access := 1 }
             | _, .error e => trap s { cause := e, mask := g.cm, va := va, access := 1 })
      | _ => trap s { cause := 0x02, mask := g.cm })

end Sys2Proof.Machine
end

