-- ==== Sys2Proof/Machine/Firebox.lean ====
section
/-! DEFINITION. Opcodes 0xB0-0xBA at issue (R243, R245-R247, R312-R314), and what a firebox operation does to the columns (R241,
R246, R248). The columns are kept as runs of equal columns in index order. -/

namespace Sys2Proof.Machine

/-! ### Runs of columns -/

abbrev Runs := List (Nat × Column)

/-- A column as a conversion hands it over (R243). -/
def freshColumn : Column := ⟨0, false, true, false⟩

/-- Equal neighbours joined, empty runs gone. -/
def joinRuns : Runs → Runs
  | [] => []
  | (n, x) :: rs =>
    match joinRuns rs with
    | [] => if n = 0 then [] else [(n, x)]
    | (m, y) :: ys => if n = 0 then (m, y) :: ys else if x = y then (n + m, x) :: ys else (n, x) :: (m, y) :: ys

def takeRuns : Nat → Runs → Runs
  | _, [] => []
  | n, (k, x) :: rs => if n = 0 then [] else if k ≤ n then (k, x) :: takeRuns (n - k) rs else [(n, x)]

def dropRuns : Nat → Runs → Runs
  | _, [] => []
  | n, (k, x) :: rs => if k ≤ n then dropRuns (n - k) rs else (k - n, x) :: rs

/-- The columns of `slices` slices renumbered from m ways to n (R241, R243). -/
def renumber (m n : Nat) : Nat → Runs → Runs
  | 0, _ => []
  | k + 1, rs =>
    (if n ≤ m then takeRuns (n * 4096) rs else takeRuns (m * 4096) rs ++ [((n - m) * 4096, freshColumn)])
      ++ renumber m n k (dropRuns (m * 4096) rs)

/-- Two runs side by side; the first argument bounds the number of pieces. -/
def zipRuns : Nat → Runs → Runs → List (Nat × Column × Column)
  | 0, _, _ => []
  | _, [], _ => []
  | _, _, [] => []
  | f + 1, (j, x) :: xs, (k, y) :: ys =>
    let n := min j k
    (n, x, y) :: zipRuns f (if j = n then xs else (j - n, x) :: xs) (if k = n then ys else (k - n, y) :: ys)

/-- One column after another. -/
def spreadRuns (rs : Runs) : List Column := rs.flatMap (fun r => List.replicate r.1 r.2)

/-! ### Row descriptors (R245) -/

def descBase (x : W64) : Nat := bitsNat x.toNat 7 0
def descWidth (x : W64) : Nat := bitsNat x.toNat 14 8

def descOk (x : W64) : Bool :=
  bitsNat x.toNat 63 15 = 0 && descWidth x ≠ 0 && descWidth x ≤ 64 && descBase x + descWidth x ≤ 256

/-- A column's value of a descriptor. -/
def Column.get (c : Column) (x : W64) : Nat := c.rows.toNat / 2 ^ descBase x % 2 ^ descWidth x

/-- The value written into a descriptor's rows. -/
def Column.put (c : Column) (x : W64) (v : Nat) : Column :=
  let old := c.get x
  { c with rows := BitVec.ofNat 256 (c.rows.toNat + v % 2 ^ descWidth x * 2 ^ descBase x - old * 2 ^ descBase x) }

/-- A value of `w` bits as a number, signed or not. -/
def rowInt (signed : Bool) (w v : Nat) : Int := if signed && 2 ^ (w - 1) ≤ v then (v : Int) - 2 ^ w else v

/-- Extend (R246). -/
def rowExtend (signed : Bool) (w wd v : Nat) : Nat := (rowInt signed w v % 2 ^ wd).toNat

/-- FBLOG's bitwise operation. -/
def rowLog (sub wd a b : Nat) : Nat :=
  match sub with
  | 0 => a &&& b
  | 1 => a ||| b
  | 2 => a ^^^ b
  | _ => a &&& ((2 ^ wd - 1) ^^^ b)

/-- FBCMP's condition. -/
def rowCmp (sub wa wb a b : Nat) : Bool :=
  match sub with
  | 0 => a = b
  | 1 => a ≠ b
  | 2 => rowInt true wa a < rowInt true wb b
  | _ => a < b

/-- What an operation that stays within a column does to it (R246). -/
def columnStep (o : FbOp) (c : Column) : Column :=
  let wd := descWidth o.d
  let a := c.get o.a
  let b := c.get o.b
  let odd := o.sub % 2 = 1
  let ext := fun (x : W64) (v : Nat) => rowExtend (o.sub / 2 % 2 = 1) (descWidth x) wd v
  let zext := fun (v : Nat) => v % 2 ^ wd
  match o.code with
  | 0xB1 =>
    let sum := ext o.a a + ext o.b b + (if odd && c.c then 1 else 0)
    if c.p then { c.put o.d sum with c := 2 ^ wd ≤ sum } else c
  | 0xB2 =>
    let sum := ext o.a a + (2 ^ wd - 1 - ext o.b b) + (if odd && !c.c then 0 else 1)
    if c.p then { c.put o.d sum with c := 2 ^ wd ≤ sum } else c
  | 0xB3 => if c.p then c.put o.d (rowLog o.sub wd (zext a) (zext b)) else c
  | 0xB4 => { c with p := rowCmp o.sub (descWidth o.a) (descWidth o.b) a b }
  | 0xB5 => c.put o.d (if c.p then zext a else zext b)
  | 0xB6 =>
    let v := fun (x : W64) (y : Nat) => rowInt odd (descWidth x) y
    if c.p then c.put o.d ((v o.a a * v o.b b % 2 ^ wd).toNat) else c
  | _ => c

/-- The columns k places down (R246's a(c − k)), with zeros from outside. -/
def shiftRuns (n : Nat) (k : Int) (rs : Runs) : Runs :=
  let zero : Column := ⟨0, false, false, false⟩
  if 0 ≤ k then (min n k.toNat, zero) :: takeRuns (n - k.toNat) rs
  else dropRuns (-k).toNat rs ++ [(min n (-k).toNat, zero)]

/-- FBSHF: a column takes the value of another, and its poison. -/
def columnTake (o : FbOp) (c src : Column) : Column :=
  if c.p then { c.put o.d (src.get o.a % 2 ^ descWidth o.d) with poison := src.poison } else c

/-- Columns of n ways. -/
def columnsOf (n : Nat) : Nat := 1048576 * n

/-- Every operation between rows. -/
def rowsAfter (o : FbOp) (n : Nat) (rs : Runs) : Runs :=
  if o.code = 0xB8 then
    joinRuns ((zipRuns (2 * rs.length + 2) rs (shiftRuns (columnsOf n) o.b.toInt rs)).map (fun p =>
      (p.1, columnTake o p.2.1 p.2.2)))
  else joinRuns (rs.map (fun r => (r.1, columnStep o r.2)))

/-- FBPOP's sum, and whether it takes a poisoned column. -/
def popSum (o : FbOp) (rs : Runs) : W64 × Bool :=
  let on := rs.filter (fun r => r.2.p)
  (BitVec.ofNat 64 (on.foldl (fun n r => n + r.1 * r.2.get o.a) 0), on.any (fun r => r.2.poison))

/-- First column and count of FBLD and FBST. -/
def firstColumn (b : W64) : Nat := bitsNat b.toNat 31 0
def columnCount (b : W64) : Nat := bitsNat b.toNat 63 32

/-- Elements loaded into columns c0 on, each with the poison of its line (R247, R248). -/
def loadColumns (o : FbOp) (elems : List (Nat × Bool)) (rs : Runs) : Runs :=
  let c0 := firstColumn o.b
  let k := columnCount o.b
  let cols := spreadRuns (takeRuns k (dropRuns c0 rs))
  joinRuns (takeRuns c0 rs
    ++ (cols.zip elems).map (fun x => (1, { x.1.put o.d x.2.1 with poison := x.2.2 }))
    ++ dropRuns (c0 + k) rs)

/-- The elements that columns c0 on hold, with their poison. -/
def storeColumns (o : FbOp) (rs : Runs) : List (Nat × Bool) :=
  (spreadRuns (takeRuns (columnCount o.b) (dropRuns (firstColumn o.b) rs))).map (fun c => (c.get o.d, c.poison))

/-! ### The controller's queue -/

/-- The operation is of the workgroup. -/
def FbOp.ofWg (o : FbOp) (w : Nat × Nat × Nat) : Bool := (o.tg.launch, o.tg.gang, o.tg.wg) = w

def wgOf (k : TgKey) : Nat × Nat × Nat := (k.launch, k.gang, k.wg)

/-- The ways that the accepted FBMODEs of the owner leave it. -/
def waysAhead (f : Firebox) (w : Nat × Nat × Nat) : Nat :=
  (f.queue.filter (fun o => o.ofWg w && o.code = 0xB0)).foldl (fun _ o => o.a.toNat) f.ways

/-- The workgroup owns the domain with n ≥ 1 (R246). -/
def fbOwns (s : State) (k : TgKey) : Bool := s.fb.owner = some (wgOf k) && 1 ≤ waysAhead s.fb (wgOf k)

/-- An operation handed to the controller: on the F path, not yet finished. -/
def sendFb (s : State) (o : FbOp) (sink : Option Sink) : Out :=
  let s := { s with fb := { s.fb with queue := s.fb.queue ++ [o] } }
  let s := s.modDev (fun x => { x with nextJob := x.nextJob + 1 })
  doneSwitch (s.modTg (fun g => (g.addOp { g.opOn (some .f) with sink := sink, need := 1 }).loseOlder))

/-- An operation of the issuing TG. -/
def fbOp (s : State) (code sub : Nat) (d a b : W64) : FbOp :=
  { id := s.dev.nextJob, tg := s.tg.key, op := s.tg.nextOp, code := code, sub := sub, d := d, a := a, b := b, dst := .zr
    lines := [], places := [] }

/-- FBMODE (R243, R314). -/
def execFbmode (a : Opnd) (s : State) : Out :=
  onTg (sw := true) s (fun g =>
    if g.active = 0 then idle s [] false true
    else
      guarded s [check (!sRegOk s.hdr a) 0x02 g.cm, check (!s.hdr.fbx) 0x10 g.cm]
        (if g.pending a || 255 ≤ g.count .f then registerWait s true
         else
           let n := (readS g a).toNat
           if 16 < n then trap s { cause := 0x02, mask := g.cm }
           else if 1 ≤ n && s.fb.owner ≠ some (wgOf g.key) then
             waitIn (if s.fb.claims.contains g.key then s
                     else { s with fb := { s.fb with claims := s.fb.claims ++ [g.key] } }) false
           else if 16 ≤ s.fb.queue.length then waitIn s false
           else sendFb s (fbOp s 0xB0 0 0 (BitVec.ofNat 64 n) 0) none))

/-- The mould of the operations between rows (R246, R312): which of rd and rb are descriptors. -/
def rowInstr (code sub : Nat) (d : Option Opnd) (a : Opnd) (b : Option Opnd) (s : State) : Out :=
  onTg (sw := true) s (fun g =>
    if g.active = 0 then idle s [] false true
    else
      let xs := d.toList ++ [a] ++ b.toList
      let x := fun (o : Option Opnd) => match o with | some o => readS g o | none => 0
      guarded s [check (!xs.all (sRegOk s.hdr)) 0x02 g.cm, check (!fbOwns s g.key) 0x10 g.cm]
        (if xs.any g.pending || 255 ≤ g.count .f then registerWait s true
         else
           guarded s [check (!xs.all (fun o => descOk (readS g o))) 0x02 g.cm]
             (if 16 ≤ s.fb.queue.length then waitIn s false
              else sendFb s (fbOp s code sub (x d) (readS g a) (x b)) none)))

def execFbadd (d a b : Opnd) (k : BitVec 2) (s : State) : Out := rowInstr 0xB1 k.toNat (some d) a (some b) s
def execFbsub (d a b : Opnd) (k : BitVec 2) (s : State) : Out := rowInstr 0xB2 k.toNat (some d) a (some b) s
def execFblog (d a b : Opnd) (k : BitVec 2) (s : State) : Out := rowInstr 0xB3 k.toNat (some d) a (some b) s
def execFbcmp (a b : Opnd) (k : BitVec 2) (s : State) : Out := rowInstr 0xB4 k.toNat none a (some b) s
def execFbsel (d a b : Opnd) (s : State) : Out := rowInstr 0xB5 0 (some d) a (some b) s
def execFbmul (d a b : Opnd) (k : Bool) (s : State) : Out := rowInstr 0xB6 k.toNat (some d) a (some b) s

/-- FBSHF: rb holds the signed distance. -/
def execFbshf (d a b : Opnd) (s : State) : Out :=
  onTg (sw := true) s (fun g =>
    if g.active = 0 then idle s [] false true
    else
      let k := (readS g b).toInt
      guarded s [check (!([d, a, b] : List Opnd).all (sRegOk s.hdr)) 0x02 g.cm, check (!fbOwns s g.key) 0x10 g.cm]
        (if [d, a, b].any g.pending || 255 ≤ g.count .f then registerWait s true
         else
           guarded s [check (!([d, a] : List Opnd).all (fun o => descOk (readS g o)) || k < -64 || 64 < k) 0x02 g.cm]
             (if 16 ≤ s.fb.queue.length then waitIn s false
              else sendFb s (fbOp s 0xB8 0 (readS g d) (readS g a) (readS g b)) none)))

/-- FBPOP: rd is pending until the operation retires. -/
def execFbpop (d a : Opnd) (s : State) : Out :=
  onTg (sw := true) s (fun g =>
    if g.active = 0 then idle s [] false true
    else
      guarded s [check (!([d, a] : List Opnd).all (sRegOk s.hdr)) 0x02 g.cm, check (!fbOwns s g.key) 0x10 g.cm]
        (if [d, a].any g.pending || 255 ≤ g.count .f then registerWait s true
         else
           guarded s [check (!descOk (readS g a)) 0x02 g.cm]
             (if 16 ≤ s.fb.queue.length then waitIn s false
              else sendFb s { fbOp s 0xB7 0 0 (readS g a) 0 with dst := d } (some ⟨d, BitVec.ofNat 4 etU64, 0xFF, false⟩))))

/-! ### FBLD and FBST (R247, R313) -/

/-- Where each 64 KiB piece of the range [va, va + n) begins. -/
def piecesOf (va : W64) (n : Nat) : List W64 :=
  let first := 65536 - va.toNat % 65536
  va :: (upTo ((n - first + 65535) / 65536)).map (fun i => va + BitVec.ofNat 64 (first + 65536 * i))

/-- What R313 finds at an address: a fault of R97, a device page or window, an ember page written at U. -/
def rangeTier (s : State) (g : Tg) (write : Bool) (va : W64) : Option (Nat × Nat) :=
  if !canonical va then some (0, 0x06)
  else
    match regionOf va with
    | .translated =>
      match translate s g.core g.ctx g.priv (if write then .engineWrite else .engineRead) va with
      | .error e => some (0, e)
      | .ok h => if h.attr = 3 then some (1, 0x06) else if write && h.attr = 1 && g.priv = .u then some (2, 0x07) else none
    | .reserved => some (0, 0x06)
    | _ => some (1, 0x06)

/-- The fault of a range: the first tier that fails, at its lowest address. -/
def rangeFault (s : State) (g : Tg) (write : Bool) (va : W64) (n : Nat) : Option TrapInfo :=
  let bad := (piecesOf va n).filterMap (fun x => (rangeTier s g write x).map (fun t => (t.1, t.2, x)))
  let at_ := fun (k : Nat) => bad.find? (fun b => b.1 = k)
  match at_ 0, at_ 1, at_ 2 with
  | some b, _, _ => some { cause := b.2.1, mask := g.cm, va := b.2.2, access := 5 }
  | none, some b, _ => some { cause := b.2.1, mask := g.cm, va := b.2.2, access := 5 }
  | none, none, some b => some { cause := b.2.1, mask := g.cm, va := b.2.2, access := 5 }
  | none, none, none => none

/-- The mould of the two transfers. -/
def moveRows (code sub : Nat) (d a b : Opnd) (s : State) : Out :=
  onTg (sw := true) s (fun g =>
    if g.active = 0 then idle s [] false true
    else
      let size := 2 ^ sub
      let write := code = 0xBA
      let base := readS g a
      let c := readS g b
      let k := columnCount c
      let n := columnsOf (waysAhead s.fb (wgOf g.key))
      guarded s [check (!([d, a, b] : List Opnd).all (sRegOk s.hdr)) 0x02 g.cm, check (!fbOwns s g.key) 0x10 g.cm]
        (if [d, a, b].any g.pending || 255 ≤ g.count .f then registerWait s true
         else
           guarded s [check (!descOk (readS g d) || k = 0 || n < firstColumn c + k || 8 * size < descWidth (readS g d)) 0x02 g.cm,
               if base.toNat % size ≠ 0 then some { cause := 0x04, mask := g.cm, va := base, access := 5 } else none]
             (guarded s [rangeFault s g write base (k * size)]
               (if g.acquiring || 16 ≤ s.fb.queue.length then waitIn s false
                else
                  let s := cacheAll s (piecesOf base (k * size))
                  let pas := (upTo k).map (fun i => (paOf s g.core g.ctx (base + BitVec.ofNat 64 (i * size))).getD 0)
                  let lines := placeLines (pas.map Place.mem)
                  let reps := if write then [] else repLines s ((upTo k).map (fun i => base + BitVec.ofNat 64 (i * size)))
                  let s := sendHeldTo s (pas.map Place.mem)
                  let o := { fbOp s code sub (readS g d) base c with lines := lines, places := pas, reps := reps }
                  sendFb (if write then askLines s o.id lines else s) o none))))

def execFbld (d a b : Opnd) (k : BitVec 2) (s : State) : Out := moveRows 0xB9 k.toNat d a b s
def execFbst (d a b : Opnd) (k : BitVec 2) (s : State) : Out := moveRows 0xBA k.toNat d a b s

end Sys2Proof.Machine
end

