-- ==== Sys2Proof/Machine/Homes.lean ====
section
/-! DEFINITION. What arrives at the homes and what comes back (R102, R107, R115, R119-R123, R132-R134, R140, R179). Each step names
the message, acknowledgement, line or operation that it serves; one that cannot be served yet changes nothing. -/

namespace Sys2Proof.Machine

/-! ### The order of messages (R127, R100, R179) -/

/-- A message that must arrive before a later one: another of its TG to the line, or to a device page when both go to one. Hob updates
keep only the order of one thread's updates to one address (R179). -/
def Msg.leads (x m : Msg) : Bool :=
  match x.ask, m.ask with
  | .hob a key _, .hob b key' _ => key.wid = key'.wid && decide (x.pa < m.pa + b.size) && decide (m.pa < x.pa + a.size)
  | _, _ => x.tg = m.tg && (lineOf x.pa = lineOf m.pa || (x.dev && m.dev))

/-- No earlier message that leads it is still on its way. -/
def inTurn (s : State) (k : Nat) (m : Msg) : Bool := (s.net.take k).all (fun x => !x.leads m)

/-- The home of an address can be reached: on another node, while the fabric ports are up (R273, R276, R277). -/
def State.reachable (s : State) (pa : Nat) : Bool := !(s.isRemote pa && s.dev.portsDown)

/-- The message `k`, when it may be served: in its turn, no engine owns the line (R132), and its home can be reached. -/
def served (s : State) (k : Nat) : Option Msg :=
  match s.net[k]? with
  | none => none
  | some m => if inTurn s k m && !engineOwned s (lineOf m.pa) && s.reachable m.pa then some m else none

/-- The message is gone. -/
def State.dropMsg (s : State) (k : Nat) : State := { s with net := dropAt s.net k }

/-- The value came for thread t: it joins the operation, and one response fewer is due. -/
def giveValue (s : State) (m : Msg) (b : List Byte) (poison : Bool) (ready : Nat) : State :=
  s.modTgAt m.tg (fun g => g.modOp m.op (fun o =>
    let et := match o.sink with | some k => k.et.toNat | none => etU32
    { o with got := o.got ++ [mkPiece et m.t b poison ready], need := o.need - 1
             near := if s.isRemote m.pa then o.near else o.near - 1 }))

/-- Acknowledgements of a message, for its operation and every operation that it carries (R123, R133); `bad` says that its threads met
a poisoned line. -/
def acknowledge (s : State) (m : Msg) (wct : Nat) (counted retires : Bool) (bad : Bool := false) : State :=
  { s with acks := s.acks ++ ((m.op, m.t) :: m.also).map (fun x =>
      ⟨m.tg, x.1, wct, counted, retires, if bad then some x.2 else none, !s.isRemote m.pa⟩) }

/-! ### Fills (R110, R113, R119, R122, R139) -/

/-- The copy that a fill leaves in the core's L1. -/
def fillCopy (s : State) (m : Msg) (f : FillReq) : Copy :=
  let no := lineOf m.pa
  { core := m.core, ctx := m.ctx, line := no, data := memBytes s.mem (no * 128) 128, expiry := s.gt + 2 ^ f.lg, nc := f.nc
    region := f.region, round := f.round, version := (s.line no).version, poison := s.poisoned no m.rep }

/-- A line read by an engine for a TG: a leased fill into its home slice, tagged there, or into the slice of the replica that serves
the TG's core (R86, R111, R132, R167); no lease where another engine owns the line. -/
def engineFill (s : State) (k : TgKey) (no : Nat) (rep : Bool := false) : State :=
  let lg := match s.findTg k with | some g => g.lease.toNat | none => 10
  let core := match s.findTg k with | some g => g.core | none => 0
  let s := reach s no
  admitAt (if engineOwned s no then s else leaseLine s no lg) no (readSlice s core no rep)

/-- The slice that serves a message's read holds the line (R110, R111). -/
def holdFor (s : State) (m : Msg) : State := admitAt s (lineOf m.pa) (readSlice s m.core (lineOf m.pa) m.rep)

/-- The fill answered: lease, none for a non-coherent line (R113, R119), residence, copy. -/
def answerFill (s : State) (m : Msg) (f : FillReq) : State :=
  let no := lineOf m.pa
  if !f.keep then s
  else
    let c := fillCopy s m f
    admitCopy (holdFor (if f.nc then s else leaseLine s no f.lg) m) c

/-- HOME_FILL: answered when no accepted write and no ownership grant of the line is pending. -/
def execHomeFill (k : Nat) (s : State) : Out :=
  match served s k with
  | none => .next s
  | some m =>
    let no := lineOf m.pa
    match m.ask with
    | .fill size f =>
      let s := reach s no
      if fillHeld s no then .next s
      else
        let s := answerFill (s.dropMsg k) m f
        .next (giveValue s m (memBytes s.mem m.pa size) (s.poisoned no m.rep) s.gt)
    | .prefetch f =>
      let s := reach s no
      if fillHeld s no then .next s
      else .next (if f.keep then answerFill (s.dropMsg k) m f else holdFor (s.dropMsg k) m)
    | _ => .next s

/-! ### Writes (R122, R133, R140) -/

/-- A run of read-modify-writes on the bytes of a line, in order. -/
def applyAll (ops : List AOp) (old : Nat) : Nat := ops.foldl (fun x a => a.apply x) old

/-- The new value of a round counter goes out to the L1s (R140). -/
def sendNews (s : State) (c region pa : Nat) (x : W32) (wct : Nat) : State := { s with news := s.news ++ [⟨c, region, pa, x, wct, []⟩] }

/-- No earlier engine's request for the line, and none of the same engine for a lower line, is still on its way. -/
def ownTurn (s : State) (m : Msg) (job : Nat) : Bool :=
  s.net.all (fun x =>
    match x.ask with
    | .engineOwn j => !((j = job && lineOf x.pa < lineOf m.pa) || (decide (j < job) && lineOf x.pa = lineOf m.pa))
    | _ => true)

/-- The bytes of its line that a message touches: a store's or an atomic's own, else the line's. -/
def Msg.span (m : Msg) : Nat × Nat :=
  match m.ask with
  | .write data _ _ _ => (m.pa, data.length)
  | .atomic (a :: _) _ _ _ => (m.pa, a.size)
  | .spec a _ _ _ => (m.pa, a.size)
  | _ => (lineOf m.pa * 128, 128)

/-- A write discarded at a lost line: counted where the address is orphaned (R267); its WCT is GT (log 59). -/
def discardAt (s : State) (no : Nat) : State × Nat := (if s.orphaned no then countUnc s else s, s.gt)

/-- A GPIN at the descriptor's home (R223): the live slot's generation, pinned, or all ones. A TG that has ended takes no pin. -/
def pinAtHome (s : State) (m : Msg) (va : W64) : State :=
  let d : Desc := ⟨m.core, m.ctx, va, m.pa⟩
  let s := arriveRange s m.pa 256
  let gen := d.g s
  let ready := max (pendTime (s.line (lineOf m.pa))) (pendTime (s.line (lineOf m.pa + 1)))
  let live := d.liveGen s gen && (match s.findTg m.tg with | some g => g.on | none => false)
  let val : W64 := if live then BitVec.ofNat 64 gen else BitVec.allOnes 64
  let s := if live then (d.addPin s gen 1).modTgAt m.tg (fun g => { g with pins := g.pins ++ [⟨va, val⟩] }) else s
  giveValue s m (natLe 8 val.toNat) false ready

/-- A write that has arrived and may be accepted: the state after it, with its WCT. -/
def acceptMsg (s : State) (m : Msg) : State × Nat :=
  let no := lineOf m.pa
  let s := arriveAt (applyDue s no) m.span.1 m.span.2
  let lost := s.poisoned no m.rep
  let before := pendTime (s.line no)
  match m.ask with
  | .write data floor nc counted =>
    let (s, t) := acceptWrite s m.tg m.pa data floor nc true
    (acknowledge s m t counted true, t)
  | .atomic ops floor back nc =>
    let size := match ops with | a :: _ => a.size | [] => 4
    let old := latestNat s m.pa size
    let (s, t) := if lost then discardAt s no
      else acceptWrite s m.tg m.pa (natLe size (applyAll ops old)) floor nc true
    let s := if back then giveValue s m (natLe size old) lost before else s
    (acknowledge s m t true (!back) (lost && !back), t)
  | .radv region floor =>
    let x := latestNat s m.pa 4 + 1
    let (s, t) := acceptWrite s m.tg m.pa (natLe 4 x) floor false true
    (acknowledge (sendNews s m.ctx region m.pa (BitVec.ofNat 32 x) t) m t true false, t)
  | .engineOwn job =>
    let (s, t) := acceptGrant s m.tg no
    (acknowledge (s.modLine no (fun l => { l with owner := some (.engine job) })) m t true false, t)
  | .pin va => (pinAtHome s m va, s.gt)
  | _ => (s, s.gt)

/-- The message is a write that HOME_WRITE_ACCEPT or REPLICATED_COMMIT accepts. -/
def acceptable (s : State) (m : Msg) : Bool :=
  match m.ask with
  | .write _ _ _ _ => true
  | .atomic _ _ _ _ => true
  | .radv _ _ => true
  | .engineOwn job => ownTurn s m job
  | .pin _ => !engineOwned s (lineOf m.pa + 1)
  | _ => false

def execHomeWriteAccept (k : Nat) (s : State) : Out :=
  match served s k with
  | none => .next s
  | some m => if !acceptable s m || m.rep then .next s else .next (acceptMsg (s.dropMsg k) m).1

/-- REPLICATED_COMMIT: the four copies are locked until the WCT, when all four change (R134): the model keeps their bytes once
(log 9). -/
def execReplicatedCommit (k : Nat) (s : State) : Out :=
  match served s k with
  | none => .next s
  | some m =>
    if !acceptable s m || !m.rep then .next s
    else
      let (s, t) := acceptMsg (s.dropMsg k) m
      .next (if s.gt < t then s.modLine (lineOf m.pa) (fun l => { l with locked := some (l.locked.getD s.gt) }) else s)

/-- REPLICA_LOCK_TIMEOUT: a read of a replica locked for 2 µs goes to the home. -/
def execReplicaLockTimeout (k : Nat) (s : State) : Out :=
  match s.net[k]? with
  | none => .next s
  | some m =>
    let reads := match m.ask with | .fill _ _ => true | .prefetch _ => true | _ => false
    match (s.line (lineOf m.pa)).locked with
    | some t => if m.rep && reads && t + 2000 ≤ s.gt then .next { s with net := s.net.set k { m with rep := false } } else .next s
    | none => .next s

/-- SPECULATIVE_VALIDATION: the speculated value stands when no write was accepted since the copy's fill; else the atomic is
performed on the current value (R133). -/
def execSpeculativeValidation (k : Nat) (s : State) : Out :=
  match served s k with
  | none => .next s
  | some m =>
    match m.ask with
    | .spec a old new version =>
      let no := lineOf m.pa
      let s := arriveAt (applyDue (s.dropMsg k) no) m.pa a.size
      let before := pendTime (s.line no)
      let lost := s.poisoned no false
      let now := latestNat s m.pa a.size
      let good := (s.line no).version = version && !lost
      let x := if good then old.toNat else now
      let y := if good then new.toNat else a.apply now
      let (s, t) := if lost then discardAt s no else acceptWrite s m.tg m.pa (natLe a.size y) 0 false true
      .next (acknowledge (giveValue s m (natLe a.size x) lost before) m t true false)
    | _ => .next s

/-- WRITE_COMPLETION_TIME: every accepted write whose WCT has come is the value of its line. -/
def execWriteCompletionTime (s : State) : Out := .next (applyAllDue s)

/-- The trap of poison that comes back to an operation, at its instruction (R73, R266, R281); `s` has its TG at issue. -/
def poisonBack (s : State) (o : Op) (bad : Mask) : Out :=
  let s := s.raise flagPz
  if s.tg.fptrap.getLsbD 7 && s.tg.on then
    trap (s.modTg (fun g => { g.finishOp o.id with pc := o.pc, word := o.word })) { cause := 0x12, mask := bad }
  else .next s

/-- WRITE_ACKNOWLEDGEMENT (R123): counts fall, WCTmax and the slice's latest WCT rise. -/
def execWriteAcknowledgement (k : Nat) (s : State) : Out :=
  match s.acks[k]? with
  | none => .next s
  | some a =>
    let s := { s with acks := dropAt s.acks k }
    let s := s.modTgAt a.tg (fun g =>
      let g := { g with unack := if a.counted then g.unack - 1 else g.unack, wctMax := max g.wctMax a.wct }
      if !a.retires then g
      else g.modOp a.op (fun o =>
        { o with need := o.need - 1, near := if a.near then o.near - 1 else o.near
                 got := match a.bad with | some t => o.got ++ [⟨t, 0, true, 0⟩] | none => o.got }))
    let s := (s.modWg a.tg.launch a.tg.gang a.tg.wg (fun w => { w with wct := max w.wct a.wct })).modLaunch a.tg.launch
      (fun l => { l with wct := max l.wct a.wct })
    match (if a.retires then (s.findTg a.tg).bind (fun g => g.ops.find? (fun o => o.id = a.op && o.need = 0)) else none) with
    | none => .next s
    | some o =>
      let bad := if o.mark then piecePoison o.got else 0
      if bad = 0 then .next (s.modTgAt a.tg (fun g => g.finishOp a.op))
      else poisonBack ((s.modTgAt a.tg (fun g => g.finishOp a.op)).focus a.tg) o bad

/-! ### Values that return (R114, R115, R311) -/

/-- A stream destination's element on its way: a store of the issuing TG, for operation `op` (R182). -/
def storeOut (s : State) (op size : Nat) (got : List Piece) (x : OutTo) : State :=
  match got.find? (fun p => p.t = x.t) with
  | none => s
  | some p =>
    let data := natLe size p.data.toNat
    match x.place with
    | .mem pa => sendStore s op x.t pa x.attr x.nc data 0
    | .scratch l g w off => scratchStore s l g w off data
    | .port _ => s

/-- The elements of an atomic's destination stream stored, for the operation that follows the atomic's; where none goes to memory they
are performed at once (R182). -/
def storeOuts (s : State) (o : Op) (size : Nat) (got : List Piece) : State :=
  let s := o.outs.foldl (fun s x => storeOut s (o.id + 1) size got x) s
  if o.outs.any (fun x => match x.place with | .mem _ => true | _ => false) then s else s.modTg (fun g => g.finishOp (o.id + 1))

/-- The operation has every value it waits for. -/
def Op.complete (o : Op) (gt : Nat) : Bool := (o.conf.isSome || o.sink.isSome) && o.need = 0 && !o.done && o.got.all (fun p => decide (p.ready ≤ gt))

/-- The values of a finished operation put where they go; `s` has the TG at issue. -/
def deliverValues (s : State) (o : Op) (k : Sink) : Option State :=
  let got := sortBy (fun (a b : Piece) => decide (a.t < b.t)) o.got
  let words := got.flatMap (fun p => (natLe 4 p.data.toNat).map plainByte)
  let finish := fun (s : State) => deliverMoved (s.modTg (fun g => (deliverOp (raiseFloors g o.raises got) o).finishOp o.id)) s.tg.key o
  match k.d with
  | .q n =>
    match s.tg.binding n with
    | none => some (finish s)
    | some b =>
      let p := b.port.toNat
      if portBusy s p || inLine s s.tg p true none || 4 * portCapacity p < portFill s p + words.length then none
      else some (finish (pushBytes s p words))
  | .sp _ => some (finish (if o.outs = [] then s else storeOuts s o (etBytes k.et.toNat) got))
  | _ => some (finish s)

/-- SPCFG's descriptor has come (R181, R363): the stream at position 0, or the trap of its breach at the instruction. `s` has the
TG at issue. -/
def configure (s : State) (o : Op) (n : Nat) (va : W64) : Out :=
  let v := pieceVector o.got
  let s := s.modTg (fun g => g.finishOp o.id)
  if piecePoison o.got ≠ 0 && s.tg.fptrap.getLsbD 7 && s.tg.on then poisonBack s o s.tg.active
  else
    let s := if piecePoison o.got = 0 then s else s.raise flagPz
    match streamOf (natLe 16 (vget v 0).toNat ++ natLe 16 (vget v 1).toNat) with
    | .error e =>
      if s.tg.on then trap (s.modTg (fun g => { g with pc := o.pc, word := o.word })) { cause := e, mask := s.tg.cm, va := va, access := 1 }
      else .next s
    | .ok st => .next (s.modTg (fun g => { g with sp := vset g.sp n (some st) }))

/-- LOAD_VALUE_RETURN: the register is written and is no longer pending. Poison sets pz, and with FPTRAP.pze traps at the
instruction (R73, R266). -/
def execLoadValueReturn (t : TgKey) (op : Nat) (s : State) : Out :=
  match s.findTg t with
  | none => .next s
  | some g =>
    match g.ops.find? (fun o => o.id = op) with
    | none => .next s
    | some o =>
      if !o.complete s.gt then .next s
      else
        let s := s.focus t
        match o.sync, o.conf, o.sink with
        | some n, _, _ => .next (s.modTg (fun g => { g with held := ⟨o.pc, n, o.got⟩ :: g.held }.finishOp op))
        | none, some (n, va), _ => configure s o n va
        | none, none, none => .next s
        | none, none, some k =>
          let bad := if isSReg k.d then piecePoison o.got else piecePoison o.got &&& g.live
          if bad ≠ 0 && g.fptrap.getLsbD 7 && g.on then poisonBack s o bad
          else
            match deliverValues (if bad = 0 then s else s.raise flagPz) o k with
            | none => .next s
            | some s => .next (if o.acquire then dropNc s s.tg.core else s)

/-! ### Round views (R140) -/

/-- ROUND_VIEW_UPDATE: a new counter value reaches one core's L1, not before its WCT. -/
def execRoundViewUpdate (core k : Nat) (s : State) : Out :=
  match s.news[k]? with
  | none => .next s
  | some n =>
    if s.gt < n.wct || n.seen.contains core then .next s
    else
      .next { s with
        news := s.news.set k { n with seen := core :: n.seen }
        views := s.views.map (fun v =>
          if v.core = core && newsFor s n v && atOrAfter n.val v.val then { v with val := n.val } else v) }

/-! ### Stash lines (R107, R132) -/

/-- A line of a stash window as it stands after a fill or a grant; the bytes go into the scratch. -/
def putStash (s : State) (l g w : Nat) (x : StashLine) (bytes : List Byte) : State :=
  s.modWg l g w (fun y =>
    { y with scratch := memPut y.scratch (stashOffset y x.win x.idx) bytes
             stash := x :: y.stash.filter (fun z => !z.is x.win x.idx) })

/-- STASH_FILL: the line comes with a lease and a fill round. -/
def execStashFill (k : Nat) (s : State) : Out :=
  match served s k with
  | none => .next s
  | some m =>
    match m.ask with
    | .stashFill l g w win idx f =>
      let no := lineOf m.pa
      match s.findWg l g w with
      | none => .next (s.dropMsg k)
      | some x =>
        if x.stash.any (fun z => z.is win idx && z.owned) then .next (s.dropMsg k)
        else
          let s := reach s no
          if fillHeld s no then .next s
          else
            let s := admitLine (leaseLine (s.dropMsg k) no f.lg) no
            let z : StashLine := { win := win, idx := idx, pa := no, owned := false, expiry := s.gt + 2 ^ f.lg
                                   version := (s.line no).version, dirty := 0, poison := s.poisoned no false
                                   region := f.region, round := f.round }
            .next (putStash s l g w z (memBytes s.mem (no * 128) 128))
    | _ => .next s

/-- STASH_UPGRADE: the request is accepted with a WCT; from the WCT on the line is owned. No lease is granted between the two
(`fillHeld`), so every other copy has expired when ownership begins. -/
def execStashUpgrade (k : Nat) (s : State) : Out :=
  match served s k with
  | none => .next s
  | some m =>
    let no := lineOf m.pa
    match m.ask with
    | .stashOwn l g w win idx _ f =>
      let (s, t) := acceptGrant (reach s no) m.tg no
      .next { s with net := s.net.set k { m with ask := .stashGrant l g w win idx t f } }
    | .stashGrant l g w win idx t f =>
      let s := reach s no
      if s.gt < t || !(s.line no).pend.isEmpty then .next s
      else
        let s := acknowledge (s.dropMsg k) m t true false
        match s.findWg l g w with
        | none => .next s
        | some _ =>
          let z : StashLine := { win := win, idx := idx, pa := no, owned := true, expiry := 0, version := (s.line no).version
                                 dirty := 0, poison := s.poisoned no false, region := f.region, round := f.round }
          let s := putStash s l g w z (memBytes s.mem (no * 128) 128)
          .next (s.modLine no (fun x => { x with owner := some (.stash l g w) }))
    | _ => .next s

/-- STASH_RECALL: an access that has come to the home of an owned line brings its dirty bytes back. -/
def execStashRecall (line : Nat) (s : State) : Out :=
  .next (if s.net.any (fun m => lineOf m.pa = line) then recallLine s line else s)

/-! ### Walks (R102) -/

/-- PAGE_WALK: the translation of an address of a resident TG's context enters the core's TLB; a fault is the accessing
instruction's. -/
def execPageWalk (core ctx : Nat) (va : W64) (s : State) : Out :=
  let wanted := s.allTgs.any (fun g => g.on && g.core = core && g.ctx = ctx)
  .next (if wanted && canonical va && regionOf va = .translated then cachePage s core ctx va else s)

/-! ### The hob (R178-R180) -/

/-- The hob updates on their way to a line that may arrive now, by their places. -/
def hobsTo (s : State) (line : Nat) : List Nat :=
  (upTo s.net.length).filter (fun k =>
    match served s k with
    | some m => (match m.ask with | .hob _ _ _ => lineOf m.pa = line | _ => false)
    | none => false)

/-- The one that arrives next: any of them (R179, R255). -/
def nextHob (s : State) (line : Nat) : Option Nat :=
  let xs := hobsTo s line
  xs[Config.hobArrival s.ctr % xs.length]?

/-- The slice gives up its copy of the line (R179). -/
def giveUp (s : State) (no : Nat) : State := s.modLine no (fun l => { l with resident := false, tag := none })

/-- A hob update reaches the line: the slice gives up its copy, due writes are the value, an owner is recalled (R107, R179). -/
def hobArrives (s : State) (no : Nat) : State := recallLine (applyDue (giveUp s no) no) no

/-- HOB_UPDATE_APPLY: the slice gives up its copy, and the hob applies the update at a WCT under R122, or discards it at a poisoned
line (R317); in a deterministic launch it holds the update. -/
def execHobUpdateApply (line : Nat) (s : State) : Out :=
  match (nextHob s line).bind (fun k => (s.net[k]?).map (fun m => (k, m))) with
  | none => .next s
  | some (k, m) =>
    match m.ask with
    | .hob a key det =>
      let s := hobArrives (s.dropMsg k) line
      if det then
        .next (acknowledge { s with heldHob := s.heldHob ++ [⟨m.tg.launch, m.pa, a, key⟩] } m s.gt false true)
      else
        let (s, t) := if s.poisoned line false then discardAt s line
          else acceptWrite s m.tg m.pa (natLe a.size (a.apply (latestNat s m.pa a.size))) 0 false true
        .next (acknowledge s m t false true)
    | _ => .next s

/-! ### Kindling (R153-R155) -/

/-- A dropped request counted (R154, R155). -/
def dropKindle (s : State) (c : Nat) : State := s.modCtx c (fun x => { x with dropped := min 65535 (x.dropped + 1) })

/-- Slices of a region that are outstanding: asked for, or not yet completed. -/
def kindledOut (s : State) (c n : Nat) : Nat :=
  (s.launches.filter (fun l => l.ctx = c && l.kindled = some n && !l.done)).length
    + (s.spawnQ.filter (fun r => r.ctx = c && (match r.source with | .kindle m _ _ => m = n | _ => false))).length

/-- A request for ember index `idx` of region n made at `gt` (R154). The template is read and judged at U, whatever launch posted the
request (log 63). -/
def kindle (s : State) (c n idx : Nat) (r : EmberRegion) (gt : Nat) : State :=
  let x := s.ctxOf c
  if r.tmpl ≠ 0 then
    if r.cap ≤ kindledOut s c n then dropKindle s c
    else { s with spawnQ := s.spawnQ ++ [{ source := .kindle n idx gt, record := r.tmpl, ctx := c, priv := .u, region := some r }] }
  else
    let mine := (x.kindling.filter (fun w => bitsNat w.toNat 31 28 = n)).length
    if !x.kindEn || 1024 ≤ x.kindling.length || r.cap ≤ mine then dropKindle s c
    else s.modCtx c (fun x => { x with kindling := x.kindling ++ [BitVec.ofNat 32 (n * 2 ^ 28 + idx % 2 ^ 28)] })

/-! ### The ember unit (R151-R158) -/

/-- A contribution reaches the line: due writes are the value, an owner is recalled and the hob window closes (R107, R180). -/
def contributionArrives (s : State) (no : Nat) : State := closeHob (recallLine (applyDue s no) no) no

/-- EMBER_CONTRIBUTION_APPLY: the line's owner is recalled and its hob window closes (R107, R180); the contribution is applied at
arrival, or held in the merge window in a deterministic launch; at a poisoned line it is dropped, and acknowledged with the GT of its
arrival (R152; log 59). -/
def execEmberContributionApply (k : Nat) (s : State) : Out :=
  match served s k with
  | none => .next s
  | some m =>
    match m.ask with
    | .ember c r region key det =>
      let no := lineOf m.pa
      let s := contributionArrives (s.dropMsg k) no
      if det then
        .next (acknowledge { s with heldEmber := s.heldEmber ++ [⟨m.tg.launch, m.pa, c, r, region, key⟩] } m s.gt true true)
      else
        if s.poisoned no false then .next (acknowledge (discardAt s no).1 m s.gt true true)
        else
          let x := EmberWord.apply (.ofBytes (latestBytes s m.pa 16)) region.k r c
          let (s, t) := acceptWrite s m.tg m.pa x.bytes 0 false false
          .next (acknowledge s m t true true)
    | _ => .next s

/-- The word's kindle mark holds this round's tag. -/
def markedFor (l : Line) (pa : Nat) (r : W32) : Bool := l.kindle.contains (pa % 128 / 16, r.setWidth 8)

def setMark (s : State) (pa : Nat) (r : W32) : State :=
  s.modLine (lineOf pa) (fun l =>
    { l with kindle := (pa % 128 / 16, r.setWidth 8) :: l.kindle.filter (fun x => x.1 ≠ pa % 128 / 16) })

/-- ELD_AT_HOME: the estimate, answered when every contribution that it sees is the line's value; a request at most once per
ember and round. -/
def execEldAtHome (k : Nat) (s : State) : Out :=
  match served s k with
  | none => .next s
  | some m =>
    match m.ask with
    | .eld r n region va key det =>
      let no := lineOf m.pa
      let s := arriveAt (applyDue (s.dropMsg k) no) m.pa 16
      if s.poisoned no false then .next (giveValue s m [] true s.gt)
      else
        let e := EmberWord.estimate (.ofBytes (latestBytes s m.pa 16)) r region
        let ready := pendTime (s.line no)
        let s := giveValue s m (e.words.flatMap (natLe 4)) false ready
        if !e.kindles || markedFor (s.line no) m.pa r then .next s
        else
          let s := setMark s m.pa r
          let idx := (va.toNat - region.base) / 16
          .next (if det then
              s.modLaunch m.tg.launch (fun l => { l with heldKindles := l.heldKindles ++ [⟨n, idx, region, m.ctx, key, s.gt⟩] })
            else kindle s m.ctx n idx region s.gt)
    | _ => .next s

/-! ### The accesses that close a window (R158, R180) -/

/-- The message `k` served by its own step: what closes a window is served at once after the close. -/
def serveMsg (k : Nat) (s : State) : Out :=
  match s.net[k]? with
  | none => .next s
  | some m =>
    match m.ask with
    | .fill _ _ => execHomeFill k s
    | .prefetch _ => execHomeFill k s
    | .spec _ _ _ _ => execSpeculativeValidation k s
    | .eld _ _ _ _ _ _ => execEldAtHome k s
    | .stashFill _ _ _ _ _ _ => execStashFill k s
    | .stashOwn _ _ _ _ _ _ _ => execStashUpgrade k s
    | .stashGrant _ _ _ _ _ _ _ => execStashUpgrade k s
    | .hob _ _ _ => .next s
    | .ember _ _ _ _ _ => execEmberContributionApply k s
    | _ => if m.rep then execReplicatedCommit k s else execHomeWriteAccept k s

/-- The first message to the line that has come and is not of a kind. -/
def otherAccess (s : State) (line : Nat) (kind : Ask → Bool) : Option Nat :=
  (upTo s.net.length).find? (fun k => match served s k with | some m => lineOf m.pa = line && !kind m.ask | none => false)

def isHob : Ask → Bool | .hob _ _ _ => true | _ => false
def isContribution : Ask → Bool | .ember _ _ _ _ _ => true | .hob _ _ _ => true | _ => false

/-- HOB_WINDOW_CLOSE: another access to the line has come; the held updates are applied, and it is served. -/
def execHobWindowClose (line : Nat) (s : State) : Out :=
  match otherAccess s line isHob with | some k => serveMsg k s | none => .next s

/-- MERGE_WINDOW_CLOSE: an access that closes the window of an ember of the line has come; the held contributions are applied, and
it is served. -/
def execMergeWindowClose (line : Nat) (s : State) : Out :=
  match otherAccess s line isContribution with | some k => serveMsg k s | none => .next s

end Sys2Proof.Machine
end

