-- ==== Sys2Proof/Machine/Matrix.lean ====
section
/-! DEFINITION. Opcodes 0x80-0x85: matrix passes and accumulator tiles (R80-R84, R172-R177, R283, R332). A pass takes its operands
at acceptance and adds its groups when it ends. -/

namespace Sys2Proof.Machine

/-! ### The sums of a pass (R82) -/

/-- An exact extended value: finite, an infinity, or a NaN. -/
inductive Ext where
  | fin (x : Dy)
  | inf (neg : Bool)
  | nan
  deriving DecidableEq, Repr, Inhabited

def Ext.ofElem (et x : Nat) : Ext :=
  match etFmt et with
  | some f => if f.isNan x then .nan else if f.isInf x then .inf (f.neg x) else .fin (f.dy x)
  | none => if x = mk8Nar then .nan else .fin (mk8Dy x)

def Ext.mul (a b : Ext) : Ext :=
  match a, b with
  | .fin x, .fin y => .fin (x.mul y)
  | .inf s, .inf t => .inf (s != t)
  | .inf s, .fin x => if x.n = 0 then .nan else .inf (s != decide (x.n < 0))
  | .fin x, .inf s => if x.n = 0 then .nan else .inf (s != decide (x.n < 0))
  | _, _ => .nan

def Ext.add (a b : Ext) : Ext :=
  match a, b with
  | .fin x, .fin y => .fin (x.add y)
  | .inf s, .inf t => if s = t then .inf s else .nan
  | .inf s, .fin _ => .inf s
  | .fin _, .inf s => .inf s
  | _, _ => .nan

/-- The elements of a 4-byte group. -/
def passElems (et : Nat) (b : List Byte) : List Nat :=
  if etWidth et = 16 then [recNat b 0 2, recNat b 2 2] else [recNat b 0 1, recNat b 1 1, recNat b 2 1, recNat b 3 1]

/-- The sign of an element. -/
def elemNeg (et x : Nat) : Bool := match etFmt et with | some f => f.neg x | none => decide ((mk8Dy x).n < 0)

/-- Every product of a group is −0, so its sum is (R68). -/
def groupNegZero (et : Nat) (a b : List Byte) : Bool :=
  ((passElems et a).zip (passElems et b)).all (fun p =>
    (match (Ext.ofElem et p.1).mul (Ext.ofElem et p.2) with | .fin x => decide (x.n = 0) | _ => false) && elemNeg et p.1 != elemNeg et p.2)

/-- One group added in float mode: the new word, nv, of. -/
def addFloat (et acc : Nat) (a b : List Byte) : Nat × Bool × Bool :=
  let s := ((passElems et a).zip (passElems et b)).foldl (fun (s : Ext) (p : Nat × Nat) => s.add ((Ext.ofElem et p.1).mul (Ext.ofElem et p.2))) (Ext.fin Dy.zero)
  let f := fmtA56
  match s with
  | .nan => (f.canonNan, true, false)
  | .inf neg =>
    if f.isNan acc then (f.canonNan, false, false)
    else if f.isInf acc && f.neg acc != neg then (f.canonNan, true, false)
    else (f.withSign neg f.infBits, false, false)
  | .fin x =>
    if f.isNan acc then (f.canonNan, false, false)
    else if f.isInf acc then (acc, false, false)
    else let r := f.round 0 ((f.dy acc).add x) (f.isZero acc && f.neg acc && groupNegZero et a b); (r.bits, false, r.flags &&& flagOf != 0)

/-- The integer that a tile word holds. -/
def wordInt (x : BitVec 56) : Int := x.toInt

/-- One group added in integer mode: the new word, sv. -/
def addInt (et : Nat) (acc : BitVec 56) (a b : List Byte) : BitVec 56 × Bool :=
  let s := ((passElems et a).zip (passElems et b)).foldl (fun (s : Int) (p : Nat × Nat) => s + intVal et p.1 * intVal et p.2) 0
  let n := wordInt acc + s
  let lo : Int := -(2 ^ 55)
  let hi : Int := 2 ^ 55 - 1
  (BitVec.ofInt 56 (max lo (min hi n)), n < lo || hi < n)

/-- Exception bits of a tile: nv, of, sv, pz. -/
structure TileBits where
  nv : Bool := false
  ofl : Bool := false
  sv : Bool := false
  pz : Bool := false
  deriving DecidableEq, Repr, Inhabited

def TileBits.or (a b : TileBits) : TileBits := ⟨a.nv || b.nv, a.ofl || b.ofl, a.sv || b.sv, a.pz || b.pz⟩

/-- The groups of one element, in ascending K. -/
def addGroups (et : Nat) (float : Bool) (a b : List Byte) : Nat → BitVec 56 → TileBits → BitVec 56 × TileBits
  | 0, acc, t => (acc, t)
  | n + 1, acc, t =>
    if float then
      let (x, nv, ofl) := addFloat et acc.toNat (a.take 4) (b.take 4)
      addGroups et float (a.drop 4) (b.drop 4) n (BitVec.ofNat 56 x) (t.or { nv := nv, ofl := ofl })
    else
      let (x, sv) := addInt et acc (a.take 4) (b.take 4)
      addGroups et float (a.drop 4) (b.drop 4) n x (t.or { sv := sv })

/-- Shape of a pass: bytes of K, rows of A, columns of B. -/
def PassKind.k : PassKind → Nat | .quarter _ => 256 | _ => 64
def PassKind.rows : PassKind → Nat | .quarter _ => 8 | .blocks => 128 | .gang _ => 32
def PassKind.cols : PassKind → Nat | .quarter _ => 16 | _ => 64

/-- The tile, row and column of a product's accumulator word, and whether the pass makes the product (R173, R175). -/
def PassKind.target (p : PassKind) (tile i j : Nat) : Option (Nat × Nat × Nat) :=
  match p with
  | .quarter q => some (tile, 8 * q + i, j)
  | .blocks => if i / 8 = j / 4 then some (tile, 8 * (i / 8 / 4) + i % 8, 4 * (i / 8 % 4) + j % 4) else none
  | .gang _ => some (j / 16, i, j % 16)

def passFloat (et : Nat) : Bool := !etInt et

/-- One product element added to its tile. -/
def addElement (p : Pass) (tiles : Vector Tile 4) (i j : Nat) : Vector Tile 4 :=
  match p.kind.target p.tile i j with
  | none => tiles
  | some (t, r, c) =>
    let k := p.kind.k
    let a := (p.a.drop (i * k)).take k
    let b := (p.b.drop (j * k)).take k
    let bad := a.any (fun x => x.2) || b.any (fun x => x.2) || p.aBad.getD i false || p.bBad.getD j false
    let float := passFloat p.et.toNat
    let x := vget tiles t
    let (w, bits) :=
      if bad then (if float then BitVec.ofNat 56 fmtA56.canonNan else 0, { pz := true })
      else addGroups p.et.toNat float (a.map (fun x => x.1)) (b.map (fun x => x.1)) (k / 4) (vget x.words (16 * r + c)) {}
    vset tiles t { x with words := vset x.words (16 * r + c) w, nv := x.nv || bits.nv, ofl := x.ofl || bits.ofl
                          sv := x.sv || bits.sv, pz := x.pz || bits.pz }

/-- Every product of a pass. -/
def runPass (p : Pass) (tiles : Vector Tile 4) : Vector Tile 4 :=
  (upTo p.kind.rows).foldl (fun ts i => (upTo p.kind.cols).foldl (fun ts j => addElement p ts i j) ts) tiles

/-! ### Acceptance (R172, R173) -/

/-- The sidecar entries that a row or column of `k` bytes spans. -/
def spanSides (side : List Side) (k i : Nat) : List Side :=
  (side.drop (i * k / 128)).take ((i * k % 128 + k + 127) / 128)

/-- The scale of a row or column: that of the entry that holds its first byte. -/
def rowScale (side : List Side) (k i : Nat) : BitVec 8 := (side.getD (i * k / 128) (none, 0, false, false)).2.1

/-- A row's poisoned scale byte. -/
def rowBad (side : List Side) (k i : Nat) : Bool := (spanSides side k i).any (fun x => x.2.2.2)

/-- A mixed entry, or entries of different scale (R172). -/
def rowMixed (side : List Side) (k i : Nat) : Bool :=
  (spanSides side k i).any (fun x => x.2.2.1 || x.2.1 != rowScale side k i)

/-- An entry tagged with a format other than the pass's type. -/
def rowTagged (et : Nat) (side : List Side) (k i : Nat) : Bool :=
  (spanSides side k i).any (fun x => match x.1 with | some int8 => if int8 then et ≠ 0 else et ≠ 12 | none => false)

/-- Scales recorded for the rows and columns that a pass touches; none when one differs from a recorded scale (R83). -/
def recordScales (kind : PassKind) (tile : Nat) (sa sb : Nat → BitVec 8) (tiles : Vector Tile 4) : Option (Vector Tile 4) :=
  let put := fun (o : Option (BitVec 8)) (x : BitVec 8) => match o with | none => some x | some y => if y = x then some x else none
  (upTo kind.rows).foldl (fun acc i =>
    (upTo kind.cols).foldl (fun acc j =>
      match acc, kind.target tile i j with
      | some ts, some (t, r, c) =>
        let x := vget ts t
        match put (vget x.sa r) (sa i), put (vget x.sb c) (sb j) with
        | some a, some b => some (vset ts t { x with sa := vset x.sa r (some a), sb := vset x.sb c (some b) })
        | _, _ => none
      | acc, _ => acc) acc) (some tiles)

/-- The tiles that a pass touches. -/
def PassKind.tiles (p : PassKind) (tile : Nat) : List Nat := match p with | .gang _ => [0, 1, 2, 3] | _ => [tile]

/-- The operands of a pass: bytes and sidecars of its A and B data. -/
structure PassData where
  a : List (Byte × Bool)
  b : List (Byte × Bool)
  aSide : List Side
  bSide : List Side
  bPort : Nat
  bPos : Nat
  deriving DecidableEq, Repr, Inhabited

/-- The acceptance checks: the cause of the first that fails, or the tiles with their mode and scales recorded. -/
def acceptTiles (et : Nat) (kind : PassKind) (tile : Nat) (d : PassData) (tiles : Vector Tile 4) : Except Nat (Vector Tile 4) :=
  let k := kind.k
  let rows := upTo kind.rows
  let cols := upTo kind.cols
  let float := passFloat et
  if rows.any (rowMixed d.aSide k) || cols.any (rowMixed d.bSide k) then .error 0x0C
  else if rows.any (rowTagged et d.aSide k) || cols.any (rowTagged et d.bSide k) then .error 0x13
  else if (kind.tiles tile).any (fun t => (vget tiles t).float = some !float) then .error 0x13
  else
    match recordScales kind tile (rowScale d.aSide k) (rowScale d.bSide k) tiles with
    | none => .error 0x0C
    | some ts => .ok ((kind.tiles tile).foldl (fun ts t => vset ts t { vget ts t with float := some float }) ts)

/-- The B FIFO's data at a subscriber's read position, for a pass of one kind; none until it is complete. -/
def bData (w : Wg) (tg q : Nat) (bytes : Nat) : Option (List (Byte × Bool) × List Side × Nat × Nat) :=
  match w.subs.find? (fun x => x.tg = tg && x.qs.contains q) with
  | none => none
  | some x =>
    match w.fifos.find? (fun f => f.port = x.port) with
    | none => none
    | some f =>
      let data := (f.data.drop x.pos).take bytes
      if data.length < bytes then none else some (data, f.side.drop (x.pos / 128), x.port, x.pos)

/-- The A FIFO's data of a TG. -/
def aData (g : Tg) (bytes : Nat) : Option (List (Byte × Bool)) :=
  let d := g.aFifo.take bytes
  if d.length < bytes then none else some d

/-- The operand checks of the mould (R173). -/
def passOperands (s : State) (g : Tg) (a b : Opnd) : Option TrapInfo :=
  let cause := fun (o : Opnd) (ok : Binding → Bool) => match o with
    | .q n => if s.hdr.queues ≤ n.toNat || (g.binding n).any (fun x => !ok x) then some 0x02 else none
    | _ => some 0x02
  firstTrap [causeTrap (cause a (fun x => x.port = 0 && x.dir = .pop)) g.cm,
             causeTrap (cause b (fun x => isBFifo x.port.toNat && x.dir ≠ .push)) g.cm]

/-- A missing binding (R173). -/
def passUnbound (g : Tg) (a b : Opnd) : Option TrapInfo := check (unbound g a || unbound g b) 0x0E g.cm

def qIndex (o : Opnd) : Nat := match o with | .q n => n.toNat | _ => 0

/-- Passes accepted on a core that have not started (R173). -/
def waitingPasses (s : State) (core : Nat) : Nat := (s.passes.filter (fun p => p.core = core && !p.started)).length

/-- A pass accepted for TG `k` (R173): its A data consumed, its B position moved on, its operation on the E path. `lead` says
whether the B data is its own workgroup's. -/
def acceptPass (s : State) (k : TgKey) (kind : PassKind) (tile et q : Nat) (d : PassData) (lead : Bool)
    (tiles : Vector Tile 4) : State :=
  match s.findTg k with
  | none => s
  | some g =>
    let n := kind.rows * kind.k
    let rows := upTo kind.rows
    let cols := upTo kind.cols
    let p : Pass := { core := g.core, tg := k, op := g.nextOp, kind := kind, tile := tile, et := BitVec.ofNat 4 et, a := d.a
                      b := d.b, aBad := rows.map (rowBad d.aSide kind.k), bBad := cols.map (rowBad d.bSide kind.k)
                      started := false, clock := s.cycle, bPort := d.bPort, bPos := d.bPos }
    let s := s.modWg k.launch k.gang k.wg (fun w =>
      { w with tiles := tiles
               subs := if lead then w.subs.map (fun x =>
                   if x.tg = k.tg && x.qs.contains q then { x with pos := x.pos + kind.cols * kind.k } else x) else w.subs })
    let s := s.modTgAt k (fun g =>
      ({ g with aFifo := g.aFifo.drop n, aSide := g.aSide.drop (n / 128) }).addOp { g.opOn (some .e) with need := 1 })
    { s with passes := s.passes ++ [p] }

/-- The types of the MMA family. -/
def mmaType (et : Nat) : Bool := et = 12 || et = 0 || et = 1 || et = 8 || et = 9

/-- MMA and MMAB (R173). -/
def mmaInstr (kind : PassKind) (tile : Nat) (a b : Opnd) (s : State) : Out :=
  onTg (sw := true) s (fun g =>
    if g.active = 0 then idle s [] false true
    else
      guarded s [passOperands s g a b, check (!mmaType g.et) 0x13 g.cm, passUnbound g a b, check (s.hdr.tiles ≤ tile) 0x0D g.cm]
        (if 255 ≤ g.count .e then registerWait s true
         else
           match aData g (kind.rows * kind.k), bData s.wg g.key.tg (qIndex b) (kind.cols * kind.k) with
           | some x, some (y, side, port, pos) =>
             let d : PassData := ⟨x, y, g.aSide, side, port, pos⟩
             match acceptTiles g.et kind tile d s.wg.tiles with
             | .error e => trap s { cause := e, mask := g.cm }
             | .ok tiles =>
               if 8 ≤ waitingPasses s g.core then waitIn s false
               else doneSwitch ((acceptPass s g.key kind tile g.et (qIndex b) d true tiles).modTg Tg.loseOlder)
           | _, _ => waitIn s false))

def execMma (a b : Opnd) (t : BitVec 2) (s : State) : Out := mmaInstr (.quarter (s.tg.key.tg % 4)) t.toNat a b s

def execMmab (a b : Opnd) (t : BitVec 2) (s : State) : Out := mmaInstr .blocks t.toNat a b s

/-! ### MMAC (R175) -/

/-- The operand code rb of a TG's word as fetched. -/
def wordRb (g : Tg) : Opnd := decodeOpnd (g.word.extractLsb' 3 7)

/-- The TG of a workgroup of the issuing TG's gang that stands at its MMAC: the issuing TG itself, or one that has arrived. -/
def participant (s : State) (w : Nat) : Option Tg :=
  let k := s.tg.key
  if w = k.wg then some s.tg
  else s.rest.find? (fun g => g.key.launch = k.launch && g.key.gang = k.gang && g.key.wg = w && g.phase = .arrived
    && bitsNat g.word.toNat 31 24 = 0x82)

/-- Another TG of the workgroup issues its MMACs: R175 has one TG of a workgroup issue them (log 67). -/
def gangIntruder (s : State) : Bool :=
  match s.wg.gangTg with
  | some n => n != s.tg.key.tg && s.rest.any (fun h => h.on && h.key = { s.tg.key with tg := n })
  | none => false

/-- The gang's pass under way. -/
def gangPass (s : State) : Option GangPass := (s.findGang s.tg.key.launch s.tg.key.gang).bind (fun x => x.mmac)

/-- The issuing TG stands at its MMAC; with a participant of each of the `n` workgroups there, the next pass begins (R175). -/
def arriveGang (s : State) (n : Nat) : State :=
  let k := s.tg.key
  let s := (s.modTg (fun g => { g with phase := .arrived })).modMyWg (fun w => { w with gangTg := some k.tg })
  if (gangPass s).isNone && (upTo n).all (fun w => (participant s w).isSome)
  then s.modGang k.launch k.gang (fun x => { x with mmac := some ⟨upTo n, []⟩ }) else s

/-- The B data of the issuing participant's column: what the column's leading workgroup has sent, or the entry in its FIFO. -/
def gangB (s : State) (x : GangPass) (nr rb : Nat) : Option (List (Byte × Bool) × List Side × Nat × Nat) :=
  let w := s.tg.key.wg / nr * nr
  match x.sent.find? (fun y => y.wg = w) with
  | some y => some (y.b, y.side, 0, 0)
  | none =>
    (participant s w).bind (fun h =>
      (s.findWg h.key.launch h.key.gang w).bind (fun z => bData z h.key.tg (if h.key = s.tg.key then rb else qIndex (wordRb h)) 4096))

/-- The issuing participant's data for the pass: its own A, and its column's B, which its leading workgroup consumes. -/
def gangData (s : State) (x : GangPass) (nr rb : Nat) : Option PassData :=
  match aData s.tg 2048, gangB s x nr rb with
  | some a, some (y, side, port, pos) =>
    let lead := s.tg.key.wg % nr = 0
    some ⟨a, y, s.tg.aSide, side, if lead then port else 0, if lead then pos else 0⟩
  | _, _ => none

/-- The issuing participant leaves the pass; a leading workgroup sends its B data to its column. The last one ends it. -/
def GangPass.leave (x : GangPass) (w : Nat) (lead : Bool) (d : PassData) : Option GangPass :=
  match x.left.filter (fun y => y ≠ w) with
  | [] => none
  | ys => some ⟨ys, if lead then ⟨w, d.b, d.bSide⟩ :: x.sent else x.sent⟩

/-- The issuing participant's pass accepted. -/
def acceptGang (s : State) (x : GangPass) (nr rb : Nat) (d : PassData) (tiles : Vector Tile 4) : State :=
  let k := s.tg.key
  let lead := decide (k.wg % nr = 0)
  acceptPass (s.modGang k.launch k.gang (fun y => { y with mmac := x.leave k.wg lead d })) k (.gang nr) 0 s.tg.et rb d lead tiles

/-- MMAC. The k-th MMAC of every participant forms pass k: it begins when all stand at it, and each goes on when its own A data and its
column's B entry are there and its checks pass; one whose check fails takes its trap alone. -/
def execMmac (d a b : Opnd) (s : State) : Out :=
  onTg (sw := true) s (fun g =>
    if g.active = 0 then idle s [] false true
    else
      let h := s.hdr
      let n := h.gx * h.gy
      let rb := qIndex b
      guarded s [check (!sRegOk h d) 0x02 g.cm, passOperands s g a b, check (!mmaType g.et) 0x13 g.cm, passUnbound g a b]
        (if g.pending d || 255 ≤ g.count .e then registerWait s true
         else
           let nr := (readS g d).toNat
           guarded s [check (128 < n || nr = 0 || 16 < nr || n % nr ≠ 0 || 8 < n / nr || gangIntruder s) 0x02 g.cm,
               check (h.tiles < 4) 0x0D g.cm]
             (let s := arriveGang s n
              match gangPass s with
              | none => waitIn s false
              | some x =>
                if !x.left.contains g.key.wg then waitIn s false
                else
                  match gangData s x nr rb with
                  | none => waitIn s false
                  | some d =>
                    match acceptTiles g.et (.gang nr) 0 d s.wg.tiles with
                    | .error e => trap s { cause := e, mask := g.cm }
                    | .ok tiles =>
                      if 8 ≤ waitingPasses s g.core then waitIn s false
                      else doneSwitch ((acceptGang s x nr rb d tiles).modTg Tg.loseOlder))))

/-! ### ACZ, ACDR, ACLD (R176, R283) -/

/-- A pass on the tile has been accepted and has not ended. -/
def tileBusy (s : State) (tile : Nat) : Bool :=
  s.passes.any (fun p => p.tg.launch = s.tg.key.launch && p.tg.gang = s.tg.key.gang && p.tg.wg = s.tg.key.wg
    && (p.kind.tiles p.tile).contains tile)

def State.modTile (s : State) (t : Nat) (f : Tile → Tile) : State :=
  s.modMyWg (fun w => { w with tiles := vset w.tiles t (f (vget w.tiles t)) })

def execAcz (t : BitVec 2) (s : State) : Out :=
  onTg (sw := true) s (fun g =>
    let m := g.active
    if m = 0 then idle s [] false true
    else
      guarded s [check (s.hdr.tiles ≤ t.toNat) 0x0D m]
        (if 255 ≤ g.count .e then registerWait s true
         else if tileBusy s t.toNat then waitIn s false
         else doneSwitch ((s.modTile t.toNat (fun _ => Tile.empty)).modTg (fun g => (g.doneOp .e).loseOlder))))

/-- Types that a tile drains to and loads from, and the registers of a row. -/
def tileType (et : Nat) : Bool := et = 4 || et = 6 || (8 ≤ et && et ≤ 12)
def tileRun (et : Nat) : Nat := match et with | 6 => 32 | 11 => 32 | 8 => 8 | 9 => 8 | 12 => 4 | _ => 16

/-- A run of v registers for a row. -/
def runOk (h : Header) (et : Nat) (d : Opnd) : Bool :=
  match d with
  | .v n => n.toNat + tileRun et ≤ h.vregs && (tileRun et ≠ 32 || n.toNat % 2 = 0)
  | _ => false

/-- rd of ACDR and ACLD as an operand code (R46's order 4): the run that an accepted type asks for; where the type is not accepted, rd
as one operand of the type (R42, R43). -/
def runLegal (h : Header) (et : Nat) (d : Opnd) : Bool :=
  if tileType et then runOk h et d
  else match d with
    | .v n => vOk h (etContainer et) n
    | _ => false

/-- The row block: zr gives the TG's quarter. -/
def rowBlock (g : Tg) (a : Opnd) : Nat := if a = .zr then g.key.tg % 4 else (readS g a).toNat

/-- Sum of two E8 scales; an unrecorded one counts as 0. -/
def scaleSum (a b : Option (BitVec 8)) : Int := (a.getD 0).toInt + (b.getD 0).toInt

/-- A number to an integer type at the drain: rounded by rm, clamped with sv (R84). A clamped element sets sv alone, also where the
rounding was inexact (log 41). -/
def drainInt (et rm : Nat) (x : Dy) : Res :=
  let (n, inexact) := x.toInt rm
  if n < intMin et then ⟨wrapBits (etWidth et) (intMin et), flagSv⟩
  else if intMax et < n then ⟨wrapBits (etWidth et) (intMax et), flagSv⟩
  else ⟨wrapBits (etWidth et) n, flagIf inexact flagNx⟩

/-- One drained element (R84). -/
def drainElem (x : Tile) (et rm i j : Nat) : Res :=
  let w := vget x.words (16 * i + j)
  let sa := vget x.sa i
  let sb := vget x.sb j
  let e := scaleSum sa sb
  if sa = some 0x80 || sb = some 0x80 then .ok 0
  else if x.float = some false then
    let y : Dy := ⟨wordInt w, e⟩
    if etInt et then drainInt et rm y else roundTo et rm y false
  else
    let f := fmtA56
    let n := w.toNat
    if f.isNan n then (match etFmt et with | some g => ⟨g.canonNan, flagNv⟩ | none => ⟨mk8Nar, flagNv⟩)
    else if f.isInf n then (match etFmt et with | some g => .ok (g.withSign (f.neg n) g.infBits) | none => ⟨mk8Nar, flagNv⟩)
    else if etInt et then .ok 0
    else let y := f.dy n; roundTo et rm ⟨y.n, y.e + e⟩ (f.neg n)

/-- The sixteen elements of a row packed into words (R43). -/
def packRow (et : Nat) (xs : List Nat) : List W32 :=
  let bytes := xs.flatMap (fun x => natLe (etWidth et / 8) x)
  wordsOf bytes

/-- The elements of a row read from a run of registers. -/
def unpackRow (et : Nat) (ws : List W32) : List Nat :=
  let bytes := ws.flatMap (fun w => natLe 4 w.toNat)
  (upTo 16).map (fun j => recNat bytes (j * (etWidth et / 8)) (etWidth et / 8))

def Tile.flags (x : Tile) : Byte :=
  flagIf x.nv flagNv ||| flagIf x.ofl flagOf ||| flagIf x.sv flagSv ||| flagIf x.pz flagPz

/-- A queue bound `.push` to a drain or user FIFO: its port. -/
def drainPort (s : State) (g : Tg) (d : Opnd) : Except Nat Nat :=
  match d with
  | .q n =>
    if s.hdr.queues ≤ n.toNat then .error 0x02
    else match g.binding n with
      | none => .error 0x0E                               -- a check of order 6 (R46)
      | some b => if b.dir = .push && 8 ≤ b.port.toNat then .ok b.port.toNat else .error 0x02
  | _ => .error 0x02

/-- Registers `n` and up of a thread. -/
def runRegs (n len : Nat) : List Opnd := (upTo len).map (fun i => .v (BitVec.ofNat 6 (n + i)))

/-- ACDR (R176, R84). A tile whose mode is unset, as after ACZ, drains under every type that integer mode accepts, its words being
0 in either mode; R84 lists the types of float and of integer mode alone (log 41). -/
def execAcdr (d a : Opnd) (t : BitVec 2) (s : State) : Out :=
  onTg (sw := true) s (fun g =>
    let m := g.active
    let len := tileRun g.et
    let port := drainPort s g d
    if m = 0 then idle s [] false true
    else
      guarded s [check (!sOrZr s.hdr a) 0x02 m,
          (if isQReg d then check (errOf port = some 0x02) 0x02 m else check (!runLegal s.hdr g.et d) 0x02 m),
          check (!tileType g.et) 0x13 m, check (unbound g d) 0x0E m, check (s.hdr.tiles ≤ t.toNat) 0x0D m]
        (let n := match d with | .v n => n.toNat | _ => 0
         if g.pending a || (!isQReg d && (runRegs n len).any g.pending) || 255 ≤ g.count .e then registerWait s true
         else
           let b := rowBlock g a
           guarded s [check (3 < b) 0x02 m]
             (let x := vget s.wg.tiles t.toNat
              let words := (beatsOf m).length * len
              let pushes := if isQReg d then queueWords g [(d, 32)] words else []
              if tileBusy s t.toNat || !queuesReady s [] pushes then queueWait s [] pushes
              else
                guarded s [check (x.float = some true && etInt g.et) 0x13 m]
                  (let row := fun (u : Nat) => (upTo 16).map (drainElem x g.et g.rm (8 * b + u))
                   let fl := fun (u : Nat) => (row u).foldl (fun f r => f ||| r.flags) x.flags
                   let s := s.raise (flagsOf m fl)
                   match flagTrap g.fptrap m fl with
                   | some i => trap s i
                   | none =>
                     let out := fun (u : Nat) => packRow g.et ((row u).map (fun r => r.bits))
                     let s := match port with
                       | .ok p => pushBytes s p ((beatsOf m).flatMap (fun u =>
                           (out u).flatMap (fun (w : W32) => (natLe 4 w.toNat).map plainByte)))
                       | .error _ => s.modTg (fun g => (beatsOf m).foldl (fun g u =>
                           ((runRegs n len).zip (out u)).foldl (fun g (p : Opnd × W32) => writeReg g p.1 32 false u (p.2.setWidth 128)) g) g)
                     doneSwitch (s.modTg (fun g => (g.doneOp .e).loseOlder))))))

/-- A loaded element as an accumulator word, with the flags of its Round (R81, R176). -/
def loadElem (et rm x : Nat) : BitVec 56 × Byte :=
  if et = 4 then (BitVec.ofInt 56 (intVal 4 x), 0)
  else if et = 6 then
    let n := intVal 6 x
    (if -(2 ^ 55) ≤ n && n ≤ 2 ^ 55 - 1 then BitVec.ofInt 56 n else Config.acldWide (BitVec.ofNat 64 x), 0)
  else
    match Ext.ofElem et x with
    | .nan => (BitVec.ofNat 56 fmtA56.canonNan, match etFmt et with | some f => flagIf (f.isSnan x) flagNv | none => flagNv)
    | .inf neg => (BitVec.ofNat 56 (fmtA56.withSign neg fmtA56.infBits), 0)
    | .fin y => let r := fmtA56.round rm y (match etFmt et with | some f => f.neg x | none => false); (BitVec.ofNat 56 r.bits, r.flags)

/-- A row of a tile replaced. -/
def setRow (x : Tile) (i : Nat) (ws : List (BitVec 56)) : Tile :=
  { x with words := ((upTo 16).zip ws).foldl (fun v (p : Nat × BitVec 56) => vset v (16 * i + p.1) p.2) x.words }

/-- ACLD: a flag of its Rounds that is enabled traps before anything is loaded (R73, R278). -/
def execAcld (d a : Opnd) (t : BitVec 2) (s : State) : Out :=
  onTg (sw := true) s (fun g =>
    let m := g.active
    let len := tileRun g.et
    if m = 0 then idle s [] false true
    else
      guarded s [check (!sOrZr s.hdr a) 0x02 m, check (!runLegal s.hdr g.et d) 0x02 m,
          check (!tileType g.et) 0x13 m, check (s.hdr.tiles ≤ t.toNat) 0x0D m]
        (let n := match d with | .v n => n.toNat | _ => 0
         if g.pending a || (runRegs n len).any g.pending || 255 ≤ g.count .e then registerWait s true
         else
           let b := rowBlock g a
           guarded s [check (3 < b) 0x02 m]
             (if tileBusy s t.toNat then waitIn s false
              else
                let row := fun (u : Nat) =>
                  (unpackRow g.et ((upTo len).map (fun i => vget (vget g.v (n + i)) u))).map (loadElem g.et g.rm)
                let fl := fun (u : Nat) => (row u).foldl (fun f e => f ||| e.2) 0
                let s := s.raise (flagsOf m fl)
                match flagTrap g.fptrap m fl with
                | some i => trap s i
                | none =>
                  let s := s.modTile t.toNat (fun x =>
                    let x := (beatsOf m).foldl (fun x u => setRow x (8 * b + u) ((row u).map (fun e => e.1))) x
                    { x with float := some (!etInt g.et), sa := Vector.replicate 32 none, sb := Vector.replicate 16 none
                             nv := false, ofl := false, sv := false, pz := false })
                  doneSwitch (s.modTg (fun g => (g.doneOp .e).loseOlder)))))

end Sys2Proof.Machine
end

