-- ==== Sys2Proof/Machine/EngineSteps.lean ====
section
/-! DEFINITION. The copy engine, the matrix engine and the firebox controller at work (R132, R167, R168, R170, R173-R175, R177,
R243-R248). -/

namespace Sys2Proof.Machine

/-! ### Engine reads and writes of memory (R109, R132) -/

/-- The message changes memory. -/
def Msg.writes (m : Msg) : Bool :=
  match m.ask with
  | .write _ _ _ _ => true | .atomic _ _ _ _ => true | .spec _ _ _ _ => true | .hob _ _ _ => true
  | .ember _ _ _ _ _ => true | .radv _ _ => true | _ => false

/-- The scale byte of a byte's row, by the tag of its line (R86). -/
def scaleAt (tag : Nat → Option Tag) (pa : Nat) : Option Nat := (tag (lineOf pa)).map (fun t => t.scaleOf (pa % 128))

/-- The places that a copy reads, and the lines of memory among them. -/
def CopyJob.reads (j : CopyJob) : List Place := j.moves.flatMap (fun m => m.src)
def CopyJob.sources (j : CopyJob) : List Nat := placeLines j.reads

/-- The lines that hold the scales of the sources of a copy into a FIFO. -/
def CopyJob.scales (tag : Nat → Option Tag) (j : CopyJob) : List Nat :=
  if j.ports = [] then []
  else placeLines (j.reads.filterMap (fun p => match p with | .mem pa => (scaleAt tag pa).map Place.mem | _ => none))

/-- The engine commands other than `job` that own a line of a list, or stand before it in line for one. -/
def holdersOf (s : State) (job : Nat) (ls : List Nat) : List Nat :=
  (ls.filterMap (fun no => match (s.line no).owner with | some (.engine j) => if j = job then none else some j | _ => none))
    ++ s.net.filterMap (fun m => match m.ask with | .engineOwn j => if j < job && ls.contains (lineOf m.pa) then some j else none | _ => none)

/-- The engine commands that must finish with their lines before `job` can write its own: holders of the lines that it has still to
read or to own, and on the F path the operations before it (R132, R249). -/
def jobNeeds (s : State) (job : Nat) : List Nat :=
  (s.copies.filter (fun c => c.id = job)).flatMap (fun c =>
    holdersOf s job (c.lines ++ (if c.data.isNone then c.sources ++ c.scales (fun no => (s.line no).tag) else [])))
    ++ (s.fb.queue.filter (fun o => o.id = job)).flatMap (fun o =>
      holdersOf s job o.lines ++ (s.fb.queue.takeWhile (fun x => x.id ≠ job)).map (fun x => x.id))

/-- Command `j` can write only after command `job`, along a chain of at most `fuel` needs. -/
def jobAfter (s : State) : Nat → Nat → Nat → Bool
  | 0, _, _ => false
  | fuel + 1, j, job => (jobNeeds s j).any (fun i => i = job || jobAfter s fuel i job)

/-- An engine's read of a line for operation `op` of a TG, as job `job`, is held: an earlier write of the TG has not arrived, a write
or a grant of the line is pending, another engine command owns it, or it lies behind ports that are down (R122, R125, R132, R249,
R273). A line of a command that can itself write only after this one is read as it stands (log 68). -/
def sourceHeld (s : State) (k : TgKey) (job op no : Nat) : Bool :=
  !(s.line no).pend.isEmpty || granting s no
    || (match (s.line no).owner with
        | some (.engine j) => j ≠ job && !jobAfter s (s.copies.length + s.fb.queue.length) j job
        | _ => false)
    || (s.toLine k no).any (fun m => m.writes && decide (m.op < op))
    || !s.reachable (no * 128)

/-- The lines of an engine's sources reached at their homes: due writes, recalls, windows closed. -/
def reachAll (s : State) (ls : List Nat) : State := ls.foldl reach s

/-- The engine's requests for its lines are answered, and the WCTs of the grants have come. -/
def linesOwned (s : State) (job : Nat) (ls : List Nat) : Bool :=
  s.net.all (fun m => match m.ask with | .engineOwn j => j ≠ job | _ => true)
    && ls.all (fun no => let l := (applyDue s no).line no
        l.owner = some (.engine job) && l.pend.isEmpty && decide (l.wct ≤ s.gt) && s.reachable (no * 128))

/-- The line is no longer the engine's. -/
def releaseLine (s : State) (no : Nat) : State := s.modLine no (fun l => { l with owner := none })

/-- New bytes for places of one line, by offset. -/
def bytesAfter (old : List Byte) (xs : List (Nat × Byte)) : List Byte := xs.foldl (fun b x => spliceAt b x.1 [x.2]) old

/-- Bytes written by an engine into a line that it owns: the whole line at once, or word by word where bytes of the word are
written; poison enters the line with any poisoned byte. -/
def engineWrite (s : State) (k : TgKey) (no : Nat) (xs : List (Nat × Byte × Bool)) : State :=
  let new := bytesAfter (latestBytes s (no * 128) 128) (xs.map (fun x => (x.1, x.2.1)))
  let hit := fun (i : Nat) => xs.any (fun x => x.1 = i)
  let s :=
    if (upTo 128).all hit then (acceptWrite s k (no * 128) new 0 false true).1
    else
      beats.foldl (fun s w =>
        match (upTo 16).filter (fun i => hit (16 * w + i)) with
        | [] => s
        | i :: is =>
          let first := 16 * w + i
          let n := (is.getLastD i) - i + 1
          (acceptWrite s k (no * 128 + first) ((new.drop first).take n) 0 false true).1) s
  if xs.any (fun x => x.2.2) then s.modLine no (fun l => { l with poison := true }) else s

/-! ### Copies (R167, R168, R170) -/

/-- What a sidecar records of a byte of memory: the tag of its line's fill, its row's scale, a poisoned scale. -/
def sideOf (s : State) (tag : Nat → Option Tag) (pa : Nat) : Side :=
  match tag (lineOf pa) with
  | none => (none, 0, false, false)
  | some t => let at_ := t.scaleOf (pa % 128); (some t.int8, memGet s.mem at_, false, s.poisoned (lineOf at_) false)

/-- The stash line of a workgroup over an allocation offset, if it has it. -/
def stashLineAt (w : Wg) (off : Nat) : Option StashLine :=
  (stashWindow w off).bind (fun win => w.stash.find? (fun x => x.is win ((off - stashOffset w win 0) / 128)))

/-- The byte at a place, with its poison and sidecar; `reps` are the lines on replicated pages, `tag` the tags that the lines were
filled with. -/
def placeByte (s : State) (reps : List Nat) (tag : Nat → Option Tag) (p : Place) : InByte :=
  match p with
  | .mem pa => ⟨memGet s.mem pa, s.poisoned (lineOf pa) (reps.contains (lineOf pa)), sideOf s tag pa⟩
  | .scratch l g w off =>
    match s.findWg l g w with
    | some x => { plainByte (memGet x.scratch off) with bad := (stashLineAt x off).any (fun y => y.poison) }
    | none => plainByte unlistedByte
  | .port _ => plainByte 0

/-- Half of a byte. -/
def nibble (high : Bool) (b : Byte) : Nat := if high then b.toNat / 16 else b.toNat % 16

/-- The byte that a move carries; one made of two rows that differ is mixed (R170). -/
def moveByte (s : State) (reps : List Nat) (tag : Nat → Option Tag) (m : Move) : InByte :=
  match m.src.map (placeByte s reps tag) with
  | [x] => x
  | [x, y] => ⟨BitVec.ofNat 8 (nibble m.high x.b + 16 * nibble m.high y.b), x.bad || y.bad, mixSide y.side x.side⟩
  | _ => plainByte 0

/-- The status word (R168). -/
def copyStatus (bytes err : Nat) : W64 := BitVec.ofNat 64 (bytes * 2 ^ 32 + err * 2 ^ 8 + 1)

/-- The copy is over: its status is in rd. -/
def endCopy (s : State) (j : CopyJob) (bytes err : Nat) : State :=
  { s.modTgAt j.tg (fun g => (writeReg g j.d 64 false 0 ((copyStatus bytes err).setWidth 128)).finishOp j.op) with
    copies := s.copies.filter (fun x => x.id ≠ j.id) }

/-- The copy as it goes on. -/
def putCopy (s : State) (j : CopyJob) : State := { s with copies := s.copies.map (fun c => if c.id = j.id then j else c) }

/-- The stash lines that a copy's places need and the workgroup no longer has, or the faults of having them again (R107); `s` has the
copy's TG at issue. -/
def stashWants (s : State) (own : Bool) (ps : List Place) : List EngPlace :=
  ps.filterMap (fun p =>
    match p with
    | .scratch l g w off =>
      (s.findWg l g w).bind (fun x => (stashWindow x off).bind (fun win =>
        if (stashLineAt x off).any (fun y => y.owned || (!own && decide (s.gt + 8 < y.expiry))) then none
        else match stashTarget s s.tg x (if own then .write else .read) off win with
          | .error e => some (.err e)
          | .ok (.stash win idx _ line va) => some (.stash own win idx line va)
          | .ok _ => none))
    | _ => none)

/-- Those lines asked for; with a fault among them the copy is to write nothing. -/
def haveStash (s : State) (j : CopyJob) (want : List EngPlace) : State :=
  if firstErr want = 0 then askPlaces s want else putCopy s { j with err := firstErr want }

/-- The sources filled one after the other, with the tag of each at its own fill: a later fill may evict it (R86). -/
def fillSources (s : State) (j : CopyJob) : State × List (Nat × Option Tag) :=
  j.sources.foldl (fun acc no =>
    let s := engineFill acc.1 j.tg no (j.reps.contains no)
    (s, acc.2 ++ [(no, (s.line no).tag)])) (s, [])

/-- Every source is read, as leased fills (R86, R132, R167). -/
def readCopy (s : State) (j : CopyJob) : State :=
  let s := reachAll s j.sources
  let want := stashWants s false j.reads
  if j.sources.any (sourceHeld s j.tg j.id j.op) then s
  else if want ≠ [] then haveStash s j want
  else
    let (s, tags) := fillSources s j
    let tag := fun no => (tags.find? (fun x => x.1 = no)).bind (fun x => x.2)
    let scales := j.scales tag
    let s := reachAll s scales
    if scales.any (sourceHeld s j.tg j.id j.op) then s
    else putCopy s { j with data := some (j.moves.map (moveByte s j.reps tag)) }

/-- Poison that a copy brings into stash lines, or takes from those that it replaces whole with clean bytes (R168, R266). -/
def markStash (s : State) (xs : List (Place × Bool)) : State :=
  { s with wgs := s.wgs.map (fun w =>
      { w with stash := w.stash.map (fun y =>
          let base := stashOffset w y.win y.idx
          let hits := xs.filterMap (fun x => match x.1 with
            | .scratch l g n off => if w.is l g n && decide (base ≤ off) && decide (off < base + 128) then some (off - base, x.2) else none
            | _ => none)
          if hits.any (fun h => h.2) then { y with poison := true, bad := true }
          else if (upTo 128).all (fun i => hits.any (fun h => h.1 = i)) then { y with poison := false, bad := false }
          else y) }) }

/-- The data written to memory and scratch: a byte that several moves name takes the last one's. -/
def writeMoves (s : State) (j : CopyJob) (data : List InByte) : State :=
  let xs := j.moves.zip data
  let s := j.lines.foldl (fun s no =>
    releaseLine (engineWrite s j.tg no (xs.filterMap (fun x => match x.1.dst with
      | .mem pa => if lineOf pa = no then some (pa % 128, x.2.b, x.2.bad) else none
      | _ => none))) no) s
  let s := xs.foldl (fun s x => match x.1.dst with
    | .scratch l g w off => scratchStore s l g w off [x.2.b]
    | _ => s) s
  markStash s (xs.map (fun x => (x.1.dst, x.2.bad)))

/-- The data for memory and scratch goes out once every destination line is owned. -/
def writeCopy (s : State) (j : CopyJob) (data : List InByte) : State :=
  let want := stashWants s true (j.moves.map (fun m => m.dst))
  if !linesOwned s j.id j.lines then s
  else if want ≠ [] then haveStash s j want
  else putCopy (writeMoves (j.lines.foldl applyDue s) j data) { j with lines := [], wrote := true }

/-- Another copy stands in the middle of its run into the same FIFO. -/
def otherRun (s : State) (j : CopyJob) (p : Nat) : Bool :=
  s.copies.any (fun c => c.id ≠ j.id && wgOf c.tg = wgOf j.tg && (p ≠ 0 || c.tg = j.tg) && c.ports.any (fun x => x.1 = p && x.2 ≠ 0))

/-- The bytes that a copy pushes into one FIFO, in ascending t: one run. -/
def copyRun (j : CopyJob) (p : Nat) (data : List InByte) : List InByte :=
  ((j.moves.zip data).filter (fun x => x.1.dst = .port p)).map (fun x => x.2)

/-- Bytes pushed as far as the FIFO has room, in whole words; a run that ends inside a word leaves its last bytes as they are (log 65).
`s` has the copy's TG at issue. -/
def pushRun (s : State) (j : CopyJob) (x : Nat × Nat) (data : List InByte) : State × (Nat × Nat) :=
  let run := copyRun j x.1 data
  if otherRun s j x.1 || (x.2 = 0 && inLine s s.tg x.1 true none) then (s, x)
  else
    let now := (run.drop x.2).take ((4 * portCapacity x.1 - portFill s x.1) / 4 * 4)
    (pushBytes s x.1 now, (x.1, x.2 + now.length))

/-- The data for the FIFOs goes out run by run; with all of it out the copy ends. -/
def pushCopy (s : State) (j : CopyJob) (data : List InByte) : State :=
  let r := j.ports.foldl (fun (acc : State × List (Nat × Nat)) x => let (s, y) := pushRun acc.1 j x data; (s, acc.2 ++ [y])) (s, [])
  let left := r.2.filter (fun x => decide (x.2 < (copyRun j x.1 data).length))
  if left = [] then endCopy r.1 j data.length (if data.any (fun x => x.bad) then 0x12 else 0)
  else putCopy r.1 { j with ports := left }

/-- One step of a copy: every source is read, then every destination written or pushed, then the status; with an error nothing is
written. `s` has the copy's TG at issue. -/
def runCopy (s : State) (j : CopyJob) : State :=
  if j.err ≠ 0 then (if linesOwned s j.id j.lines then endCopy (j.lines.foldl releaseLine s) j 0 j.err else s)
  else
    match j.data with
    | none => readCopy s j
    | some data => if j.wrote then pushCopy s j data else writeCopy s j data

/-- COPY_COMPLETION: the next part of a copy's work. -/
def execCopyCompletion (k : Nat) (s : State) : Out :=
  match s.copies.find? (fun c => c.id = k) with
  | none => .next s
  | some j => .next ((runCopy (s.focus j.tg) j).focus s.tg.key)

/-! ### Matrix passes (R173, R174) -/

/-- The passes of a core in acceptance order. -/
def corePasses (s : State) (core : Nat) : List Pass := s.passes.filter (fun p => p.core = core)

/-- Two passes are quarters of one slice warp that read the same entry. -/
def fusible (p q : Pass) : Bool :=
  (match p.kind, q.kind with | .quarter _, .quarter _ => true | _, _ => false)
    && wgOf p.tg = wgOf q.tg && p.tg.tg / 4 = q.tg.tg / 4 && p.bPort = q.bPort && p.bPos = q.bPos

/-- Two passes write the same rows of a tile. -/
def sameRows (p q : Pass) : Bool :=
  wgOf p.tg = wgOf q.tg && (p.kind.tiles p.tile).any (fun t => (q.kind.tiles q.tile).contains t)
    && (match p.kind, q.kind with | .quarter a, .quarter b => a = b | _, _ => true)

/-- The operations of the passes that start with the first: the later ones that fuse with it and pass no other on the same rows. -/
def fusedOps (p : Pass) : List Pass → List Pass → List (TgKey × Nat)
  | _, [] => [(p.tg, p.op)]
  | skipped, q :: qs =>
    if fusible p q && !skipped.any (sameRows q) then (q.tg, q.op) :: fusedOps p skipped qs else fusedOps p (skipped ++ [q]) qs

/-- FUSED_PASS_START: a quarter at the head, four clocks after its acceptance or with all four accepted, on an idle array. -/
def execFusedPassStart (core : Nat) (s : State) : Out :=
  match corePasses s core with
  | [] => .next s
  | p :: ps =>
    let quarter := match p.kind with | .quarter _ => true | _ => false
    let ops := fusedOps p [] ps
    if !quarter || (p :: ps).any (fun x => x.started) || !(decide (p.clock + 4 ≤ s.cycle) || 4 ≤ ops.length) then .next s
    else
      .next { s with passes := s.passes.map (fun x =>
        if x.core = core && ops.contains (x.tg, x.op) then { x with started := true } else x) }

/-- A pass ends: its products are in the tile, it has retired, and an entry that every subscriber has read leaves the FIFO. -/
def endPass (s : State) (p : Pass) : State :=
  let k := p.tg
  let s := { s with passes := s.passes.filter (fun x => !(x.tg = k && x.op = p.op)) }
  let s := s.modWg k.launch k.gang k.wg (fun w => { w with tiles := runPass p w.tiles })
  let s := s.modTgAt k (fun g => g.finishOp p.op)
  if p.bPort = 0 then s else dropRead s k.launch k.gang k.wg p.bPort 0

/-- MATRIX_PASS_END: the started passes of the core, or the one at the head when it is no quarter. -/
def execMatrixPassEnd (core : Nat) (s : State) : Out :=
  let ps := corePasses s core
  let run := ps.filter (fun p => p.started)
  let run := if run ≠ [] then run else (ps.take 1).filter (fun p => match p.kind with | .quarter _ => false | _ => true)
  .next (run.foldl endPass s)

/-! ### The firebox controller (R243, R244, R246-R248) -/

/-- FIREBOX_CLAIM_GRANT: the first claim's workgroup owns the domain with no ways; its other claims are answered with it. -/
def execFireboxClaimGrant (s : State) : Out :=
  match s.fb.owner, s.fb.claims with
  | none, k :: _ =>
    .next { s with fb := { s.fb with owner := some (wgOf k), ways := 0, cols := []
                                     claims := s.fb.claims.filter (fun x => wgOf x ≠ wgOf k) } }
  | _, _ => .next s

/-- The domain has no owner and no columns (R243, R250). -/
def releaseFirebox (s : State) : State := { s with fb := { s.fb with owner := none, ways := 0, cols := [] } }

/-- The operation has run: it retires. -/
def retireFb (s : State) (o : FbOp) : State :=
  ({ s with fb := { s.fb with queue := s.fb.queue.filter (fun x => x.id ≠ o.id) } } : State).modTgAt o.tg (fun g => g.finishOp o.op)

/-- An FBMODE with n ≥ 1 of a workgroup that does not own the domain: a claim (R243). -/
def fbClaims (s : State) (o : FbOp) : Bool :=
  o.code = 0xB0 && o.a ≠ 0 && s.fb.owner ≠ some (wgOf o.tg)
    && (match s.findWg o.tg.launch o.tg.gang o.tg.wg with | some w => !w.ended | none => false)

/-- The workgroup's first operation waits for the domain. -/
def fbWaits (s : State) (w : Nat × Nat × Nat) : Bool :=
  match s.fb.queue.find? (fun o => o.ofWg w) with | some o => fbClaims s o | none => false

/-- The operation that the controller runs next: the first whose workgroup does not wait for the domain. -/
def fbNext (s : State) : Option FbOp := s.fb.queue.find? (fun o => !fbWaits s (wgOf o.tg))

/-- The line's set of a slice holds its lines in `16 - m` ways; this one lies in one of the ways `15 - m` down to `16 - n` (which ones do
is free but for their number, log 9). -/
def inTakenWay (s : State) (m n : Nat) (l : Line) (slice : Nat) : Bool :=
  let set := s.lines.filter (fun x => x.heldIn slice && setOf (x.no * 128) = setOf (l.no * 128))
  let hold := fun (x : Line) => Config.wayHolds s.ctr x.no
  let order := set.filter hold ++ set.filter (fun x => !hold x)
  match order.findIdx? (fun x => x.no = l.no) with
  | some i => decide (i < set.length - (16 - n)) || (hold l && decide (i < n - m))
  | none => false

/-- The lines that a conversion from m to n ways evicts, each with the slice that gives it up (R244). -/
def takenLines (s : State) (m n : Nat) : List (Nat × Nat) :=
  s.lines.flatMap (fun l => (l.slices.filter (inTakenWay s m n l)).map (fun slice => (l.no, slice)))

/-- The ways of the owner become n; with none the domain is released. -/
def convert (s : State) (n : Nat) (taken : List (Nat × Nat)) : State :=
  let m := s.fb.ways
  let s := if m < n then taken.foldl (fun s x => leaveSlice s x.1 x.2) s else s
  if n = 0 then releaseFirebox s
  else { s with fb := { s.fb with ways := n, cols := joinRuns (renumber m n 256 s.fb.cols) } }

/-- FIREBOX_CONVERSION: the next FBMODE; one that must claim the domain first claims it. A line that an engine owns is waited for. -/
def execFireboxConversion (s : State) : Out :=
  match s.fb.queue.find? (fun o => fbClaims s o && fbWaits s (wgOf o.tg) && !s.fb.claims.contains o.tg) with
  | some o => .next { s with fb := { s.fb with claims := s.fb.claims ++ [o.tg] } }
  | none =>
    match fbNext s with
    | none => .next s
    | some o =>
      if o.code ≠ 0xB0 then .next s
      else if s.fb.owner ≠ some (wgOf o.tg) then .next (retireFb s o)
      else
        let taken := takenLines s s.fb.ways o.a.toNat
        if s.fb.ways < o.a.toNat && taken.any (fun x => engineOwned s x.1) then .next s
        else .next (retireFb (convert s o.a.toNat taken) o)

/-- The elements of FBLD as they lie in memory: value, poison. -/
def loadElems (s : State) (o : FbOp) : List (Nat × Bool) :=
  o.places.map (fun pa => (memNat s.mem pa (2 ^ o.sub), s.poisoned (lineOf pa) (o.reps.contains (lineOf pa))))

/-- The bytes of FBST's elements in one line. -/
def storeBytes (o : FbOp) (elems : List (Nat × Bool)) (no : Nat) : List (Nat × Byte × Bool) :=
  (o.places.zip elems).flatMap (fun x =>
    if lineOf x.1 = no then mapFrom 0 (fun i b => (x.1 % 128 + i, b, x.2.2)) (natLe (2 ^ o.sub) x.2.1) else [])

/-- FBPOP's sum in rd, or the trap of a poisoned sum (R248, R73); `s` has the operation's TG at issue. DESIGN CHOICE (log 44): that trap
names the threads that are active when the operation retires. -/
def deliverPop (s : State) (o : FbOp) (x : W64) (bad : Bool) : Out :=
  let s := if bad then s.raise flagPz else s
  if bad && s.tg.fptrap.getLsbD 7 && s.tg.on then
    let pc := match s.tg.ops.find? (fun y => y.id = o.op) with | some y => (y.pc, y.word) | none => (s.tg.pc, s.tg.word)
    let s := (retireFb s o).modTg (fun g => { g with pc := pc.1, word := pc.2 })
    trap s { cause := 0x12, mask := s.tg.active }
  else .next (retireFb (s.modTg (fun g => writeReg g o.dst 64 false 0 (x.setWidth 128))) o)

/-- The columns of the domain. -/
def setCols (s : State) (rs : Runs) : State := { s with fb := { s.fb with cols := rs } }

/-- FIREBOX_OPERATION_RUN: the next operation, over every column. After the owner has lost the domain it does nothing. -/
def execFireboxOperationRun (s : State) : Out :=
  match fbNext s with
  | none => .next s
  | some o =>
    let mine := s.fb.owner = some (wgOf o.tg)
    match o.code with
    | 0xB0 => .next s
    | 0xB7 => let r := if mine then popSum o s.fb.cols else (0, false); deliverPop (s.focus o.tg) o r.1 r.2
    | 0xB9 =>
      let s := reachAll s o.lines
      if o.lines.any (sourceHeld s o.tg o.id o.op) then .next s
      else
        let s := o.lines.foldl (fun s no => engineFill s o.tg no (o.reps.contains no)) s
        .next (retireFb (if mine then setCols s (loadColumns o (loadElems s o) s.fb.cols) else s) o)
    | 0xBA =>
      if !linesOwned s o.id o.lines then .next s
      else
        let s := o.lines.foldl applyDue s
        let elems := storeColumns o s.fb.cols
        let s := o.lines.foldl (fun s no =>
          releaseLine (if mine then engineWrite s o.tg no (storeBytes o elems no) else s) no) s
        .next (retireFb s o)
    | _ => .next (retireFb (if mine then setCols s (rowsAfter o s.fb.ways s.fb.cols) else s) o)

end Sys2Proof.Machine
end

