-- ==== Sys2Proof/Machine/Lms.lean ====
section
/-! DEFINITION. SHA-256, and the Leighton-Micali signatures of R270 to R272: LMOTS_SHA256_N32_W8 under LMS_SHA256_M32_H10 or H15, single
level. R270 names SP 800-208 and gives neither; they stand here as FIPS 180-4, RFC 8554 and SP 800-208 have them (log 11). -/

namespace Sys2Proof.Machine

/-! ### SHA-256 -/

/-- The round constants, in two halves. -/
def shaK : List W32 :=
  ([0x428A2F98, 0x71374491, 0xB5C0FBCF, 0xE9B5DBA5, 0x3956C25B, 0x59F111F1, 0x923F82A4, 0xAB1C5ED5,
   0xD807AA98, 0x12835B01, 0x243185BE, 0x550C7DC3, 0x72BE5D74, 0x80DEB1FE, 0x9BDC06A7, 0xC19BF174,
   0xE49B69C1, 0xEFBE4786, 0x0FC19DC6, 0x240CA1CC, 0x2DE92C6F, 0x4A7484AA, 0x5CB0A9DC, 0x76F988DA,
   0x983E5152, 0xA831C66D, 0xB00327C8, 0xBF597FC7, 0xC6E00BF3, 0xD5A79147, 0x06CA6351, 0x14292967] : List W32) ++ ([0x27B70A85, 0x2E1B2138, 0x4D2C6DFC, 0x53380D13, 0x650A7354, 0x766A0ABB, 0x81C2C92E, 0x92722C85,
   0xA2BFE8A1, 0xA81A664B, 0xC24B8B70, 0xC76C51A3, 0xD192E819, 0xD6990624, 0xF40E3585, 0x106AA070,
   0x19A4C116, 0x1E376C08, 0x2748774C, 0x34B0BCB5, 0x391C0CB3, 0x4ED8AA4A, 0x5B9CCA4F, 0x682E6FF3,
   0x748F82EE, 0x78A5636F, 0x84C87814, 0x8CC70208, 0x90BEFFFA, 0xA4506CEB, 0xBEF9A3F7, 0xC67178F2] : List W32)

/-- The initial hash value. -/
def shaStart : List W32 :=
  [0x6A09E667, 0xBB67AE85, 0x3C6EF372, 0xA54FF53A, 0x510E527F, 0x9B05688C, 0x1F83D9AB, 0x5BE0CD19]

/-- The same number with its most significant byte first. -/
def natBe (n x : Nat) : List Byte := (natLe n x).reverse
def beNat (b : List Byte) : Nat := leNat b.reverse

def wordsBe (b : List Byte) : List W32 := (upTo (b.length / 4)).map (fun i => BitVec.ofNat 32 (beNat ((b.drop (4 * i)).take 4)))

/-- The message with its padding: whole blocks of 64 bytes. -/
def shaPad (b : List Byte) : List Byte := b ++ [0x80] ++ List.replicate ((119 - b.length % 64) % 64) 0 ++ natBe 8 (8 * b.length)

/-- `n` further words of the message schedule; the newest stands first. -/
def shaExtend : Nat → List W32 → List W32
  | 0, ws => ws
  | n + 1, ws =>
    let x := ws.getD 1 0
    let y := ws.getD 14 0
    let a := x.rotateRight 17 ^^^ x.rotateRight 19 ^^^ (x >>> 10)
    let b := y.rotateRight 7 ^^^ y.rotateRight 18 ^^^ (y >>> 3)
    shaExtend n ((a + ws.getD 6 0 + b + ws.getD 15 0) :: ws)

/-- One round with its constant and schedule word. -/
def shaRound (h : List W32) (p : W32 × W32) : List W32 :=
  match h with
  | [a, b, c, d, e, f, g, h] =>
    let t := h + (e.rotateRight 6 ^^^ e.rotateRight 11 ^^^ e.rotateRight 25) + ((e &&& f) ^^^ (~~~ e &&& g)) + p.1 + p.2
    let u := (a.rotateRight 2 ^^^ a.rotateRight 13 ^^^ a.rotateRight 22) + ((a &&& b) ^^^ (a &&& c) ^^^ (b &&& c))
    [t + u, a, b, c, d + t, e, f, g]
  | _ => h

/-- One block of 64 bytes. -/
def shaBlock (h : List W32) (b : List Byte) : List W32 :=
  let ws := (shaExtend 48 (wordsBe b).reverse).reverse
  List.zipWith (· + ·) h ((shaK.zip ws).foldl shaRound h)

/-- SHA-256: 32 bytes. -/
def sha256 (b : List Byte) : List Byte :=
  let p := shaPad b
  (((upTo (p.length / 64)).map (fun i => (p.drop (64 * i)).take 64)).foldl shaBlock shaStart).flatMap (fun w => natBe 4 w.toNat)

/-! ### LMOTS_SHA256_N32_W8 -/

/-- The typecodes of LMOTS W8, and of LMS H10 and H15. -/
def otsType : Nat := 4
def lmsType (high : Bool) : Nat := if high then 7 else 6
def lmsHeight (high : Bool) : Nat := if high then 15 else 10

/-- A hash under a key's identifier: leaf or node number, then a 16-bit tag or chain number. -/
def lmsHash (id : List Byte) (q d : Nat) (x : List Byte) : List Byte := sha256 (id ++ natBe 4 q ++ natBe 2 d ++ x)

/-- A chain of one digit from place `j`, `n` places on. -/
def otsChain (id : List Byte) (q i : Nat) : Nat → Nat → List Byte → List Byte
  | 0, _, x => x
  | n + 1, j, x => otsChain id q i n (j + 1) (lmsHash id q i (BitVec.ofNat 8 j :: x))

/-- The 34 digits of a message: its hash, then its checksum. -/
def otsDigits (id : List Byte) (q : Nat) (c msg : List Byte) : List Byte :=
  let h := lmsHash id q 0x8181 (c ++ msg)
  h ++ natBe 2 ((h.map (fun b => 255 - b.toNat)).foldl (· + ·) 0)

/-- The one-time public key of 34 chain ends. -/
def otsKey (id : List Byte) (q : Nat) (ends : List (List Byte)) : List Byte := lmsHash id q 0x8080 ends.flatten

/-! ### LMS -/

/-- The node above another and its sibling. -/
def lmsUp (id : List Byte) (node : Nat) (x sibling : List Byte) : List Byte :=
  lmsHash id (node / 2) 0x8383 (if node % 2 = 1 then sibling ++ x else x ++ sibling)

/-- The root over a node and its path. -/
def lmsRoot (id : List Byte) : Nat → List Byte → List (List Byte) → List Byte
  | _, x, [] => x
  | node, x, y :: path => lmsRoot id (node / 2) (lmsUp id node x y) path

/-- The first `n` bytes, with zeros after a shorter list. -/
def fit (n : Nat) (b : List Byte) : List Byte := (b ++ List.replicate n 0).take n

/-- `n` bytes from `i` on. -/
def cut (b : List Byte) (i n : Nat) : List Byte := (b.drop i).take n

/-- Pieces of 32 bytes from `i` on. -/
def pieces32 (b : List Byte) (i n : Nat) : List (List Byte) := (upTo n).map (fun k => cut b (i + 32 * k) 32)

/-- A signature's length: 1,452 or 1,612 bytes. -/
def lmsLength (high : Bool) : Nat := 1132 + 32 * lmsHeight high

/-- A signature of a parameter set verifies a message under a public key (R270, R271). -/
def lmsVerifies (high : Bool) (key msg sig : List Byte) : Bool :=
  let h := lmsHeight high
  let id := cut key 8 16
  let q := beNat (cut sig 0 4)
  let c := cut sig 8 32
  let digits := otsDigits id q c msg
  let ends := (mapFrom 0 (fun i (y : List Byte) => let a := (byteAt digits i).toNat; otsChain id q i (255 - a) a y) (pieces32 sig 40 34))
  let leaf := lmsHash id (2 ^ h + q) 0x8282 (otsKey id q ends)
  key.length = 56 && beNat (cut key 0 4) = lmsType high && beNat (cut key 4 4) = otsType
    && sig.length = lmsLength high && q < 2 ^ h && beNat (cut sig 4 4) = otsType && beNat (cut sig 1128 4) = lmsType high
    && lmsRoot id (2 ^ h + q) leaf (pieces32 sig 1132 h) = cut key 24 32

/-- A firmware image's signature verifies against the root key, under either set (R270, R271). -/
def firmwareOk (image sig : List Byte) : Bool := lmsVerifies false Config.rootKey image sig || lmsVerifies true Config.rootKey image sig

/-- Chain start i of leaf q of a private key. -/
def otsSecret (id seed : List Byte) (q i : Nat) : List Byte := lmsHash id q i (0xFF :: seed)

/-- A node of a private key's tree of height h, `d` levels above the leaves. -/
def lmsNode (id seed : List Byte) (h : Nat) : Nat → Nat → List Byte
  | 0, r =>
    let q := r - 2 ^ h
    lmsHash id r 0x8282 (otsKey id q ((upTo 34).map (fun i => otsChain id q i 255 0 (otsSecret id seed q i))))
  | d + 1, r => lmsHash id r 0x8383 (lmsNode id seed h d (2 * r) ++ lmsNode id seed h d (2 * r + 1))

/-- The public key of a private one. -/
def lmsPublic (high : Bool) (id seed : List Byte) : List Byte :=
  natBe 4 (lmsType high) ++ natBe 4 otsType ++ id ++ lmsNode id seed (lmsHeight high) (lmsHeight high) 1

/-- The signature of a message by leaf q, with a randomizer (R272). -/
def lmsSign (high : Bool) (id seed : List Byte) (q : Nat) (c msg : List Byte) : List Byte :=
  let h := lmsHeight high
  let digits := otsDigits id q c msg
  let ys := (upTo 34).map (fun i => otsChain id q i (byteAt digits i).toNat 0 (otsSecret id seed q i))
  natBe 4 q ++ natBe 4 otsType ++ c ++ ys.flatten ++ natBe 4 (lmsType high)
    ++ ((upTo h).map (fun i => lmsNode id seed h i ((2 ^ h + q) / 2 ^ i ^^^ 1))).flatten

/-- The device's identity key, of set H15 (R272): its public key, and its signature by a leaf. -/
def identityKey : List Byte := lmsPublic true (fit 16 Config.identityId) (fit 32 Config.identitySeed)

def identitySign (leaf : Nat) (msg : List Byte) : List Byte :=
  lmsSign true (fit 16 Config.identityId) (fit 32 Config.identitySeed) leaf (fit 32 (Config.randomizer leaf)) msg

end Sys2Proof.Machine
end

