-- ==== Sys2Proof/Machine/Flue.lean ====
section
/-! DEFINITION. Opcodes 0x90-0x98 at issue: rays, call-outs, explicit pins and stoker commands (R217-R225, R316, R359, R375, R376).
What a ray meets and what a command builds is in Trace.lean and Stoker.lean. -/

namespace Sys2Proof.Machine

/-! ### The descriptor at its home -/

/-- The `n` bytes at `pa` can be read and updated at their homes at once: no fill of their lines is held, and none of the TG's own
writes is on its way to them. -/
def homesFree (s : State) (pa n : Nat) : Bool :=
  (linesOf pa n).all (fun no => !fillHeld (applyDue s no) no && (s.toLine s.tg.key no).isEmpty)

/-- The same for a descriptor. -/
def descFree (s : State) (pa : Nat) : Bool := homesFree s pa 256

/-- The descriptor's lines after due writes and recalls. -/
def descArrive (s : State) (pa : Nat) : State := arriveRange s pa 256

/-- R219's checks of a descriptor address. -/
def descTrap (s : State) (g : Tg) (va : W64) (mask : Mask) : Option TrapInfo :=
  if va.toNat % 256 ≠ 0 then some { cause := 0x04, mask := mask, va := va, access := 1 }
  else
    match checkAccess s g .read 1 1 va with
    | .error e => some { cause := e, mask := mask, va := va, access := 1 }
    | .ok (.mem _ _ _ _) => none
    | .ok _ => some { cause := 0x06, mask := mask, va := va, access := 1 }

/-- When the last accepted updates of a descriptor are performed at its home (R259). -/
def descTime (s : State) (core c : Nat) (va : W64) : Nat :=
  match paOf s core c va with | some pa => max (s.line (lineOf pa)).wct (s.line (lineOf pa + 1)).wct | none => 0

/-- The structure of a checked descriptor address. -/
def descOf (s : State) (g : Tg) (va : W64) : Desc := (descAt s g.core g.ctx va).getD ⟨g.core, g.ctx, va, 0⟩

/-! ### TRACE (R217-R219) -/

/-- The eight values of thread t's ray. -/
def rayWords (g : Tg) (n t : Nat) : Vector W32 8 :=
  beats.foldl (fun v i => vset v i (vget (vget g.v (n + i)) t)) (Vector.replicate 8 0)

/-- An invalid ray (R217). -/
def rayInvalid (q : Vector W32 8) : Bool :=
  let f := fmtF32
  let x := fun i => (vget q i).toNat
  beats.any (fun i => f.isNan (x i)) || [0, 1, 2, 4, 5, 6].any (fun i => f.isInf (x i))
    || [4, 5, 6].all (fun i => f.isZero (x i))

/-- The baseline or loaded body of a unit's image in a context (R235). -/
def imageOf (x : Ctx) (unit : Nat) : List Byte :=
  match x.images.find? (fun i => i.unit = unit) with | some i => i.body | none => []

/-- A ray as it goes in flight. -/
def newRay (s : State) (g : Tg) (va : W64) (gen root : Nat) (live closest : Bool) (q : Vector W32 8) (t : Nat) : Ray :=
  let bad := rayInvalid q
  { t := t, q := q, tmax := vget q 7, closest := closest, desc := va, ctx := g.ctx, gen := BitVec.ofNat 16 gen
    pinned := live && !bad, best := none, todo := if live && !bad then [⟨.node root, none⟩] else [], visits := 0
    stopped := none, ended := if bad then some 4 else if live then none else some 0, image := imageOf s.ctx 0, priv := g.priv }

/-- Words of port 0x10 that earlier instructions of the TG have reserved (R375). -/
def reserved (g : Tg) : Nat := g.blocks.foldl (fun n b => n + 5 * b.threads.length) 0

/-- Room for a block over `n` threads. -/
def blockRoom (g : Tg) (n : Nat) : Bool := decide (g.rayOut.length + reserved g + 5 * n ≤ 40)

/-- An operation of the E path that owes a block over the threads of a mask. -/
def oweBlock (g : Tg) (m : Mask) : Tg :=
  { (g.addOp { g.opOn (some .e) with need := 1 }) with blocks := g.blocks ++ [⟨g.nextOp, beatsOf m, []⟩] }

/-- The threads of a mask with a ray in flight. -/
def raysIn (g : Tg) (m : Mask) : Mask := g.rays.foldl (fun x (r : Ray) => x ||| (1#8 <<< r.t)) 0 &&& m

def execTrace (a b : Opnd) (first : Bool) (s : State) : Out :=
  onTg (sw := true) s (fun g =>
    let m := g.active
    let n := match b with | .v n => n.toNat | _ => 64
    if m = 0 then idle s [] false true
    else
      guarded s [check (!(sRegOk s.hdr a && decide (n % 8 = 0) && decide (n + 8 ≤ s.hdr.vregs))) 0x02 m]
        (if g.pending a || (beats.map (fun i => Opnd.v (BitVec.ofNat 6 (n + i)))).any g.pending || 255 ≤ g.count .e
         then registerWait s true
         else
           let va := readS g a
           guarded s [descTrap s g va m, (check (raysIn g m ≠ 0) 0x0F (raysIn g m)).map (fun i => { i with va := va })]
             (let d := descOf s g va
              if g.acquiring || !blockRoom g (beatsOf m).length || !descFree s d.pa then waitIn s false
              else
                let s := descArrive (cachePage s g.core g.ctx va) d.pa
                let gen := d.g s
                let live := d.liveGen s gen
                let rays := (beatsOf m).map (fun t => newRay s g va gen (d.root s gen * 16) live (!first) (rayWords g n t) t)
                let pins := (rays.filter (fun r => r.pinned)).length
                let bad := (rays.filter (fun r => r.ended = some 4)).length
                let s := if pins = 0 then s else d.addPin s gen pins
                let s := if bad = 0 then s else d.put s 0xBC 4 (min 0xFFFFFFFF (d.get s 0xBC 4 + bad))
                let rays := rays.map (fun r => if r.ended = some 4 then { r with upd := descTime s g.core g.ctx va } else r)
                doneSwitch (s.modTg (fun g => (oweBlock { g with rays := g.rays ++ rays } m).loseOlder)))))

/-! ### Choice of hits and TRCONT (R220, R222) -/

/-- a is preferred to b: least t, then lower primitive id, then lower leaf address. -/
def Hit.before (a b : Hit) : Bool :=
  fmtF32.lt a.t.toNat b.t.toNat
    || (fmtF32.eq a.t.toNat b.t.toNat && (decide (a.id.toNat < b.id.toNat) || (a.id = b.id && decide (a.leaf < b.leaf))))

/-- An accepted hit entered into the choice; it lowers tmax to its t. `.first` ends with it. -/
def Ray.accept (r : Ray) (h : Hit) : Ray :=
  let best := match r.best with | some b => if h.before b then h else b | none => h
  { r with best := some best, tmax := h.t, ended := if r.closest then r.ended else some 0 }

/-- tmin ≤ t ≤ tmax and t is not a NaN. -/
def inRange (q : Vector W32 8) (tmax t : W32) : Bool :=
  let f := fmtF32
  !f.isNan t.toNat && !f.lt t.toNat (vget q 3).toNat && !f.lt tmax.toNat t.toNat

/-- A stopped ray resumed with a verdict, and the t of an intersection. -/
def Ray.resume (r : Ray) (verdict : Nat) (t : W32) : Ray :=
  match r.stopped with
  | none => r
  | some h =>
    let r := { r with stopped := none }
    if verdict = 0 || (h.kind = 3 && !inRange r.q r.tmax t) then r
    else
      let h := { h with kind := 1, t := if h.kind = 3 then t else h.t }
      let r := r.accept h
      if verdict = 2 then { r with ended := some 0 } else r

/-- The stopped ray of a thread. -/
def stoppedRay (g : Tg) (t : Nat) : Option Hit :=
  (g.rays.find? (fun r => r.t = t && r.ended.isNone)).bind (fun r => r.stopped)

def execTrcont (a b : Opnd) (s : State) : Out :=
  onTg (sw := true) s (fun g =>
    let m := g.active
    let okV := fun (o : Opnd) => match o with | .v n => vOk s.hdr 32 n | .s n => sOk s.hdr 32 n | _ => false
    if m = 0 then idle s [] false true
    else
      guarded s [check (!(okV a && (okV b || b == .zr))) 0x02 m]
        (if g.pending a || g.pending b || 255 ≤ g.count .e then registerWait s true
         else
           let verdict := fun (t : Nat) => (readPlain g a 32 t).toNat
           let bad := m &&& maskOf (fun t => match stoppedRay g t with
             | none => true
             | some h => decide (verdict t > 2) || (h.kind = 3 && b == .zr))
           guarded s [check (bad ≠ 0) 0x0F bad]
             (if g.acquiring || !blockRoom g (beatsOf m).length then waitIn s false
              else
                doneSwitch (s.modTg (fun g =>
                  (oweBlock { g with rays := g.rays.map (fun r =>
                    if bitOf m r.t then r.resume (verdict r.t) ((readPlain g b 32 r.t).setWidth 32) else r) } m).loseOlder)))))

/-! ### Explicit pins (R223, R316) -/

/-- GPINs of a TG on their way to their descriptors' homes. -/
def pinsOut (s : State) (k : TgKey) : Nat :=
  (s.net.filter (fun m => m.tg = k && (match m.ask with | .pin _ => true | _ => false))).length

/-- GPIN: rd is pending until the home answers. Where the pins held and the pins asked for come to four, it waits for the answers. -/
def execGpin (d a : Opnd) (s : State) : Out :=
  onTg (sw := true) s (fun g =>
    if g.active = 0 then idle s [] true true
    else
      guarded s [check (!(sRegOk s.hdr d && sRegOk s.hdr a)) 0x02 g.cm]
        (if g.pending d || g.pending a then registerWait s true
         else
           let va := readS g a
           guarded s [descTrap s g va g.cm, (check (4 ≤ g.pins.length) 0x0F g.cm).map (fun i => { i with va := va })]
             (let x := descOf s g va
              if g.acquiring || decide (4 ≤ g.pins.length + pinsOut s g.key) then waitIn s false
              else
                let s := cachePage s g.core g.ctx va
                let id := s.tg.nextOp
                let m : Msg := { tg := g.key, op := id, t := 0, core := g.core, ctx := g.ctx, pa := x.pa, ask := .pin va }
                doneSwitch ({ s with net := s.net ++ [m] }.modTg (fun g =>
                  ((g.shift zeroLatch (some id)).addOp { g.opOn none with sink := some ⟨d, BitVec.ofNat 4 etU64, 0xFF, true⟩, need := 1 }).loseOlder)))))

def execGunp (a b : Opnd) (s : State) : Out :=
  onTg (sw := true) s (fun g =>
    if g.active = 0 then idle s [] false true
    else
      guarded s [check (!(sRegOk s.hdr a && sRegOk s.hdr b)) 0x02 g.cm]
        (if g.pending a || g.pending b then registerWait s true
         else if !g.loadsIn || pinsOut s g.key ≠ 0 then waitIn s false
         else
           let va := readS g a
           let gen := readS g b
           let held := g.pins.any (fun p => p.desc = va && p.gen = gen)
           guarded s [descTrap s g va g.cm, (check (!held) 0x0F g.cm).map (fun i => { i with va := va })]
             (let x := descOf s g va
              if g.acquiring || !descFree s x.pa then waitIn s false
              else
                let s := descArrive (cachePage s g.core g.ctx va) x.pa
                let s := s.modTg (fun g => { g with pins := dropFirst (fun p => p.desc = va && p.gen = gen) g.pins })
                doneSwitch ((x.dropPin s gen.toNat).modTg Tg.loseOlder))))

/-! ### Stoker commands at issue (R224, R225, R359) -/

/-- A descriptor that breaks R212. -/
def descBad (b : List Byte) : Bool :=
  let z := fun (i n : Nat) => recNat b i n ≠ 0
  1 < recNat b 2 1 || z 3 1 || z 0x18 8 || beats.any (fun k => z (0x2F + 16 * k) 1) || 1 < recNat b 0xAE 1 || z 0xAF 1
    || z 0xCC 4 || z 0xD8 8 || z 0xEC 4 || z 0xF0 16
    || recNat b 8 8 % 65536 ≠ 0 || recNat b 0x10 4 = 0 || 2 ^ 28 < recNat b 0x10 4
    || recNat b 0x10 4 ≤ stateUnits (recNat b 0x10 4)

/-- A command block that breaks R225. -/
def blockBad (b : List Byte) : Bool :=
  recNat b 0x10 4 = 0 || 2 ^ 28 < recNat b 0x10 4 || recNat b 0x14 4 % 4 ≠ 0 || recNat b 0x14 4 < 12
    || bitsNat (recNat b 0x20 4) 7 1 ≠ 0 || bitsNat (recNat b 0x20 4) 31 16 ≠ 0 || (b.drop 0x24).any (fun x => x ≠ 0)

/-- R97 for a stoker's address (R359); the ember page of a write is the next row's. -/
def stokerFault (s : State) (g : Tg) (acc : Access) (va : W64) : Option Nat :=
  match checkAccess s g acc 1 1 va with | .error 0x07 => none | .error e => some e | .ok _ => none

/-- A stoker's address is not on a normal page, or lies in a window (R359). -/
def stokerPage (s : State) (g : Tg) (acc : Access) (va : W64) : Option Nat :=
  match checkAccess s g acc 1 1 va with | .ok (.mem _ 0 _ _) => none | _ => some 0x06

/-- The lowest address that fails a row of checks, with its cause. -/
def lowestFault (g : Tg) (xs : List (W64 × Access)) (row : Access → W64 → Option Nat) : Option TrapInfo :=
  let bad := xs.filterMap (fun x => (row x.2 x.1).map (fun e => ({ cause := e, mask := g.cm, va := x.1, access := x.2.code } : TrapInfo)))
  (sortBy (fun (a b : TrapInfo) => decide (a.va.toNat < b.va.toNat)) bad).head?

/-- Commands at a stoker (R359). -/
def stokerLoad (s : State) (cluster : Nat) : Nat := (s.stoker.filter (fun c => c.cluster = cluster)).length

/-- The mould of the five commands. `block` says that rb holds a command block, `dest` a destination of 128 bytes. -/
def stokerInstr (code : Nat) (d a : Opnd) (b : Option Opnd) (dest : Bool) (s : State) : Out :=
  onTg (sw := true) s (fun g =>
    if g.active = 0 then idle s [] false true
    else
      let rb := b.getD .zr
      guarded s [check (!(sRegOk s.hdr d && sRegOk s.hdr a && (b.isNone || sRegOk s.hdr rb))) 0x02 g.cm]
        (if [d, a, rb].any g.pending || 255 ≤ g.count .e then registerWait s true
         else
           let va := readS g a
           let arg := readS g rb
           let acc : Access := if dest then .write else .read
           let args := if b.isNone then [] else if dest then [arg, arg + 64] else [arg]
           let mis := if va.toNat % 256 ≠ 0 then some va else if b.isSome && arg.toNat % 64 ≠ 0 then some arg else none
           let xs := (va, .read) :: args.map (fun x => (x, acc))
           guarded s [mis.map (fun x => { cause := 0x04, mask := g.cm, va := x, access := 5 }),
               lowestFault g xs (stokerFault s g), lowestFault g xs (stokerPage s g)]
             (let dpa := (paOf s g.core g.ctx va).getD 0
              let bpa := (paOf s g.core g.ctx arg).getD 0
              let block := b.isSome && !dest
              if g.acquiring || !descFree s dpa || (block && !homesFree s bpa 64) then waitIn s false
              else
                let s := descArrive (cacheAll s (va :: args)) dpa
                let s := if block then arriveRange s bpa 64 else s
                let bad := if descBad (latestBytes s dpa 256) then some va
                  else if block && blockBad (latestBytes s bpa 64) then some arg else none
                guarded s [bad.map (fun x => { cause := 0x0F, mask := g.cm, va := x })]
                  (let cluster := g.core / 256
                   if 64 ≤ stokerLoad s cluster then waitIn s false
                   else
                     let id := s.dev.nextJob
                     let c : StokerCmd := { id := id, tg := g.key, op := g.nextOp, d := d, code := code, cluster := cluster
                                            ctx := g.ctx, priv := g.priv, desc := va, arg := arg, core := g.core }
                     let s := ({ s with stoker := s.stoker ++ [c] } : State).modDev (fun x => { x with nextJob := id + 1 })
                     doneSwitch (s.modTg (fun g =>
                       (g.addOp { g.opOn (some .e) with sink := some ⟨d, BitVec.ofNat 4 6, 0xFF, false⟩, need := 1 }).loseOlder))))))

def execSkb (d a b : Opnd) (s : State) : Out := stokerInstr 0x94 d a (some b) false s
def execSkr (d a b : Opnd) (s : State) : Out := stokerInstr 0x95 d a (some b) false s
def execSkl (d a : Opnd) (s : State) : Out := stokerInstr 0x96 d a none false s
def execSkp (d a : Opnd) (s : State) : Out := stokerInstr 0x97 d a none false s
def execSkq (d a b : Opnd) (s : State) : Out := stokerInstr 0x98 d a (some b) true s

end Sys2Proof.Machine
end

