-- ==== Sys2Proof/Machine/Trace.lean ====
section
/-! DEFINITION. Traversal: boxes (R213, R220), the triangle test (R216), a ray's way through a generation (R215, R220, R222), and
the result block (R221, R223, R258, R259). -/

namespace Sys2Proof.Machine

/-! ### Exact distances -/

/-- A distance along a ray, `num / den`; with `den` 0 it is infinite. -/
structure Dist where
  num : Int
  den : Nat
  deriving DecidableEq, Repr, Inhabited

def Dist.le (a b : Dist) : Bool := if a.den = 0 && b.den = 0 then decide (a.num ≤ b.num) else decide (a.num * b.den ≤ b.num * a.den)
def Dist.max (a b : Dist) : Dist := if a.le b then b else a
def Dist.min (a b : Dist) : Dist := if a.le b then a else b

/-- A finite f32 in units of 2^-256. -/
def coord (x : W32) : Int := (fmtF32.dy x.toNat).at (-256)

/-- An f32 other than NaN as a distance. -/
def Dist.ofF32 (x : W32) : Dist :=
  if fmtF32.isInf x.toNat then ⟨if fmtF32.neg x.toNat then -1 else 1, 0⟩ else ⟨coord x, 2 ^ 256⟩

/-- The distance rounded to f32 (R222). -/
def Dist.toF32 (d : Dist) : W32 :=
  BitVec.ofNat 32
    (if d.den = 0 then fmtF32.withSign (decide (d.num < 0)) fmtF32.infBits
     else if d.num = 0 then 0
     else (fmtF32.quotient 0 (decide (d.num < 0)) d.num.natAbs d.den 0).bits)

def ratio (n d : Int) : Dist := if d < 0 then ⟨-n, d.natAbs⟩ else ⟨n, d.natAbs⟩

/-- Where the ray is within the box on the axes listed, cut to [a, b]: the entry distance. -/
def slab (q : Vector W32 8) (box : Vector Int 6) : List Nat → Dist → Dist → Option Dist
  | [], a, b => if a.le b then some a else none
  | k :: ks, a, b =>
    let o := coord (vget q k)
    let d := coord (vget q (4 + k))
    let lo := vget box k
    let hi := vget box (3 + k)
    if d = 0 then (if lo ≤ o && o ≤ hi then slab q box ks a b else none)
    else
      let x := ratio (lo - o) d
      let y := ratio (hi - o) d
      slab q box ks (a.max (x.min y)) (b.min (x.max y))

/-- The entry distance of the ray into a box within [tmin, tmax] (R220). -/
def boxEntry (q : Vector W32 8) (tmax : W32) (box : Vector Int 6) : Option Dist :=
  slab q box [0, 1, 2] (Dist.ofF32 (vget q 3)) (Dist.ofF32 tmax)

/-! ### Nodes (R213) -/

/-- A signed byte. -/
def i8At (b : List Byte) (i : Nat) : Int := (byteAt b i).toInt

/-- The box of child i, exact in units of 2^-256; none when it is void or an origin is no number. -/
def childBox (b : List Byte) (i : Nat) : Option (Vector Int 6) :=
  let f := fun (k : Nat) => recNat b (4 * k) 4
  let bad := [0, 1, 2].any (fun k => fmtF32.isNan (f k) || fmtF32.isInf (f k))
  let side := fun (k at_ : Nat) => coord (BitVec.ofNat 32 (f k)) + (byteAt b at_).toNat * (2 ^ (256 + i8At b (12 + k)).toNat : Nat)
  let box := #v[side 0 (16 + 6 * i), side 1 (17 + 6 * i), side 2 (18 + 6 * i),
                side 0 (19 + 6 * i), side 1 (20 + 6 * i), side 2 (21 + 6 * i)]
  let void := [0, 1, 2].any (fun k => decide ((byteAt b (19 + 6 * i + k)).toNat < (byteAt b (16 + 6 * i + k)).toNat))
  if bad || void then none else some box

/-- A child reference. -/
structure Ref where
  kind : Nat
  n : Nat
  tag : Nat
  off : Nat
  deriving DecidableEq, Repr, Inhabited

def childRef (b : List Byte) (i : Nat) : Ref :=
  let x := recNat b (0x28 + 6 * i) 6
  ⟨bitsNat x 47 46, bitsNat x 45 40, bitsNat x 39 32, bitsNat x 31 0⟩

/-- A node whose zero fields or meta bits break R213. -/
def nodeBad (b : List Byte) : Bool :=
  (byteAt b 15).toNat / 16 ≠ 0
    || [0, 1, 2, 3].any (fun i =>
      let r := childRef b i
      ((r.kind ≠ 0) != (byteAt b 15).getLsbD i) || (r.n ≠ 0 && r.kind ≠ 2) || (r.tag ≠ 0 && r.kind ≠ 3))

/-- A box node's place in the pool breaks R215. -/
def nodePlaceBad (units off : Nat) : Bool := off % 4 ≠ 0 || off < stateUnits units || units < off + 4

/-- A run's place. -/
def runPlaceBad (units off n : Nat) : Bool := off < stateUnits units || units < off + 3 * n

/-- What a read of pool units comes to: their bytes, a unit that cannot be read, or a line whose fill is held. -/
inductive Units where
  | bytes (b : List Byte)
  | bad
  | held
  deriving DecidableEq, Repr, Inhabited

/-- Units of the pool as an engine reads them, each through its own translation, as leased fills for TG `k` (R122, R132, R167). DESIGN
CHOICE (log 45): one that cannot be translated, lies on no normal page or is poisoned is `bad`. -/
def readUnits (s : State) (k : TgKey) (d : Desc) (p : Priv) (u : Nat) : Nat → State × Units
  | 0 => (s, .bytes [])
  | n + 1 =>
    let va := d.pool s + BitVec.ofNat 64 (16 * u)
    let s := cachePage s d.core d.ctx va
    match translate s d.core d.ctx p .engineRead va with
    | .error _ => (s, .bad)
    | .ok h =>
      let no := lineOf h.pa
      if h.attr ≠ 0 || s.poisoned no false then (s, .bad)
      else if fillHeld (applyDue s no) no || !s.reachable h.pa then (s, .held)
      else
        let s := engineFill s k no
        match readUnits s k d p (u + 1) n with
        | (t, .bytes rest) => (t, .bytes (memBytes s.mem h.pa 16 ++ rest))
        | x => x

/-! ### The triangle test (R216) -/

/-- F of R216: f64 steps. -/
def dAdd (x y : Nat) : Nat := (fmtF64.add 0 x y).bits
def dSub (x y : Nat) : Nat := (fmtF64.sub 0 x y).bits
def dMul (x y : Nat) : Nat := (fmtF64.mul 0 x y).bits
def dDiv (x y : Nat) : Nat := (fmtF64.div 0 x y).bits
def dGe0 (x : Nat) : Bool := !fmtF64.isNan x && (!fmtF64.neg x || fmtF64.isZero x)
def dLe0 (x : Nat) : Bool := !fmtF64.isNan x && (fmtF64.neg x || fmtF64.isZero x)

/-- An f32 as an f64, and back by one rounding. -/
def toF64 (x : W32) : Nat := (floatToFloat etF32 etF64 0 x.toNat).bits
def toF32 (x : Nat) : Nat := (floatToFloat etF64 etF32 0 x).bits

def f64One : Nat := 0x3FF0000000000000

/-- Round(T / det, f32, 0): the exact quotient rounded once. -/
def quotF32 (x y : Nat) : W32 :=
  let f := fmtF64
  let neg := f.neg x != f.neg y
  BitVec.ofNat 32
    (if f.isNan x || f.isNan y || (f.isInf x && f.isInf y) then fmtF32.canonNan
     else if f.isInf x then fmtF32.withSign neg fmtF32.infBits
     else if f.isInf y || f.isZero x then fmtF32.withSign neg 0
     else (fmtF32.quotient 0 neg (f.dy x).n.natAbs (f.dy y).n.natAbs ((f.dy x).e - (f.dy y).e)).bits)

/-- The axis of largest |d|, the lowest on a tie. -/
def majorAxis (q : Vector W32 8) : Nat :=
  let m := fun (k : Nat) => fmtF32.mag (vget q (4 + k)).toNat
  if m 0 < m 1 then (if m 1 < m 2 then 2 else 1) else (if m 0 < m 2 then 2 else 0)

/-- The test: t, u, v, front-face. -/
def triTest (q : Vector W32 8) (tri : List Byte) : Option (W32 × W32 × W32 × Bool) :=
  let kz := majorAxis q
  let a := (kz + 1) % 3
  let b := (a + 1) % 3
  let dir := fun (k : Nat) => toF64 (vget q (4 + k))
  let swap := fmtF32.neg (vget q (4 + kz)).toNat
  let kx := if swap then b else a
  let ky := if swap then a else b
  let sx := dDiv (dir kx) (dir kz)
  let sy := dDiv (dir ky) (dir kz)
  let sz := dDiv f64One (dir kz)
  let p := fun (i k : Nat) => dSub (toF64 (BitVec.ofNat 32 (recNat tri (12 * i + 4 * k) 4))) (toF64 (vget q k))
  let x := fun (i : Nat) => dSub (p i kx) (dMul sx (p i kz))
  let y := fun (i : Nat) => dSub (p i ky) (dMul sy (p i kz))
  let z := fun (i : Nat) => dMul sz (p i kz)
  let u := dSub (dMul (x 2) (y 1)) (dMul (y 2) (x 1))
  let v := dSub (dMul (x 0) (y 2)) (dMul (y 0) (x 2))
  let w := dSub (dMul (x 1) (y 0)) (dMul (y 1) (x 0))
  if !((dGe0 u && dGe0 v && dGe0 w) || (dLe0 u && dLe0 v && dLe0 w)) then none
  else
    let det := dAdd (dAdd u v) w
    if fmtF64.isZero det then none
    else
      let t := dAdd (dAdd (dMul u (z 0)) (dMul v (z 1))) (dMul w (z 2))
      some (quotF32 t det, quotF32 v det, quotF32 w det, !fmtF64.neg det && !fmtF64.isNan det)

/-! ### A ray's way (R215, R220, R222) -/

def maxVisits : Nat := 2 ^ 24

def Ray.malformed (r : Ray) : Ray := { r with ended := some 5, todo := [] }

/-- The children of a node that the ray meets, nearest first, ties to the lower index. -/
def Ray.children (r : Ray) (off : Nat) (b : List Byte) : List Todo :=
  let met := [0, 1, 2, 3].filterMap (fun i =>
    let c := childRef b i
    match (if c.kind = 0 then none else childBox b i) with
    | none => none
    | some box =>
      (boxEntry r.q r.tmax box).map (fun e =>
        let what := match c.kind with
          | 1 => Visit.node (c.off * 16)
          | 2 => Visit.tri (c.off * 16) (c.n + 1)
          | _ => Visit.box (BitVec.ofNat 32 c.off) (BitVec.ofNat 8 c.tag) off
        (e, ({ what := what, box := some box } : Todo))))
  (sortBy (fun (a b : Dist × Todo) => !b.1.le a.1) met).map (fun x => x.2)

/-- One triangle tested: missed, accepted, or a call-out. -/
def Ray.tri (r : Ray) (off : Nat) (b : List Byte) : Ray :=
  match triTest r.q b with
  | none => r
  | some (t, u, v, front) =>
    if !inRange r.q r.tmax t then r
    else
      let h : Hit := { t := t, id := BitVec.ofNat 32 (recNat b 0x24 4), u := u, v := v, front := front, leaf := off
                       tag := byteAt b 0x29, kind := 1 }
      if recNat b 0x28 4 % 2 = 1 then r.accept h else { r with stopped := some { h with kind := 2 } }

/-- A visit of the ray as it stands, or its end, when the units read are at hand: a node's four (R213). -/
def Ray.node (r : Ray) (off : Nat) (b : List Byte) : Ray :=
  if nodeBad b then r.malformed
  else
    let todo := r.children off b ++ r.todo
    if 64 < todo.length then r.malformed else { r with todo := todo }

/-- The same for a triangle's three (R214); the rest of its run is still to be visited. -/
def Ray.triangle (r : Ray) (off n : Nat) (b : List Byte) : Ray :=
  let flags := recNat b 0x28 4
  if bitsNat flags 7 1 ≠ 0 || bitsNat flags 31 16 ≠ 0 || recNat b 0x2C 4 ≠ 0 then r.malformed
  else (if n ≤ 1 then r else { r with todo := ⟨.tri (off + 48) (n - 1), none⟩ :: r.todo }).tri off b

/-- A visit that reads `n` units from `u` on: the ray after it, or the ray that must wait for a line, at the visit. A read that fails
ends the ray malformed, a case that R215 does not list (DESIGN CHOICE, log 45). -/
def Ray.reads (s : State) (k : TgKey) (d : Desc) (r : Ray) (u n : Nat) (next : List Byte → Ray) : State × Option Ray :=
  match readUnits s k d r.priv u n with
  | (s, .bytes b) => (s, some (next b))
  | (s, .bad) => (s, some r.malformed)
  | (s, .held) => (s, none)

/-- One visit of the ray; none when it must wait for a line that it reads. On its stack, which R215 limits to 64 entries, count every
met child that it has still to visit and the rest of a run under way (log 60). -/
def Ray.visit (s : State) (k : TgKey) (d : Desc) (r : Ray) (x : Todo) : State × Option Ray :=
  let units := d.units s
  match x.what with
  | .node off =>
    let r := { r with visits := r.visits + 1 }
    if maxVisits < r.visits || nodePlaceBad units (off / 16) then (s, some r.malformed)
    else r.reads s k d (off / 16) 4 (r.node off)
  | .tri off n =>
    let r := { r with visits := r.visits + 1 }
    if maxVisits < r.visits || runPlaceBad units (off / 16) n then (s, some r.malformed)
    else r.reads s k d (off / 16) 3 (r.triangle off n)
  | .box id tag node =>
    match x.box.bind (boxEntry r.q r.tmax) with
    | none => (s, some r)
    | some e =>
      (s, some { r with stopped := some { t := e.toF32, id := id, u := 0, v := 0, front := false, leaf := node, tag := tag, kind := 3 } })

/-- The next pending visit: skipped when an accepted hit has lowered tmax below its entry. -/
def Ray.step (s : State) (k : TgKey) (d : Desc) (r : Ray) : State × Option Ray :=
  match r.todo with
  | [] => (s, some { r with ended := some 0 })
  | x :: xs =>
    let r := { r with todo := xs }
    match x.box with
    | none => r.visit s k d x
    | some box => if (boxEntry r.q r.tmax box).isNone then (s, some r) else r.visit s k d x

/-- The ray stands at a call-out or has ended. -/
def Ray.stands (r : Ray) : Bool := r.stopped.isSome || r.ended.isSome

/-- The ray run until it stands, its visits reach a limit, or it must wait for a line; every step is a visit, a skip or the end. -/
def runBaseline (k : TgKey) (d : Desc) (limit : Nat) : Nat → State → Ray → State × Ray
  | 0, s, r => (s, r)
  | n + 1, s, r =>
    if r.stands || limit ≤ r.visits then (s, r)
    else match r.step s k d with
      | (s, some r) => runBaseline k d limit n s r
      | (s, none) => (s, r)

/-- A ray under another image (log 22): the image says kind, t, id, u, v, tag and front. -/
def Ray.byImage (n : Nat) (r : Ray) : Ray :=
  let x := Config.imageRay r.image (r.q.toList.flatMap (fun w => natLe 4 w.toNat)) n
  let w := fun (i : Nat) => x.getD i 0
  let h : Hit := { t := w 1, id := w 2, u := w 3, v := w 4, front := w 6 ≠ 0, leaf := 0, tag := (w 5).setWidth 8, kind := (w 0).toNat }
  match (w 0).toNat with
  | 1 => { r.accept h with ended := some 0 }
  | 2 => { r with stopped := some h }
  | 3 => { r with stopped := some { h with u := 0, v := 0, front := false } }
  | 5 => r.malformed
  | _ => { r with ended := some 0 }

/-- A ray of the issuing TG run on, for at most `limit` node visits in all. -/
def runRay (s : State) (limit : Nat) (r : Ray) : State × Ray :=
  if r.stands then (s, r)
  else if r.image ≠ [] then (s, r.byImage s.ctr)
  else match descAt s s.tg.core r.ctx r.desc with
    | some d => runBaseline s.tg.key d limit (2 ^ 27) s r
    | none => (s, r.malformed)

/-! ### Result blocks (R221, R258, R259) -/

/-- The five words of a ray's block. -/
def Ray.words (r : Ray) : List W32 :=
  let status := fun (tag front kind : Nat) => BitVec.ofNat 32 (r.gen.toNat * 65536 + tag * 256 + front * 16 + kind)
  let flag := fun (b : Bool) => if b then 1 else 0
  match r.stopped, r.ended, r.best with
  | some h, _, _ => [h.t, h.id, h.u, h.v, status h.tag.toNat (flag (h.front && h.kind = 2)) h.kind]
  | none, some 0, some h => [h.t, h.id, h.u, h.v, status 0 (flag h.front) 1]
  | none, e, _ => [0x7F800000, 0xFFFFFFFF, 0, 0, status 0 0 (e.getD 0)]

/-- The result of a thread in a block, if its ray has come to stand there. -/
def Block.result (b : Block) (t : Nat) : Option Result := b.got.find? (fun x => x.t = t)

/-- The rays of a block that have still to stand, and those that end with it. -/
def blockRays (g : Tg) (b : Block) : List Ray :=
  (b.threads.filterMap (fun t => g.rays.find? (fun r => r.t = t))).filter (fun r => (b.result r.t).isNone)
def endedRays (g : Tg) (b : Block) : List Ray :=
  (b.threads.filterMap (fun t => g.rays.find? (fun r => r.t = t))).filter (fun r => (b.result r.t).any (fun x => x.last))

/-- The five runs of a block, over the threads that it still has (R221). -/
def blockWords (b : Block) : List W32 :=
  [0, 1, 2, 3, 4].flatMap (fun i => (b.threads.filterMap b.result).map (fun x => x.words.getD i 0))

/-- A ray's new form. -/
def putRay (s : State) (r : Ray) : State := s.modTg (fun g => { g with rays := g.rays.map (fun x => if x.t = r.t then r else x) })

/-- A ray's pin given back at its descriptor's home, with the reclamation that this allows: its updates are performed when the last of
these writes is, to the descriptor and to the pool (R230, R259). -/
def unpin (s : State) (r : Ray) : State :=
  let t := releasePin s s.tg.core r.ctx r.desc r.gen.toNat
  putRay t { r with pinned := false, upd := max r.upd (lastWct s t) }

/-- The pins of the rays that end with a block given back. -/
def releaseBlock (s : State) (b : Block) : State := ((endedRays s.tg b).filter (fun r => r.pinned)).foldl unpin s

/-- The block can be pushed: its rays have come to stand, and the descriptor updates of those that end are performed (R259). -/
def blockReady (s : State) (b : Block) : Bool :=
  b.threads.all (fun t => (b.result t).isSome) && (endedRays s.tg b).all (fun r => !r.pinned && decide (r.upd ≤ s.gt))

/-- The first block of the issuing TG pushed: the words of its rays; those that end are no longer in flight. -/
def pushBlock (s : State) (b : Block) : State :=
  let ended := endedRays s.tg b
  s.modTg (fun g =>
    { g with rays := g.rays.filter (fun r => !ended.any (fun x => x.t = r.t)), blocks := g.blocks.drop 1
             rayOut := g.rayOut ++ blockWords b }.finishOp b.op)

/-- The results of the rays that have come to stand, noted in the block: what a TRCONT makes of a ray afterwards is the next block's
(R221, R222). -/
def noteResults (g : Tg) (b : Block) : Block :=
  { b with got := b.got ++ ((blockRays g b).filter Ray.stands).map (fun r => ⟨r.t, r.words, r.ended.isSome⟩) }

/-- The rays of one of the issuing TG's blocks run on, each for at most `more` further node visits, and those that stand noted. -/
def runBlock (s : State) (b : Block) (more : Nat) : State :=
  let s := (blockRays s.tg b).foldl (fun s r => let (s, r) := runRay s (r.visits + more) r; putRay s r) s
  s.modTg (fun g => { g with blocks := g.blocks.map (fun x => if x.op = b.op then noteResults g x else x) })

/-- The TG's gang is stopped with its rays run on (R233). -/
def spilling (s : State) (g : Tg) : Bool :=
  match s.findGang g.key.launch g.key.gang with | some x => x.state = .spilling | none => false

/-- The first block's rays brought to their end, the pins of those that end given back, and the block pushed once those updates are
performed. -/
def advanceBlock (s : State) (more : Nat) : State :=
  match s.tg.blocks with
  | [] => s
  | b :: _ =>
    let s := runBlock s b more
    let b := s.tg.blocks.headD b
    let s := releaseBlock s b
    if blockReady s b then pushBlock s b else s

/-- RESULT_BLOCK_PUSH: the first block that the TG is owed. -/
def execResultBlockPush (t : TgKey) (s : State) : Out :=
  match s.findTg t with
  | none => .next s
  | some g =>
    if g.blocks = [] || !isResident s g then .next s
    else
      let back := s.tg.key
      let s := s.focus t
      .next ((advanceBlock s (if spilling s s.tg then 0 else maxVisits + 1)).focus back)

end Sys2Proof.Machine
end

