-- ==== Sys2Proof/Machine/Slices.lean ====
section
/-! DEFINITION. Job slices at the scheduler: reading and checking a record (R60, R62, R63, R183, R185, R204, R208), the answer
(R184, R195), held spawns, and completion (R186). -/

namespace Sys2Proof.Machine

/-! ### The scheduler's reads and writes of memory -/

/-- What a coherent read by the scheduler gives: the bytes, no access, or a wait for the home. -/
inductive Got where
  | bytes (b : List Byte)
  | fail
  | wait
  deriving DecidableEq, Repr, Inhabited

/-- A range cut at line boundaries. -/
def cutLines (va : W64) : Nat → Nat → List (W64 × Nat)
  | 0, _ => []
  | fuel + 1, n =>
    if n = 0 then []
    else
      let m := min n (128 - va.toNat % 128)
      (va, m) :: cutLines (va + BitVec.ofNat 64 m) fuel (n - m)

/-- Bytes of a range in context c at a privilege, coherent (R122): recalls happen on the way. -/
def schedRead (s : State) (c : Nat) (p : Priv) (va : W64) (n : Nat) : State × Got :=
  (cutLines va (n / 128 + 2) n).foldl (fun (acc : State × Got) (x : W64 × Nat) =>
    match acc.2 with
    | .bytes xs =>
      if !canonical x.1 || regionOf x.1 ≠ .translated then (acc.1, .fail)
      else
        let s := walkTo acc.1 noCore c x.1
        match translate s noCore c p .read x.1 with
        | .error _ => (s, .fail)
        | .ok h =>
          if s.poisoned (lineOf h.pa) (h.attr = 2) then (s, .fail)
          else if engineOwned s (lineOf h.pa) || !s.reachable h.pa then (s, .wait)
          else
            let s := arriveRange s h.pa x.2
            if rangeReady s h.pa x.2 then (s, .bytes (xs ++ memBytes s.mem h.pa x.2)) else (s, .wait)
    | r => (acc.1, r)) (s, .bytes [])

/-- Bytes within one line written in context c, not before `floor`: the state and the WCT; nothing when no page is there. -/
def schedWrite (s : State) (c : Nat) (va : W64) (data : List Byte) (floor : Nat) : State × Nat :=
  let s := walkTo s noCore c va
  match paOf s noCore c va with
  | none => (s, s.gt)
  | some pa => acceptBytes (arriveRange s pa data.length) noKey pa data floor

/-! ### Checking (R60, R185) -/

/-- How a check ends. -/
inductive Checked where
  | slice (l : Launch)
  | code (n : Nat)
  | wait
  deriving Repr, Inhabited

/-- Header flags that the context does not allow (R208). -/
def flagsDenied (x : Ctx) (h : Header) : Bool :=
  (h.fbx && !x.ctxcap.getLsbD 1) || (h.gfx && !x.ctxcap.getLsbD 2) || (h.emb && !x.ctxcap.getLsbD 3)

/-- The codes 0x07 to 0x09. -/
def grantCode (s : State) (c : Nat) (h : Header) : Nat :=
  if h.det && !s.dev.detm then 0x07
  else if flagsDenied (s.ctxOf c) h then 0x08
  else if h.saveBytes < h.needSave then 0x09
  else 0

/-- The patch table and the words that it patches (R62): the table, a code, or a wait. -/
def readPatches (s : State) (c : Nat) (p : Priv) (va : W64) (h : Header) : State × Except (Option Nat) (List Patch) :=
  if h.patchCount = 0 then (s, .ok [])
  else if h.patchOff % 8 ≠ 0 then (s, .error (some 0x06))
  else
    match schedRead s c p (va + BitVec.ofNat 64 h.patchOff) (8 * h.patchCount) with
    | (s, .wait) => (s, .error none)
    | (s, .fail) => (s, .error (some 0x0A))
    | (s, .bytes b) =>
      let ps := (upTo h.patchCount).map (fun i => Patch.ofBytes ((b.drop (8 * i)).take 8))
      ps.foldl (fun (acc : State × Except (Option Nat) (List Patch)) (q : Patch) =>
        match acc.2 with
        | .error e => (acc.1, .error e)
        | .ok xs =>
          match schedRead acc.1 c p (BitVec.ofNat 64 (h.code + q.off)) 4 with
          | (s, .wait) => (s, .error none)
          | (s, .fail) => (s, .error (some 0x06))
          | (s, .bytes w) => if q.ok h (leNat w) then (s, .ok (xs ++ [q])) else (s, .error (some 0x06)))
        (s, if patchesDistinct ps then .ok [] else .error (some 0x06))

/-- The header at `va` with its patches, by every check of R60; `countOk` is R16's rule for the slice. -/
def checkHeader (s : State) (c : Nat) (p : Priv) (va : W64) (countOk : Header → Bool) :
    State × Except (Option Nat) (Header × List Patch) :=
  match schedRead s c p va 128 with
  | (s, .wait) => (s, .error none)
  | (s, .fail) => (s, .error (some 0x0A))
  | (s, .bytes b) =>
    let h := Header.ofBytes va b
    let n := headerCode va b (countOk h)
    if n ≠ 0 then (s, .error (some n))
    else
      match readPatches s c p va h with
      | (s, .error e) => (s, .error e)
      | (s, .ok ps) => let k := grantCode s c h; if k ≠ 0 then (s, .error (some k)) else (s, .ok (h, ps))

/-- A range of the record: its bounds, its kind; none when it is unused. -/
def recordRange (rec : List Byte) (i : Nat) : Option (Nat × Nat × Bool) :=
  let w := recNat rec (0x40 + 8 * i) 8
  let n := recNat rec (0x60 + 4 * i) 4
  let base := (sext56 (BitVec.ofNat 64 (bitsNat w 55 8 * 2 ^ 8))).toNat
  if n = 0 then none else some (base, (base + n + 255) / 256 * 256, w % 2 = 1)

/-- Bytes of the save area that accepted slices have reserved (R204). -/
def savedSpace (s : State) : Nat :=
  let one := fun (l : Launch) => if l.draw.isSome then 0 else l.hdr.saveBytes * (l.hdr.gx * l.hdr.gy)
  ((s.launches.filter (fun l => !l.done)).map one).foldl (· + ·) 0 + (s.heldSpawns.map (fun h => one h.slice)).foldl (· + ·) 0

/-- Accepted slices that are not done. -/
def openSlices (s : State) : Nat := (s.launches.filter (fun l => !l.done && l.draw.isNone)).length + s.heldSpawns.length

/-- The table of R185 after the parameter block, 0 when no check fails. -/
def recordCode (s : State) (p : Priv) (rec : List Byte) (h : Header) : Nat :=
  let cls := recNat rec 0x3C 1
  let ranges := [0, 1, 2, 3].filterMap (recordRange rec)
  let need := h.saveBytes * (h.gx * h.gy)
  if recNat rec 0x18 8 = 0 || 3 < cls || recNat rec 0x3F 1 ≠ 0
      || [0, 1, 2, 3].any (fun i => let w := recNat rec (0x40 + 8 * i) 8; bitsNat w 63 56 ≠ 0 || bitsNat w 7 1 ≠ 0)
      || recNat rec 0x10 8 % 2 ^ h.fieldAt 3 ≠ 0 || (recNat rec 0x38 4 = 0 && cls ≠ 0) then 0x0B
  else if recNat rec 0x3D 1 ≠ h.gx || recNat rec 0x3E 1 ≠ h.gy then 0x0C
  else if cls = 0 && p ≠ .m then 0x0D
  else if (cls = 1) != h.gfx then 0x0E
  else if recNat rec 0x30 8 % 128 ≠ 0 || ranges.any (fun r => !inLowOrHigh r.1 r.2.1) then 0x0F
  else if 65536 ≤ openSlices s || memTop - reservedBase < savedSpace s + need then 0x10
  else 0

/-- The parameter block (R63). -/
def readParams (s : State) (c : Nat) (p : Priv) (rec : List Byte) (h : Header) : State × Got :=
  if h.paramBytes = 0 then (s, .bytes []) else schedRead s c p (BitVec.ofNat 64 (recNat rec 8 8)) h.paramBytes

/-- The slice of a record whose checks have passed; its number is given at acceptance. -/
def sliceOf (va : W64) (c : Nat) (p : Priv) (rec : List Byte) (h : Header) (ps : List Patch) (params : List Byte) : Launch :=
  let count := recNat rec 0x18 8
  { no := 0, ctx := c, record := va, hdr := h, patches := ps, params := params, base := BitVec.ofNat 64 (recNat rec 0x10 8)
    count := count, deadline := recNat rec 0x20 8, seed := BitVec.ofNat 64 (recNat rec 0x28 8), cls := recNat rec 0x3C 1
    budget := recNat rec 0x38 4, ranges := [0, 1, 2, 3].filterMap (recordRange rec), after := none
    gangs := h.lastGang count + 1, nextGang := 0, status := none, killed := false, done := false, wct := 0, kindled := none
    heldKindles := [], draw := none, priv0 := p }

/-- A slice checked in the order of R185. -/
def checkSlice (s : State) (c : Nat) (p : Priv) (va : W64) : State × Checked × W64 :=
  match schedRead s c p va 128 with
  | (s, .wait) => (s, .wait, 0)
  | (s, .fail) => (s, .code 0x0A, 0)
  | (s, .bytes rec) =>
    let after := BitVec.ofNat 64 (recNat rec 0x30 8)
    match checkHeader s c p (BitVec.ofNat 64 (recNat rec 0 8)) (fun h => h.gangsFit (BitVec.ofNat 64 (recNat rec 0x10 8)) (recNat rec 0x18 8)) with
    | (s, .error none) => (s, .wait, 0)
    | (s, .error (some n)) => (s, .code n, 0)
    | (s, .ok (h, ps)) =>
      match readParams s c p rec h with
      | (s, .wait) => (s, .wait, 0)
      | (s, .fail) => (s, .code 0x0A, 0)
      | (s, .bytes params) =>
        let n := recordCode s p rec h
        if n ≠ 0 then (s, .code n, 0) else (s, .slice (sliceOf va c p rec h ps params), after)

/-! ### Acceptance (R184, R187) -/

/-- The draw of a class-1 slice (R236), from its parameter image. -/
def drawOf (x : Ctx) (l : Launch) : Draw :=
  let p := l.params
  { launch := l.no, ctx := l.ctx, prims := BitVec.ofNat 64 (recNat p 0 8), cap := recNat p 8 4
    pixHeader := BitVec.ofNat 64 (recNat p 0x10 8), colour := 0, pitch := 0, width := 0, height := 0, format := 0, depth := 0
    binBuf := BitVec.ofNat 64 (recNat p 0x20 8), binBytes := recNat p 0x28 4, release := BitVec.ofNat 64 (recNat p 0x30 8)
    number := BitVec.ofNat 32 (recNat p 0x38 4), target := BitVec.ofNat 64 (recNat p 0x18 8), phase := .mesh, next := 0, total := 0
    binned := [], entries := 0, pixHdr := default, pixPatches := [], pixLaunch := none, overflow := false, error := false, wct := 0, images := x.images }

/-- The slice that an after address names: the latest accepted one with that record that is not done (R187). A slice that is held until
a deterministic launch completes has not been accepted yet (log 61). -/
def afterOf (s : State) (c : Nat) (after : W64) : Option Nat :=
  if after = 0 then none
  else ((s.launches.filter (fun l => l.ctx = c && l.record = after && l.written && !l.done && l.draw.isNone)).map (fun l => l.no)).foldl
    (fun (m : Option Nat) n => match m with | none => some n | some k => some (max k n)) none

/-- A checked slice takes its place in spawn order. -/
def acceptSlice (s : State) (l : Launch) (after : W64) : State :=
  let n := s.dev.nextSpawn
  let l := { l with no := n, after := afterOf s l.ctx after }
  let s := { s with launches := s.launches ++ [l], draws := if l.cls = 1 then s.draws ++ [drawOf (s.ctxOf l.ctx) l] else s.draws }
  s.modDev (fun d => { d with nextSpawn := n + 1 })

/-! ### The answer (R154, R184, R185, R195) -/

/-- rd of a SPAWN receives the answer. -/
def answerTg (s : State) (k : TgKey) (op : Nat) (d : Opnd) (x : W64) : State :=
  s.modTgAt k (fun g => (writeReg g d 64 false 0 (x.setWidth 128)).finishOp op)

/-- Physical address of a context's command line (R196). -/
def commandLine (s : State) (c : Nat) : Nat := s.dev.nodeid.toNat * 2 ^ 44 + reservedBase + c * 4096

/-- The dispatch program writes an entry's status, then advances the consumer index with STR (R195). -/
def answerRing (s : State) (c slot : Nat) (x : W64) (floor : Nat := 0) : State :=
  let (s, t) := acceptBytes (arriveRange s (slot + 8) 8) noKey (slot + 8) (natLe 8 x.toNat) 0
  let line := commandLine s c
  (acceptBytes (arriveRange s (line + 0x18) 8) noKey (line + 0x18) (natLe 8 ((latestNat s (line + 0x18) 8 + 1) % 2 ^ 64)) (max t floor)).1

/-- The answer to whoever asked. -/
def answer (s : State) (r : SpawnReq) (x : W64) : State :=
  match r.source with
  | .tg k op d _ _ => answerTg s k op d x
  | .ring c slot => answerRing s c slot x
  | .kindle _ _ _ => s

/-- A refused slice (R184): its code in the record and in the answer. -/
def refuse (s : State) (r : SpawnReq) (n : Nat) : State :=
  match r.source with
  | .kindle _ _ _ => dropKindle s r.ctx
  | _ => answer (schedWrite s r.ctx (r.record + 0x70) (natLe 4 (n * 256 + 3)) 0).1 r (BitVec.ofNat 64 n)

/-- A kindled slice (R154): the deadline relative to the request, the ember's index in the parameter image. -/
def kindledSlice (l : Launch) (region idx gt : Nat) (e : EmberRegion) : Launch :=
  { l with deadline := (gt + l.deadline) % 2 ^ 64, params := spliceAt l.params e.pidx (natLe 8 idx), kindled := some region, written := false }

/-- SPAWN_ANSWER: the first slice handed to the scheduler. -/
def execSpawnAnswer (s : State) : Out :=
  match s.spawnQ with
  | [] => .next s
  | r :: rs =>
    match checkSlice s r.ctx r.priv r.record with
    | (s, .wait, _) => .next s
    | (s, .code n, _) => .next (refuse { s with spawnQ := rs } r n)
    | (s, .slice l, after) =>
      let s := { s with spawnQ := rs }
      match r.source, r.region with
      | .kindle n i gt, some e =>
        .next (if l.hdr.paramBytes < e.pidx + 8 then dropKindle s r.ctx else acceptSlice s (kindledSlice l n i gt e) after)
      | .kindle _ _ _, none => .next (dropKindle s r.ctx)
      | .tg k op d key true, _ =>
        let s := (schedWrite s r.ctx (r.record + 0x70) (natLe 16 0) 0).1
        .next (answerTg { s with heldSpawns := s.heldSpawns ++ [⟨k.launch, key, l, after⟩] } k op d 0)
      | _, _ =>
        let n := s.dev.nextSpawn
        let s := acceptSlice (schedWrite s r.ctx (r.record + 0x70) (natLe 16 0) 0).1 l after
        .next (answer s r (BitVec.ofNat 64 (n % 2 ^ 48 * 2 ^ 16)))

/-! ### Completion (R186) -/

/-- Held spawns of a launch take their places in spawn order (R185), and their after fields are resolved there (log 61). -/
def releaseSpawns (s : State) (l : Nat) : State :=
  let mine := sortBy (fun (a b : HeldSpawn) => keyLt a.key b.key) (s.heldSpawns.filter (fun h => h.parent = l))
  mine.foldl (fun s h => acceptSlice s h.slice h.after)
    { s with heldSpawns := s.heldSpawns.filter (fun h => h.parent ≠ l) }

/-- Held kindling requests of a launch are made (R154). -/
def releaseKindles (s : State) (l : Launch) : State :=
  (sortBy (fun (a b : HeldKindle) => keyLt a.key b.key) l.heldKindles).foldl (fun s h => kindle s h.ctx h.region h.idx h.entry h.gt) s

/-- Lines on which a launch still holds updates. -/
def heldLines (s : State) (l : Nat) : List Nat :=
  (s.heldHob.filter (fun h => h.launch = l)).map (fun h => lineOf h.pa) ++ (s.heldEmber.filter (fun h => h.launch = l)).map (fun h => lineOf h.pa)

/-- The windows of a launch closed at its end (R158, R180); the slice's latest WCT takes theirs in. -/
def closeHeld (s : State) (l : Nat) : State :=
  let ls := heldLines s l
  let s := closeLaunch s l
  s.modLaunch l (fun x => { x with wct := ls.foldl (fun t no => max t (s.line no).wct) x.wct })

/-- Every gang of the slice has been placed and has ended. -/
def allEnded (s : State) (l : Launch) : Bool :=
  decide (l.gangs ≤ l.nextGang) && (s.gangs.filter (fun g => g.launch = l.no)).all (fun g => g.state = .ended)

/-- A draw's release word has been written (R239). -/
def drawReleased (s : State) (l : Launch) : Bool := l.cls ≠ 1 || l.draw.isSome || s.draws.any (fun d => d.launch = l.no && d.phase = .released)

/-- Bytes 0x70 to 0x7F of the completion record. -/
def completionBytes (l : Launch) : List Byte :=
  natLe 4 (1 + if l.killed then 4 else 0)
    ++ (match l.status with | some (x, wid) => natLe 4 x.toNat ++ natLe 8 wid.toNat | none => natLe 4 0 ++ natLe 8 (2 ^ 64 - 1))

/-- The slice is over: its held spawns and requests go out, and it leaves the device. -/
def closeSlice (s : State) (l : Launch) : State :=
  let s := s.modLaunch l.no (fun x => { x with done := true, heldKindles := [] })
  let s := releaseKindles (releaseSpawns s l.no) l
  if l.draw.isSome then s
  else
    { s with launches := s.launches.filter (fun x => x.no ≠ l.no), gangs := s.gangs.filter (fun g => g.launch ≠ l.no)
             draws := s.draws.filter (fun d => d.launch ≠ l.no) }

/-- SLICE_COMPLETION: windows close, the record is written as a release, and the slice is done when that is performed. -/
def execSliceCompletion (n : Nat) (s : State) : Out :=
  match s.findLaunch n with
  | none => .next s
  | some l =>
    if l.done || !allEnded s l || !drawReleased s l then .next s
    else
      match l.endAt with
      | some t => .next (if t ≤ s.gt then closeSlice s l else s)
      | none =>
        if heldLines s n ≠ [] then .next (closeHeld s n)
        else if s.gt < l.wct then .next s
        else if !l.written then .next (s.modLaunch n (fun x => { x with endAt := some s.gt }))
        else if !((paOf s noCore l.ctx l.record).all s.reachable) then .next s
        else
          let (s, t) := schedWrite s l.ctx (l.record + 0x70) (completionBytes l) l.wct
          .next (s.modLaunch n (fun x => { x with endAt := some t }))

end Sys2Proof.Machine
end

