-- ==== Sys2Proof/Machine/HostPath.lean ====
section
/-! DEFINITION. The host command path: ring entries, context commands and attestation quotes (R195, R196, R208, R272). The dispatch
program is firmware; its acts stand here as steps of the device (log 12). -/

namespace Sys2Proof.Machine

/-! ### Command lines and rings (R195) -/

/-- A coherent read of physical memory by the device's firmware: nothing while a line must be waited for. -/
def physRead (s : State) (pa n : Nat) : State × Option (List Byte) :=
  let s := arriveRange s pa n
  (s, if rangeReady s pa n then some (memBytes s.mem pa n) else none)

/-- Memory is there at a physical range. -/
def physThere (s : State) (pa n : Nat) : Bool :=
  (s.isRemote pa && !s.dev.portsDown) || (!s.isRemote pa && decide (offsetOf pa + n ≤ memTop) && (linesOf pa n).all (fun no => !s.poisoned no false))

/-- The dispatch program is at work: the device is in service, and no entry that it has spawned still waits for its answer. -/
def dispatching (s : State) : Bool :=
  s.dev.maint = .service && !s.dev.halted && s.spawnQ.all (fun r => match r.source with | .ring _ _ => false | _ => true)

/-- An entry to be handled: its physical address, and the address that it names. -/
structure RingEntry where
  slot : Nat
  addr : W64
  deriving DecidableEq, Repr, Inhabited

/-- The next entry of a context's ring, from its command line: nothing when the ring is empty, not set up, or must be waited for. -/
def ringNext (s : State) (c : Nat) : State × Option RingEntry :=
  match physRead s (commandLine s c) 0x20 with
  | (s, none) => (s, none)
  | (s, some b) =>
    let entries := recNat b 0x10 4
    let ring := recNat b 8 8
    if recNat b 0 8 = recNat b 0x18 8 || entries = 0 || ring % 16 ≠ 0 then (s, none)
    else
      let slot := ring + 16 * (recNat b 0x18 8 % entries)
      if !physThere s slot 16 then (s, none)
      else
        match physRead s slot 16 with
        | (s, none) => (s, none)
        | (s, some e) => (s, some ⟨slot, BitVec.ofNat 64 (recNat e 0 8)⟩)

/-- A record address that the dispatch program may spawn: aligned, and read and written by the context (R97) at M, on a normal page. -/
def recordUsable (s : State) (c : Nat) (va : W64) : Bool :=
  let ok := fun (acc : Access) => match translate s noCore c .m acc va with | .ok h => h.attr = 0 | .error _ => false
  va.toNat % 128 = 0 && canonical va && regionOf va = .translated && ok .read && ok .write

/-! ### Context commands (R196, R208) -/

/-- A context command. -/
structure Command where
  op : Nat
  n : Nat
  a : W64
  b : W64
  c : W64
  nonce : List Byte
  deriving DecidableEq, Repr, Inhabited

def Command.ofBytes (b : List Byte) : Command :=
  { op := recNat b 0 4, n := recNat b 4 4, a := BitVec.ofNat 64 (recNat b 8 8), b := BitVec.ofNat 64 (recNat b 0x10 8)
    c := BitVec.ofNat 64 (recNat b 0x18 8), nonce := (b.drop 0x20).take 32 }

/-- A command that keeps the table of R196; a value that its register could not take is none (R98, R208). -/
def Command.wellFormed (x : Command) (s : State) : Bool :=
  match x.op with
  | 1 => 1 ≤ x.n && x.n ≤ 255 && x.nonce.all (fun y => y = 0) && bitsNat x.a.toNat 63 52 = 0 && bitsNat x.a.toNat 11 0 = 0
      && bitsNat x.c.toNat 63 4 = 0 && !x.c.getLsbD 0
  | 2 => 1 ≤ x.n && x.n ≤ 255 && x.a = 0 && x.b = 0 && x.c = 0 && x.nonce.all (fun y => y = 0)
  | 3 => x.n = 0 && x.a.toNat % 64 = 0 && x.b = 0 && x.c = 0 && physThere s x.a.toNat 64
  | _ => false

/-- The next command of context 0's ring with its entry: none for a command that cannot be read. -/
def nextCommand (s : State) : State × Option (RingEntry × Option Command) :=
  if !dispatching s then (s, none)
  else
    match ringNext s 0 with
    | (s, none) => (s, none)
    | (s, some e) =>
      let pa := e.addr.toNat
      if !physThere s pa 64 then (s, some (e, none))
      else
        match physRead s pa 64 with
        | (s, none) => (s, none)
        | (s, some b) =>
          let x := Command.ofBytes b
          (s, some (e, if x.wellFormed s then some x else none))

/-- A context's state in the device and in the context table. -/
def setCtxState (s : State) (n : Nat) (x : CtxState) : State :=
  let code : Nat := match x with | .free => 0 | .live => 1 | .closing => 2
  let s := s.modCtx n (fun c => { c with state := x })
  let pa := commandLine s n + 0x80
  (acceptBytes (arriveRange s pa 4) noKey pa (natLe 4 code) 0).1

/-- A context made with every register at its reset value. -/
def putCtx (s : State) (x : Ctx) : State := { s with ctxs := x :: s.ctxs.filter (fun y => y.id ≠ x.id) }

/-! ### The steps -/

/-- HOST_RING_ENTRY: the next entry of a context's ring is spawned in that context, or refused; of context 0's, one that names a
malformed command is answered. -/
def execHostRingEntry (c : Nat) (s : State) : Out :=
  if c = 0 then
    match nextCommand s with
    | (s, some (e, none)) => .next (answerRing s 0 e.slot 1)
    | _ => .next s
  else if !dispatching s || (s.ctxOf c).state = .free then .next s
  else
    match ringNext s c with
    | (s, none) => .next s
    | (s, some e) =>
      let s := walkTo s noCore c e.addr
      if (s.ctxOf c).state = .closing || !recordUsable s c e.addr then .next (answerRing s c e.slot 0x0A)
      else .next { s with spawnQ := s.spawnQ ++ [{ source := .ring c e.slot, record := e.addr, ctx := c, priv := .m, region := none }] }

/-- CONTEXT_CREATE: op 1. -/
def execContextCreate (s : State) : Out :=
  match nextCommand s with
  | (s, some (e, some x)) =>
    if x.op ≠ 1 then .next s
    else if (s.ctxOf x.n).state ≠ .free then .next (answerRing s 0 e.slot 2)
    else
      let s := putCtx s { Ctx.fresh x.n .live with ptroot := x.a, tvec := x.b, ctxcap := x.c }
      .next (answerRing (setCtxState s x.n .live) 0 e.slot 0)
  | (s, _) => .next s

/-- CONTEXT_DESTROY: op 2. -/
def execContextDestroy (s : State) : Out :=
  match nextCommand s with
  | (s, some (e, some x)) =>
    if x.op ≠ 2 then .next s
    else if (s.ctxOf x.n).state ≠ .live then .next (answerRing s 0 e.slot 2)
    else .next (answerRing (setCtxState s x.n .closing) 0 e.slot 0)
  | (s, _) => .next s

/-- No slice of a context is open or asked for. -/
def ctxQuiet (s : State) (c : Nat) : Bool :=
  s.launches.all (fun l => l.ctx ≠ c || l.done) && s.heldSpawns.all (fun h => h.slice.ctx ≠ c) && s.spawnQ.all (fun r => r.ctx ≠ c)

/-- CONTEXT_FREE: a closing context with every slice done loses its translations and is free. -/
def execContextFree (c : Nat) (s : State) : Out :=
  if !dispatching s || (s.ctxOf c).state ≠ .closing || !ctxQuiet s c then .next s
  else .next (setCtxState { s with tlb := s.tlb.filter (fun e => e.ctx ≠ c) } c .free)

/-! ### Attestation (R272) -/

/-- Image records in ascending context and then unit. -/
def imageRecords (s : State) : List (List Byte) :=
  let cs := sortBy (fun (a b : Ctx) => decide (a.id < b.id)) (s.ctxs.filter (fun c => c.state ≠ .free))
  cs.flatMap (fun c =>
    (sortBy (fun (a b : Image) => decide (a.unit < b.unit)) c.images).map (fun i =>
      natLe 4 c.id ++ natLe 4 i.unit ++ sha256 (i.header ++ i.body)))

/-- The attestation message M. -/
def attestation (s : State) (nonce : List Byte) : List Byte :=
  let rs := imageRecords s
  natLe 4 0x51545341 ++ natLe 2 1 ++ natLe 2 rs.length ++ natLe 4 s.dev.nodeid.toNat ++ natLe 4 0
    ++ sha256 s.dev.booted ++ nonce ++ rs.flatten

/-- The quote: M, the signature's length, the signature over M's hash by a leaf. -/
def quote (s : State) (nonce : List Byte) (leaf : Nat) : List Byte :=
  let m := attestation s nonce
  let sig := identitySign leaf (sha256 m)
  m ++ natLe 4 sig.length ++ sig

/-- ATTESTATION_QUOTE: op 3. The leaf's index advances first; with no leaf or no key left the quote is refused. -/
def execAttestationQuote (s : State) : Out :=
  match nextCommand s with
  | (s, some (e, some x)) =>
    if x.op ≠ 3 then .next s
    else if 32768 ≤ s.dev.nextLeaf || s.dev.keyErased then .next (answerRing s 0 e.slot 3)
    else
      let leaf := s.dev.nextLeaf
      let s := s.modDev (fun d => { d with nextLeaf := leaf + 1 })
      let q := quote s x.nonce leaf
      let (s, t) := acceptBytes (arriveRange s x.a.toNat q.length) noKey x.a.toNat q 0
      .next (answerRing s 0 e.slot 0 t)
  | (s, _) => .next s

end Sys2Proof.Machine
end

