-- ==== Sys2Proof/Machine/Device.lean ====
section
/-! DEFINITION. Hardware errors and die loss (R266-R268), the security alarm (R273), bring-up, maintenance states and the sideband
(R271, R274-R277), the fabric (R263) and accesses from other nodes (R265). -/

namespace Sys2Proof.Machine

/-! ### Errors (R266) -/

/-- CORRECTED_ERROR: counted, saturating. -/
def execCorrectedError (s : State) : Out :=
  .next (s.modDev (fun d => { d with cor := if d.cor = BitVec.allOnes 32 then d.cor else d.cor + 1 }))

/-- A line of this device's memory. -/
def ownLine (s : State) (no : Nat) : Bool := !s.isRemote (no * 128) && decide (offsetOf (no * 128) < memTop)

/-- UNCORRECTABLE_ERROR: the line is poisoned and counted; the BMC is interrupted (R274). -/
def execUncorrectableError (line : Nat) (s : State) : Out :=
  .next (if ownLine s line then countUnc (s.modLine line (fun l => { l with poison := true })) else s)

/-! ### Die loss (R267, R268) -/

/-- A line that a survivor holds modified: its number, the mask of its modified bytes, its data. -/
structure HeldLine where
  no : Nat
  mask : Nat
  data : List Byte
  deriving DecidableEq, Repr, Inhabited

/-- A salvage entry. -/
def salvageEntry (s : State) (x : HeldLine) : List Byte :=
  natLe 8 (x.no * 128) ++ natLe 8 s.gt ++ natLe 16 x.mask ++ x.data ++ List.replicate 96 0

/-- A modified orphaned line of a survivor written into the salvage region and counted; with no room left it is counted as dropped. -/
def salvage (s : State) (x : HeldLine) : State :=
  let base := bitsNat s.dev.salvb.toNat 51 16 * 2 ^ 16
  let n := s.dev.written.toNat
  if bitsNat s.dev.salvb.toNat 15 0 * 256 ≤ n then s.modDev (fun d => { d with dropped := d.dropped + 1 })
  else
    let s := (acceptBytes (arriveRange s (base + 256 * n) 256) noKey (base + 256 * n) (salvageEntry s x) 0).1
    s.modDev (fun d => { d with written := d.written + 1 })

/-- The owned lines of stashes that are modified. -/
def stashHeld (s : State) : List HeldLine :=
  s.wgs.flatMap (fun w => (w.stash.filter (fun x => x.owned && x.dirty != 0)).map (fun x =>
    ⟨x.pa, x.dirty.toNat, memBytes w.scratch (stashOffset w x.win x.idx) 128⟩))

/-- The lines that the copy engine owns and has the data of, not yet written. -/
def engineHeld (s : State) : List HeldLine :=
  s.copies.flatMap (fun j =>
    match j.data with
    | none => []
    | some data => if j.wrote || j.err ≠ 0 then [] else
      (j.lines.filter (fun no => (s.line no).owner = some (.engine j.id))).map (fun no =>
        let xs := (j.moves.zip data).filterMap (fun x => match x.1.dst with
          | .mem pa => if lineOf pa = no then some (pa % 128, x.2.b) else none
          | _ => none)
        ⟨no, xs.foldl (fun m x => m ||| 2 ^ x.1) 0, bytesAfter (latestBytes s (no * 128) 128) xs⟩))

/-- The lines that survivors hold modified (R267). -/
def toSalvage (s : State) : List HeldLine := stashHeld s ++ engineHeld s

/-- No copy of an orphaned line serves a load any more (R267): the caches and the leased stash lines give them up, and replicas on a lost
die are gone (R111). -/
def dropOrphans (s : State) : State :=
  { s with lines := s.lines.map (fun l => { l with replicas := l.replicas.filter (fun d => !s.dev.dieLost.getLsbD d) })
           l1 := s.l1.filter (fun c => !s.orphaned c.line), icopies := s.icopies.filter (fun x => !s.orphaned x.2.1)
           wgs := s.wgs.map (fun w => { w with stash := w.stash.filter (fun x => x.owned || !s.orphaned x.pa) }) }

/-- DIE_LOSS: the die is marked lost, its lines are orphaned from now on, modified ones are salvaged, the BMC is interrupted. -/
def execDieLoss (die : BitVec 2) (s : State) : Out :=
  if s.dev.dieLost.getLsbD die.toNat then .next s
  else
    let before := s
    let s := s.modDev (fun d => { d with dieLost := d.dieLost ||| (1 <<< die.toNat) })
    let xs := (toSalvage s).filter (fun x => s.orphaned x.no && !before.orphaned x.no)
    .next (raiseInterrupt (dropOrphans (xs.foldl salvage s)))

/-! ### The security alarm (R273) -/

/-- Every core halts and the fabric ports go down. -/
def haltAll (s : State) : State := s.modDev (fun d => { d with halted := true, portsDown := true })

/-- SECURITY_ALARM: a tamper or glitch alarm erases the identity key for good; a signature failure, at boot alone, leaves the device in
recovery. -/
def execSecurityAlarm (x : Alarm) (s : State) : Out :=
  let alarm := fun (s : State) => raiseInterrupt ((haltAll s).modDev (fun d => { d with alarm := true }))
  match x with
  | .tamper => .next ((alarm s).modDev (fun d => { d with keyErased := true }))
  | .glitch => .next ((alarm s).modDev (fun d => { d with keyErased := true }))
  | .bootSignature => .next (if s.dev.maint = .startUp then (alarm s).modDev (fun d => { d with maint := .recovery }) else s)

/-! ### Bring-up and maintenance states (R271, R276, R277) -/

/-- The boot ROM's checks at the boot attempt at counter `n` (R271): the root key against the fuses, every image against the key. -/
def bootVerifies (n : Nat) : Bool :=
  sha256 Config.rootKey == Config.fuseHash && (Config.bootImages n).all (fun x => firmwareOk x.1 x.2)

/-- The hashes of those images, in order (R272). -/
def bootHashes (n : Nat) : List Byte := (Config.bootImages n).flatMap (fun x => sha256 x.1)

/-- POWER_ON: the steps of bring-up, as far as the images verify: Flaop training, which brings the ports up and gives the node number, then
context 0 with the dispatch program, service (R276). -/
def execPowerOn (s : State) : Out :=
  if s.dev.maint ≠ .startUp || s.dev.halted then .next s
  else if !bootVerifies s.ctr then execSecurityAlarm .bootSignature s
  else
    let s := s.modDev (fun d => { d with nodeid := Config.nodeId, portsDown := false, booted := bootHashes s.ctr })
    let s := setCtxState (putCtx s (Ctx.fresh 0 .live)) 0 .live
    .next (s.modDev (fun d => { d with maint := .service }))

/-- What a reset leaves of a device: the fuses (R272, R273) and GT (R207). -/
def resetState (s : State) : State :=
  { State.reset with
    ctr := s.ctr, gt := s.gt, dev := { Dev.reset with nextLeaf := s.dev.nextLeaf, keyErased := s.dev.keyErased } }

/-- DEVICE_RESET: from recovery only after an image that verifies has come. -/
def execDeviceReset (s : State) : Out := .next (if s.dev.maint = .recovery && !s.dev.imageOk then s else resetState s)

/-- The test image, and its header (log 19). -/
def testBytes (s : State) : List Byte := (Config.testImage s.ctr).1
def testHeader (s : State) : Header := Header.ofBytes Config.testEntry ((testBytes s).take 128)

/-- The lines of the test image's place. -/
def testParts (s : State) : List (W64 × Nat) := cutLines Config.testEntry ((testBytes s).length / 128 + 2) (testBytes s).length

/-- The test firmware as a slice of class 0 in context 0, one workgroup of full TGs (log 19). -/
def testLaunch (s : State) : Launch :=
  let h := testHeader s
  { no := s.dev.nextSpawn, ctx := 0, record := 0, hdr := h, patches := [], params := [], base := 0, count := 8 * h.tgs, deadline := 0
    seed := 0, cls := 0, budget := 0, ranges := [], after := none, gangs := 1, nextGang := 0, status := none, killed := false, done := false
    wct := 0, kindled := none, heldKindles := [], draw := none, written := false, priv0 := .m }

/-- Test firmware that verifies runs (R277): its image is sound, its header one that a launch may have, with its code inside the image, and
context 0 has memory at its place. -/
def testRuns (s : State) : Bool :=
  let h := testHeader s
  firmwareOk (testBytes s) (Config.testImage s.ctr).2 && headerCode Config.testEntry ((testBytes s).take 128) true = 0
    && decide (h.code + h.codeLen ≤ Config.testEntry.toNat + (testBytes s).length)
    && (testParts s).all (fun x => canonical x.1 && regionOf x.1 == .translated &&
      (match translate s noCore 0 .m .fetch x.1 with | .ok _ => true | .error _ => false))

/-- The verified image written where the test firmware runs. -/
def loadTest (s : State) : State :=
  ((testParts s).foldl (fun (acc : State × Nat) x =>
    ((schedWrite acc.1 0 x.1 (((testBytes s).drop acc.2).take x.2) 0).1, acc.2 + x.2)) (s, 0)).1

/-- TEST_COMMAND: in service, with no slice outstanding, every core halts and the ports go down; the test firmware, if it verifies, is
loaded and then runs at M. -/
def execTestCommand (s : State) : Out :=
  if s.dev.maint ≠ .service || openSlices s ≠ 0 || s.spawnQ ≠ [] then .next s
  else
    let t := (haltAll s).modDev (fun d => { d with maint := .test })
    .next (if testRuns s then { loadTest t with launches := t.launches ++ [testLaunch s] }.modDev (fun d => { d with halted := false, nextSpawn := d.nextSpawn + 1 })
      else t)

/-! ### The sideband (R274, R275) -/

/-- IDENTITY_REQUEST: the public key and its certificate. -/
def execIdentityRequest (s : State) : Out := .next (s.modDev (fun d => { d with report := identityKey ++ Config.certificate }))

/-- RECOVERY_IMAGE: accepted in recovery alone. -/
def execRecoveryImage (s : State) : Out :=
  .next (if s.dev.maint = .recovery then s.modDev (fun d => { d with imageOk := d.imageOk || firmwareOk (Config.recoveryImage s.ctr).1 (Config.recoveryImage s.ctr).2 }) else s)

def Maint.code : Maint → Nat
  | .service => 0
  | .startUp => 1
  | .recovery => 2
  | .test => 3

/-- SIDEBAND_STATUS_REQUEST: temperatures and power, the alarm, the maintenance state. -/
def execSidebandStatusRequest (s : State) : Out :=
  .next (s.modDev (fun d =>
    { d with report := Config.sensors s.ctr ++ [if d.alarm then 1 else 0, BitVec.ofNat 8 d.maint.code] }))

/-- POWER_LIMIT: the arithmetic clock is lowered, or raised again; results do not change. -/
def execPowerLimit (reached : Bool) (s : State) : Out := .next (s.modDev (fun d => { d with clockLow := reached }))

/-! ### The fabric (R263, R265) -/

/-- FLIT_RECEIVE: accepted when its CRC holds, else asked for again. -/
def execFlitReceive (port : Nat) (crcOk : Bool) (s : State) : Out :=
  .next (if 36 ≤ port || s.dev.portsDown then s
    else s.modDev (fun d => if crcOk then { d with flits := d.flits + 1 } else { d with retries := d.retries + 1 }))

/-- How many bytes a remote access touches; a launch's end touches none. -/
def remoteSize : RemoteKind → Nat
  | .load n => n
  | .store d => d.length
  | .atomic _ et _ _ _ _ => etBytes et.toNat
  | .hob _ et _ _ _ => etBytes et.toNat
  | .launchEnd _ => 1
  | _ => 16

/-- Bytes of a command line (R196). -/
def inCommandLine (pa n : Nat) : Bool :=
  let o := offsetOf pa - reservedBase
  decide (reservedBase ≤ offsetOf pa) && decide (o < 256 * 4096) && decide (o % 4096 + n ≤ 128)

/-- The access may be served here: it comes from another node, its bytes lie within one line of this device's memory, and reserved
memory is context 0's and the host's command lines. -/
def remoteOk (s : State) (r : Remote) : Bool :=
  let n := remoteSize r.kind
  !s.dev.portsDown && r.node ≠ s.dev.nodeid && !s.isRemote r.pa && decide (0 < n) && decide (r.pa % 128 + n ≤ 128)
    && decide (offsetOf r.pa + n ≤ memTop)
    && (decide (offsetOf r.pa + n ≤ reservedBase) || r.ctx = 0 || inCommandLine r.pa n)

/-- The region values that an ember operation carries (R160). -/
def carried (target wmin : W32) (k : Nat) : EmberRegion := { (default : EmberRegion) with target := target, wmin := wmin, k := k }

def answerRemote (s : State) (b : List Byte) : State := s.modDev (fun d => { d with answer := b })

/-- An answer that goes back at a time to come, or at once. -/
def answerAt (s : State) (t : Nat) (b : List Byte) : State :=
  if t ≤ s.gt then answerRemote s b else s.modDev (fun d => { d with owed := d.owed ++ [⟨t, b⟩] })

/-- A write accepted for another node, its WCT as the answer. -/
def remoteWrite (s : State) (pa : Nat) (data : List Byte) (marks : Bool) : State :=
  let (s, t) := acceptWrite s noKey pa data 0 false marks
  answerRemote s (natLe 8 t)

/-- A launch of another node, by a number that no slice of this device has (R184 numbers them in 48 bits). -/
def remoteLaunch (r : Remote) (n : Nat) : Nat := 2 ^ 64 + r.node.toNat * 2 ^ 48 + n % 2 ^ 48

/-- A contribution from another node at the ember unit (R151, R158, R160): held for a deterministic launch; a poisoned line drops it. -/
def remoteContribution (s : State) (r : Remote) (k : Nat) (n : W32) (c : Contribution) : State :=
  let pa := r.pa
  let s := contributionArrives s (lineOf pa)
  match r.key with
  | some (l, wid, i) =>
    answerRemote { s with heldEmber := s.heldEmber ++ [⟨remoteLaunch r l, pa, c, n, carried 0 0 k, ⟨wid, i⟩⟩] } (natLe 8 s.gt)
  | none =>
    if s.poisoned (lineOf pa) false then answerRemote (discardAt s (lineOf pa)).1 (natLe 8 s.gt)
    else remoteWrite s pa (EmberWord.apply (.ofBytes (latestBytes s pa 16)) k n c).bytes false

/-- ELD from another node: what it sees is settled at its arrival, and it is answered at the WCT of the last contribution that it sees
(R157): the four words, then whether a request is to be made there. -/
def remoteEstimate (s : State) (pa : Nat) (r : W32) (e : EmberRegion) : State :=
  let s := arriveAt (applyDue s (lineOf pa)) pa 16
  if s.poisoned (lineOf pa) false then answerRemote s ((upTo 4).flatMap (fun _ => natLe 4 0x7FC00000) ++ [0])
  else
    let x := EmberWord.estimate (.ofBytes (latestBytes s pa 16)) r e
    let post := x.kindles && !markedFor (s.line (lineOf pa)) pa r
    let s := if post then setMark s pa r else s
    answerAt s (pendTime (s.line (lineOf pa))) (x.words.flatMap (natLe 4) ++ [if post then 1 else 0])

/-- A hob update from another node (R179, R180). -/
def remoteHob (s : State) (r : Remote) (a : AOp) : State :=
  let no := lineOf r.pa
  let s := hobArrives s no
  match r.key with
  | some (l, wid, i) => answerRemote { s with heldHob := s.heldHob ++ [⟨remoteLaunch r l, r.pa, a, ⟨wid, i⟩⟩] } (natLe 8 s.gt)
  | none =>
    if s.poisoned no false then answerRemote (discardAt s no).1 (natLe 8 s.gt)
    else remoteWrite s r.pa (natLe a.size (a.apply (latestNat s r.pa a.size))) true

/-- An atomic from another node: the old value, the WCT, and whether the line was poisoned (R281). -/
def remoteAtomic (s : State) (pa : Nat) (a : AOp) : State :=
  let no := lineOf pa
  let s := arriveAt (applyDue s no) pa a.size
  let old := latestNat s pa a.size
  let lost := s.poisoned no false
  let (s, t) := if lost then discardAt s no else acceptWrite s noKey pa (natLe a.size (a.apply old)) 0 false true
  answerRemote s (natLe a.size old ++ natLe 8 t ++ [if lost then 1 else 0])

/-- REMOTE_ACCESS: at this device's home, hob or ember unit. A line that an engine owns, or for a load a write or a grant under way, is
waited for. -/
def execRemoteAccess (r : Remote) (s : State) : Out :=
  let no := lineOf r.pa
  if !remoteOk s r || engineOwned s no then .next s
  else
    match r.kind with
    | .load n =>
      let s := reach s no
      if fillHeld s no then .next s
      else .next (answerRemote s (memBytes s.mem r.pa n ++ [if s.poisoned no false then 1 else 0]))
    | .store d => .next (remoteWrite (arriveAt (applyDue s no) r.pa d.length) r.pa d true)
    | .atomic op et rm sat x n => .next (remoteAtomic s r.pa ⟨op, et, rm, sat, x, n⟩)
    | .hob op et rm sat x => .next (remoteHob s r ⟨op, et, rm, sat, x, 0⟩)
    | .emberRead r' target wmin k => .next (remoteEstimate s r.pa r' (carried target wmin k))
    | .emberSample x r' k => .next (remoteContribution s r k r' (.est x))
    | .emberMerge wb mb m2b r' k => .next (remoteContribution s r k r' (.emrg wb mb m2b))
    | .launchEnd n => .next (closeLaunch s (remoteLaunch r n))

end Sys2Proof.Machine
end

