-- ==== Sys2Proof/Machine/Draws.lean ====
section
/-! DEFINITION. Draws: binning (R236, R238), rasterising (R237), the pixel back end (R237) and the release word (R239, R240). What
the chapter leaves open of the layout is log 13; images other than the baseline are log 22. -/

namespace Sys2Proof.Machine

def State.findDraw (s : State) (l : Nat) : Option Draw := s.draws.find? (fun d => d.launch = l)

def State.modDraw (s : State) (l : Nat) (f : Draw → Draw) : State := { s with draws := replaceFirst (fun d => d.launch = l) f s.draws }

/-! ### Reads and writes of the draw's engines -/

/-- Bytes of a range written in the draw's context with its kernel's permissions, not before `floor`: the state and the latest
WCT; nothing is written when some byte has no writable page, or lies on another node or a page that is not normal memory. -/
def drawWrite (s : State) (d : Draw) (va : W64) (data : List Byte) (floor : Nat) : Option (State × Nat) :=
  let p := (s.launchOf d.launch).priv
  let parts := cutLines va (data.length / 128 + 2) data.length
  let s := parts.foldl (fun s x => walkTo s noCore d.ctx x.1) s
  let ok := parts.all (fun x =>
    canonical x.1 && regionOf x.1 = .translated &&
      (match translate s noCore d.ctx p .engineWrite x.1 with | .ok h => h.attr = 0 && !s.isRemote h.pa | .error _ => false))
  if !ok then none
  else
    let r := parts.foldl (fun (acc : State × Nat × Nat) (x : W64 × Nat) =>
      let (s, t) := schedWrite acc.1 d.ctx x.1 ((data.drop acc.2.1).take x.2) floor
      (s, acc.2.1 + x.2, max acc.2.2 t)) (s, 0, 0)
    some (r.1, r.2.2)

/-- No line of a range is held by an engine command (R132). -/
def drawReady (s : State) (d : Draw) (va : W64) (n : Nat) : Bool :=
  (cutLines va (n / 128 + 2) n).all (fun x => match paOf s noCore d.ctx x.1 with | some pa => !engineOwned s (lineOf pa) | none => true)

/-- Bytes of a range read in the draw's context with its kernel's permissions. -/
def drawRead (s : State) (d : Draw) (va : W64) (n : Nat) : State × Got := schedRead s d.ctx (s.launchOf d.launch).priv va n

/-- The draw ends with the error bit: no later primitive is drawn. -/
def Draw.stop (d : Draw) : Draw := { d with error := true, total := d.next, phase := if d.binned = [] then .written else .raster }

/-! ### The rasteriser (R237) -/

/-- A vertex: screen x, y, depth z, 1/w. -/
structure Vertex where
  x : Int
  y : Int
  z : Int
  q : Int
  deriving DecidableEq, Repr, Inhabited

/-- A finite f32 in units of 2^-149. -/
def unit149 (x : Nat) : Int := (fmtF32.dy x).at (-149)

/-- Vertex i of a primitive; none when a field is NaN or infinite. -/
def vertexOf (b : List Byte) (i : Nat) : Option Vertex :=
  let f := fun (k : Nat) => recNat b (16 * i + 4 * k) 4
  if [0, 1, 2, 3].any (fun k => fmtF32.isNan (f k) || fmtF32.isInf (f k)) then none
  else some ⟨unit149 (f 0), unit149 (f 1), unit149 (f 2), unit149 (f 3)⟩

/-- E_PQ at a point, in units of 2^-298. -/
def edgeAt (p q : Vertex) (cx cy : Int) : Int := (q.x - p.x) * (cy - p.y) - (q.y - p.y) * (cx - p.x)

/-- A top-left edge, by its direction. -/
def topLeft (dx dy : Int) : Bool := decide (dy < 0) || (dy = 0 && decide (0 < dx))

/-- An edge of the normalised primitive takes a centre: its value and its direction from P to Q, both negated when D < 0. -/
def edgeTakes (flip : Bool) (p q : Vertex) (e : Int) : Bool :=
  let k : Int := if flip then -1 else 1
  decide (0 < k * e) || (e = 0 && topLeft (k * (q.x - p.x)) (k * (q.y - p.y)))

/-- A ratio rounded once to f32 by rne; `e` scales it by 2^e. -/
def ratioF32 (n d : Int) (e : Int) : W32 :=
  if n = 0 then 0
  else BitVec.ofNat 32 (fmtF32.quotient 0 (decide (n < 0) != decide (d < 0)) n.natAbs d.natAbs e).bits

/-- The fragment of a primitive at pixel (x, y), if it covers it. -/
def fragmentAt (a b c : Vertex) (prim : Nat) (attr : W32) (x y : Nat) : Option Frag :=
  let cx : Int := (2 * x + 1) * 2 ^ 148
  let cy : Int := (2 * y + 1) * 2 ^ 148
  let ab := edgeAt a b cx cy
  let bc := edgeAt b c cx cy
  let ca := edgeAt c a cx cy
  let d := edgeAt a b c.x c.y
  let flip := decide (d < 0)
  let den := bc * a.q + ca * b.q + ab * c.q
  if d = 0 || !(edgeTakes flip a b ab && edgeTakes flip b c bc && edgeTakes flip c a ca) || den = 0 then none
  else
    some { x := x, y := y, z := ratioF32 (bc * a.z + ca * b.z + ab * c.z) d (-149), prim := prim, wb := ratioF32 (ca * b.q) den 0
           wc := ratioF32 (ab * c.q) den 0, attr := attr, done := none }

/-- The pixels from 0 to n - 1 whose centres can lie between two coordinates. -/
def pixelSpan (lo hi : Int) (n : Nat) : List Nat :=
  let first := (lo / 2 ^ 149).toNat
  let last := min (n : Int) (hi / 2 ^ 149 + 1) |>.toNat
  (upTo (last - first)).map (fun i => first + i)

/-- The fragments of a primitive under the baseline image, in rows from the top. -/
def baselineFrags (b : List Byte) (prim w h : Nat) : List Frag :=
  match vertexOf b 0, vertexOf b 1, vertexOf b 2 with
  | some p, some q, some r =>
    let xs := pixelSpan (min p.x (min q.x r.x)) (max p.x (max q.x r.x)) w
    let ys := pixelSpan (min p.y (min q.y r.y)) (max p.y (max q.y r.y)) h
    ys.flatMap (fun y => xs.filterMap (fun x => fragmentAt p q r prim (BitVec.ofNat 32 (recNat b 48 4)) x y))
  | _, _, _ => []

/-- A draw's image of a unit; empty is the baseline. -/
def Draw.imageOf (d : Draw) (unit : Nat) : List Byte := match d.images.find? (fun i => i.unit = unit) with | some i => i.body | none => []

/-- The images of the binner and the rasteriser, which may change the primitive format (R234); empty is the baseline. -/
def Draw.rasterImage (d : Draw) : List Byte := d.imageOf 1 ++ d.imageOf 2

/-- Where a primitive stands, and its bytes: 64 of them after the count (R236), or as an image has it. -/
def Draw.primAt (d : Draw) (i : Nat) : W64 × Nat :=
  if d.rasterImage = [] then (d.prims + BitVec.ofNat 64 (64 + 64 * i), 64)
  else let p := Config.imagePrim d.rasterImage i; (d.prims + BitVec.ofNat 64 p.1, p.2)

/-- The render-target format is one that the draw's pixel back end knows: 0 or 1, or any under an image of it (R234). -/
def Draw.formatOk (d : Draw) (f : Nat) : Bool := decide (f ≤ 1) || d.imageOf 3 != []

/-- The fragments of a primitive of a draw. -/
def fragsOf (d : Draw) (prim : Nat) (b : List Byte) : List Frag :=
  if d.rasterImage = [] then baselineFrags b prim d.width d.height
  else
    (Config.imageRaster d.rasterImage b).filterMap (fun f =>
      let x := (f.getD 0 0).toNat
      let y := (f.getD 1 0).toNat
      if x < d.width && y < d.height then
        some { x := x, y := y, z := f.getD 2 0, prim := prim, wb := f.getD 3 0, wc := f.getD 4 0, attr := f.getD 5 0, done := none }
      else none)

/-- The 32 × 32 tiles that fragments touch, in the order they first do. DESIGN CHOICE (log 13): a primitive touches the tiles that hold
a pixel centre it covers. -/
def tilesTouched (fs : List Frag) : List (Nat × Nat) :=
  fs.foldl (fun ts (f : Frag) => if ts.contains (f.x / 32, f.y / 32) then ts else ts ++ [(f.x / 32, f.y / 32)]) []

/-! ### Binning (R236, R238) -/

/-- The pixel-stage header is one a draw accepts: R60's checks, class 1, at least 12 vector registers. -/
def pixelHeader (s : State) (d : Draw) : State × Except (Option Nat) (Header × List Patch) :=
  match checkHeader s d.ctx (s.launchOf d.launch).priv0 d.pixHeader (fun _ => true) with
  | (s, .ok (h, ps)) => (s, if h.gfx && 12 ≤ h.vregs then .ok (h, ps) else .error (some 0x0E))
  | r => r

/-- The render target and the primitive count as read at the end of the mesh stage. -/
def Draw.opened (d : Draw) (t : List Byte) (count : Nat) : Draw :=
  { d with colour := BitVec.ofNat 64 (recNat t 0 8), pitch := recNat t 8 4, width := recNat t 0xC 2, height := recNat t 0xE 2
           format := recNat t 0x10 4, depth := BitVec.ofNat 64 (recNat t 0x18 8), total := count, phase := .bin }

/-- The binner starts: count, render target and pixel header. -/
def openDraw (s : State) (d : Draw) : State :=
  let bad := fun (s : State) => s.modDraw d.launch Draw.stop
  match drawRead s d d.target 32 with
  | (s, .wait) => s
  | (s, .fail) => bad s
  | (s, .bytes t) =>
    match drawRead s d d.prims 4 with
    | (s, .wait) => s
    | (s, .fail) => bad s
    | (s, .bytes n) =>
      match pixelHeader s d with
      | (s, .error none) => s
      | (s, .error (some _)) => bad s
      | (s, .ok (h, ps)) =>
        if d.cap < leNat n || !d.formatOk (recNat t 0x10 4) then bad s
        else s.modDraw d.launch (fun d => { d.opened t (leNat n) with pixHdr := h, pixPatches := ps })

/-- The next primitive of the draw is binned, or the batch goes to the rasteriser. -/
def binNext (s : State) (d : Draw) : State :=
  let l := d.launch
  if d.total ≤ d.next then s.modDraw l (fun d => { d with phase := if d.binned = [] then .written else .raster })
  else
    match drawRead s d (d.primAt d.next).1 (d.primAt d.next).2 with
    | (s, .wait) => s
    | (s, .fail) => s.modDraw l Draw.stop
    | (s, .bytes b) =>
      let tiles := tilesTouched (fragsOf d d.next b)
      let room := d.binBytes / 8
      if room < tiles.length then s.modDraw l Draw.stop
      else if room < d.entries + tiles.length then s.modDraw l (fun d => { d with overflow := true, phase := .raster })
      else
        let data := tiles.flatMap (fun t => natLe 8 (Config.binEntry d.next t.1 t.2).toNat)
        let va := d.binBuf + BitVec.ofNat 64 (8 * d.entries)
        if !drawReady s d va data.length then s
        else
        match drawWrite s d va data 0 with
        | none => s.modDraw l Draw.stop
        | some (s, t) =>
          s.modDraw l (fun d => { d with binned := d.binned ++ [(d.next, b)], entries := d.entries + tiles.length, next := d.next + 1
                                         wct := max d.wct t })

/-- DRAW_BINNING: after the mesh stage's last workgroup has ended, the binner opens the draw, then bins primitive by primitive. -/
def execDrawBinning (l : Nat) (s : State) : Out :=
  match s.findDraw l, s.findLaunch l with
  | some d, some x =>
    match d.phase with
    | .mesh => .next (if allEnded s x && x.wct ≤ s.gt then openDraw s d else s)
    | .bin => .next (binNext s d)
    | _ => .next s
  | _, _ => .next s

/-! ### Rasterising: the pixel stage starts (R237) -/

/-- The number of a draw's pixel stage: past the 48 bits of R184. -/
def pixelNumber (l : Nat) : Nat := 2 ^ 49 + l

/-- The pixel stage of a draw as gangs of threads in fragment order. -/
def pixelLaunch (x : Launch) (d : Draw) (count : Nat) : Launch :=
  { x with no := pixelNumber x.no, record := 0, hdr := d.pixHdr, patches := d.pixPatches, count := count, ranges := [], after := none
           gangs := d.pixHdr.lastGang count + 1, nextGang := 0, status := none, killed := false, done := false, wct := 0, kindled := none
           heldKindles := [], draw := some x.no, written := false, endAt := none }

/-- Fragments cut into gangs. -/
def pixelGangs (no per : Nat) : Nat → Nat → List Frag → List Gang
  | 0, _, _ => []
  | n + 1, i, fs =>
    { launch := no, no := i, cluster := 0, ox := 0, oy := 0, state := .waiting, frags := fs.take per } :: pixelGangs no per n (i + 1) (fs.drop per)

/-- RASTERISE: the fragments of the batch, in primitive order, each a thread of the pixel stage. -/
def execRasterise (l : Nat) (s : State) : Out :=
  match s.findDraw l, s.findLaunch l with
  | some d, some x =>
    if d.phase ≠ .raster then .next s
    else
      let fs := d.binned.flatMap (fun p => fragsOf d p.1 p.2)
      let after : DrawPhase := if d.next < d.total then .bin else .written
      let clear := fun (d : Draw) => { d with binned := [], entries := 0 }
      if fs = [] then .next (s.modDraw l (fun d => { clear d with phase := after }))
      else
        let pl := pixelLaunch x d fs.length
        let per := 8 * d.pixHdr.tgs * (d.pixHdr.gx * d.pixHdr.gy)
        .next ({ s with launches := s.launches ++ [pl], gangs := s.gangs ++ pixelGangs pl.no per pl.gangs 0 fs }.modDraw l
          (fun d => { clear d with phase := .pixels, pixLaunch := some pl.no }))
  | _, _ => .next s

/-! ### The pixel back end (R237) -/

/-- The first fragment that is still to be written: its gang and itself. -/
def nextFrag (s : State) (n : Nat) : Option (Nat × Frag) :=
  let gs := sortBy (fun (a b : Gang) => decide (a.no < b.no)) (s.gangs.filter (fun g => g.launch = n && g.frags ≠ []))
  match gs with
  | [] => none
  | g :: _ => g.frags.head?.map (fun f => (g.no, f))

/-- A colour component of format 1: clamped to [0, 1], 255x to the nearest, ties to even; a NaN by log 13. -/
def unorm8 (x : W32) : Byte :=
  let n := x.toNat
  if fmtF32.isNan n then Config.unormNan x
  else if fmtF32.neg n then 0
  else if 0x3F800000 ≤ n then 255
  else BitVec.ofInt 8 (((fmtF32.dy n).mul ⟨255, 0⟩).toInt 0).1

/-- The bytes of a colour. -/
def colourBytes (format : Nat) (c : List W32) : List Byte :=
  if format = 0 then c.flatMap (fun x => natLe 4 x.toNat) else c.map unorm8

/-- The writes of a fragment that passed: its bytes, each run with its address. DESIGN CHOICE (log 13): the pitch counts bytes. -/
def fragWrites (d : Draw) (f : Frag) (c : List W32) : List (W64 × List Byte) :=
  let depth := if d.depth = 0 then [] else [(d.depth + BitVec.ofNat 64 (4 * (f.y * d.width + f.x)), natLe 4 f.z.toNat)]
  let size := if d.format = 0 then 16 else 4
  depth ++ [(d.colour + BitVec.ofNat 64 (f.y * d.pitch + f.x * size), colourBytes d.format c)]

/-- The same under an image of the back end. -/
def imageWrites (image : List Byte) (f : Frag) (c : List W32) : List (W64 × List Byte) :=
  let frag := natLe 4 f.x ++ natLe 4 f.y ++ natLe 4 f.z.toNat ++ natLe 4 f.prim ++ c.flatMap (fun x => natLe 4 x.toNat)
  (Config.imagePixel image frag).map (fun p => (p.1, [p.2]))

/-- z lies below the stored depth. -/
def depthPasses (z stored : Nat) : Bool := !fmtF32.isNan z && !fmtF32.isNan stored && fmtF32.lt z stored

/-- A list of writes in order; the draw's latest WCT takes theirs in, and a write with no page ends the draw in error. -/
def drawWrites (s : State) (d : Draw) (ws : List (W64 × List Byte)) : State :=
  ws.foldl (fun s (w : W64 × List Byte) =>
    match drawWrite s d w.1 w.2 0 with
    | none => s.modDraw d.launch (fun d => { d with error := true, total := d.next })
    | some (s, t) => s.modDraw d.launch (fun d => { d with wct := max d.wct t })) s

/-- A fragment's colour through the depth test and into the render target: nothing when the home must be waited for. -/
def writeFrag (s : State) (d : Draw) (f : Frag) (c : List W32) : Option State :=
  let image := d.imageOf 3
  let iw := imageWrites image f c
  if image ≠ [] then (if iw.all (fun w => drawReady s d w.1 w.2.length) then some (drawWrites s d iw) else none)
  else
    let ws := fragWrites d f c
    if !ws.all (fun w => drawReady s d w.1 w.2.length) then none
    else if d.depth = 0 then some (drawWrites s d ws)
    else
      match drawRead s d (d.depth + BitVec.ofNat 64 (4 * (f.y * d.width + f.x))) 4 with
      | (_, .wait) => none
      | (s, .fail) => some (s.modDraw d.launch (fun d => { d with error := true, total := d.next }))
      | (s, .bytes b) => some (if depthPasses f.z.toNat (leNat b) then drawWrites s d ws else s)

/-- The pixel stage leaves the device; binning goes on, or every write has been made. -/
def closePixels (s : State) (d : Draw) (n : Nat) : State :=
  let p := s.launchOf n
  let s := s.modLaunch d.launch (fun l => { l with wct := max l.wct p.wct, killed := l.killed || p.killed })
  { s with launches := s.launches.filter (fun x => x.no ≠ n), gangs := s.gangs.filter (fun g => g.launch ≠ n) }.modDraw d.launch
    (fun d => { d with pixLaunch := none, phase := if d.next < d.total then .bin else .written })

/-- PIXEL_BACK_END_WRITE: when the pixel stage is done, its fragments one after another, in primitive order. -/
def execPixelBackEndWrite (l : Nat) (s : State) : Out :=
  match s.findDraw l with
  | none => .next s
  | some d =>
    match d.phase, d.pixLaunch with
    | .pixels, some n =>
      if !(s.launchOf n).done then .next s
      else
        match nextFrag s n with
        | none => .next (closePixels s d n)
        | some (g, f) =>
          let r := match f.done with | some (some c) => writeFrag s d f c | _ => some s
          match r with
          | none => .next s
          | some s => .next (s.modGang n g (fun x => { x with frags := x.frags.drop 1 }))
    | _, _ => .next s

/-! ### The release word (R239) -/

/-- The release word: the draw's number and its state. -/
def Draw.word (d : Draw) : List Byte :=
  natLe 4 d.number.toNat ++ natLe 4 (1 + (if d.overflow then 2 else 0) + (if d.error then 4 else 0))

/-- DRAW_RELEASE: every write acknowledged and GT at the latest WCT: the release word, as a release. -/
def execDrawRelease (l : Nat) (s : State) : Out :=
  match s.findDraw l with
  | none => .next s
  | some d =>
    if d.phase ≠ .written || s.gt < d.wct || !drawReady s d d.release 8 then .next s
    else
      let (s, t) := match drawWrite s d d.release d.word d.wct with | some r => r | none => (s, d.wct)
      .next ((s.modDraw l (fun d => { d with phase := .released })).modLaunch l (fun x => { x with wct := max x.wct t }))

end Sys2Proof.Machine
end

