-- ==== Sys2Proof/Machine/Embers.lean ====
section
/-! DEFINITION. Opcodes 0xA0-0xA2: the ember instructions at issue (R148-R150, R156, R160, R307). What the home does is in
Memory events (R151-R153, R157, R158). -/

namespace Sys2Proof.Machine

/-- R97 for an ember operation of 16 bytes: a contribution needs w as a write does, but R161's trap is not for it. -/
def emberAccess (s : State) (g : Tg) (contribution : Bool) (va : W64) : Except Nat Target :=
  if contribution then checkUnitWrite s g 16 16 va else checkAccess s g .read 16 16 va

/-- One thread's ember: its place, its region's number and entry. -/
structure EmberAt where
  t : Nat
  va : W64
  pa : Nat
  n : Nat
  region : EmberRegion
  deriving DecidableEq, Repr, Inhabited

/-- The ember of a checked access: on an ember page, in a valid region (R149). -/
def emberAt (s : State) (c : Nat) (a : Acc1) : Option EmberAt :=
  match a.target with
  | .mem pa 1 _ _ => (emberRegionOf s c a.va).map (fun r => ⟨a.t, a.va, pa, r.1, r.2⟩)
  | _ => none

/-- The accesses of the threads: the faults of R97, those of R149, and the embers. -/
def emberChecks (s : State) (contribution : Bool) (vas : List (Nat × W64)) : List (Option TrapInfo) × List EmberAt :=
  let g := s.tg
  let acc : Access := if contribution then .write else .read
  let rs := vas.map (fun x => (x.1, x.2, emberAccess s g contribution x.2))
  let first := threadFault acc (rs.map (fun r => (r.1, r.2.1, errOf r.2.2)))
  let es := rs.map (fun r => (r.1, r.2.1, match r.2.2 with | .ok t => emberAt s g.ctx ⟨r.1, r.2.1, t⟩ | .error _ => none))
  let second := threadFault acc (es.map (fun e => (e.1, e.2.1, if e.2.2.isSome then none else some 0x06)))
  ([first, second], es.filterMap (fun e => e.2.2))

/-- The round regions that a set of embers names, each once. -/
def roundsOf (es : List EmberAt) : List Nat :=
  es.foldl (fun ns e => let n := e.region.rr.toNat; if ns.contains n then ns else ns ++ [n]) []

/-- How the round values of R148 come: at hand, or by reads of the counters. -/
inductive Rounds where
  | ready (r : Nat → W32)
  | waits (s : State)

/-- The core's views of the regions, taken (R138). -/
def noteViews (s : State) (ns : List Nat) : State := ns.foldl (fun s n => noteView s s.tg.core s.tg.ctx n) s

/-- r of R148 for each round region: the core's view; in a deterministic launch the counter, read in program order. -/
def roundValues (s : State) (ns : List Nat) : Rounds :=
  let g := s.tg
  let s := noteViews s ns
  if !s.det then
    .ready (fun n => if (roundRegion s g.ctx n).isSome then viewOf s g.core g.ctx n else 0)
  else
    let s := ns.foldl (fun s n => match roundRegion s g.ctx n with | some r => cachePage s g.core g.ctx r.cva | none => s) s
    let accs := (mapFrom 0 (fun i n => (i, n)) ns).filterMap (fun x =>
      match roundRegion s g.ctx x.2 with
      | none => none
      | some r => (paOf s g.core g.ctx r.cva).map (fun pa => (⟨x.1, r.cva, .mem pa 0 false (s.isRemote pa)⟩ : Acc1)))
    match syncRead s 9 etU32 4 accs with
    | .waits s => .waits s
    | .values got =>
      .ready (fun n =>
        match (mapFrom 0 (fun i m => (i, m)) ns).find? (fun x => x.2 = n) with
        | none => 0
        | some x => match got.find? (fun p => p.t = x.1) with | some p => p.data.setWidth 32 | none => 0)

/-- The contribution of an operand, none when R150 drops it. -/
def estOf (x : W128) : Option Contribution :=
  let v : W32 := x.setWidth 32
  if fmtF32.isNan v.toNat || fmtF32.isInf v.toNat then none else some (.est v)

def emrgOf (x : W128) : Option Contribution :=
  let f := fmtF32
  let wb : W32 := x.extractLsb' 0 32
  let mb : W32 := x.extractLsb' 32 32
  let m2 : W32 := x.extractLsb' 64 32
  let odd := fun (v : W32) => f.isNan v.toNat || f.isInf v.toNat
  let below := fun (v : W32) => f.neg v.toNat && !f.isZero v.toNat
  if odd wb || odd mb || odd m2 || below wb || below m2 then none else some (.emrg wb mb m2)

/-- Contributions sent, one for each operand that was not dropped, in ascending t (R150, R156, R160). -/
def sendContributions (s : State) (es : List EmberAt) (round : Nat → W32) (c : Nat → Option Contribution) : State :=
  let g := s.tg
  let l := s.launch
  let sent := es.filterMap (fun e => (c e.t).map (fun x => (e, x)))
  let msgs : List Msg := sent.map (fun p =>
    { tg := g.key, op := g.nextOp, t := p.1.t, core := g.core, ctx := g.ctx, pa := p.1.pa
      ask := .ember p.2 (round p.1.region.rr.toNat) p.1.region ⟨g.wid l p.1.t, vget g.embers p.1.t⟩ s.det })
  if msgs = [] then s.modTg (fun g => g.doneOp .e)
  else
    let s := msgs.foldl (fun s m => dropCopy s m.core (lineOf m.pa)) { s with net := s.net ++ msgs }
    s.modTg (fun g =>
      { g.addOp { g.opOn (some .e) with need := msgs.length, remote := msgs.any (fun m => s.isRemote m.pa) } with
        unack := g.unack + msgs.length
        embers := sent.foldl (fun v (p : EmberAt × Contribution) => vset v p.1.t (vget v p.1.t + 1)) g.embers })

/-- The mould of EST and EMRG: `bits` is the width of the operand, `c` its contribution. -/
def contribute (bits : Nat) (c : W128 → Option Contribution) (d a b : Opnd) (s : State) : Out :=
  onTg (sw := true) s (fun g =>
    let m := g.active
    let x : Shape := ⟨[(b, 32), (d, bits)], .zr, 32, true⟩
    if m = 0 then idle s [b] false true
    else
      guarded s [check (!(isVReg d || isSReg d) || !addrOk s.hdr a) 0x02 m, x.operandTrap s m,
          check (g.et ≠ etEmb || !s.hdr.emb) 0x13 m, x.bindTrap s m]
        (if x.pending g || (opndSpan a 64).any g.pending || 255 ≤ g.count .e then registerWait s true
         else if g.acquiring || !queuesReady s (queueWords g x.reads (beatsOf m).length) []
         then queueWait s (queueWords g x.reads (beatsOf m).length) []
         else
           let s := noteEmbers s g.ctx
           match readSources s true m x.reads 0 ⟨[], 0, s, []⟩ with
           | .stop o => o
           | .go r =>
             let (faults, es) := emberChecks s true (effVas g a r 0 m)
             guarded s faults
               (match roundValues s (roundsOf es) with
                | .waits s => waitIn s false
                | .ready round =>
                  let con := fun t => c (r.at 1 t)
                  let fl := fun t => (if (con t).isNone then flagNv else 0) ||| (if bitOf r.poison t then flagPz else 0)
                  let s1 := noteViews r.st (roundsOf es)
                  let s1 := s1.raise (flagsOf m fl)
                  match flagTrap s1.tg.fptrap m fl with
                  | some i => trap s1 i
                  | none =>
                    let s1 := sendHeld (vasTouched s1 (es.map (fun e => e.va))) (emberAccs es)
                    doneSwitch ((sendContributions s1 es round con).modTg (fun g => (advanceStreams g r.streams).loseOlder)))))
where
  /-- The pages of the addresses, cached. -/
  vasTouched (s : State) (vas : List W64) : State := vas.foldl (fun s va => cachePage s s.tg.core s.tg.ctx va) s
  /-- The embers as accesses. -/
  emberAccs (es : List EmberAt) : List Acc1 := es.map (fun e => ⟨e.t, e.va, .mem e.pa 1 false false⟩)

def execEst (d a b : Opnd) (s : State) : Out := contribute 32 estOf d a b s
def execEmrg (d a b : Opnd) (s : State) : Out := contribute 128 emrgOf d a b s

/-- ELD (R149, R153, R156). -/
def execEld (d a b : Opnd) (s : State) : Out :=
  onTg (sw := true) s (fun g =>
    let m := g.active
    let x : Shape := ⟨[(b, 32)], d, 128, true⟩
    let ts := x.readers m
    if m = 0 then idle s [b] true true
    else
      guarded s [check (!(isVReg d || isSReg d) || !addrOk s.hdr a) 0x02 m, x.operandTrap s m,
          check (g.et ≠ etEmb || !s.hdr.emb) 0x13 m, x.bindTrap s m]
        (if x.pending g || (opndSpan a 64).any g.pending || 255 ≤ g.count .e then registerWait s true
         else if g.acquiring || !queuesReady s (queueWords g x.reads (beatsOf ts).length) []
         then queueWait s (queueWords g x.reads (beatsOf ts).length) []
         else
           let s := noteEmbers s g.ctx
           match readSources s true ts x.reads 0 ⟨[], 0, s, []⟩ with
           | .stop o => o
           | .go r =>
             let (faults, es) := emberChecks s false (effVas g a r 0 ts)
             guarded s faults
               (match roundValues s (roundsOf es) with
                | .waits s => waitIn s false
                | .ready round =>
                  let s1 := noteViews r.st (roundsOf es)
                  let (s1, bad) := poisonTrap s1 r.poison
                  match bad with
                  | some i => trap s1 i
                  | none =>
                    let s1 := sendHeld (es.foldl (fun s e => cachePage s s.tg.core s.tg.ctx e.va) s1) (contribute.emberAccs es)
                    let l := s1.launch
                    let msgs : List Msg := es.map (fun e =>
                      { tg := g.key, op := s1.tg.nextOp, t := e.t, core := g.core, ctx := g.ctx, pa := e.pa
                        ask := .eld (round e.region.rr.toNat) e.n e.region e.va ⟨g.wid l e.t, vget g.elds e.t⟩ s1.det })
                    let sink : Sink := ⟨d, BitVec.ofNat 4 etEmb, ts, true⟩
                    doneSwitch ({ s1 with net := s1.net ++ msgs }.modTg (fun g =>
                      let g := ((advanceStreams g r.streams).shift zeroLatch (some g.nextOp)).loseOlder
                      { g.addOp { g.opOn (some .e) with sink := some sink, need := msgs.length, load := true
                                                        remote := msgs.any (fun m => s1.isRemote m.pa) } with
                        elds := es.foldl (fun v (e : EmberAt) => vset v e.t (vget v e.t + 1)) g.elds })))))

end Sys2Proof.Machine
end

