-- ==== Sys2Proof/Machine/Faults.lean ====
section
/-! DEFINITION. A fetched word that is no instruction (R46, R47), a fetch that fails (R61), and the end of a slow path (R87). -/

namespace Sys2Proof.Machine

/-- ILLEGAL_INSTRUCTION: Trap(0x01) with the current mask, whatever the guard. -/
def execIllegalInstruction (s : State) : Out := onAny s (fun g => trap s { cause := 0x01, mask := g.cm })

/-- INSTRUCTION_FETCH_FAULT: the fetch's fault at the PC, before any word is decoded. -/
def execInstructionFetchFault (s : State) : Out :=
  onAny s (fun g =>
    match fetchAt s g g.pc with
    | .fault e => trap s { cause := e, mask := g.cm, va := g.pc, access := Access.fetch.code }
    | .word _ => .next s)

/-- SLOW_PATH_COMPLETION: the waiting TG is ready again. -/
def execSlowPathCompletion (t : TgKey) (s : State) : Out := .next (s.modTgAt t (fun g => { g with slow := false }))

end Sys2Proof.Machine
end

