-- ==== Sys2Proof/Machine/Logic.lean ====
section
/-! DEFINITION. Opcodes 0x11-0x17 (R285, R289, R341, R356, R380) and the functions 0x20-0x27 (R298, R309, R329, R347, R354, R358,
R365). -/

namespace Sys2Proof.Machine

/-- Every type but emb (R285). -/
def anyLogic (et : Nat) : Bool := et ≠ 13

def execAnd (d a b : Opnd) (w : Bool) (s : State) : Out :=
  plainInstr s d w [a, b] false anyLogic (fun _ r t => { val := r.at 0 t &&& r.at 1 t })

def execOr (d a b : Opnd) (w : Bool) (s : State) : Out :=
  plainInstr s d w [a, b] false anyLogic (fun _ r t => { val := r.at 0 t ||| r.at 1 t })

def execXor (d a b : Opnd) (w : Bool) (s : State) : Out :=
  plainInstr s d w [a, b] false anyLogic (fun _ r t => { val := r.at 0 t ^^^ r.at 1 t })

/-- The width in which a shift amount is read: a register of 32 bits zero-extended, or 64 bits (R356). -/
def amountBits (o : Opnd) : Nat := match o with | .b _ => 64 | .s _ => 64 | .p _ => 64 | .zr => 64 | .tix => 64 | _ => 32

/-- The mould of the shifts and BFX: the second source is read in `bBits` of the container's width. -/
def shiftInstr (s : State) (d a b : Opnd) (w : Bool) (bBits : Nat → Nat) (types : Nat → Bool) (f : Tg → Nat → Nat → Res) : Out :=
  onTg (sw := anyQ [d, a, b]) s (fun g =>
    let bits := etContainer g.et
    let m := g.active
    let x : Shape := ⟨[(a, bits), (b, bBits bits)], d, bits, false⟩
    if m ≠ 0 && w && d ≠ .zr then trap s { cause := 0x02, mask := m }
    else
      elemInstr s x [] (types g.et) (etSext g.et) m false []
        (fun r t => packRes g.et [f g ((r.at 0 t).toNat % 2 ^ etWidth g.et) (r.at 1 t).toNat]) (fun _ g => g))

/-- a × 2^n through IntResult; an amount past the width acts as the width does (R356). -/
def shlElem (et : Nat) (sat : Bool) (x n : Nat) : Res := intResult et sat (intVal et x * (2 ^ min n 64 : Nat))

def shrElem (et x n : Nat) : Res := .ok (x % 2 ^ etWidth et / 2 ^ min n 64)

/-- The arithmetic shift reads its bits signed whatever the type. -/
def sraElem (et x n : Nat) : Res :=
  let w := etWidth et
  let y := x % 2 ^ w
  let v : Int := if 2 ^ (w - 1) ≤ y then (y : Int) - 2 ^ w else y
  .ok (wrapBits w (v / (2 ^ min n 64 : Nat)))

def execShl (d a b : Opnd) (w : Bool) (s : State) : Out :=
  shiftInstr s d a b w (fun _ => amountBits b) anyInt (fun g x n => shlElem g.et (gmSat g.gm) x n)

def execShr (d a b : Opnd) (w : Bool) (s : State) : Out :=
  shiftInstr s d a b w (fun _ => amountBits b) anyInt (fun g x n => shrElem g.et x n)

def execSra (d a b : Opnd) (w : Bool) (s : State) : Out :=
  shiftInstr s d a b w (fun _ => amountBits b) anyInt (fun g x n => sraElem g.et x n)

/-- A bit field of `a`; bits at or above W read as 0 (R289). -/
def bfxElem (et : Nat) (signed : Bool) (a c : Nat) : Res :=
  let w := etWidth et
  let len := min (c / 256 % 256) w
  let f := a % 2 ^ w / 2 ^ (c % 256) % 2 ^ len
  if len = 0 then .ok 0
  else if signed && f / 2 ^ (len - 1) % 2 = 1 then .ok (wrapBits w ((f : Int) - 2 ^ len))
  else .ok f

def execBfx (d a b : Opnd) (w : Bool) (signed : Bool) (s : State) : Out :=
  shiftInstr s d a b w (fun bits => bits) (fun et => 4 ≤ et && et ≤ 7) (fun g x c => bfxElem g.et signed x c)

/-! ### Functions -/

/-- The IEEE element types (R87). -/
def anyIeee (et : Nat) : Bool := 8 ≤ et && et ≤ 11

/-- A function of one IEEE element. -/
def ieee1 (et : Nat) (f : Fmt → Nat → Res) (x : Nat) : Res := match etFmt et with | some g => f g x | none => .ok x

def execRcp (d a : Opnd) (w : Bool) (s : State) : Out :=
  funcInstr s 0x20 d w [a] anyIeee (fun g r t => lift1 g.et (ieee1 g.et (fun f => f.rcp g.rm)) (r.at 0 t))

def execRsq (d a : Opnd) (w : Bool) (s : State) : Out :=
  funcInstr s 0x21 d w [a] anyIeee (fun g r t => lift1 g.et (ieee1 g.et (fun f => f.rsq g.rm)) (r.at 0 t))

/-- RSQS (R89, R354): f32 only, one pass, not switch-capable. -/
def execRsqs (d a : Opnd) (w : Bool) (s : State) : Out :=
  plainInstr s d w [a] false (fun et => et = etF32) (fun _ r t => lift1 etF32 rsqsF32 (r.at 0 t))

def execSqrt (d a : Opnd) (w : Bool) (s : State) : Out :=
  funcInstr s 0x23 d w [a] anyIeee (fun g r t => lift1 g.et (ieee1 g.et (fun f => f.sqrt g.rm)) (r.at 0 t))

def execEx2 (d a : Opnd) (w : Bool) (s : State) : Out :=
  funcInstr s 0x24 d w [a] anyIeee (fun g r t => lift1 g.et (ieee1 g.et (fun f => f.ex2 g.rm)) (r.at 0 t))

def execLg2 (d a : Opnd) (w : Bool) (s : State) : Out :=
  funcInstr s 0x25 d w [a] anyIeee (fun g r t => lift1 g.et (ieee1 g.et (fun f => f.lg2 g.rm)) (r.at 0 t))

def execSinp (d a : Opnd) (w : Bool) (s : State) : Out :=
  funcInstr s 0x26 d w [a] anyIeee (fun g r t => lift1 g.et (ieee1 g.et (fun f => f.sinp g.rm)) (r.at 0 t))

def execCosp (d a : Opnd) (w : Bool) (s : State) : Out :=
  funcInstr s 0x27 d w [a] anyIeee (fun g r t => lift1 g.et (ieee1 g.et (fun f => f.cosp g.rm)) (r.at 0 t))

end Sys2Proof.Machine
end

