-- ==== Sys2Proof/Machine/Memory.lean ====
section
/-! DEFINITION. Opcodes 0x50-0x5D: loads, stores, fences, prefetches, monitors, waits, round counters and full/empty words
(R114-R118, R124-R126, R140-R142, R315, R324-R328, R334, R335, R344, R346, R366-R368, R378). -/

namespace Sys2Proof.Machine

def execLd (d a b : Opnd) (w : Bool) (s : State) : Out := loadInstr .plain d a b w s
def execLdb (d a b : Opnd) (w : Bool) (s : State) : Out := loadInstr .bounded d a b w s
def execLda (d a b : Opnd) (w : Bool) (s : State) : Out := loadInstr .acquire d a b w s
def execSt (d a b : Opnd) (s : State) : Out := storeInstr false d a b s
def execStr (d a b : Opnd) (s : State) : Out := storeInstr true d a b s

/-- FENCE (R124, R125): kind 0 full, 1 release, 2 acquire, 3 lease-only. -/
def execFence (k : BitVec 2) (sc : BitVec 3) (s : State) : Out :=
  onTg (sw := true) s (fun g =>
    if g.active = 0 then idle s [] false true
    else
      let s := sendQuantum s g.key
      let rel := k = 0 || k = 1
      let acq := k = 0 || k = 2
      let leased := k ≠ 3 || decide (g.wctMax ≤ s.gt)
      if (rel && !released s sc.toNat) || (acq && !acquirable s) || !leased then waitIn s false
      else done ((if acq then acquire s else s).modTg Tg.loseOlder))

/-- A prefetch of one access (R344): none where it is dropped. -/
def prefetchMsg (s : State) (llc : Bool) (a : Acc1) : Option Msg :=
  match a.target with
  | .mem pa attr nc remote =>
    if attr = 1 || attr = 3 || remote || s.poisoned (lineOf pa) (attr = 2) then none
    else
      let f := fillReq s a.va attr nc remote
      some { tg := s.tg.key, op := s.tg.nextOp, t := a.t, core := s.tg.core, ctx := s.tg.ctx, pa := pa, rep := attr = 2
             ask := .prefetch { f with keep := !llc } }
  | _ => none

/-- The threads whose offset is a stream element that fails R97: their prefetch is dropped with it (R344). -/
def prfDropped (s : State) (b : Opnd) (m : Mask) : Mask :=
  match b with
  | .sp n =>
    match vget s.tg.sp n.toNat with
    | some x =>
      let size := etBytes s.tg.et
      (streamVas x x.pos m).foldl (fun k v =>
        if (errOf (checkAccess s s.tg .read size size v.2)).isSome then k ||| (1#8 <<< v.1) else k) 0
    | none => 0
  | _ => 0

/-- PRF (R344). An address in the port window is dropped like any other that fails R97, as R344 says and R96 does not (log 56). -/
def execPrf (a b : Opnd) (llc : Bool) (s : State) : Out :=
  onTg (sw := anyQ [b]) s (fun g =>
    let m := g.active
    let x : Shape := ⟨[(b, 32)], .zr, 32, false⟩
    if m = 0 then idle s [b] false x.switches
    else
      guarded s [check (!addrOk s.hdr a) 0x02 m, x.operandTrap s m, x.bindTrap s m]
        (if x.pending g || (opndSpan a 64).any g.pending || g.acquiring then registerWait s x.switches
         else if !queuesReady s (queueWords g x.reads (beatsOf m).length) []
         then queueWait s (queueWords g x.reads (beatsOf m).length) []
         else
           let m := maskDiff m (prfDropped s b m)
           match readSources s x.switches m x.reads 0 ⟨[], 0, s, []⟩ with
           | .stop o => o
           | .go r =>
             let (_, accs) := checkAll s .read 1 1 (effVas g a r 0 m)
             let s1 := touchPages (r.st.raise (if r.poison = 0 then 0 else flagPz)) accs
             let msgs := accs.filterMap (prefetchMsg s1 llc)
             done ({ s1 with net := s1.net ++ msgs }.modTg (fun g => ((advanceStreams g r.streams).after x.switches).skipOp))))

/-! ### Monitors (R117, R334, R335) -/

/-- Monitors armed in the slice of a line by other TGs. -/
def monitorsIn (s : State) (no : Nat) : Nat :=
  (s.rest.filter (fun g => match g.monitor with
    | some m => !m.fired && !m.overflow && homeOf (m.line * 128) = homeOf (no * 128)
    | none => false)).length

/-- MON: the address of the lowest active thread. -/
def execMon (a b : Opnd) (s : State) : Out :=
  onTg (sw := anyQ [b]) s (fun g =>
    let m := g.active
    let x : Shape := ⟨[(b, 32)], .s 0, 32, false⟩
    let sw := isQReg b
    if m = 0 then idle s [b] false sw
    else
      guarded s [check (!addrOk s.hdr a) 0x02 g.cm, causeTrap (readCause s.hdr g true b 32) m, check (unbound g b) 0x0E m]
        (if (opndSpan a 64).any g.pending || Shape.pending ⟨[(b, 32)], .zr, 32, false⟩ g then registerWait s sw
         else if g.acquiring then registerWait s sw
         else if !queuesReady s (queueWords g x.reads 1) [] then queueWait s (queueWords g x.reads 1) []
         else
           match readSources s sw (1#8 <<< lowest m) x.reads 0 ⟨[], 0, s, []⟩ with
           | .stop o => o
           | .go r =>
             let va := effVa g a (r.at 0 (lowest m)) (lowest m)
             match checkAccess s g .read 1 1 va with
             | .error e => trap s { cause := e, mask := g.cm, va := va, access := 1 }
             | .ok (.mem pa attr _ remote) =>
               if attr = 3 || remote then trap s { cause := 0x06, mask := g.cm, va := va, access := 1 }
               else if s.toLine g.key (lineOf pa) ≠ [] then registerWait s sw
               else
                 let no := lineOf pa
                 let full := decide (64 ≤ monitorsIn s no)
                 let s1 := dropCopy (cachePage r.st g.core g.ctx va) g.core no
                 let s1 := if full && !s1.overflowed.contains (homeOf pa)
                   then { s1 with overflowed := homeOf pa :: s1.overflowed } else s1
                 done (s1.modTg (fun g => ({ g with monitor := some ⟨no, false, full⟩ }).after sw))
             | .ok _ => trap s { cause := 0x06, mask := g.cm, va := va, access := 1 }))

/-- MWAIT consumes a monitor that has fired, or waits for it. -/
def execMwait (s : State) : Out :=
  onTg (sw := true) s (fun g =>
    if g.active = 0 then idle s [] false true
    else
      match g.monitor with
      | some m => if m.fired then done (s.modTg (fun g => ({ g with monitor := none }).loseOlder)) else waitIn s false
      | none => done (s.modTg Tg.loseOlder))

/-- The path of a selector (R114). -/
def pathAt (n : Nat) : Path := match n with | 0 => .g | 1 => .s | 2 => .c | 3 => .e | 4 => .f | _ => .h

def allPaths : List Path := [.g, .s, .c, .e, .f, .h]

/-- The counters that a selector names are at most `n`. -/
def countersDown (g : Tg) (c n : Nat) : Bool :=
  if c = 6 then allPaths.all (fun p => g.count p ≤ n) else g.count (pathAt c) ≤ n

/-- WAITC (R116, R378). -/
def execWaitc (a : Opnd) (c : BitVec 3) (s : State) : Out :=
  onTg (sw := true) s (fun g =>
    if g.active = 0 then idle s [] false true
    else
      guarded s [check (!sOrZr s.hdr a) 0x02 g.cm]
        (if g.pending a then registerWait s true
         else if countersDown g c.toNat (readS g a).toNat then done (s.modTg Tg.loseOlder)
         else waitIn (if 5 ≤ c.toNat then sendQuantum s g.key else s) false))

/-! ### Round counters (R140, R346) -/

/-- RADV. -/
def execRadv (s : State) : Out :=
  onTg (sw := true) s (fun g =>
    if g.active = 0 then idle s [] false true
    else
      let n := gmRr g.gm
      match roundRegion s g.ctx n with
      | none => trap s { cause := 0x06, mask := g.cm }
      | some r =>
        match checkAccess s g .write 4 4 r.cva with
        | .ok (.mem pa attr _ _) =>
          if g.acquiring || !strReady s then waitIn (noteRound s g.ctx n) false
          else
            let s := cachePage (noteRound s g.ctx n) g.core g.ctx r.cva
            let m : Msg := { tg := g.key, op := g.nextOp, t := 0, core := g.core, ctx := g.ctx, pa := pa, rep := attr = 2
                             ask := .radv n g.wctMax }
            done ({ dropCopy s g.core (lineOf pa) with net := s.net ++ [m] }.modTg (fun g =>
              ({ g with unack := g.unack + 1 }).skipOp.loseOlder))
        | .ok _ => trap s { cause := 0x06, mask := g.cm, va := r.cva, access := 2 }
        | .error e => trap s { cause := e, mask := g.cm, va := r.cva, access := 2 })

/-- RCNT's result in its destination and in b0. -/
def writeCount (s : State) (d : Opnd) (m : Mask) (n : W32) : Out :=
  let x : W128 := n.setWidth 128
  done (s.modTg (fun g =>
    let g := if isSReg d then writeReg g d 64 false 0 x else (beatsOf m).foldl (fun g t => writeReg g d 32 false t x) g
    g.shift (sameLatch (n.setWidth 64)) none))

/-- RCNT's read of the counter at its home, as a coherent load (R140): rd is pending until the home answers (R115, R346). -/
def countAtHome (s : State) (d : Opnd) (m : Mask) (r : RoundRegion) : Out :=
  let g := s.tg
  let s := cachePage s g.core g.ctx r.cva
  match paOf s g.core g.ctx r.cva with
  | none => writeCount s d m 0
  | some pa =>
    let s := touchPages s [⟨0, r.cva, .mem pa 0 false (s.isRemote pa)⟩]
    let y := gather s etU32 s.tg.nextOp 4 false [⟨0, r.cva, .mem pa 0 false (s.isRemote pa)⟩]
    if y.msgs = [] then writeCount s d m (match y.got with | p :: _ => p.data.setWidth 32 | [] => 0)
    else
      let id := s.tg.nextOp
      let o : Op := { s.tg.opOn none with
                      sink := some ⟨d, BitVec.ofNat 4 etU32, if isSReg d then 1#8 <<< lowest m else m, true⟩, need := 1, load := true
                      remote := s.isRemote pa, all := true }
      done ({ s with net := s.net ++ y.msgs }.modTg (fun g => (g.shift zeroLatch (some id)).addOp o))

/-- RCNT; in a deterministic launch the counter is read at its home. -/
def execRcnt (d : Opnd) (s : State) : Out :=
  onTg s (fun g =>
    let m := g.active
    let n := gmRr g.gm
    let okD := match d with | .v _ => true | .s _ => true | .zr => true | _ => false
    if m = 0 then idle s [] true false
    else
      guarded s [check (!okD) 0x02 g.cm, causeTrap (writeCause s.hdr g (isSReg d) d (if isSReg d then 64 else 32)) g.cm]
        (if g.pending d || (s.det && g.acquiring) then registerWait s false
         else
           match roundRegion s g.ctx n with
           | none => trap s { cause := 0x06, mask := g.cm }
           | some r =>
             if s.det then countAtHome (noteRound s g.ctx n) d m r
             else
               let s := noteView s g.core g.ctx n
               writeCount s d m (viewOf s g.core g.ctx n)))

/-! ### Full/empty words (R118, R327, R328) -/

/-- The scratch word of an address: workgroup and byte offset, or the fault. -/
def feTarget (s : State) (g : Tg) (va : W64) : Except Nat (Nat × Nat × Nat × Nat) :=
  if !canonical va then .error 0x06
  else if va.toNat % 4 ≠ 0 then .error 0x04
  else
    match regionOf va with
    | .translated => .error 0x06
    | .port _ => .error 0x06
    | .reserved => .error 0x06
    | _ =>
      match placeAccess s g .read 4 va with
      | .ok (.scratch l gg w off) => .ok (l, gg, w, off)
      | _ => .error 0x06

/-- The word's bit reads full. -/
def isFull (s : State) (x : Nat × Nat × Nat × Nat) : Bool :=
  match s.findWg x.1 x.2.1 x.2.2.1 with | some w => !w.empty.contains (x.2.2.2 / 4) | none => true

def setFull (s : State) (x : Nat × Nat × Nat × Nat) (full : Bool) : State :=
  s.modWg x.1 x.2.1 x.2.2.1 (fun w =>
    let rest := w.empty.filter (fun n => n ≠ x.2.2.2 / 4)
    { w with empty := if full then rest else x.2.2.2 / 4 :: rest })

/-- The shape of an LDFE or STFE. -/
def feShape (load : Bool) (d b : Opnd) : Shape := if load then ⟨[(b, 32)], d, 32, true⟩ else ⟨[(b, 32), (d, 32)], .zr, 32, true⟩

/-- The issuing TG's LDFE or STFE waits for nothing but its words: its registers, its queues and every acquire are there (R115, R129,
R164); the words that it names. -/
def feNames (s : State) (load : Bool) (d a b : Opnd) : Option (List (Nat × Nat × Nat × Nat)) :=
  let g := s.tg
  let x := feShape load d b
  let ts := x.readers g.active
  if g.guardPending || x.pending g || (opndSpan a 64).any g.pending || g.acquiring
      || !queuesReady s (queueWords g x.reads (beatsOf ts).length) [] then none
  else
    match readSources s true ts x.reads 0 ⟨[], 0, s, []⟩ with
    | .go r =>
      if 255 ≤ r.st.tg.count .s then none
      else some ((effVas g a r 0 ts).filterMap (fun v => match feTarget s g v.2 with | .ok x => some x | .error _ => none))
    | .stop _ => none

/-- The words that a waiting TG's LDFE or STFE waits for, when nothing else keeps it, and whether it waits for them to be full. -/
def feWaits (s : State) (h : Tg) : Option (Bool × List (Nat × Nat × Nat × Nat)) :=
  if !h.on || !h.waiting || h.active = 0 || h.slow || h.poisonHold || !isResident s h || hasStopped s h || budgetDue s h then none
  else
    match decode h.word with
    | .ok (.ldfe d a b) => (feNames (s.focus h.key) true d a b).map (fun xs => (true, xs))
    | .ok (.stfe d a b) => (feNames (s.focus h.key) false d a b).map (fun xs => (false, xs))
    | _ => none

/-- Another waiting instruction that is ready shares a word and has the lower work identifier (R328). -/
def feYields (s : State) (xs : List (Nat × Nat × Nat × Nat)) : Bool :=
  let mine := s.tg.wid s.launch (lowest s.tg.active)
  s.rest.any (fun h =>
    match feWaits s h with
    | some (full, ys) =>
      ys.all (fun y => isFull s y == full) && ys.any (fun y => xs.contains y)
        && decide ((h.wid (s.launchOf h.key.launch) (lowest h.active)).toNat < mine.toNat)
    | none => false)

/-- A list with an entry twice. -/
def hasTwice {α : Type} [DecidableEq α] : List α → Bool
  | [] => false
  | x :: xs => xs.contains x || hasTwice xs

/-- The mould of LDFE and STFE. -/
def feInstr (load : Bool) (d a b : Opnd) (s : State) : Out :=
  onTg (sw := true) s (fun g =>
    let m := g.active
    let x := feShape load d b
    let ts := x.readers m
    let okD := isVReg d || isSReg d || (load && d == .zr)
    if m = 0 then idle s [b] load true
    else
      guarded s [check (g.priv ≠ .m && s.dev.maint = .service) 0x03 m, check (!okD || !addrOk s.hdr a) 0x02 m,
          x.operandTrap s m, check (!(g.et ∈ [4, 5, 10])) 0x13 m, x.bindTrap s m]
        (if x.pending g || (opndSpan a 64).any g.pending then registerWait s true
         else if g.acquiring || !queuesReady s (queueWords g x.reads (beatsOf ts).length) []
         then queueWait s (queueWords g x.reads (beatsOf ts).length) []
         else
           match readSources s true ts x.reads 0 ⟨[], 0, s, []⟩ with
           | .stop o => o
           | .go r =>
             let vas := effVas g a r 0 ts
             let rs := vas.map (fun y => (y.1, y.2, feTarget s g y.2))
             let xs := rs.filterMap (fun y => match y.2.2 with | .ok t => some t | .error _ => none)
             guarded s [threadFault (if load then .read else .write) (rs.map (fun y => (y.1, y.2.1, errOf y.2.2))),
                 check (hasTwice xs) 0x02 m]
               (if 255 ≤ r.st.tg.count .s then registerWait s true
                else if !xs.all (fun y => isFull s y == load) || feYields s xs then waitIn s false
                else
                  let pairs := (beatsOf ts).zip xs
                  let read := fun (y : Nat × Nat × Nat × Nat) =>
                    match s.findWg y.1 y.2.1 y.2.2.1 with | some w => memBytes w.scratch y.2.2.2 4 | none => []
                  let (s1, bad) := poisonTrap r.st r.poison
                  match bad with
                  | some i => trap s1 i
                  | none =>
                    let s1 := s1.modTg (fun g => advanceStreams g r.streams)
                    if load then
                      let got := pairs.map (fun p => mkPiece g.et p.1 (read p.2) false 0)
                      let sink : Sink := ⟨d, BitVec.ofNat 4 g.et, ts, true⟩
                      let s1 := xs.foldl (fun s y => setFull s y false) s1
                      done (s1.modTg (fun g =>
                        (setLatch (deliverRegs (g.shift zeroLatch none) sink got) 0 sink false got).loseOlder.doneOp .s))
                    else
                      let s1 := pairs.foldl (fun s p =>
                        setFull (scratchStore s p.2.1 p.2.2.1 p.2.2.2.1 p.2.2.2.2 (natLe 4 (r.at 1 p.1).toNat)) p.2 true) s1
                      done (s1.modTg (fun g => g.loseOlder.doneOp .s)))))

def execLdfe (d a b : Opnd) (s : State) : Out := feInstr true d a b s
def execStfe (d a b : Opnd) (s : State) : Out := feInstr false d a b s

end Sys2Proof.Machine
end

