-- ==== Sys2Proof/Machine/Move.lean ====
section
/-! DEFINITION. Opcodes 0x30-0x37 and WID (R288, R323, R336, R337, R342, R348, R349, R353, R379). -/

namespace Sys2Proof.Machine

/-- MOV (R336). -/
def execMov (d a : Opnd) (w : Bool) (s : State) : Out :=
  onTg (sw := anyQ [d, a]) s (fun g =>
    let m := g.active
    if m ≠ 0 && wideQueue (etContainer g.et) [d, a] then trap s { cause := 0x02, mask := m }
    else plainInstr s d w [a] false (fun _ => true) (fun _ r t => { val := r.at 0 t }))

/-- v or s destinations only. -/
def vOrS (d : Opnd) : Bool := isVReg d || isSReg d

/-- MOVI (R337): the immediate sign-extended to 32 bits, or to 64 in an s register. -/
def execMovi (d : Opnd) (i : BitVec 17) (s : State) : Out :=
  onTg (sw := anyQ [d]) s (fun g =>
    let m := g.active
    let x : Shape := ⟨[], d, if isSReg d then 64 else 32, false⟩
    guarded s [check (m ≠ 0 && !vOrS d) 0x02 m]
      (elemInstr s x [] true true m false []
        (fun _ _ => { val := if isSReg d then (i.signExtend 64).setWidth 128 else (i.signExtend 32).setWidth 128 })
        (fun _ g => g)))

/-- MOVH (R337): bits [31:17] replaced; an s register's upper half becomes copies of bit 31. -/
def execMovh (d : Opnd) (i : BitVec 15) (s : State) : Out :=
  onTg (sw := anyQ [d]) s (fun g =>
    let m := g.active
    let x : Shape := ⟨[(d, 32)], d, 32, false⟩
    guarded s [check (m ≠ 0 && !vOrS d) 0x02 m]
      (elemInstr s x [] true true m false []
        (fun r t => { val := BitVec.ofNat 128 (i.toNat * 2 ^ 17 + (r.at 0 t).toNat % 2 ^ 17) }) (fun _ g => g)))

/-- A container of a v register of another beat: 0 where the beat is not live (R288, R323). -/
def beatValue (g : Tg) (a : Opnd) (bits u : Nat) : W128 := if bitOf g.live u then readPlain g a bits u else 0

/-- The beat that LANE takes for thread t (R323). -/
def laneFrom (k : Nat) (n t : Nat) : Nat :=
  match k with
  | 0 => n % 8
  | 1 => t ^^^ (n % 8)
  | 2 => if n ≤ t then t - n else t
  | _ => if t + n ≤ 7 then t + n else t

def execLane (d a b : Opnd) (w : Bool) (k : BitVec 2) (s : State) : Out :=
  onTg (sw := anyQ [d, a, b]) s (fun g =>
    let bits := etContainer g.et
    let m := g.active
    let x : Shape := ⟨[(a, bits), (b, amountBits b)], d, bits, false⟩
    let okD := if w then d == .zr else isVReg d
    guarded s [check (m ≠ 0 && !(okD && isVReg a)) 0x02 m]
      (elemInstr s x [] true false m false []
        (fun r t => { val := beatValue g a bits (laneFrom k.toNat (r.at 1 t).toNat t) }) (fun _ g => g)))

/-- The highest thread of a mask. -/
def highest (m : Mask) : Nat := (beatsOf m).getLastD 0

/-- The beat that BCST takes (R288). -/
def bcstBeat (g : Tg) (b : Opnd) (k : Nat) (m : Mask) : Nat :=
  match k with
  | 0 => (readS g b).toNat
  | 1 => lowest m
  | _ => highest m

def execBcst (d a b : Opnd) (w : Bool) (k : BitVec 2) (s : State) : Out :=
  onTg (sw := anyQ [d, a, b]) s (fun g =>
    let bits := etContainer g.et
    let m := g.active
    let u := bcstBeat g b k.toNat m
    let x : Shape := ⟨if k = 0 then [(a, bits), (b, 64)] else [(a, bits)], d, bits, false⟩
    let okB := k ≠ 0 || isSReg b || b == .zr
    guarded s [check (m ≠ 0 && !(isVReg a && okB && (!w || d == .zr))) 0x02 m]
      (elemInstr s x [] true (etSext g.et) m false [check (7 < u && !x.pending g) 0x02 m]
        (fun _ _ => { val := beatValue g a bits u }) (fun _ g => g)))

/-! ### RED (R90, R91, R348, R349) -/

/-- The identity of an operation for one element (R90). -/
def redIdentity (et op : Nat) : Nat :=
  let w := etWidth et
  match etFmt et with
  | some f =>
    match op with
    | 0 => f.withSign true 0
    | 1 => f.infBits
    | _ => f.withSign true f.infBits
  | none =>
    match op with
    | 1 => wrapBits w (intMax et)
    | 2 => wrapBits w (intMin et)
    | 3 => 2 ^ w - 1
    | _ => 0

/-- combine of R91 for one element. -/
def redCombine (et rm : Nat) (sat : Bool) (op x y : Nat) : Res :=
  match op with
  | 0 => addElem et rm sat x y
  | 1 => minMaxElem et false x y
  | 2 => minMaxElem et true x y
  | 3 => .ok (x &&& y)
  | 4 => .ok (x ||| y)
  | _ => .ok (x ^^^ y)

/-- One level of the tree. -/
def redLevel (f : Nat → Nat → Res) : List Nat → List Nat × Byte
  | x :: y :: rest =>
    let r := f x y
    let (zs, b) := redLevel f rest
    (r.bits :: zs, r.flags ||| b)
  | xs => (xs, 0)

/-- The root over eight slots. -/
def redTree (f : Nat → Nat → Res) (xs : List Nat) : Res :=
  let (a, fa) := redLevel f xs
  let (b, fb) := redLevel f a
  let (c, fc) := redLevel f b
  ⟨c.headD 0, fa ||| fb ||| fc⟩

/-- Element `i` of every slot: the identity where the slot is inactive. -/
def redSlots (et op : Nat) (m : Mask) (vals : Nat → W128) (i : Nat) : List Nat :=
  beats.map (fun t => if bitOf m t then (elemsOf et (vals t)).getD i 0 else redIdentity et op)

/-- Every element reduced in its own tree. -/
def redAll (et rm : Nat) (sat : Bool) (op : Nat) (m : Mask) (vals : Nat → W128) : Elem :=
  packRes et ((upTo (etLanes et)).map (fun i => redTree (redCombine et rm sat op) (redSlots et op m vals i)))

def execRed (d a : Opnd) (c : BitVec 3) (s : State) : Out :=
  onTg (sw := anyQ [d, a]) s (fun g =>
    let bits := etContainer g.et
    let m := g.active
    let x : Shape := ⟨[(a, bits)], d, bits, false⟩
    let okD := vOrS d || d == .zr
    guarded s [check (m ≠ 0 && !(okD && isVReg a)) 0x02 m]
      (elemInstr s x [] (if c.toNat ≤ 2 then g.et ≤ 11 else anyInt g.et) (etSext g.et) m true []
        (fun r _ => redAll g.et g.rm (gmSat g.gm) c.toNat m (fun t => r.at 0 t)) (fun _ g => g)))

/-! ### RND (R92, R93, R353) -/

/-- The finalizer of R92. -/
def rndMix (z : W64) : W64 :=
  let z := (z ^^^ (z >>> 30)) * 0xBF58476D1CE4E5B9
  let z := (z ^^^ (z >>> 27)) * 0x94D049BB133111EB
  z ^^^ (z >>> 31)

def rndValue (seed wid c : W64) : W64 := rndMix (seed ^^^ wid ^^^ (c * 0x9E3779B97F4A7C15))

/-- z delivered by gm.et (R93). -/
def rndDeliver (et : Nat) (z : W64) : W128 :=
  match et with
  | 4 => (z >>> 32).setWidth 128
  | 5 => (z >>> 32).setWidth 128
  | 10 => BitVec.ofNat 128 (fmtF32.round 0 ⟨(z >>> 40).toNat, -24⟩ false).bits
  | 11 => BitVec.ofNat 128 (fmtF64.round 0 ⟨(z >>> 11).toNat, -53⟩ false).bits
  | _ => z.setWidth 128

def execRnd (d : Opnd) (w : Bool) (s : State) : Out :=
  onTg (sw := anyQ [d]) s (fun g =>
    let bits := etContainer g.et
    let m := g.active
    let l := s.launch
    let x : Shape := ⟨[], d, bits, false⟩
    let okD := if w then d == .zr else isVReg d
    guarded s [check (m ≠ 0 && !okD) 0x02 m]
      (elemInstr s x [] (g.et ∈ [4, 5, 6, 7, 10, 11]) false m false []
        (fun _ t => { val := rndDeliver g.et (rndValue l.seed (g.wid l t) (vget g.rnd t)) })
        (fun _ g => { g with rnd := (beatsOf m).foldl (fun v t => vset v t (vget v t + 1)) g.rnd })))

/-! ### PLOG (R342) -/

def plogOp (c : Nat) (a b : Mask) : Mask :=
  match c with
  | 0 => a &&& b
  | 1 => a ||| b
  | 2 => a ^^^ b
  | 3 => a &&& ~~~ b
  | 4 => a ||| ~~~ b
  | 5 => ~~~ (a &&& b)
  | 6 => ~~~ (a ||| b)
  | _ => ~~~ (a ^^^ b)

/-- A p or s register or zr: its low 8 bits. -/
def plogSrc (g : Tg) (o : Opnd) : Mask := (readPlain g o 64 0).setWidth 8

def plogSrcOk (h : Header) (o : Opnd) : Bool := match o with | .p _ => true | .zr => true | .s n => sOk h 64 n | _ => false

/-- Bits of the active threads of a p register replaced. -/
def writeMask (g : Tg) (n : BitVec 3) (m x : Mask) : Tg :=
  let old := vget g.p n.toNat
  { g with p := vset g.p n.toNat ((old &&& ~~~ m) ||| (x &&& m)) }

def execPlog (d a b : Opnd) (c : BitVec 3) (s : State) : Out :=
  onTg (sw := anyQ [d, a, b]) s (fun g =>
    let m := g.active
    if m = 0 then idle s [a, b] true false
    else
      match d with
      | .p n =>
        guarded s [check (!(plogSrcOk s.hdr a && plogSrcOk s.hdr b)) 0x02 m]
          (if [d, a, b].any g.pending then registerWait s false
           else
             let x := plogOp c.toNat (plogSrc g a) (plogSrc g b)
             done (s.modTg (fun g => (writeMask g n m x).shift (sameLatch (x.setWidth 64)) none)))
      | _ => trap s { cause := 0x02, mask := m })

/-! ### WID (R16, R379) -/

/-- Field f of a work identifier, zero-extended; of a field wider than 32 bits a v register takes the low 32 (log 57). -/
def widField (h : Header) (wid : W64) (f : Nat) : Nat := wid.toNat / 2 ^ h.fieldAt f % 2 ^ h.widthOf f

def execWid (d a : Opnd) (s : State) : Out :=
  onTg (sw := anyQ [d, a]) s (fun g =>
    let m := g.active
    let l := s.launch
    let x : Shape := ⟨[(a, 64)], d, if isSReg d then 64 else 32, false⟩
    let f := (readS g a).toNat
    guarded s [check (m ≠ 0 && !(vOrS d && isSReg a)) 0x02 m]
      (elemInstr s x [] true false m false [check (5 < f && !x.pending g) 0x02 m]
        (fun _ t => { val := BitVec.ofNat 128 (widField l.hdr (g.wid l t) f) }) (fun _ g => g)))

end Sys2Proof.Machine
end

