-- ==== Sys2Proof/Machine/Work.lean ====
section
/-! DEFINITION. Opcodes 0xC0 and 0xC2-0xC5: SPAWN up to the scheduler (R184, R362), barriers (R211, R286, R287) and the budget
(R193, R293). WID stands with the moves. -/

namespace Sys2Proof.Machine

/-- Everything of a TG's that a barrier or a release waits for is on its way: held quantum atomics are sent (R133). -/
def flushQuantum (s : State) : State := sendQuantum s s.tg.key

/-! ### SPAWN -/

/-- The checks of a record's address: aligned, read and written under R97, on a normal page (R362). -/
def recordTrap (s : State) (g : Tg) (va : W64) : Option TrapInfo :=
  let t := fun (e a : Nat) => some { cause := e, mask := g.cm, va := va, access := a : TrapInfo }
  match checkAccess s g .read 128 128 va, checkUnitWrite s g 128 128 va with
  | .error e, _ => t e 1
  | .ok _, .error e => t e 2
  | .ok (.mem _ attr _ _), .ok _ => if attr = 0 then none else t 0x06 2
  | .ok _, .ok _ => t 0x06 2

def execSpawn (d a : Opnd) (s : State) : Out :=
  onTg (sw := true) s (fun g =>
    if g.active = 0 then idle s [] false true
    else
      guarded s [check (!(sRegOk s.hdr d && sRegOk s.hdr a)) 0x02 g.cm]
        (if g.pending d || g.pending a then registerWait s true
         else
           let va := readS g a
           guarded s [recordTrap s g va]
             (let s := flushQuantum s
              if g.acquiring || !released s 4 then waitIn s false
              else
                let s := cachePage s g.core g.ctx va
                let t := lowest g.active
                let r : SpawnReq := { source := .tg g.key g.nextOp d ⟨g.wid s.launch t, vget g.spawns t⟩ s.det, record := va
                                      ctx := g.ctx, priv := g.priv, region := none }
                doneSwitch ({ s with spawnQ := s.spawnQ ++ [r] }.modTg (fun g =>
                  { (g.addOp { g.opOn none with sink := some ⟨d, BitVec.ofNat 4 etU64, 0xFF, false⟩, need := 1 }).loseOlder with
                    spawns := vset g.spawns t (vget g.spawns t + 1) })))))

/-! ### Barriers -/

/-- The arrival can be made: earlier values are in and the release part is complete (R286). -/
def mayArrive (s : State) (gang : Bool) : Bool := s.tg.loadsIn && released s (if gang then 3 else 1)

/-- The arrival count rises. -/
def arriveTg (gang : Bool) (g : Tg) : Tg := if gang then { g with arrG := g.arrG + 1 } else { g with arrA := g.arrA + 1 }

/-- The TGs with a live thread that a barrier looks at. -/
def barrierTgs (s : State) (gang : Bool) : List Tg :=
  s.allTgs.filter (fun x => x.on && x.live ≠ 0 && x.key.launch = s.tg.key.launch && x.key.gang = s.tg.key.gang
    && (gang || x.key.wg = s.tg.key.wg))

/-- Every one of them has arrived as often as the issuing TG. -/
def othersArrived (s : State) (gang : Bool) : Bool :=
  (barrierTgs s gang).all (fun x => if gang then atOrAfter x.arrG s.tg.arrG else atOrAfter x.arrA s.tg.arrA)

def execArrv (gang : Bool) (s : State) : Out :=
  onAny s (fun _ =>
    let s := flushQuantum s
    if !mayArrive s gang then waitIn s false else done (s.modTg (fun g => (arriveTg gang g).loseOlder)))

/-- The second half of a barrier. -/
def collect (s : State) (gang : Bool) : Out :=
  if !othersArrived s gang || !acquirable s then waitIn s false else done ((acquire s).modTg Tg.loseOlder)

def execBarc (gang : Bool) (s : State) : Out := onAny s (fun _ => collect s gang)

/-- BARR: the arrival once, then the wait (R211, R287). -/
def execBarr (s : State) : Out :=
  onAny s (fun g =>
    if g.phase = .arrived then collect s false
    else
      let s := flushQuantum s
      if !mayArrive s false then waitIn s false
      else collect (s.modTg (fun g => { arriveTg false g with phase := .arrived })) false)

/-! ### BUDG -/

/-- The budget as BUDG reads it: all ones when unlimited. -/
def budgetWord (w : Wg) : W64 := match w.budget with | some n => BitVec.ofNat 64 n | none => BitVec.allOnes 64

def execBudg (d a : Opnd) (s : State) : Out :=
  onTg s (fun g =>
    if g.active = 0 then idle s [] true false
    else
      guarded s [check (a ≠ .zr && g.priv = .u) 0x03 g.cm, check (!(sOrZr s.hdr d && sOrZr s.hdr a)) 0x02 g.active]
        (if g.pending d || g.pending a then registerWait s false
         else
           let old := budgetWord s.wg
           let new := (readS g a).toNat
           let s := if a = .zr then s else s.modMyWg (fun w => { w with budget := some new, expired := false })
           done (s.modTg (fun g => (writeReg g d 64 false 0 (old.setWidth 128)).shift (sameLatch old) none))))

end Sys2Proof.Machine
end

