-- ==== Sys2Proof/Machine/System.lean ====
section
/-! DEFINITION. Opcodes 0xD0-0xD6: TRAP, ERET, control registers, context images and TLBI (R202, R206-R208, R269, R300-R302, R308,
R370-R374, R377). -/

namespace Sys2Proof.Machine

/-- TRAP (R377): the code stands in the record's detail. -/
def execTrap (i : BitVec 17) (s : State) : Out :=
  onTg s (fun g =>
    if g.active = 0 then idle s [] false false
    else trap s { cause := 0x11, mask := g.active, detail := natLe 4 i.toNat })

/-! ### ERET (R202, R308) -/

/-- The TG goes on at `pc`; with no thread left in cm it resolves at once. -/
def goOn (s : State) (pc : W64) : Out := .next (settle (s.modTg (fun g => { g with pc := pc })))

/-- ERET (R202, R308). DESIGN CHOICE (log 44): the kill action sets the killed bit and leaves the firebox domain owned. -/
def execEret (a : Opnd) (k : BitVec 2) (s : State) : Out :=
  onTg s (fun g =>
    if g.active = 0 then fallThrough s
    else
      let okA := match a with | .v n => vOk s.hdr 32 n | .s n => sOk s.hdr 32 n | .zr => true | _ => false
      guarded s [check (g.priv = .u) 0x03 g.cm, check (k = 3 && !okA) 0x02 g.active]
        (if k = 3 && g.pending a then registerWait s false
         else if g.priv.code < g.savedPriv then .next (kill s 0x03)
         else if g.stack.length ≠ g.savedDepth then .next (kill s 0x08)
         else
           let t := restoreFromTrap s
           match k.toNat with
           | 0 => goOn t g.tepc
           | 1 => goOn t (g.trpc + 4)
           | 2 => goOn t g.trpc
           | _ => goOn ((exitThreads t g.active (fun i => (readPlain g a 32 i).setWidth 32)).modMyWg (fun w => { w with killed := true })) (g.trpc + 4)))

/-! ### Control registers (R206, R269) -/

/-- A read is allowed at a privilege. -/
def mayRead (n : Nat) (p : Priv) : Bool :=
  if 0x100 ≤ n && n ≤ 0x17F then p = .m
  else if n = 0x10 || n = 0x11 || (0x13 ≤ n && n ≤ 0x17) || n = 0x21 || (0x30 ≤ n && n ≤ 0x4F) || (0x81 ≤ n && n ≤ 0x83)
  then p ≠ .u
  else true

/-- A write is allowed at a privilege. -/
def mayWrite (n : Nat) (p : Priv) : Bool :=
  if n = 3 || n = 4 || n = 0x12 || n = 0x52 || (0x70 ≤ n && n ≤ 0x77) then true
  else if n = 0x10 || n = 0x11 || (0x13 ≤ n && n ≤ 0x15) || n = 0x21 || (0x30 ≤ n && n ≤ 0x4F) || n = 0x50 || n = 0x51
      || n = 0x61 || n = 0x90 then p ≠ .u
  else if n = 0x20 || n = 0x22 || n = 0x53 || n = 0x60 || (0x81 ≤ n && n ≤ 0x83) || (0x100 ≤ n && n ≤ 0x17F) then p = .m
  else false

/-- A value of several fields, each at its lowest bit. -/
def fieldsAt (xs : List (Nat × Nat)) : W64 := BitVec.ofNat 64 (xs.foldl (fun n x => n + x.2 * 2 ^ x.1) 0)

/-- The value that SYSR reads. -/
def readReg (s : State) (n : Nat) : W64 :=
  let g := s.tg
  let x := s.ctx
  let w := s.wg
  let d := s.dev
  if n = 0x00 then BitVec.ofNat 64 s.gt
  else if n = 0x01 then BitVec.ofNat 64 s.cycle
  else if n = 0x02 then BitVec.ofNat 64 g.priv.code
  else if n = 0x03 then g.flags.setWidth 64
  else if n = 0x04 then g.fptrap.setWidth 64
  else if n = 0x10 then x.tvec
  else if n = 0x11 then g.tcause
  else if n = 0x12 then g.trec
  else if n = 0x13 then g.tepc
  else if n = 0x14 then g.tmask
  else if n = 0x15 then g.tgm.setWidth 64
  else if n = 0x16 then g.taddr
  else if n = 0x17 then g.trpc
  else if n = 0x20 then BitVec.ofNat 64 g.ctx
  else if n = 0x21 then x.ptroot
  else if n = 0x22 then x.ctxcap
  else if 0x30 ≤ n && n ≤ 0x3F then vget x.ncb (n - 0x30)
  else if 0x40 ≤ n && n ≤ 0x4F then vget x.ncl (n - 0x40)
  else if n = 0x50 then x.rrtab
  else if n = 0x51 then x.ertab
  else if n = 0x52 then g.lease.setWidth 64
  else if n = 0x53 then if d.detm then 1 else 0
  else if n = 0x60 then d.quant.setWidth 64
  else if n = 0x61 then fieldsAt [(48, x.dropped), (16, x.kindling.length), (0, if x.kindEn then 1 else 0)]
  else if 0x70 ≤ n && n ≤ 0x73 then vget w.stga (n - 0x70)
  else if 0x74 ≤ n && n ≤ 0x77 then vget w.stsc (n - 0x74)
  else if n = 0x80 then d.nodeid.setWidth 64
  else if n = 0x81 then fieldsAt [(32, d.unc.toNat), (0, d.cor.toNat)]
  else if n = 0x82 then d.salvb
  else if n = 0x83 then fieldsAt [(32, d.dropped.toNat), (0, d.written.toNat)]
  else if n = 0x84 then d.dieLost.setWidth 64
  else if n = 0x90 then x.sqld
  else
    let f := vget d.fw ((n - 0x100) / 4)
    match n % 4 with | 0 => f.base | 1 => f.lim | 2 => f.scale | _ => f.ctl

/-- An earlier instruction may still set a flag (R371). -/
def flagsDue (g : Tg) : Bool := g.ops.any (fun o => !o.done && (o.sink.isSome || o.mark || o.conf.isSome))

def execSysr (d : Opnd) (i : BitVec 17) (s : State) : Out :=
  onTg s (fun g =>
    let n := i.toNat
    if g.active = 0 then idle s [] true false
    else
      guarded s [check (!mayRead n g.priv) 0x03 g.cm, check (!sRegOk s.hdr d) 0x02 g.cm]
        (if g.pending d || (n = 3 && flagsDue g) then registerWait s false
         else
           let x := readReg s n
           done (s.modTg (fun g => (writeReg g d 64 false 0 (x.setWidth 128)).shift (sameLatch x) none))))

/-- The bits of a register that a write reaches; the others read as zero. -/
def writable (n : Nat) : Nat :=
  let field := fun (hi lo : Nat) => 2 ^ (hi + 1) - 2 ^ lo
  if n = 0x03 then 0xFF
  else if n = 0x04 then 0x9F
  else if n = 0x11 then field 20 16 + field 9 8 + 0xFF
  else if n = 0x14 then 0xFFFF
  else if n = 0x15 then 0xFFFFFFFF
  else if n = 0x20 then 0xFFFF
  else if n = 0x21 then field 51 12
  else if n = 0x22 then 0xE
  else if 0x30 ≤ n && n ≤ 0x3F then field 55 16 + 1
  else if 0x40 ≤ n && n ≤ 0x4F then field 55 16
  else if n = 0x50 || n = 0x51 then field 51 10 + 1
  else if n = 0x52 then 0x1F
  else if n = 0x53 then 1
  else if n = 0x60 then 0xFFFFFFFF
  else if n = 0x61 then field 63 48 + 1
  else if 0x70 ≤ n && n ≤ 0x73 then field 63 8
  else if 0x74 ≤ n && n ≤ 0x77 then field 28 8 + 1
  else if n = 0x82 then field 51 0
  else if n = 0x90 then field 51 4 + 1
  else if 0x100 ≤ n && n ≤ 0x17F then if n % 4 = 3 then 0xF3 else field 51 0
  else 2 ^ 64 - 1

/-- A format window with one of its registers replaced. -/
def FmtWindow.set (f : FmtWindow) (k : Nat) (x : W64) : FmtWindow :=
  match k with | 0 => { f with base := x } | 1 => { f with lim := x } | 2 => { f with scale := x } | _ => { f with ctl := x }

/-- A window that may be enabled: rows, range, no overlap with another (R85). -/
def fmtWindowOk (s : State) (w : Nat) (f : FmtWindow) : Bool :=
  let row := 2 ^ f.gran
  let unit := max 128 row
  decide (f.gran ≤ 11) && f.lo % unit = 0 && f.hi % unit = 0 && decide (f.lo < f.hi)
    && (mapFrom 0 (fun i (y : FmtWindow) => i = w || !y.en || decide (y.hi ≤ f.lo) || decide (f.hi ≤ y.lo)) s.dev.fw.toList).all id

/-- Fields of a stash window (R106). -/
def stashSize (sc : W64) : Nat := bitsNat sc.toNat 28 18 * 256
def stashLo (sc : W64) : Nat := bitsNat sc.toNat 17 8 * 256
def stashGlobal (ga : W64) : Nat := (sext56 (BitVec.ofNat 64 (bitsNat ga.toNat 55 8 * 2 ^ 8))).toNat

/-- A stash window that may be enabled (R106). -/
def stashWindowOk (w : Wg) (n : Nat) (sc : W64) : Bool :=
  let lo := stashLo sc
  let size := stashSize sc
  let ga := stashGlobal (vget w.stga n)
  let apart := fun (a b : Nat) (la lb : Nat) => decide (a + la ≤ b) || decide (b + lb ≤ a)
  size ≠ 0 && decide (size ≤ 1024 * 256) && decide (lo + size ≤ w.size) && inLowOrHigh ga (ga + size)
    && [0, 1, 2, 3].all (fun m =>
      let other := vget w.stsc m
      m = n || !other.getLsbD 0
        || (apart lo (stashLo other) size (stashSize other) && apart ga (stashGlobal (vget w.stga m)) size (stashSize other)))

/-- A value that the register's own map refuses (R370). -/
def valueRefused (s : State) (n : Nat) (x : W64) : Bool :=
  if n = 0x11 then bitsNat x.toNat 9 8 = 3
  else if n = 0x15 then modeReserved (x.setWidth 32)
  else if n = 0x20 then 255 < x.toNat || (s.ctxOf x.toNat).state = .free
  else if n = 0x52 then x.toNat < 6 || 16 < x.toNat
  else if n = 0x60 then x.toNat < 1000
  else if n = 0x90 then x.getLsbD 0 && bitsNat x.toNat 51 6 ≠ 0
  else if 0x70 ≤ n && n ≤ 0x73 then (vget s.wg.stsc (n - 0x70)).getLsbD 0
  else if 0x74 ≤ n && n ≤ 0x77 then x.getLsbD 0 && !stashWindowOk s.wg (n - 0x74) x
  else if 0x100 ≤ n && n ≤ 0x17F then
    let w := (n - 0x100) / 4
    let f := (vget s.dev.fw w).set (n % 4) x
    f.en && !fmtWindowOk s w f
  else false

/-- The registers of the TG, which a SYSW writes at once. -/
def ofTg (n : Nat) : Bool := n = 3 || n = 4 || (0x11 ≤ n && n ≤ 0x15) || n = 0x52

/-- A register of the TG written. -/
def setTgReg (g : Tg) (n : Nat) (x : W64) : Tg :=
  if n = 0x03 then { g with flags := x.setWidth 8 }
  else if n = 0x04 then { g with fptrap := x.setWidth 8 }
  else if n = 0x11 then { g with tcause := x }
  else if n = 0x12 then { g with trec := x }
  else if n = 0x13 then { g with tepc := x }
  else if n = 0x14 then { g with tmask := x }
  else if n = 0x15 then { g with tgm := x.setWidth 32 }
  else { g with lease := x.setWidth 5 }

/-- SYSW: a register of the TG at once; any other when the write has reached every core, until which the TG waits (R371). -/
def execSysw (d : Opnd) (i : BitVec 17) (s : State) : Out :=
  onTg (sw := true) s (fun g =>
    let n := i.toNat
    if g.active = 0 then idle s [] false true
    else
      guarded s [check (!mayWrite n g.priv) 0x03 g.cm, check (!sRegOk s.hdr d) 0x02 g.cm]
        (if g.pending d || (n = 3 && flagsDue g) then registerWait s true
         else
           let x : W64 := readS g d &&& BitVec.ofNat 64 (writable n)
           guarded s [check (valueRefused s n x) 0x13 g.cm]
             (if ofTg n then done (s.modTg (fun g => (setTgReg g n x).loseOlder))
              else waitIn (s.modTg (fun g => { g with sysw := some ⟨n, x⟩ })) false)))

/-! ### Context images (R300-R302) -/

/-- The bytes of a context image. -/
def imageBytes (h : Header) : Nat := 1088 + 32 * h.vregs + 8 * h.sregs

/-- The TG's identity in an image. -/
def tgIdentity (l : Launch) (g : Tg) : W64 := workId l.hdr l.base (ordinal l.hdr g.key.gang g.key.wg g.key.tg 0)

def zeroBytes (n : Nat) : List Byte := List.replicate n 0

/-- A stack entry in 24 bytes. -/
def Entry.bytes (e : Entry) : List Byte :=
  [e.rm, e.pm, if e.rpc.isSome then 1 else 0] ++ zeroBytes 5 ++ natLe 8 e.ppc.toNat ++ natLe 8 (e.rpc.getD 0).toNat

/-- A stream in 40 bytes: the descriptor and the next position. -/
def streamBytes (x : Option Stream) : List Byte :=
  match x with
  | none => zeroBytes 40
  | some x =>
    natLe 8 x.base.toNat ++ natLe 4 x.stride.toNat ++ natLe 4 x.count.toNat ++ natLe 4 x.inner.toNat ++ natLe 4 x.outer.toNat
      ++ [x.type, if x.write then 1 else 0] ++ zeroBytes 6 ++ natLe 8 (8 * x.pos)

/-- The context image of a TG (R300). -/
def contextImage (l : Launch) (g : Tg) (marker : Nat) : List Byte :=
  natLe 4 0x43545856 ++ natLe 1 l.hdr.vregs ++ natLe 1 l.hdr.sregs ++ natLe 1 marker ++ [g.cm] ++ natLe 8 (g.pc + 4).toNat
    ++ natLe 8 (l.no % 2 ^ 48) ++ natLe 8 (tgIdentity l g).toNat ++ natLe 4 (bitsNat g.gm.toNat 23 0)
    ++ natLe 1 g.stack.length ++ [g.flags, g.fptrap] ++ natLe 1 g.lease.toNat ++ natLe 8 g.wctMax
    ++ g.p.toList ++ zeroBytes 8 ++ g.home.toList.flatMap (fun h => natLe 2 (h.1 * 8 + h.2)) ++ zeroBytes 16
    ++ ((g.stack.flatMap Entry.bytes) ++ zeroBytes 384).take 384 ++ zeroBytes 32
    ++ g.sp.toList.flatMap streamBytes ++ g.floors.toList.flatMap (fun x => natLe 4 x.toNat)
    ++ g.rnd.toList.flatMap (fun x => natLe 8 x.toNat) ++ zeroBytes 64
    ++ (g.v.toList.take l.hdr.vregs).flatMap (fun r => r.toList.flatMap (fun x => natLe 4 x.toNat))
    ++ (g.s.toList.take l.hdr.sregs).flatMap (fun x => natLe 8 x.toNat)

/-- Everything that an image leaves out as 0 is 0 (R301): no operation in flight, no unacknowledged write, no pending register. -/
def settled (g : Tg) : Bool := g.ops.all (fun o => o.done) && g.unack = 0

/-- The pieces of an image: of 64 bytes, the last perhaps shorter. -/
def imagePieces (va : W64) (n : Nat) : List (W64 × Nat) :=
  (upTo ((n + 63) / 64)).map (fun i => (va + BitVec.ofNat 64 (64 * i), min 64 (n - 64 * i)))

/-- The checks that the two instructions share: rays, alignment, and R97 over the lines, whose faults name the active threads (R46,
R97). -/
def imageTrap (s : State) (g : Tg) (acc : Access) (va : W64) : Option TrapInfo :=
  let rays := g.rays.foldl (fun m (r : Ray) => m ||| (1#8 <<< r.t)) 0
  let bad := (imagePieces va (imageBytes s.hdr)).filterMap (fun p =>
    match checkAccess s g acc p.2 1 p.1 with | .error e => some (e, p.1) | .ok _ => none)
  firstTrap [check (rays ≠ 0) 0x0F rays,
    if va.toNat % 64 ≠ 0 then some { cause := 0x04, mask := g.cm, va := va, access := acc.code } else none,
    bad.head?.map (fun b => { cause := b.1, mask := g.active, va := b.2, access := acc.code })]

/-- The marker code of a CTXSV's rd. -/
def markerOf (d : Opnd) : Nat := match d with | .s n => 96 + n.toNat | _ => 68

/-- CTXSV (R301). -/
def execCtxsv (d a : Opnd) (s : State) : Out :=
  onTg (sw := true) s (fun g =>
    if g.active = 0 then idle s [] true true
    else
      guarded s [check (!(sOrZr s.hdr d && sRegOk s.hdr a)) 0x02 g.active]
        (if g.pending d || g.pending a then registerWait s true
         else
           let va := readS g a
           guarded s [imageTrap s g .write va]
             (let s := flushQuantum s
              if g.acquiring || !settled s.tg then waitIn s false
              else
                let accs := (imagePieces va (imageBytes s.hdr)).filterMap (fun p =>
                  match checkAccess s g .write p.2 1 p.1 with
                  | .ok t => some ((⟨0, p.1, t⟩ : Acc1), p.2)
                  | .error _ => none)
                let as := accs.map (fun x => x.1)
                if needOwn s as ≠ [] then waitIn (askOwns (touchPages s as) (needOwn s as)) false
                else
                  let image := contextImage s.launch g (markerOf d)
                  let s := touchPages s as
                  let op := s.tg.nextOp
                  let s := storeOp s as
                  let s := storeAll s op 0 (mapFrom 0 (fun i (x : Acc1 × Nat) => (x.1, (image.drop (64 * i)).take x.2)) accs)
                  done (s.modTg (fun g => ((writeReg g d 64 false 0 0).shift zeroLatch none).loseOlder)))))

/-- A stack entry from 24 bytes. -/
def Entry.ofBytes (b : List Byte) : Entry :=
  ⟨byteAt b 0, byteAt b 1, BitVec.ofNat 64 (recNat b 8 8), if byteAt b 2 = 0 then none else some (BitVec.ofNat 64 (recNat b 16 8))⟩

/-- Pieces of `n` bytes, `k` of them. -/
def chunks (n : Nat) (b : List Byte) : Nat → List (List Byte)
  | 0 => []
  | k + 1 => b.take n :: chunks n (b.drop n) k

def allZero (b : List Byte) : Bool := b.all (fun x => x = 0)

/-- An image that a TG may restore (R302). -/
def imageOk (l : Launch) (g : Tg) (b : List Byte) : Bool :=
  let z := fun (i n : Nat) => allZero ((b.drop i).take n)
  let depth := recNat b 0x24 1
  let entries := chunks 24 (b.drop 0x60) 16
  let marker := recNat b 6 1
  recNat b 0 4 = 0x43545856 && recNat b 4 1 = l.hdr.vregs && recNat b 5 1 = l.hdr.sregs
    && recNat b 0x10 8 = l.no % 2 ^ 48 && recNat b 0x18 8 = (tgIdentity l g).toNat
    && (upTo 8).all (fun t => recNat b (0x40 + 2 * t) 2 = (vget g.home t).1 * 8 + (vget g.home t).2)
    && recNat b 0x23 1 = 0 && z 0x38 8 && z 0x50 16 && z 0x1E0 32 && z 0x400 64
    && decide (depth ≤ 16) && (entries.take depth).all (fun e => decide (recNat e 2 1 ≤ 1) && allZero ((e.drop 3).take 5))
    && (entries.drop depth).all allZero
    && (marker = 68 || (decide (96 ≤ marker) && decide (marker < 96 + l.hdr.sregs)))
    && decide (6 ≤ recNat b 0x27 1) && decide (recNat b 0x27 1 ≤ 16)
    && !modeReserved (BitVec.ofNat 32 (recNat b 0x20 3))
    && (chunks 40 (b.drop 0x200) 8).all (fun d => allZero d || (match streamOf (d.take 32) with | .ok _ => true | .error _ => false))

/-- The stream of 40 bytes. -/
def streamFrom (d : List Byte) : Option Stream :=
  if allZero d then none
  else match streamOf (d.take 32) with
    | .ok x => some { x with pos := recNat d 32 8 / 8 }
    | .error _ => none

/-- A vector from a list, the places past its end from the old one. -/
def vecFrom {α : Type} {n : Nat} (old : Vector α n) (xs : List α) : Vector α n :=
  (xs.foldl (fun (v : Vector α n × Nat) x => (vset v.1 v.2 x, v.2 + 1)) (old, 0)).1

/-- The TG as an image restores it (R302); `m` is the marker value. -/
def restoreImage (h : Header) (g : Tg) (b : List Byte) (m : W64) : Tg :=
  let word := fun (i n : Nat) => recNat b i n
  let depth := word 0x24 1
  let regs := (chunks 32 (b.drop 0x440) h.vregs).map (fun r => vecFrom (Vector.replicate 8 (0 : W32)) ((chunks 4 r 8).map (fun x => BitVec.ofNat 32 (leNat x))))
  let sregs := (chunks 8 (b.drop (0x440 + 32 * h.vregs)) h.sregs).map (fun x => BitVec.ofNat 64 (leNat x))
  let marker := word 6 1
  let s := vecFrom g.s sregs
  let g' := { g.clearLatches with
    pc := BitVec.ofNat 64 (word 8 8), gm := (g.gm &&& 0xFF000000) ||| BitVec.ofNat 32 (word 0x20 3)
    p := vecFrom g.p ((b.drop 0x30).take 8), flags := byteAt b 0x25, fptrap := byteAt b 0x26 &&& 0x9F
    lease := BitVec.ofNat 5 (word 0x27 1), v := vecFrom g.v regs
    s := if marker = 68 then s else vset s (marker - 96) m
    sp := vecFrom g.sp ((chunks 40 (b.drop 0x200) 8).map streamFrom)
    rnd := vecFrom g.rnd ((upTo 8).map (fun i => BitVec.ofNat 64 (word (0x3C0 + 8 * i) 8)))
    wctMax := max g.wctMax (word 0x28 8), cm := byteAt b 7 &&& g.live
    stack := ((chunks 24 (b.drop 0x60) depth).map Entry.ofBytes).map (fun e => { e with rm := e.rm &&& g.live, pm := e.pm &&& g.live }) }
  (upTo 32).foldl (fun g n => raiseFloor g n (BitVec.ofNat 32 (word (0x340 + 4 * n) 4))) g'

/-- CTXLD (R302). -/
def execCtxld (a b : Opnd) (s : State) : Out :=
  onTg (sw := true) s (fun g =>
    if g.active = 0 then idle s [] false true
    else
      guarded s [check (!(sRegOk s.hdr a && sOrZr s.hdr b)) 0x02 g.active]
        (if g.pending a || g.pending b then registerWait s true
         else
           let va := readS g a
           guarded s [imageTrap s g .read va]
             (let s := flushQuantum s
              if g.acquiring || !settled s.tg then waitIn s false
              else
                let n := imageBytes s.hdr / 8
                let accs := (upTo n).filterMap (fun i =>
                  let x := va + BitVec.ofNat 64 (8 * i)
                  match checkAccess s g .read 8 8 x with | .ok t => some (⟨i, x, t⟩ : Acc1) | .error _ => none)
                match syncRead s 0 etU64 8 accs with
                | .waits s => waitIn s false
                | .values got =>
                  let image := (sortBy (fun (x y : Piece) => decide (x.t < y.t)) got).flatMap (fun p => natLe 8 p.data.toNat)
                  let (s, bad) := poisonTrap s (if got.any (fun p => p.poison) then g.active else 0)
                  match bad with
                  | some i => trap s i
                  | none =>
                    if !imageOk s.launch g image then trap s { cause := 0x13, mask := g.cm, va := va }
                    else
                      .next (settle (s.modTg (fun g => (restoreImage s.hdr g image (readS g b)).fresh))))))

/-! ### TLBI (R373, R374) -/

/-- An SKP that waits for its ring slot. -/
def skpWaits (s : State) (c : StokerCmd) : Bool :=
  c.code = 0x97 && c.result.isNone && (match descAt s c.core c.ctx c.desc with | some d => d.slotState s ((d.g s + 1) % 65536) ≠ 0 | none => false)

/-- A command of a gang that waits for a ring slot or behind one, on the same descriptor: a save does not wait for it (R361). -/
def commandStays (s : State) (l g : Nat) (c : StokerCmd) : Bool :=
  let mine := fun (x : StokerCmd) => x.tg.launch = l && x.tg.gang = g
  s.stoker.any (fun x => mine x && skpWaits s x && decide (x.id ≤ c.id) && paOf s x.core x.ctx x.desc = paOf s c.core c.ctx c.desc)

/-- Such a command: it translates afresh when it goes on. -/
def skpStands (s : State) (c : StokerCmd) : Bool := commandStays s c.tg.launch c.tg.gang c

/-- Nothing still uses a translation that the scope removes: no message of the context on its way, no atomic of it held or with stores
still to send, no copy, firebox transfer or stoker command of it under way, and no accepted write of it whose WCT has not come. -/
def translationsIdle (s : State) (all : Bool) : Bool :=
  let mine := fun (k : TgKey) => all || (match s.findTg k with | some x => x.ctx = s.tg.ctx | none => false)
  s.net.all (fun m => !(all || m.ctx = s.tg.ctx)) && s.copies.all (fun c => !mine c.tg)
    && s.allTgs.all (fun g => (g.quantum = [] && g.ops.all (fun o => o.done || o.outs = [])) || !mine g.key)
    && s.lines.all (fun l => l.pend.all (fun p => decide (p.wct ≤ s.gt) || !mine p.tg))
    && s.fb.queue.all (fun o => o.places = [] || !mine o.tg) && s.stoker.all (fun c => !(all || c.ctx = s.tg.ctx) || skpStands s c)

/-- The entries removed from every TLB of the device. -/
def removeTranslations (s : State) (k : Nat) (va : W64) : State :=
  { s with tlb := s.tlb.filter (fun e =>
      match k with
      | 0 => !(e.ctx = s.tg.ctx && decide (e.va ≤ va.toNat) && decide (va.toNat < e.va + e.size))
      | 1 => e.ctx ≠ s.tg.ctx
      | _ => false) }

def execTlbi (a : Opnd) (k : BitVec 2) (s : State) : Out :=
  onTg (sw := true) s (fun g =>
    if g.active = 0 then idle s [] false true
    else
      let okA := if k = 0 then sRegOk s.hdr a else a == .zr
      guarded s [check (g.priv = .u || (k = 2 && g.priv ≠ .m)) 0x03 g.cm, check (!okA) 0x02 g.cm]
        (if g.pending a then registerWait s true
         else
           let va := readS g a
           guarded s [if k = 0 && !canonical va then some { cause := 0x06, mask := g.cm, va := va } else none]
             (let s := flushQuantum s
              if !released s 4 then waitIn s false
              else
                let s := removeTranslations s k.toNat va
                if translationsIdle s (k = 2) then done (s.modTg Tg.loseOlder) else waitIn s false)))

end Sys2Proof.Machine
end

