-- ==== Sys2Proof/Machine/Registers.lean ====
section
/-! DEFINITION. A SYSW reaching every core: the register takes its value and the waiting TG goes on (R86, R106-R108, R137, R147,
R196, R235, R269, R371, R372). A step whose write is not under way changes nothing. -/

namespace Sys2Proof.Machine

/-- The register write that a TG waits for, when its number is among those of a step. -/
def syswOf (s : State) (k : TgKey) (mine : Nat → Bool) : Option RegWrite :=
  match s.findTg k with
  | some g => match g.sysw with | some w => if g.on && mine w.num then some w else none | none => none
  | none => none

/-- The SYSW of TG `k` is complete: the TG is at its next word. -/
def syswDone (s : State) (k : TgKey) : State := s.modTgAt k (fun g => ({ g with sysw := none }.loseOlder).next)

/-- The SYSW of TG `k` traps. -/
def syswTrap (s : State) (k : TgKey) : Out :=
  let s := s.focus k
  trap s { cause := 0x13, mask := s.tg.cm }

/-- The mould: the write that a TG waits for takes effect by `f`, unless its value is refused as things stand now. -/
def completeSysw (s : State) (k : TgKey) (mine : Nat → Bool) (f : State → RegWrite → State) : Out :=
  match syswOf s k mine with
  | none => .next s
  | some w => if valueRefused (s.focus k) w.num w.val then syswTrap s k else .next (syswDone (f (s.focus k) w) k)

/-- Registers with no behaviour of their own. -/
def plainRegister (n : Nat) : Bool :=
  n = 0x10 || n = 0x21 || n = 0x22 || (0x30 ≤ n && n ≤ 0x4F) || n = 0x53 || n = 0x60 || n = 0x61 || (0x70 ≤ n && n ≤ 0x73)
    || n = 0x82 || n = 0x83

/-- Their new values; QUANT's next end is the next multiple of the new q (R372). -/
def setPlain (s : State) (w : RegWrite) : State :=
  let n := w.num
  let x := w.val
  let ctx := fun (f : Ctx → Ctx) => s.modCtx s.tg.ctx f
  if n = 0x10 then ctx (fun c => { c with tvec := x })
  else if n = 0x21 then ctx (fun c => { c with ptroot := x })
  else if n = 0x22 then ctx (fun c => { c with ctxcap := x })
  else if n ≤ 0x3F then ctx (fun c => { c with ncb := vset c.ncb (n - 0x30) x })
  else if n ≤ 0x4F then ctx (fun c => { c with ncl := vset c.ncl (n - 0x40) x })
  else if n = 0x53 then s.modDev (fun d => { d with detm := x.getLsbD 0 })
  else if n = 0x60 then s.modDev (fun d => { d with quant := x.setWidth 32, lastQuantum := max d.lastQuantum s.gt })
  else if n = 0x61 then ctx (fun c => { c with dropped := bitsNat x.toNat 63 48, kindEn := x.getLsbD 0 })
  else if n ≤ 0x73 then s.modMyWg (fun g => { g with stga := vset g.stga (n - 0x70) x })
  else if n = 0x82 then s.modDev (fun d => { d with salvb := x })
  else s.modDev (fun d => { d with dropped := x.extractLsb' 32 32, written := x.extractLsb' 0 32 })

def execControlRegisterWrite (t : TgKey) (s : State) : Out := completeSysw s t plainRegister setPlain

/-! ### Format windows (R86) -/

/-- The lines of an enabled window that its home slices hold. -/
def windowLines (s : State) (f : FmtWindow) : List Nat :=
  if f.en then (s.lines.filter (fun l => l.resident && decide (f.lo ≤ l.no * 128) && decide (l.no * 128 < f.hi))).map (fun l => l.no)
  else []

/-- The window before and after a write of one of its registers. -/
def windowsOf (s : State) (w : RegWrite) : FmtWindow × FmtWindow :=
  let f := vget s.dev.fw ((w.num - 0x100) / 4)
  (f, f.set (w.num % 4) w.val)

def setWindow (s : State) (w : RegWrite) : State :=
  let p := windowsOf s w
  let s := (windowLines s p.1 ++ windowLines s p.2).foldl evictLine s
  s.modDev (fun d => { d with fw := vset d.fw ((w.num - 0x100) / 4) p.2 })

/-- The lines of the old and the new range leave their home slices first; an engine's line leaves when it has been written. -/
def execFormatWindowWrite (t : TgKey) (s : State) : Out :=
  let mine := fun (n : Nat) => decide (0x100 ≤ n)
  match syswOf s t mine with
  | none => .next s
  | some w =>
    let p := windowsOf s w
    if (windowLines s p.1 ++ windowLines s p.2).any (engineOwned s) then .next s else completeSysw s t mine setWindow

/-! ### Stash windows (R108) -/

/-- A request of a workgroup for a line of a stash window. -/
def Msg.forStash (m : Msg) (w : Wg) (n : Nat) : Bool :=
  match m.ask with
  | .stashFill l g k win _ _ => w.is l g k && win = n
  | .stashOwn l g k win _ _ _ => w.is l g k && win = n
  | .stashGrant l g k win _ _ _ => w.is l g k && win = n
  | _ => false

/-- Every line of a window is given up: owned ones are written back. -/
def dropWindow (s : State) (w : Wg) (n : Nat) : State :=
  let s := (w.stash.filter (fun x => x.win = n && x.owned)).foldl (fun s x => recallLine s x.pa) s
  s.modWg w.launch w.gang w.no (fun w => { w with stash := w.stash.filter (fun x => x.win ≠ n) })

def setStash (s : State) (w : RegWrite) : State :=
  let n := w.num - 0x74
  (dropWindow s s.wg n).modMyWg (fun g => { g with stsc := vset g.stsc n w.val })

/-- The window's requests on their way are answered first. -/
def execStashWindowWrite (t : TgKey) (s : State) : Out :=
  let mine := fun (n : Nat) => decide (0x74 ≤ n) && decide (n ≤ 0x77)
  match syswOf s t mine with
  | none => .next s
  | some w =>
    if s.net.any (fun m => m.forStash (s.focus t).wg (w.num - 0x74)) then .next s else completeSysw s t mine setStash

/-! ### CTXID, RRTAB, ERTAB, ERRCNT -/

def execCtxidWrite (t : TgKey) (s : State) : Out :=
  completeSysw s t (fun n => n = 0x20) (fun s w => s.modTg (fun g => { g with ctx := w.val.toNat }))

/-- A new round table: the entries read so far are forgotten. The L1s' views and the TGs' floors of its regions stay as they are, also
where a region has another counter now (log 64). -/
def execRrtabWrite (t : TgKey) (s : State) : Out :=
  completeSysw s t (fun n => n = 0x50) (fun s w => s.modCtx s.tg.ctx (fun x => { x with rrtab := w.val, rr := [] }))

def execErtabWrite (t : TgKey) (s : State) : Out :=
  completeSysw s t (fun n => n = 0x51) (fun s w => s.modCtx s.tg.ctx (fun x => { x with ertab := w.val, er := [] }))

def execErrcntWrite (t : TgKey) (s : State) : Out :=
  completeSysw s t (fun n => n = 0x81) (fun s _ => s.modDev (fun d => { d with unc := 0, cor := 0 }))

/-! ### SQLD (R235) -/

/-- A physical range that a device unit can read for a context: in memory, here not reserved, on another node behind ports that are up
(R264, R265), no poison. -/
def unitCanRead (s : State) (c pa n : Nat) : Bool :=
  decide (offsetOf pa + n ≤ (if c = 0 || s.isRemote pa then memTop else reservedBase)) && !(s.isRemote pa && s.dev.portsDown)
    && (linesOf pa n).all (fun no => !s.poisoned no false)

/-- The image of a record at a physical address, if the record is sound and its signature verifies. -/
def imageAt (s : State) (c pa unit : Nat) : Option Image :=
  if !unitCanRead s c pa 64 then none
  else
    let h := latestBytes s pa 64
    let n := recNat h 8 4
    let sig := recNat h 0xC 4
    if recNat h 0 4 ≠ 0x47514453 || recNat h 4 2 ≠ 1 || recNat h 6 1 ≠ unit || 1 < recNat h 7 1 || n % 16 ≠ 0 || n < 16
        || 65536 < n || !allZero (h.drop 0x14) || !unitCanRead s c pa (64 + n + sig) then none
    else
      let body := latestBytes s (pa + 64) n
      if lmsVerifies (recNat h 7 1 == 1) Config.rootKey (h ++ body) (latestBytes s (pa + 64 + n) sig) then some ⟨unit, h, body⟩ else none

/-- Where SQLD's value points, and its unit. -/
def sqldPa (x : W64) : Nat := bitsNat x.toNat 51 6 * 64
def sqldUnit (x : W64) : Nat := bitsNat x.toNat 5 4

/-- A unit's image in a context: none is the baseline. -/
def setImage (x : Ctx) (unit : Nat) (i : Option Image) : Ctx := { x with images := i.toList ++ x.images.filter (fun y => y.unit ≠ unit) }

def execSqldImageLoad (t : TgKey) (s : State) : Out :=
  match syswOf s t (fun n => n = 0x90) with
  | none => .next s
  | some w =>
    if w.val.getLsbD 0 then .next s
    else
      let s := s.focus t
      let pa := sqldPa w.val
      let n := 64 + recNat (latestBytes s pa 64) 8 4 + recNat (latestBytes s pa 64) 0xC 4
      if unitCanRead s s.tg.ctx pa 64 && !rangeReady s pa (min n 131072) then .next s
      else
      let s := arriveRange s pa (min n 131072)
      match imageAt s s.tg.ctx (sqldPa w.val) (sqldUnit w.val) with
      | none => syswTrap s t
      | some i => .next (syswDone (s.modCtx s.tg.ctx (fun x => { setImage x i.unit (some i) with sqld := w.val })) t)

def execSqldBaselineRestore (t : TgKey) (s : State) : Out :=
  match syswOf s t (fun n => n = 0x90) with
  | none => .next s
  | some w =>
    if !w.val.getLsbD 0 then .next s
    else
      let s := s.focus t
      .next (syswDone (s.modCtx s.tg.ctx (fun x =>
        let x := setImage x (sqldUnit w.val) none
        { x with sqld := if x.images = [] then 0 else w.val })) t)

end Sys2Proof.Machine
end

