-- ==== Sys2Proof/Machine/Scheduling.lean ====
section
/-! DEFINITION. Choosing what runs and where: placement (R13, R15, R16, R135, R187, R188), quantum ends and pre-emption (R191, R203,
R204, R233, R250, R361), restore and migration (R189, R205), budgets and the age cap (R28, R192), the end of a workgroup (R311). -/

namespace Sys2Proof.Machine

/-! ### The order of offers (R187) -/

/-- A deadline, a class and a spawn number, compared in that order. -/
structure Rank where
  deadline : Nat
  cls : Nat
  no : Nat
  deriving DecidableEq, Repr, Inhabited

def Launch.rank (l : Launch) : Rank := ⟨l.deadline, l.cls, l.draw.getD l.no⟩

def Rank.before (a b : Rank) : Bool :=
  decide (a.deadline < b.deadline) || (a.deadline = b.deadline && (decide (a.cls < b.cls) || (a.cls = b.cls && decide (a.no < b.no))))

/-- Two slices of a context conflict (R135). -/
def slicesConflict (a b : Launch) : Bool :=
  a.ctx = b.ctx && a.ranges.any (fun x => b.ranges.any (fun y => decide (x.1 < y.2.1) && decide (y.1 < x.2.1) && (x.2.2 || y.2.2)))

/-- What holds a slice back: the slice its after names, or an earlier one that it conflicts with. -/
def heldBack (s : State) (l : Launch) : Bool :=
  (match l.after with | some n => s.launches.any (fun x => x.no = n && !x.done) | none => false)
    || s.launches.any (fun x => decide (x.no < l.no) && !x.done && slicesConflict x l)

/-- A gang that waits for cores: a saved one, or the next of a ready slice. -/
structure Offer where
  launch : Launch
  gang : Nat
  saved : Bool
  deriving Repr, Inhabited

/-- The offers of a slice: its saved gangs in ascending number, then its next unplaced one. -/
def offersOf (s : State) (l : Launch) : List Offer :=
  let saved := (s.gangs.filter (fun g => g.launch = l.no && g.state = .saved)).map (fun g => g.no)
  (sortBy (fun (a b : Nat) => decide (a < b)) saved).map (fun n => ⟨l, n, true⟩)
    ++ (if l.nextGang < l.gangs && !heldBack s l then [⟨l, l.nextGang, false⟩] else [])

/-- Every offer in the distributor's order. -/
def offers (s : State) : List Offer :=
  (sortBy (fun (a b : Launch) => a.rank.before b.rank) (s.launches.filter (fun l => !l.done))).flatMap (offersOf s)

/-! ### Room (R13, R35, R172, R188) -/

/-- HilbertCell(d) of R188, one line of its loop. -/
def hilbertStep (s : Nat) (p : Nat × Nat × Nat) : Nat × Nat × Nat :=
  let (x, y, t) := p
  let rx := t / 2 % 2
  let ry := (t ^^^ rx) % 2
  let (x, y) := if ry = 0 then (let (x, y) := if rx = 1 then (s - 1 - x, s - 1 - y) else (x, y); (y, x)) else (x, y)
  (x + s * rx, y + s * ry, t / 4)

def hilbertCell (d : Nat) : Nat × Nat :=
  let (x, y, _) := hilbertStep 8 (hilbertStep 4 (hilbertStep 2 (hilbertStep 1 (0, 0, d))))
  (x, y)

/-- The gang holds its cores and is not among those taken away. -/
def holding (s : State) (gone : List (Nat × Nat)) (l g : Nat) : Bool :=
  !gone.contains (l, g) && (match s.findGang l g with | some x => x.holds | none => false)

/-- (slice, position) pairs of a core that TGs occupy (R10). -/
def usedSlots (s : State) (gone : List (Nat × Nat)) (core : Nat) : List (Nat × Nat) :=
  (s.allTgs.filter (fun g => g.on && g.core = core && holding s gone g.key.launch g.key.gang)).map (fun g => (g.slot % 32 / 4, g.slot / 32))

/-- Positions for a workgroup's slice warps on a core, in order: warp j on slice j mod 8, at its lowest free position. -/
def warpPositions (used : List (Nat × Nat)) (warps : Nat) : Option (List Nat) :=
  ((upTo warps).foldl (fun (acc : Option (List (Nat × Nat) × List Nat)) (j : Nat) =>
    match acc with
    | none => none
    | some (us, ps) =>
      match [0, 1, 2, 3].find? (fun p => !us.contains (j % 8, p)) with
      | none => none
      | some p => some ((j % 8, p) :: us, ps ++ [p])) (some (used, []))).map (fun x => x.2)

/-- The workgroups on a core. -/
def wgsOn (s : State) (gone : List (Nat × Nat)) (core : Nat) : List Wg :=
  s.wgs.filter (fun w => w.core = core && !w.ended && holding s gone w.launch w.gang)

/-- What a gang that has still to be placed is to have on a core: the (slice, position) pairs of its warps, scratch and tiles. -/
structure Booked where
  core : Nat
  slots : List (Nat × Nat)
  alloc : Nat
  tiles : Nat
  deriving DecidableEq, Repr, Inhabited

/-- Room for one workgroup of a header on a core, beside what is booked there: the positions of its slice warps. -/
def coreRoom (s : State) (gone : List (Nat × Nat)) (h : Header) (core : Nat) (booked : List Booked := []) : Option (List Nat) :=
  let ws := wgsOn s gone core
  let bs := booked.filter (fun b => b.core = core)
  if 262144 < (ws.map (fun w => w.size) ++ bs.map (fun b => b.alloc)).foldl (· + ·) 0 + h.alloc then none
  else if 4 < (ws.map (fun w => (s.launchOf w.launch).hdr.tiles) ++ bs.map (fun b => b.tiles)).foldl (· + ·) 0 + h.tiles then none
  else warpPositions (usedSlots s gone core ++ bs.flatMap (fun b => b.slots)) ((h.tgs + 3) / 4)

/-- The core of workgroup w of a gang at an origin of a cluster. -/
def coreAt (h : Header) (cluster ox oy w : Nat) : Nat := cluster * 256 + (oy + w / max 1 h.gx) * 16 + ox + w % max 1 h.gx

/-- A fitting candidate: cluster, origin, positions of each workgroup's warps. -/
structure Spot where
  cluster : Nat
  ox : Nat
  oy : Nat
  pos : List (List Nat)
  deriving DecidableEq, Repr, Inhabited

/-- The candidate at an origin, if every core has room. -/
def spotAt (s : State) (gone : List (Nat × Nat)) (h : Header) (cluster ox oy : Nat) (booked : List Booked := []) : Option Spot :=
  if 16 < ox + h.gx || 16 < oy + h.gy then none
  else ((upTo (h.gx * h.gy)).mapM (fun w => coreRoom s gone h (coreAt h cluster ox oy w) booked)).map (fun ps => ⟨cluster, ox, oy, ps⟩)

/-- The first fitting candidate of a cluster along the Hilbert curve, other than an origin to be left. -/
def clusterSpot (s : State) (gone : List (Nat × Nat)) (h : Header) (cluster : Nat) (not_ : Option (Nat × Nat))
    (booked : List Booked := []) : Option Spot :=
  (upTo 256).findSome? (fun d => let c := hilbertCell d; if not_ = some c then none else spotAt s gone h cluster c.1 c.2 booked)

/-- The first fitting candidate, the clusters tried from after the last placement (R188); with none since reset, from cluster 0 on
(log 62). -/
def findSpot (s : State) (gone : List (Nat × Nat)) (h : Header) (booked : List Booked := []) : Option Spot :=
  let first := match s.dev.lastCluster with | some c => c + 1 | none => 0
  beats.findSome? (fun i => clusterSpot s gone h ((first + i) % 8) none booked)

/-- What a gang of a header has at a spot. -/
def Spot.booked (p : Spot) (h : Header) : List Booked :=
  (upTo (h.gx * h.gy)).map (fun w =>
    ⟨coreAt h p.cluster p.ox p.oy w, mapFrom 0 (fun j x => (j % 8, x)) (p.pos.getD w []), h.alloc, h.tiles⟩)

/-! ### Placing a gang -/

/-- Lane and slot of TG k whose slice warp has a position. -/
def slotOf (pos : List Nat) (k : Nat) : Nat := pos.getD (k / 4) 0 * 32 + k % 32

/-- The live threads of a TG at its start (R16). -/
def liveAt (l : Launch) (gang w k : Nat) : Mask := maskOf (fun t => decide (ordinal l.hdr gang w k t < l.count))

/-- v0 to v7 of a pixel-stage TG from its fragments (R237). -/
def fragRegs (fs : List Frag) (first : Nat) : Vector (Vector W32 8) 64 :=
  beats.foldl (fun v t =>
    match fs[first + t]? with
    | none => v
    | some f =>
      let xs : List W32 := [BitVec.ofNat 32 f.x, BitVec.ofNat 32 f.y, f.z, BitVec.ofNat 32 f.prim, f.wb, f.wc, f.attr, 0]
      (mapFrom 0 (fun i x => (i, x)) xs).foldl (fun (v : Vector (Vector W32 8) 64) (p : Nat × W32) => vset v p.1 (vset (vget v p.1) t p.2)) v)
    (Vector.replicate 64 (Vector.replicate 8 0))

/-- A TG at its start (R11, R16, R21, R49); its floors are its core's views, which `viewCores` has made (R142; log 25). -/
def startTg (s : State) (l : Launch) (fs : List Frag) (gang w k core slot : Nat) : Tg :=
  let live := liveAt l gang w k
  { Tg.empty with
    key := ⟨l.no, gang, w, k⟩, on := live ≠ 0, ctx := l.ctx, core := core, slot := slot, pc := BitVec.ofNat 64 l.hdr.code
    gm := if l.hdr.det then 0x01000000 else 0, cm := live, live := live, priv := l.priv
    home := #v[(k, 0), (k, 1), (k, 2), (k, 3), (k, 4), (k, 5), (k, 6), (k, 7)]
    v := fragRegs fs ((w * l.hdr.tgs + k) * 8)
    floors := vecFrom (Vector.replicate 32 0) ((upTo 32).map (fun n => viewOf s core l.ctx n)) }

/-- A workgroup at its start. -/
def startWg (l : Launch) (gang w core : Nat) : Wg :=
  { launch := l.no, gang := gang, no := w, logical := core % 256, core := core, scratch := [], size := l.hdr.alloc, empty := []
    stga := Vector.replicate 4 0, stsc := Vector.replicate 4 0, stash := [], tiles := Vector.replicate 4 Tile.empty, fifos := []
    subs := [], budget := if l.budget = 0 then none else some l.budget, issued := false, status := none, killed := false
    ended := false, wct := 0 }

/-- The state in which each of some cores has its view of every region of a context (R138, R142). -/
def viewCores (s : State) (c : Nat) (cores : List Nat) : State :=
  cores.foldl (fun s core => (upTo 32).foldl (fun s n => noteView s core c n) s) s

/-- The gang at a spot: its workgroups and TGs start. -/
def startGang (s : State) (l : Launch) (n : Nat) (p : Spot) : State :=
  let fs := match s.findGang l.no n with | some g => g.frags | none => []
  let ws := upTo (l.hdr.gx * l.hdr.gy)
  let core := fun (w : Nat) => coreAt l.hdr p.cluster p.ox p.oy w
  let s := viewCores s l.ctx (ws.map core)
  let tgs := ws.flatMap (fun w => (upTo l.hdr.tgs).map (fun k => startTg s l fs n w k (core w) (slotOf (p.pos.getD w []) k)))
  let gang : Gang := { launch := l.no, no := n, cluster := p.cluster, ox := p.ox, oy := p.oy, state := .resident, frags := fs }
  let s := { s with
    rest := s.rest ++ tgs, wgs := s.wgs ++ ws.map (fun w => startWg l n w (core w))
    gangs := gang :: s.gangs.filter (fun g => !(g.launch = l.no && g.no = n)) }
  (s.modLaunch l.no (fun x => { x with nextGang := n + 1 })).modDev (fun d => { d with lastCluster := some p.cluster })

/-- The gangs already on their way out. -/
def leaving (s : State) : List (Nat × Nat) := (s.gangs.filter (fun g => g.state = .stopping || g.state = .spilling)).map (fun g => (g.launch, g.no))

/-- The first of some offers that fits somewhere. While gangs are on their way out, the first offer that their leaving makes room for is
to have that room: no later offer is given it (R191). -/
def fitFrom (s : State) (booked : List Booked) : List Offer → Option (Offer × Spot)
  | [] => none
  | o :: os =>
    match findSpot s [] o.launch.hdr booked with
    | some p => some (o, p)
    | none =>
      match (if booked = [] then findSpot s (leaving s) o.launch.hdr else none) with
      | some p => fitFrom s (p.booked o.launch.hdr) os
      | none => fitFrom s booked os

/-- The first offer that fits somewhere. -/
def firstFit (s : State) : Option (Offer × Spot) := fitFrom s [] (offers s)

/-- GANG_PLACEMENT: the first offer that fits, when it is a gang that has not run. -/
def execGangPlacement (s : State) : Out :=
  match firstFit s with
  | some (o, p) => .next (if o.saved then s else startGang s o.launch o.gang p)
  | none => .next s

/-! ### Quantum ends (R190, R191, R250) -/

/-- The gang of the workgroup that owns the firebox domain. -/
def ownsFirebox (s : State) (g : Gang) : Bool :=
  match s.fb.owner with | some (l, n, _) => l = g.launch && n = g.no | none => false

/-- The resident gangs of a cluster that are later than a rank, the latest first. -/
def laterGangs (s : State) (cluster : Nat) (r : Rank) : List Gang :=
  let rank := fun (g : Gang) => (s.launchOf g.launch).rank
  sortBy (fun (a b : Gang) => (rank b).before (rank a) || (rank a = rank b && decide (b.no < a.no)))
    (s.gangs.filter (fun g => g.state = .resident && g.cluster = cluster && r.before (rank g) && !ownsFirebox s g))

/-- As few of the gangs, in order, as free a candidate of the cluster. -/
def victims (s : State) (h : Header) (cluster : Nat) (gone : List (Nat × Nat)) : List Gang → List (Nat × Nat) → Option (List (Nat × Nat))
  | gs, taken =>
    match gs with
    | [] => none
    | g :: gs =>
      let taken := taken ++ [(g.launch, g.no)]
      if (clusterSpot s (gone ++ taken) h cluster none).isSome then some taken else victims s h cluster gone gs taken

/-- The gangs that the distributor pre-empts at a quantum end. -/
def chosenVictims (s : State) : List (Nat × Nat) :=
  let gone := leaving s
  match (offers s).find? (fun o => (findSpot s gone o.launch.hdr).isNone) with
  | none => []
  | some o => (beats.findSome? (fun c => victims s o.launch.hdr c gone (laterGangs s c o.launch.rank) [])).getD []

/-- Every TG sends its held quantum atomics (R133). -/
def sendAllQuantum (s : State) : State := (s.allTgs.map (fun g => g.key)).foldl sendQuantum s

/-- Every lane chooses again at the next boundary of the TG that it has (R17, R20). -/
def turnLanes (s : State) : State :=
  let f := fun (g : Tg) => if s.lanes.any (fun x => x.2.2 = g.key) then { g with turnDue := true } else g
  { s with tg := f s.tg, rest := s.rest.map f }

/-- QUANTUM_END: at a multiple of q that has been reached. -/
def execQuantumEnd (s : State) : Out :=
  let q := s.dev.quant.toNat
  let t := s.gt / q * q
  if q = 0 || t ≤ s.dev.lastQuantum then .next s
  else
    let s := (turnLanes (sendAllQuantum s)).modDev (fun d => { d with lastQuantum := t })
    .next ((chosenVictims s).foldl (fun s k => s.modGang k.1 k.2 (fun g => { g with state := .stopping })) s)

/-! ### Saving a gang (R203, R204, R233, R361) -/

/-- The TGs and workgroups of a gang. -/
def gangTgs (s : State) (l g : Nat) : List Tg := s.allTgs.filter (fun x => x.key.launch = l && x.key.gang = g)
def gangWgs (s : State) (l g : Nat) : List Wg := s.wgs.filter (fun w => w.launch = l && w.gang = g)

/-- Nothing of the TG's that a save waits for is outstanding. -/
def tgDrained (s : State) (l g : Nat) (x : Tg) : Bool :=
  x.unack = 0 && x.quantum = [] &&
    x.ops.all (fun o => o.done || o.path.isNone || o.path = some .c || x.blocks.any (fun b => b.op = o.id)
      || s.stoker.any (fun c => c.tg = x.key && c.op = o.id && commandStays s l g c))

/-- The gang stands at boundaries with nothing outstanding that R203 awaits. -/
def gangDrained (s : State) (l g : Nat) : Bool :=
  (gangTgs s l g).all (fun x => (!x.on || atBoundary x) && !x.slow && !budgetDue s x && tgDrained s l g x)
    && s.passes.all (fun p => !(p.tg.launch = l && p.tg.gang = g))
    && s.fb.queue.all (fun o => !(o.tg.launch = l && o.tg.gang = g))
    && s.net.all (fun m => !(m.tg.launch = l && m.tg.gang = g &&
        (match m.ask with | .stashFill _ _ _ _ _ _ => true | .stashOwn _ _ _ _ _ _ _ => true | .stashGrant _ _ _ _ _ _ _ => true | _ => false)))

/-- The rays of the issuing TG run on for at most 4,096 further visits each (R233). -/
def runRays (s : State) : State := s.tg.blocks.foldl (fun s b => runBlock s b 4096) s

/-- Blocks of the issuing TG whose rays all stand are pushed, in order, each once its descriptor updates are performed (R233, R259);
the flag says that none is still to be pushed. -/
def settleBlocks : Nat → State → State × Bool
  | 0, s => (s, true)
  | n + 1, s =>
    match s.tg.blocks with
    | [] => (s, true)
    | b :: _ =>
      if !b.threads.all (fun t => (b.result t).isSome) then (s, true)
      else
        let s := releaseBlock s b
        if blockReady s b then settleBlocks n (pushBlock s b) else (s, false)

/-- A step on each of some TGs; the flag says that every one answers true. -/
def eachTg (s : State) (ks : List TgKey) (f : State → State × Bool) : State × Bool :=
  let back := s.tg.key
  let r := ks.foldl (fun (acc : State × Bool) k => let (s, ok) := f (acc.1.focus k); (s, acc.2 && ok)) (s, true)
  (r.1.focus back, r.2)

/-- The TGs of a gang that have not ended. -/
def runningTgs (s : State) (l g : Nat) : List TgKey := ((gangTgs s l g).filter (fun x => x.on)).map (fun x => x.key)

/-- The gang's rays run on. -/
def runGang (s : State) (l g : Nat) : State := (eachTg s (runningTgs s l g) (fun s => (runRays s, true))).1

/-- The gang's blocks pushed as far as they can be; the flag says that none is still to be pushed. -/
def settleGang (s : State) (l g : Nat) : State × Bool :=
  eachTg s (runningTgs s l g) (fun s => settleBlocks (s.tg.blocks.length + 1) s)

/-- A TG as it is saved: latches b1 to b3 invalid, its monitor fired, a claim to the firebox withdrawn. DESIGN CHOICE (log 72): they are
invalid (R204, R205) also for a waiting instruction that names them, which is then issued again. -/
def saveTg (s : State) (k : TgKey) : State :=
  (dropClaim s k).modTgAt k (fun g =>
    { g.loseOlder with monitor := g.monitor.map (fun m => { m with fired := true }), readyFor := 0, place := [] })

/-- The owned stash lines of a workgroup written back and all its lines invalid (R108); its latest WCT takes theirs in. -/
def flushStash (s : State) (w : Wg) : State :=
  let owned := (w.stash.filter (fun x => x.owned)).map (fun x => x.pa)
  let s := owned.foldl recallLine s
  let t := owned.foldl (fun t no => max t (s.line no).wct) 0
  (s.modWg w.launch w.gang w.no (fun x => { x with stash := [], wct := max x.wct t })).modLaunch w.launch (fun l => { l with wct := max l.wct t })

/-- Scratch under enabled stash windows is not saved (R108; log 29). -/
def loseStashBytes (s : State) (w : Wg) : State :=
  s.modWg w.launch w.gang w.no (fun x =>
    [0, 1, 2, 3].foldl (fun (x : Wg) n =>
      let sc := (vget x.stsc n).toNat
      let lo := bitsNat sc 17 8 * 256
      if sc % 2 = 1 then { x with scratch := memPut x.scratch lo ((upTo (bitsNat sc 28 18 * 256)).map (fun i => Config.lostScratch s.ctr (lo + i))) } else x) x)

/-- The gang saved and its slots freed. -/
def saveGang (s : State) (l g : Nat) : State :=
  let s := (gangWgs s l g).foldl flushStash s
  let s := (gangWgs s l g).foldl loseStashBytes s
  let s := (runningTgs s l g).foldl saveTg s
  { s.modGang l g (fun x => { x with state := .saved }) with lanes := s.lanes.filter (fun x => !(x.2.2.launch = l && x.2.2.gang = g)) }

/-- The gang's held quantum atomics sent, when there are any. -/
def sendGang (s : State) (l g : Nat) : Option State :=
  let ks := ((gangTgs s l g).filter (fun x => x.quantum ≠ [])).map (fun x => x.key)
  if ks = [] then none else some (ks.foldl sendQuantum s)

/-- A gang stopped with nothing outstanding: its rays run on, then its blocks are pushed, then it is saved (R203, R233). -/
def stopGang (s : State) (x : Gang) : State :=
  let l := x.launch
  let g := x.no
  match sendGang s l g with
  | some s => s
  | none =>
    if !gangDrained s l g then s
    else if x.state = .stopping then (runGang s l g).modGang l g (fun y => { y with state := .spilling })
    else
      let (s, settled) := settleGang s l g
      if settled && gangDrained s l g then saveGang s l g else s

/-- PREEMPTION of a gang chosen at a quantum end; one that has come to own the firebox domain stays (R250). -/
def execPreemption (l g : Nat) (s : State) : Out :=
  match s.findGang l g with
  | none => .next s
  | some x =>
    if x.state ≠ .stopping && x.state ≠ .spilling then .next s
    else if ownsFirebox s x then .next (s.modGang l g (fun y => { y with state := .resident }))
    else .next (stopGang s x)

/-! ### Restore and migration (R189, R205) -/

/-- Nothing that the TGs of a restored gang wait for is outstanding: copies' statuses, and statuses of commands that stayed queued. -/
def restoreReady (s : State) (l g : Nat) : Bool :=
  s.copies.all (fun c => !(c.tg.launch = l && c.tg.gang = g)) && s.stoker.all (fun c => !(c.tg.launch = l && c.tg.gang = g))

/-- The saved gang at new cores; no stash line of it stands (R108). Its TGs do not issue yet (R205). -/
def loadGang (s : State) (l g : Nat) (h : Header) (p : Spot) : State :=
  let s := (gangWgs s l g).foldl flushStash s
  let core := fun (w : Nat) => coreAt h p.cluster p.ox p.oy w
  let move := fun (x : Tg) =>
    if x.key.launch = l && x.key.gang = g then { x with core := core x.key.wg, slot := slotOf (p.pos.getD x.key.wg []) x.key.tg } else x
  let s := { s with
    tg := move s.tg, rest := s.rest.map move
    wgs := s.wgs.map (fun (w : Wg) => if w.launch = l && w.gang = g then { w with core := core w.no } else w) }
  (s.modGang l g (fun x => { x with state := .loading, cluster := p.cluster, ox := p.ox, oy := p.oy })).modDev
    (fun d => { d with lastCluster := some p.cluster })

/-- RESTORE: the first offer that fits, when it is this saved gang, is loaded; a loaded one runs once its statuses are written. -/
def execRestore (l g : Nat) (s : State) : Out :=
  if (s.findGang l g).any (fun x => x.state = .loading) then
    .next (if restoreReady s l g then s.modGang l g (fun x => { x with state := .resident }) else s)
  else
    match firstFit s with
    | some (o, p) => .next (if o.saved && o.launch.no = l && o.gang = g then loadGang s l g o.launch.hdr p else s)
    | none => .next s

/-- Enough room in total (R189), which the spec does not define: a cluster has as many cores with room for one workgroup as the gang
has workgroups (log 62). -/
def roomInTotal (s : State) (h : Header) (cluster : Nat) : Bool :=
  decide (h.gx * h.gy ≤ ((upTo 256).filter (fun n => (coreRoom s [] h (cluster * 256 + n)).isSome)).length)

/-- MIGRATION: a gang of a cluster with room in total moves within it, for a slice that fits nowhere. -/
def execMigration (l g : Nat) (s : State) : Out :=
  match s.findGang l g, (offers s).head? with
  | some x, some o =>
    let h := (s.launchOf l).hdr
    let wanted := (findSpot s [] o.launch.hdr).isNone && roomInTotal s o.launch.hdr x.cluster
    if x.state ≠ .resident || ownsFirebox s x || !wanted || !gangDrained s l g then .next s
    else
      match clusterSpot s [(l, g)] h x.cluster (some (x.ox, x.oy)) with
      | none => .next s
      | some p =>
        let last := s.dev.lastCluster
        let (s, settled) := settleGang (runGang s l g) l g
        .next (if settled then (loadGang (saveGang s l g) l g h p).modDev (fun d => { d with lastCluster := last }) else s)
  | _, _ => .next s

/-! ### Budgets and the age cap (R28, R192) -/

/-- BUDGET_EXPIRY: the workgroup's budget has reached 0; each of its TGs is to trap at its next boundary. Every step's end looks for
this too (`finish`). -/
def execBudgetExpiry (l g wg : Nat) (s : State) : Out := .next (budgetsOut s (fun w => w.is l g wg))

/-- AGE_CAP: a TG of the lane has been ready for 256 clocks; at a boundary the running TG gives the lane up. The lane's own choice
looks for this too (`pick`). -/
def execAgeCap (core ln : Nat) (s : State) : Out :=
  match laneTg s core ln with
  | none => .next s
  | some g =>
    .next (if agedOther s core ln g && atBoundary g then { s with lanes := s.lanes.filter (fun y => !(y.1 = core && y.2.1 = ln)) } else s)

/-! ### The end of a workgroup (R25, R243, R311) -/

/-- The TG is one of a workgroup's, whether it has ended or not. -/
def keyInWg (k : TgKey) (l g wg : Nat) : Bool := k.launch = l && k.gang = g && k.wg = wg

/-- Every TG of a workgroup has ended and every operation of theirs has retired: nothing of it is on its way (R135, R311). -/
def wgOver (s : State) (l g wg : Nat) : Bool :=
  (s.allTgs.filter (fun x => keyInWg x.key l g wg)).all (fun x => !x.on && x.ops = [] && x.unack = 0 && x.quantum = [])
    && s.net.all (fun m => !keyInWg m.tg l g wg) && s.acks.all (fun a => !keyInWg a.tg l g wg)

/-- The workgroup's TGs leave the machine. -/
def removeTgs (s : State) (l g wg : Nat) : State :=
  let mine := fun (x : Tg) => (x.key.launch = l && x.key.gang = g && x.key.wg = wg) || x.key = noKey
  { s with tg := if mine s.tg then Tg.empty else s.tg, rest := s.rest.filter (fun x => !mine x) }

/-- The workgroup counted as ended; with its last one the gang has ended. -/
def countEnded (s : State) (w : Wg) : State :=
  let s := s.modWg w.launch w.gang w.no (fun x => { x with ended := true })
  let s := s.modLaunch w.launch (fun l => { l with status := betterStatus l.status w.status, killed := l.killed || w.killed })
  if (gangWgs s w.launch w.gang).all (fun x => x.ended) then
    { s.modGang w.launch w.gang (fun x => { x with state := .ended }) with wgs := s.wgs.filter (fun x => !(x.launch = w.launch && x.gang = w.gang)) }
  else s

/-- WORKGROUP_END: stash lines written back, the firebox domain released, its slots free. -/
def execWorkgroupEnd (l g wg : Nat) (s : State) : Out :=
  match s.findWg l g wg with
  | none => .next s
  | some w =>
    if w.ended || !wgOver s l g wg then .next s
    else
      let s := flushStash s w
      let s := if s.fb.owner = some (l, g, wg) then releaseFirebox s else s
      .next (countEnded (removeTgs s l g wg) w)

end Sys2Proof.Machine
end

