-- ==== Sys2Proof/Machine/Stoker.lean ====
section
/-! DEFINITION. The stoker at work: building, refitting, publishing and querying structures (R225-R232, R260, R261, R360). -/

namespace Sys2Proof.Machine

/-! ### Triangles and trees -/

/-- A box as the six bounds, exact in units of 2^-256. -/
abbrev Box6 := Vector Int 6

structure Tri where
  id : W32
  flags : W32
  v : List W32
  deriving DecidableEq, Repr, Inhabited

/-- A structure's tree: each child in its place, its units, its bytes as they were read. -/
inductive Tree where
  | empty
  | run (u : Nat) (old : Option (List Byte)) (ts : List Tri)
  | proc (ref : List Byte) (box : Option Box6)
  | node (u : Nat) (old : Option (List Byte)) (a b c d : Tree)
  deriving Repr, Inhabited

def Tri.bytes (t : Tri) : List Byte :=
  t.v.flatMap (fun x => natLe 4 x.toNat) ++ natLe 4 t.id.toNat ++ natLe 4 t.flags.toNat ++ natLe 4 0

def Tri.ofBytes (b : List Byte) : Tri :=
  ⟨BitVec.ofNat 32 (recNat b 0x24 4), BitVec.ofNat 32 (recNat b 0x28 4), (upTo 9).map (fun i => BitVec.ofNat 32 (recNat b (4 * i) 4))⟩

/-- Coordinate k of vertex i. -/
def Tri.at (t : Tri) (i k : Nat) : W32 := t.v.getD (3 * i + k) 0

/-- An excluded primitive (R228). -/
def Tri.excluded (t : Tri) : Bool :=
  let e := fun (i k : Nat) => dSub (toF64 (t.at i k)) (toF64 (t.at 0 k))
  let cross := fun (k : Nat) =>
    let a := (k + 1) % 3
    let b := (k + 2) % 3
    dSub (dMul (e 1 a) (e 2 b)) (dMul (e 1 b) (e 2 a))
  t.v.any (fun x => fmtF32.isNan x.toNat || fmtF32.isInf x.toNat) || [0, 1, 2].all (fun k => fmtF64.isZero (cross k))

/-- The least box around boxes. -/
def joinBox (a b : Option Box6) : Option Box6 :=
  match a, b with
  | none, b => b
  | a, none => a
  | some a, some b =>
    some #v[min (vget a 0) (vget b 0), min (vget a 1) (vget b 1), min (vget a 2) (vget b 2),
            max (vget a 3) (vget b 3), max (vget a 4) (vget b 4), max (vget a 5) (vget b 5)]

/-- The box of a triangle that bounds something. -/
def Tri.box (t : Tri) : Option Box6 :=
  if t.excluded then none
  else
    let p := fun (i : Nat) => some #v[coord (t.at i 0), coord (t.at i 1), coord (t.at i 2), coord (t.at i 0), coord (t.at i 1), coord (t.at i 2)]
    joinBox (joinBox (p 0) (p 1)) (p 2)

def runBox (ts : List Tri) : Option Box6 := ts.foldl (fun b t => joinBox b t.box) none

/-- What a subtree bounds (R226, R228). -/
def Tree.box : Tree → Option Box6
  | .empty => none
  | .run _ _ ts => runBox ts
  | .proc _ b => b
  | .node _ _ a b c d => joinBox (joinBox a.box b.box) (joinBox c.box d.box)

/-! ### A node's bytes (R213, R226, R228) -/

/-- A coordinate in units of 2^-256 as an f32, when it is one. -/
def exactF32 (x : Int) : Option W32 :=
  let r := fmtF32.round 0 ⟨x, -256⟩ false
  let w := BitVec.ofNat 32 r.bits
  if fmtF32.isInf r.bits || coord w ≠ x then none else some w

/-- The least exponent from -128 up that covers an extent, and whether one does. -/
def leastExp (ext : Int) : Nat → Int → Option Int
  | 0, _ => none
  | n + 1, e => if ext ≤ 255 * (2 ^ (256 + e).toNat : Nat) then some e else leastExp ext n (e + 1)

def leastCode (x unit : Int) : Nat := (x / unit).toNat
def greatestCode (x unit : Int) : Nat := (-((-x) / unit)).toNat

/-- Origin and exponent of an axis for the children's bounds on it. -/
def axisOf (bs : List (Int × Int)) : Option (Int × W32 × Int) :=
  match bs with
  | [] => some (0, 0, -128)
  | b :: bs' =>
    let o := bs'.foldl (fun m x => min m x.1) b.1
    let hi := bs'.foldl (fun m x => max m x.2) b.2
    match exactF32 o, leastExp (hi - o) 256 (-128) with
    | some w, some e => some (o, w, e)
    | _, _ => none

/-- The first 40 bytes of a node over its children's boxes; where no encoding is exact the spec states none (log 28). -/
def nodeHead (metas : List Bool) (boxes : List (Option Box6)) : List Byte :=
  let known := boxes.filterMap id
  match axisOf (known.map (fun b => (vget b 0, vget b 3))), axisOf (known.map (fun b => (vget b 1, vget b 4))),
      axisOf (known.map (fun b => (vget b 2, vget b 5))) with
  | some x, some y, some z =>
    let axes := [x, y, z]
    let meta_ := (metas.zip [1, 2, 4, 8]).foldl (fun n (m : Bool × Nat) => if m.1 then n + m.2 else n) 0
    let codes := fun (b : Option Box6) (m : Bool) =>
      match b with
      | none => if m then [255, 255, 255, 0, 0, 0] else [0, 0, 0, 0, 0, 0]
      | some b =>
        let u := fun (k : Nat) => ((2 ^ (256 + (axes.getD k x).2.2).toNat : Nat) : Int)
        let o := fun (k : Nat) => (axes.getD k x).1
        [leastCode (vget b 0 - o 0) (u 0), leastCode (vget b 1 - o 1) (u 1), leastCode (vget b 2 - o 2) (u 2),
         greatestCode (vget b 3 - o 0) (u 0), greatestCode (vget b 4 - o 1) (u 1), greatestCode (vget b 5 - o 2) (u 2)]
    axes.flatMap (fun a => natLe 4 a.2.1.toNat) ++ axes.map (fun a => BitVec.ofInt 8 a.2.2) ++ natLe 1 meta_
      ++ (boxes.zip metas).flatMap (fun p => (codes p.1 p.2).map (BitVec.ofNat 8))
  | _, _, _ =>
    (Config.freeNodeHead (known.flatMap (fun (b : Box6) => b.toList)) ++ List.replicate 40 0).take 40

/-- A child reference in six bytes. -/
def Tree.ref : Tree → List Byte
  | .empty => natLe 6 0
  | .run u _ ts => natLe 6 (2 * 2 ^ 46 + (ts.length - 1) * 2 ^ 40 + u)
  | .proc r _ => r
  | .node u _ _ _ _ _ => natLe 6 (2 ^ 46 + u)

def Tree.isNone : Tree → Bool | .empty => true | _ => false

/-- The bytes that a subtree's own units hold. -/
def Tree.bytes : Tree → List Byte
  | .run _ _ ts => ts.flatMap Tri.bytes
  | .node _ _ a b c d =>
    let kids := [a, b, c, d]
    nodeHead (kids.map (fun k => !k.isNone)) (kids.map Tree.box) ++ kids.flatMap Tree.ref
  | _ => []

/-- The subtree's bytes, or some below it, would change (R227). -/
def Tree.changed : Tree → Bool
  | .empty => false
  | .proc _ _ => false
  | .run u old ts => old ≠ some (Tree.run u old ts).bytes
  | .node u old a b c d =>
    old.isNone || a.changed || b.changed || c.changed || d.changed || old ≠ some (Tree.node u old a b c d).bytes

/-- Every triangle in its leaves, in order. -/
def Tree.tris : Tree → List Tri
  | .empty => []
  | .proc _ _ => []
  | .run _ _ ts => ts
  | .node _ _ a b c d => a.tris ++ b.tris ++ c.tris ++ d.tris

def Tree.hasProc : Tree → Bool
  | .proc _ _ => true
  | .node _ _ a b c d => a.hasProc || b.hasProc || c.hasProc || d.hasProc
  | _ => false

/-! ### A command at work -/

/-- Why a command ends without its effect: its err, what it had excluded, the first excluded, the latest WCT that it read. -/
structure Abort where
  err : Nat
  excluded : Nat
  first : Nat
  floor : Nat := 0
  deriving DecidableEq, Repr, Inhabited

/-- The err that stands for a wait: an engine owns a line that the command reads or writes. -/
def errWait : Nat := 0x100

/-- A command under way: the state with what it has recalled, the pool as it changes, what it will write. -/
structure Sk where
  s : State
  c : StokerCmd
  d : Desc
  floor : Nat := 0
  used : Nat := 0                          -- the allocation bits
  own : List (Nat × Nat) := []
  frees : List (Nat × Nat) := []
  got : Nat := 0
  excluded : Nat := 0
  first : Nat := 0xFFFFFFFF
  out : List (Nat × List Byte) := []       -- physical address and bytes
  deriving Repr, Inhabited

abbrev Skm := StateT Sk (Except Abort)

def skFail {α : Type} (err : Nat) : Skm α := do
  let k ← get
  throw ⟨err, k.excluded, k.first, k.floor⟩

/-- The physical address of a command's access (R224). -/
def skPa (acc : Access) (va : W64) : Skm Nat := do
  let k ← get
  if !canonical va || regionOf va ≠ .translated then skFail 0x06
  else
    let s := walkTo k.s k.d.core k.c.ctx va
    set { k with s := s }
    if s.waits then skFail errWait
    else
      match translate s k.d.core k.c.ctx k.c.priv acc va with
      | .error e => skFail e
      | .ok h => if h.attr ≠ 0 then skFail 0x06 else if engineOwned s (lineOf h.pa) then skFail errWait else pure h.pa

/-- Bytes read within one line. -/
def skPiece (va : W64) (n : Nat) : Skm (List Byte) := do
  let pa ← skPa .engineRead va
  let k ← get
  if k.s.poisoned (lineOf pa) false then skFail 0x12
  else
    let s := engineFill k.s k.c.tg (lineOf pa)
    set { k with s := s, floor := max k.floor (pendTime (s.line (lineOf pa))) }
    pure (latestBytes s pa n)

/-- The pieces of a range, one for each line. -/
def linePieces (va : W64) : Nat → Nat → List (W64 × Nat)
  | 0, _ => []
  | fuel + 1, n =>
    if n = 0 then []
    else
      let m := min n (128 - va.toNat % 128)
      (va, m) :: linePieces (va + BitVec.ofNat 64 m) fuel (n - m)

def skRead (va : W64) (n : Nat) : Skm (List Byte) := do
  let xs ← (linePieces va (n / 128 + 2) n).mapM (fun p => skPiece p.1 p.2)
  pure xs.flatten

/-- Bytes that the command will write. -/
def skWrite (va : W64) (data : List Byte) : Skm Unit := do
  let _ ← (linePieces va (data.length / 128 + 2) data.length).mapM (fun p => do
    let pa ← skPa .engineWrite p.1
    modify (fun k => { k with out := k.out ++ [(pa, (data.drop (p.1 - va).toNat).take p.2)] }))
  pure ()

/-- An address in the pool. -/
def Sk.poolVa (k : Sk) (u : Nat) : W64 := k.d.pool k.s + BitVec.ofNat 64 (16 * u)
def Sk.units (k : Sk) : Nat := k.d.units k.s

/-! ### The base (R226) -/

/-- The tree at a node of the pool, as deep as its depth field can say. -/
def skLoad : Nat → Nat → Skm Tree
  | 0, _ => skFail 0x24
  | fuel + 1, u => do
    let k ← get
    if nodePlaceBad k.units u then skFail 0x24
    else
      let b ← skRead (k.poolVa u) 64
      if nodeBad b then skFail 0x24
      else
        let kid := fun (i : Nat) => (do
          let r := childRef b i
          match r.kind with
          | 0 => pure Tree.empty
          | 1 => skLoad fuel r.off
          | 2 =>
            if runPlaceBad k.units r.off (r.n + 1) then skFail 0x24
            else
              let x ← skRead (k.poolVa r.off) (48 * (r.n + 1))
              pure (Tree.run r.off (some x) ((upTo (r.n + 1)).map (fun j => Tri.ofBytes (x.drop (48 * j)))))
          | _ => pure (Tree.proc ((b.drop (0x28 + 6 * i)).take 6) (childBox b i)) : Skm Tree)
        let w ← kid 0
        let x ← kid 1
        let y ← kid 2
        let z ← kid 3
        pure (Tree.node u (some b) w x y z)

/-- The root of a command's base: the pending generation's, or that of G while its slot is live. -/
def baseRoot (s : State) (d : Desc) : Option Nat :=
  let g := d.g s
  if d.get s 2 1 % 2 = 1 then some (d.get s 0xD0 4) else if d.liveGen s g then some (d.root s g) else none

/-! ### Units (R226, R227) -/

/-- Bits u to u + n - 1. -/
def bitRun (u n : Nat) : Nat := (2 ^ n - 1) * 2 ^ u

/-- The lowest free place from u on for n units, at a multiple of `al`. -/
def findFree (used units n al : Nat) : Nat → Nat → Option Nat
  | 0, _ => none
  | fuel + 1, u =>
    if units < u + n then none
    else if u % al = 0 && used / 2 ^ u % 2 ^ n = 0 then some u else findFree used units n al fuel (u + 1)

def skAlloc (n al : Nat) : Skm Nat := do
  let k ← get
  match findFree k.used k.units n al k.units (stateUnits k.units) with
  | none => skFail 0x20
  | some u =>
    set { k with used := k.used + bitRun u n, own := (u, n) :: k.own, got := k.got + n }
    pure u

/-- Units given up: the pending generation's own return at once, those of G at the publish. -/
def skGive (u n : Nat) : Skm Unit :=
  modify (fun k =>
    if k.own.any (fun r => r.1 = u) then { k with own := k.own.filter (fun r => r.1 ≠ u), used := k.used - bitRun u n }
    else { k with frees := k.frees ++ [(u, n)] })

/-- Every node of a tree given up. -/
def skDrop : Tree → Skm Unit
  | .empty => pure ()
  | .proc _ _ => pure ()
  | .run u _ ts => skGive u (3 * ts.length)
  | .node u _ a b c d => do
    skGive u 4
    skDrop a
    skDrop b
    skDrop c
    skDrop d

/-! ### Build (R226, R261) -/

/-- The centroid sum of an axis, by F. -/
def Tri.sum (t : Tri) (k : Nat) : Nat := dAdd (dAdd (toF64 (t.at 0 k)) (toF64 (t.at 1 k))) (toF64 (t.at 2 k))

/-- The extent of the sums on an axis. -/
def sumExtent (ts : List Tri) (k : Nat) : Dy :=
  let xs := ts.map (fun t => fmtF64.dy (t.sum k))
  let lo := xs.foldl (fun (m : Option Dy) x => match m with | none => some x | some y => some (if x.lt y then x else y)) none
  let hi := xs.foldl (fun (m : Option Dy) x => match m with | none => some x | some y => some (if y.lt x then x else y)) none
  match lo, hi with | some a, some b => b.sub a | _, _ => Dy.zero

/-- The two halves of a set of triangles. -/
def halves (ts : List Tri) : List Tri × List Tri :=
  let x := sumExtent ts 0
  let y := sumExtent ts 1
  let z := sumExtent ts 2
  let k := if x.lt y then (if y.lt z then 2 else 1) else (if x.lt z then 2 else 0)
  let before := fun (a b : Tri) =>
    fmtF64.lt (a.sum k) (b.sum k) || (fmtF64.eq (a.sum k) (b.sum k) && decide (a.id.toNat < b.id.toNat))
  let sorted := sortBy before ts
  (sorted.take (ts.length / 2), sorted.drop (ts.length / 2))

/-- The groups of a node, in order. DESIGN CHOICE (log 46): with no triangle left there is none, and the root has no child. -/
def groupsOf (ts : List Tri) : List (List Tri) :=
  let split := fun (h : List Tri) => if 4 < h.length then [(halves h).1, (halves h).2] else [h]
  if ts = [] then [] else if ts.length ≤ 4 then [ts] else split (halves ts).1 ++ split (halves ts).2

def skBuild : Nat → List Tri → Skm Tree
  | 0, _ => skFail 0x20
  | fuel + 1, ts => do
    let u ← skAlloc 4 4
    let gs := groupsOf ts
    let kid := fun (i : Nat) => (match gs[i]? with
      | none => pure Tree.empty
      | some g =>
        if 4 < g.length then skBuild fuel g
        else do
          let v ← skAlloc (3 * g.length) 1
          pure (Tree.run v none (sortBy (fun (a b : Tri) => decide (a.id.toNat < b.id.toNat)) g)) : Skm Tree)
    let w ← kid 0
    let x ← kid 1
    let y ← kid 2
    let z ← kid 3
    pure (Tree.node u none w x y z)

/-! ### Refit (R227, R261) -/

/-- The leaves rewritten from the block's triangles by primitive id; none when one has no triangle there. -/
def Tree.refit (ts : List Tri) : Tree → Option Tree
  | .empty => some .empty
  | .proc r b => some (.proc r b)
  | .run u old xs => (xs.mapM (fun x => ts.find? (fun t => t.id = x.id))).map (fun ys => .run u old ys)
  | .node u old a b c d =>
    match a.refit ts, b.refit ts, c.refit ts, d.refit ts with
    | some a, some b, some c, some d => some (.node u old a b c d)
    | _, _, _, _ => none

/-- Changed nodes and runs that are not the pending generation's own get new units, parents first. -/
def skMove : Tree → Skm Tree
  | .empty => pure .empty
  | .proc r b => pure (.proc r b)
  | .run u old ts => do
    let k ← get
    if !(Tree.run u old ts).changed || k.own.any (fun r => r.1 = u) then pure (.run u old ts)
    else do
      skGive u (3 * ts.length)
      let v ← skAlloc (3 * ts.length) 1
      pure (.run v old ts)
  | .node u old a b c d => do
    let k ← get
    let new ← (if !(Tree.node u old a b c d).changed || k.own.any (fun r => r.1 = u) then pure u
      else do
        skGive u 4
        skAlloc 4 4 : Skm Nat)
    let a ← skMove a
    let b ← skMove b
    let c ← skMove c
    let d ← skMove d
    pure (.node new old a b c d)

/-- The bytes of every changed node and run, to be written. -/
def skEmit : Tree → Skm Unit
  | .empty => pure ()
  | .proc _ _ => pure ()
  | .run u old ts => do
    let k ← get
    if (Tree.run u old ts).changed then skWrite (k.poolVa u) (Tree.run u old ts).bytes else pure ()
  | .node u old a b c d => do
    let k ← get
    if (Tree.node u old a b c d).changed then skWrite (k.poolVa u) (Tree.node u old a b c d).bytes else pure ()
    skEmit a
    skEmit b
    skEmit c
    skEmit d

/-! ### Quality (R231) -/

/-- F of a box's exact surface area; 0 for a void box. -/
def boxArea (b : Option Box6) : Nat :=
  match b with
  | none => 0
  | some b =>
    let x := vget b 3 - vget b 0
    let y := vget b 4 - vget b 1
    let z := vget b 5 - vget b 2
    (fmtF64.round 0 ⟨2 * (x * y + y * z + z * x), -512⟩ false).bits

/-- A whole number as an f64. -/
def natF64 (n : Nat) : Nat := (fmtF64.round 0 (Dy.ofInt n) false).bits

/-- The box that encloses the decoded boxes of a node's children. -/
def decodedBox (b : List Byte) : Option Box6 := [0, 1, 2, 3].foldl (fun acc i => joinBox acc (childBox b i)) none

/-- S after a subtree whose box is recorded as `box`. -/
def Tree.sah (box : Option Box6) (x : Nat) : Tree → Nat
  | .empty => x
  | .proc _ _ => x
  | .run _ _ ts => dAdd x (dMul (boxArea box) (natF64 ts.length))
  | .node u old a b c d =>
    let n := (Tree.node u old a b c d).bytes
    let x := dAdd x (boxArea box)
    let x := a.sah (childBox n 0) x
    let x := b.sah (childBox n 1) x
    let x := c.sah (childBox n 2) x
    d.sah (childBox n 3) x

def Tree.nodes : Tree → Nat
  | .node _ _ a b c d => 1 + a.nodes + b.nodes + c.nodes + d.nodes
  | _ => 0

def Tree.depth : Tree → Nat
  | .node _ _ a b c d => 1 + max (max a.depth b.depth) (max c.depth d.depth)
  | _ => 0

/-- The SAH of a tree as an f32. -/
def treeSah (t : Tree) : Nat :=
  let root := decodedBox t.bytes
  let area := boxArea root
  if fmtF64.isZero area then 0 else toF32 (dDiv (t.sah root 0) area)

/-- inflation of a refit. -/
def inflationOf (sah full : Nat) : Nat :=
  if fmtF32.isZero full then (if fmtF32.isZero sah then 0x3F800000 else fmtF32.infBits) else (fmtF32.div 0 sah full).bits

/-- The quality of a new tree, before it the quality that it had. -/
def qualityOf (refit : Bool) (before : Quality) (t : Tree) : Quality :=
  let sah := treeSah t
  let infl := if refit then inflationOf sah before.fullsah else 0x3F800000
  let advised := fmtF32.isInf infl || !fmtF32.lt infl 0x3FC00000
  { sah := sah, nodes := t.nodes, tris := t.tris.length, depth := t.depth
    flags := if refit then (if advised then 1 else before.flags) else 0
    inflation := infl, fullsah := if refit then before.fullsah else sah }

/-! ### SKB, SKR, SKL -/

/-- The triangles of a command block. -/
def skInputs (b : List Byte) : Skm (List Tri) :=
  let vtx := BitVec.ofNat 64 (recNat b 0 8)
  let idx := recNat b 8 8
  let stride := recNat b 0x14 4
  (upTo (recNat b 0x10 4)).mapM (fun i => do
    let js ← (if idx = 0 then pure [3 * i, 3 * i + 1, 3 * i + 2]
      else do
        let x ← skRead (BitVec.ofNat 64 (idx + 12 * i)) 12
        pure [recNat x 0 4, recNat x 4 4, recNat x 8 4] : Skm (List Nat))
    let vs ← js.mapM (fun j => skRead (vtx + BitVec.ofNat 64 (stride * j)) 12)
    pure ⟨BitVec.ofNat 32 (recNat b 0x1C 4 + i), BitVec.ofNat 32 (recNat b 0x20 4),
      vs.flatMap (fun v => [BitVec.ofNat 32 (recNat v 0 4), BitVec.ofNat 32 (recNat v 4 4), BitVec.ofNat 32 (recNat v 8 4)])⟩)

/-- Excluded primitives counted, against the threshold (R228): `ids` says that the first is told by its id. -/
def skExclude (ts : List Tri) (thresh : Nat) (ids : Bool) : Skm Unit := do
  let n := (ts.filter Tri.excluded).length
  let first := match ts.findIdx? Tri.excluded with
    | none => 0xFFFFFFFF
    | some i => if ids then (ts.getD i default).id.toNat else i
  modify (fun k => { k with excluded := n, first := first })
  if thresh ≠ 0xFFFFFFFF && decide (thresh < n) then skFail 0x21 else pure ()

/-- The tree that a building command makes, with its threshold test. -/
def skTree (root : Option Nat) : Skm Tree := do
  let k ← get
  let base ← (match root with | none => pure none | some u => (do let t ← skLoad 65535 u; pure (some t)) : Skm (Option Tree))
  match k.c.code, base with
  | 0x96, none => skFail 0x22
  | 0x95, none => skFail 0x22
  | 0x96, some t =>
    if t.hasProc then skFail 0x24
    else do
      skExclude t.tris 0xFFFFFFFF true
      skDrop t
      let ts := t.tris.filter (fun x => !x.excluded)
      skBuild (ts.length + 1) ts
  | 0x95, some t =>
    let b ← skRead k.c.arg 64
    if recNat b 0x10 4 ≠ t.tris.length then skFail 0x23
    else do
      let ts ← skInputs b
      match t.refit ts with
      | none => skFail 0x23
      | some t => do
        skExclude ts (recNat b 0x18 4) false
        pure t
  | _, base => do
    let b ← skRead k.c.arg 64
    let ts ← skInputs b
    skExclude ts (recNat b 0x18 4) false
    match base with
    | some t => skDrop t
    | none => pure ()
    let ts := ts.filter (fun x => !x.excluded)
    skBuild (ts.length + 1) ts

/-- Bytes of the allocation state. -/
def stateBytes (units : Nat) : Nat := stateUnits units * 16

/-- The changed bytes of the allocation state, to be written; all of them when `all`. -/
def skBits (old : Nat) (all : Bool) : Skm Unit := do
  let k ← get
  let _ ← (upTo (stateBytes k.units)).mapM (fun i => do
    let x := k.used / 256 ^ i % 256
    if all || x ≠ old / 256 ^ i % 256 then skWrite (k.poolVa 0 + BitVec.ofNat 64 i) (natLe 1 x) else pure ())
  pure ()

/-- The whole of SKB, SKR or SKL: the new root and quality. -/
def skMake (pend : Option Pending) (before : Quality) (root : Option Nat) : Skm (Nat × Quality) := do
  let k ← get
  let bits ← skRead (k.poolVa 0) (stateBytes k.units)
  let used := leNat bits
  modify (fun k => { k with used := used, own := (pend.map (fun p => p.own)).getD [], frees := (pend.map (fun p => p.frees)).getD [] })
  let t ← skTree root
  let t ← skMove t
  skEmit t
  skBits used false
  let u := match t with | .node u _ _ _ _ _ => u | _ => 0
  pure (u, qualityOf (k.c.code = 0x95) before t)

/-! ### Effects -/

/-- Writes performed at their homes from a floor on: the latest WCT. -/
def skStore (s : State) (floor : Nat) (xs : List (Nat × List Byte)) : State × Nat :=
  xs.foldl (fun (acc : State × Nat) x =>
    let (s, t) := acceptBytes (arriveRange acc.1 x.1 x.2.length) noKey x.1 x.2 floor
    (s, max acc.2 t)) (s, floor)

/-- Fields of the descriptor: offset, size, value. -/
def Desc.fields (d : Desc) (xs : List (Nat × Nat × Nat)) : List (Nat × List Byte) := xs.map (fun x => (d.pa + x.1, natLe x.2.1 x.2.2))

/-- The status word (R224). -/
def stokerStatus (units gen err : Nat) : W64 := BitVec.ofNat 64 (units * 2 ^ 32 + gen * 2 ^ 16 + err * 2 ^ 8 + 1)

/-- The command's effects are done: its status will stand when its last write is performed. -/
def skEnd (s : State) (c : StokerCmd) (status : W64) (wct : Nat) : State :=
  { s with stoker := s.stoker.map (fun x => if x.id = c.id then { x with result := some (status, wct) } else x) }

/-- What an access of a kind to the command's descriptor comes to at the privilege of its issue (R224): 0, or the err. -/
def descFault (s : State) (c : StokerCmd) (acc : Access) : Nat :=
  match translate s c.core c.ctx c.priv acc c.desc, translate s c.core c.ctx c.priv acc (c.desc + 255) with
  | .error e, _ => e
  | _, .error e => e
  | .ok _, .ok _ => 0

/-- R260's condition for writing the pool's allocation state. -/
def firstCommand (s : State) (d : Desc) : Bool :=
  d.g s = 0 && d.get s 2 1 % 2 = 0 && d.get s 0x14 4 = 0 && beats.all (fun k => d.slotState s k ≠ 1)

/-- What the command may not do with its descriptor: every one reads it, every one writes it, but SKQ only where it is the first on
it (R260). -/
def descDenied (s : State) (c : StokerCmd) (d : Desc) : Nat :=
  if descFault s c .engineRead ≠ 0 then descFault s c .engineRead
  else if c.code = 0x98 && !firstCommand s d then 0 else descFault s c .engineWrite

/-- A command that aborts (R228): `s` is the state before it. A descriptor that it may not write keeps no record of it (R224). -/
def skAbort (s : State) (c : StokerCmd) (d : Desc) (gen : Nat) (a : Abort) : State :=
  if descFault s c .engineWrite ≠ 0 then skEnd s c (stokerStatus 0 gen a.err) (max s.gt a.floor)
  else
  let up := fun (off : Nat) => (d.get s off 4 + 1) % 2 ^ 32
  let (s, t) := skStore s a.floor (d.fields ([(0xB8, 4, a.excluded), (0xE0, 4, c.code), (0xE4, 4, a.excluded), (0xE8, 4, a.first), (0xEC, 4, 0)]
    ++ (if a.err = 0x20 then [(0xC0, 4, up 0xC0)] else if a.err = 0x21 then [(0xC4, 4, up 0xC4)] else [])))
  skEnd s c (stokerStatus 0 gen a.err) t

/-- The allocation state written at the first command on a descriptor. -/
def skInit (s : State) (c : StokerCmd) (d : Desc) : Except Abort State :=
  if !firstCommand s d then .ok s
  else
    let units := d.units s
    let go : Skm Unit := skBits 0 true
    match go { s := s, c := c, d := d, used := bitRun 0 (stateUnits units) } with
    | .error a => .error a
    | .ok (_, k) =>
      let s := { k.s with frees := k.s.frees.filter (fun f => f.desc ≠ d.pa), pendings := k.s.pendings.filter (fun p => p.desc ≠ d.pa) }
      .ok (skStore s k.floor (k.out ++ d.fields [(0x04, 4, 1), (0x14, 4, units - stateUnits units)])).1

/-- The quality fields of the descriptor. -/
def Desc.quality (d : Desc) (s : State) : Quality :=
  ⟨d.get s 0xA0 4, d.get s 0xA4 4, d.get s 0xA8 4, d.get s 0xAC 2, d.get s 0xAE 1, d.get s 0xB0 4, d.get s 0xB4 4⟩

def Quality.fields (q : Quality) : List (Nat × Nat × Nat) :=
  [(0xA0, 4, q.sah), (0xA4, 4, q.nodes), (0xA8, 4, q.tris), (0xAC, 2, q.depth), (0xAE, 1, q.flags), (0xB0, 4, q.inflation), (0xB4, 4, q.fullsah)]

def pendingOf (s : State) (d : Desc) : Option Pending := s.pendings.find? (fun p => p.desc = d.pa)

def total (runs : List (Nat × Nat)) : Nat := runs.foldl (fun n r => n + r.2) 0

/-- SKB, SKR or SKL runs. -/
def runBuild (s : State) (c : StokerCmd) (d : Desc) : Except Nat State :=
  let gen := (d.g s + 1) % 65536
  let has := d.get s 2 1 % 2 = 1
  let pend := if has then pendingOf s d else none
  let before := match pend with | some p => p.quality | none => d.quality s
  if has && pend.isNone then .ok (skAbort s c d gen ⟨0x24, 0, 0xFFFFFFFF, 0⟩)
  else
    match skMake pend before (baseRoot s d) { s := s, c := c, d := d } with
    | .error a => if a.err = errWait then .error 0 else .ok (skAbort s c d gen a)
    | .ok ((root, q), k) =>
      let was := (pend.map (fun p => total p.own)).getD 0
      let free := d.get s 0x14 4 + was - total k.own
      let s := { k.s with pendings := ⟨d.pa, k.own, k.frees, q⟩ :: k.s.pendings.filter (fun p => p.desc ≠ d.pa) }
      let (s, t) := skStore s k.floor
        (k.out ++ d.fields [(0x02, 1, 1), (0x14, 4, free), (0xB8, 4, k.excluded), (0xD0, 4, root), (0xD4, 4, total k.own)])
      .ok (skEnd s c (stokerStatus k.got gen 0) t)

/-- SKQ runs: bytes 0x00-0x3F and 0xA0-0xDF at one instant, no earlier than the descriptor's latest WCT. -/
def runQuery (s : State) (c : StokerCmd) (d : Desc) : Except Nat State :=
  let b := latestBytes s d.pa 256
  let go : Skm Unit := skWrite c.arg (b.take 0x40 ++ (b.drop 0xA0).take 0x40)
  match go { s := s, c := c, d := d } with
  | .error a => if a.err = errWait then .error 0 else .ok (skAbort s c d (d.g s) a)
  | .ok (_, k) =>
    let floor := max (s.line (lineOf d.pa)).wct (s.line (lineOf d.pa + 1)).wct
    let (s, t) := skStore k.s floor k.out
    .ok (skEnd s c (stokerStatus 128 (d.g s) 0) t)

/-- SKP with a pending generation and a free slot: the publish, as one write, and the test for reclamation (R229, R230). -/
def publish (s : State) (c : StokerCmd) (d : Desc) (p : Pending) : State :=
  let g := d.g s
  let new := (g + 1) % 65536
  let live := d.liveGen s g
  let root := d.get s 0xD0 4
  let floor := max (s.gt + 1) (max (writeTime s (lineOf d.pa) 0 false) (writeTime s (lineOf d.pa + 1) 0 false))
  let s := { s with
    pendings := s.pendings.filter (fun x => x.desc ≠ d.pa)
    frees := if live then ⟨d.pa, g % 8, p.frees⟩ :: s.frees else s.frees }
  let old := if live then [(slotAt g + 8, 4, total p.frees), (slotAt g + 14, 1, 2)] else []
  let slot := [(slotAt new, 4, root), (slotAt new + 4, 4, 0), (slotAt new + 8, 4, 0), (slotAt new + 12, 2, new), (slotAt new + 14, 1, 1), (slotAt new + 15, 1, 0)]
  let (s, t) := skStore s floor (d.fields (slot ++ old ++ p.quality.fields ++ [(0xD0, 4, 0), (0xD4, 4, 0), (0x00, 2, new), (0x02, 1, 0)]))
  skEnd (d.reclaim 8 s) c (stokerStatus 0 new 0) t

/-! ### Turns (R232) -/

/-- No earlier command on the descriptor is at its stoker, and no earlier store of its TG is on its way. -/
def commandTurn (s : State) (c : StokerCmd) (pa : Nat) : Bool :=
  s.stoker.all (fun x => decide (c.id ≤ x.id) || paOf s x.core x.ctx x.desc ≠ some pa)
    && s.net.all (fun m => m.tg ≠ c.tg || !m.plain || decide (c.op < m.op))
    && !engineOwned s (lineOf pa) && !engineOwned s (lineOf pa + 1) && s.reachable pa

/-- The command's structure. -/
def cmdDesc (s : State) (c : StokerCmd) : Option Desc := descAt s c.core c.ctx c.desc

/-- The descriptor's lines after recalls, ready for the command. -/
def atDesc (s : State) (pa : Nat) : State := arriveRange s pa 256

/-- A poisoned descriptor, or one that cannot be read (R224). -/
def descErr (s : State) (d : Desc) : Option Nat :=
  if s.poisoned (lineOf d.pa) false || s.poisoned (lineOf d.pa + 1) false then some 0x12 else none

/-- The command at its first moment: the state in which its effects are done, or unchanged when it must wait. -/
def commandRun (s : State) (c : StokerCmd) : State :=
  let s := walkTo (walkTo s c.core c.ctx c.desc) c.core c.ctx (c.desc + 255)
  match cmdDesc s c with
  | none => skEnd s c (stokerStatus 0 0 0x05) s.gt
  | some d =>
    if !commandTurn s c d.pa then s
    else
      let t := atDesc s d.pa
      let gen := if c.code = 0x97 || c.code = 0x98 then d.g t else (d.g t + 1) % 65536
      if descDenied t c d ≠ 0 then skEnd t c (stokerStatus 0 gen (descDenied t c d)) s.gt
      else
      match descErr t d with
      | some e => skAbort t c d gen ⟨e, 0, 0xFFFFFFFF, 0⟩
      | none =>
        match skInit t c d with
        | .error a => if a.err = errWait then s else skAbort t c d gen a
        | .ok t =>
          match c.code with
          | 0x97 => if d.get t 2 1 % 2 = 0 then skAbort t c d gen ⟨0x22, 0, 0xFFFFFFFF, 0⟩ else s
          | 0x98 => match runQuery t c d with | .ok u => u | .error _ => s
          | _ => match runBuild t c d with | .ok u => u | .error _ => s

/-- The status is in rd, unless the TG has ended (R360). -/
def commandEnd (s : State) (c : StokerCmd) (x : W64) : State :=
  { s.modTgAt c.tg (fun g => (if g.on then writeReg g c.d 64 false 0 (x.setWidth 128) else g).finishOp c.op) with
    stoker := s.stoker.filter (fun y => y.id ≠ c.id) }

/-- STOKER_COMMAND_COMPLETE: the command's effects, and once its last write is performed its status. -/
def execStokerCommandComplete (k : Nat) (s : State) : Out :=
  match s.stoker.find? (fun c => c.id = k) with
  | none => .next s
  | some c =>
    match c.result with
    | none => .next (commandRun s c)
    | some (x, wct) => .next (if wct ≤ s.gt then commandEnd s c x else s)

/-- The pool's allocation state can be written by the command, for the reclamation that a publish may bring (R224, R230). -/
def poolWritable (s : State) (c : StokerCmd) (d : Desc) : Except Abort Unit :=
  let go : Skm Unit := do
    let _ ← (linePieces (d.pool s) (stateBytes (d.units s) / 128 + 2) (stateBytes (d.units s))).mapM (fun p => skPa .engineWrite p.1)
    pure ()
  match go { s := s, c := c, d := d } with
  | .error a => .error a
  | .ok _ => .ok ()

/-- GENERATION_PUBLISH: an SKP whose slot is free. -/
def execGenerationPublish (k : Nat) (s : State) : Out :=
  match s.stoker.find? (fun c => c.id = k) with
  | none => .next s
  | some c =>
    match cmdDesc s c with
    | none => .next s
    | some d =>
      if c.code ≠ 0x97 || c.result.isSome || !commandTurn s c d.pa then .next s
      else
        let t := atDesc s d.pa
        if (descErr t d).isSome || descDenied t c d ≠ 0 || d.get t 2 1 % 2 = 0 then .next s
        else
          match pendingOf t d with
          | none => .next (skAbort t c d (d.g t) ⟨0x24, 0, 0xFFFFFFFF, 0⟩)
          | some p =>
            if d.slotState t ((d.g t + 1) % 65536) ≠ 0 then .next s
            else
              match poolWritable t c d with
              | .error a => .next (if a.err = errWait then s else skAbort t c d (d.g t) a)
              | .ok _ => .next (publish t c d p)

end Sys2Proof.Machine
end

