-- ==== Sys2Proof/Machine/Dispatch.lean ====
section
/-! DEFINITION. The one dispatch from an instruction to its meaning. -/

namespace Sys2Proof.Machine

def exec (i : Instr) (s : State) : Host.Outcome State Fault Refusal :=
  match i with
  -- 0x01-0x10
  | .add d a b w => Sys2Proof.Machine.execAdd d a b w s
  | .sub d a b w => Sys2Proof.Machine.execSub d a b w s
  | .mul d a b w => Sys2Proof.Machine.execMul d a b w s
  | .mulh d a b w => Sys2Proof.Machine.execMulh d a b w s
  | .mad d a b w k => Sys2Proof.Machine.execMad d a b w k s
  | .div d a b w => Sys2Proof.Machine.execDiv d a b w s
  | .rem d a b w => Sys2Proof.Machine.execRem d a b w s
  | .min d a b w => Sys2Proof.Machine.execMin d a b w s
  | .max d a b w => Sys2Proof.Machine.execMax d a b w s
  | .abs d a w => Sys2Proof.Machine.execAbs d a w s
  | .neg d a w => Sys2Proof.Machine.execNeg d a w s
  | .cmp d a b c => Sys2Proof.Machine.execCmp d a b c s
  | .sel d a b w => Sys2Proof.Machine.execSel d a b w s
  | .cvt d a t w r => Sys2Proof.Machine.execCvt d a t w r s
  | .clz d a w => Sys2Proof.Machine.execClz d a w s
  | .popc d a w => Sys2Proof.Machine.execPopc d a w s
  -- 0x11-0x17
  | .and d a b w => Sys2Proof.Machine.execAnd d a b w s
  | .or d a b w => Sys2Proof.Machine.execOr d a b w s
  | .xor d a b w => Sys2Proof.Machine.execXor d a b w s
  | .shl d a b w => Sys2Proof.Machine.execShl d a b w s
  | .shr d a b w => Sys2Proof.Machine.execShr d a b w s
  | .sra d a b w => Sys2Proof.Machine.execSra d a b w s
  | .bfx d a b w k => Sys2Proof.Machine.execBfx d a b w k s
  -- 0x20-0x27
  | .rcp d a w => Sys2Proof.Machine.execRcp d a w s
  | .rsq d a w => Sys2Proof.Machine.execRsq d a w s
  | .rsqs d a w => Sys2Proof.Machine.execRsqs d a w s
  | .sqrt d a w => Sys2Proof.Machine.execSqrt d a w s
  | .ex2 d a w => Sys2Proof.Machine.execEx2 d a w s
  | .lg2 d a w => Sys2Proof.Machine.execLg2 d a w s
  | .sinp d a w => Sys2Proof.Machine.execSinp d a w s
  | .cosp d a w => Sys2Proof.Machine.execCosp d a w s
  -- 0x30-0x37
  | .mov d a w => Sys2Proof.Machine.execMov d a w s
  | .movi d imm => Sys2Proof.Machine.execMovi d imm s
  | .movh d imm => Sys2Proof.Machine.execMovh d imm s
  | .lane d a b w k => Sys2Proof.Machine.execLane d a b w k s
  | .bcst d a b w k => Sys2Proof.Machine.execBcst d a b w k s
  | .red d a c => Sys2Proof.Machine.execRed d a c s
  | .rnd d w => Sys2Proof.Machine.execRnd d w s
  | .plog d a b c => Sys2Proof.Machine.execPlog d a b c s
  -- 0x40-0x4E
  | .br disp => Sys2Proof.Machine.execBr disp s
  | .brp c disp => Sys2Proof.Machine.execBrp c disp s
  | .call disp => Sys2Proof.Machine.execCall disp s
  | .ret a => Sys2Proof.Machine.execRet a s
  | .jmpi a b => Sys2Proof.Machine.execJmpi a b s
  | .split disp => Sys2Proof.Machine.execSplit disp s
  | .join => Sys2Proof.Machine.execJoin s
  | .brk n => Sys2Proof.Machine.execBrk n s
  | .land imm => Sys2Proof.Machine.execLand imm s
  | .exit a => Sys2Proof.Machine.execExit a s
  | .yield => Sys2Proof.Machine.execYield s
  | .regrp a => Sys2Proof.Machine.execRegrp a s
  | .mode imm => Sys2Proof.Machine.execMode imm s
  | .modes d a => Sys2Proof.Machine.execModes d a s
  | .nop => Sys2Proof.Machine.execNop s
  -- 0x50-0x5D
  | .ld d a b w => Sys2Proof.Machine.execLd d a b w s
  | .ldb d a b w => Sys2Proof.Machine.execLdb d a b w s
  | .lda d a b w => Sys2Proof.Machine.execLda d a b w s
  | .st d a b => Sys2Proof.Machine.execSt d a b s
  | .str d a b => Sys2Proof.Machine.execStr d a b s
  | .fence k sc => Sys2Proof.Machine.execFence k sc s
  | .prf a b k => Sys2Proof.Machine.execPrf a b k s
  | .mon a b => Sys2Proof.Machine.execMon a b s
  | .mwait => Sys2Proof.Machine.execMwait s
  | .waitc a c => Sys2Proof.Machine.execWaitc a c s
  | .radv => Sys2Proof.Machine.execRadv s
  | .rcnt d => Sys2Proof.Machine.execRcnt d s
  | .ldfe d a b => Sys2Proof.Machine.execLdfe d a b s
  | .stfe d a b => Sys2Proof.Machine.execStfe d a b s
  -- 0x60-0x6A
  | .aadd d a b => Sys2Proof.Machine.execAadd d a b s
  | .amin d a b => Sys2Proof.Machine.execAmin d a b s
  | .amax d a b => Sys2Proof.Machine.execAmax d a b s
  | .aand d a b => Sys2Proof.Machine.execAand d a b s
  | .aor d a b => Sys2Proof.Machine.execAor d a b s
  | .axor d a b => Sys2Proof.Machine.execAxor d a b s
  | .axch d a b => Sys2Proof.Machine.execAxch d a b s
  | .acas d a b => Sys2Proof.Machine.execAcas d a b s
  | .hbadd d a b => Sys2Proof.Machine.execHbadd d a b s
  | .hbmax d a b => Sys2Proof.Machine.execHbmax d a b s
  | .hbmin d a b => Sys2Proof.Machine.execHbmin d a b s
  -- 0x70-0x74
  | .cpy d a b c => Sys2Proof.Machine.execCpy d a b c s
  | .cpyt d a k => Sys2Proof.Machine.execCpyt d a k s
  | .ctst d a => Sys2Proof.Machine.execCtst d a s
  | .qbind d a k => Sys2Proof.Machine.execQbind d a k s
  | .spcfg d a => Sys2Proof.Machine.execSpcfg d a s
  -- 0x80-0x85
  | .mma a b t => Sys2Proof.Machine.execMma a b t s
  | .mmab a b t => Sys2Proof.Machine.execMmab a b t s
  | .mmac d a b => Sys2Proof.Machine.execMmac d a b s
  | .acz t => Sys2Proof.Machine.execAcz t s
  | .acdr d a t => Sys2Proof.Machine.execAcdr d a t s
  | .acld d a t => Sys2Proof.Machine.execAcld d a t s
  -- 0x90-0x98
  | .trace a b f => Sys2Proof.Machine.execTrace a b f s
  | .trcont a b => Sys2Proof.Machine.execTrcont a b s
  | .gpin d a => Sys2Proof.Machine.execGpin d a s
  | .gunp a b => Sys2Proof.Machine.execGunp a b s
  | .skb d a b => Sys2Proof.Machine.execSkb d a b s
  | .skr d a b => Sys2Proof.Machine.execSkr d a b s
  | .skl d a => Sys2Proof.Machine.execSkl d a s
  | .skp d a => Sys2Proof.Machine.execSkp d a s
  | .skq d a b => Sys2Proof.Machine.execSkq d a b s
  -- 0xA0-0xA2
  | .eld d a b => Sys2Proof.Machine.execEld d a b s
  | .est d a b => Sys2Proof.Machine.execEst d a b s
  | .emrg d a b => Sys2Proof.Machine.execEmrg d a b s
  -- 0xB0-0xBA
  | .fbmode a => Sys2Proof.Machine.execFbmode a s
  | .fbadd d a b k => Sys2Proof.Machine.execFbadd d a b k s
  | .fbsub d a b k => Sys2Proof.Machine.execFbsub d a b k s
  | .fblog d a b k => Sys2Proof.Machine.execFblog d a b k s
  | .fbcmp a b k => Sys2Proof.Machine.execFbcmp a b k s
  | .fbsel d a b => Sys2Proof.Machine.execFbsel d a b s
  | .fbmul d a b k => Sys2Proof.Machine.execFbmul d a b k s
  | .fbpop d a => Sys2Proof.Machine.execFbpop d a s
  | .fbshf d a b => Sys2Proof.Machine.execFbshf d a b s
  | .fbld d a b k => Sys2Proof.Machine.execFbld d a b k s
  | .fbst d a b k => Sys2Proof.Machine.execFbst d a b k s
  -- 0xC0-0xC5
  | .spawn d a => Sys2Proof.Machine.execSpawn d a s
  | .wid d a => Sys2Proof.Machine.execWid d a s
  | .barr => Sys2Proof.Machine.execBarr s
  | .barc g => Sys2Proof.Machine.execBarc g s
  | .arrv g => Sys2Proof.Machine.execArrv g s
  | .budg d a => Sys2Proof.Machine.execBudg d a s
  -- 0xD0-0xD6
  | .trap imm => Sys2Proof.Machine.execTrap imm s
  | .eret a k => Sys2Proof.Machine.execEret a k s
  | .sysr d imm => Sys2Proof.Machine.execSysr d imm s
  | .sysw d imm => Sys2Proof.Machine.execSysw d imm s
  | .ctxsv d a => Sys2Proof.Machine.execCtxsv d a s
  | .ctxld a b => Sys2Proof.Machine.execCtxld a b s
  | .tlbi a k => Sys2Proof.Machine.execTlbi a k s
  -- Control-register writes reaching the device (R371); `t` is the thread group whose SYSW it completes
  | .controlRegisterWrite t => Sys2Proof.Machine.execControlRegisterWrite t s
  | .formatWindowWrite t => Sys2Proof.Machine.execFormatWindowWrite t s
  | .stashWindowWrite t => Sys2Proof.Machine.execStashWindowWrite t s
  | .ctxidWrite t => Sys2Proof.Machine.execCtxidWrite t s
  | .sqldImageLoad t => Sys2Proof.Machine.execSqldImageLoad t s
  | .sqldBaselineRestore t => Sys2Proof.Machine.execSqldBaselineRestore t s
  | .rrtabWrite t => Sys2Proof.Machine.execRrtabWrite t s
  | .ertabWrite t => Sys2Proof.Machine.execErtabWrite t s
  | .errcntWrite t => Sys2Proof.Machine.execErrcntWrite t s
  -- The host command path (R195, R196, R272)
  | .hostRingEntry c => Sys2Proof.Machine.execHostRingEntry c s
  | .contextCreate => Sys2Proof.Machine.execContextCreate s
  | .contextDestroy => Sys2Proof.Machine.execContextDestroy s
  | .contextFree c => Sys2Proof.Machine.execContextFree c s
  | .attestationQuote => Sys2Proof.Machine.execAttestationQuote s
  -- Scheduling (R184-R192, R203-R205, R311)
  | .spawnAnswer => Sys2Proof.Machine.execSpawnAnswer s
  | .sliceCompletion l => Sys2Proof.Machine.execSliceCompletion l s
  | .gangPlacement => Sys2Proof.Machine.execGangPlacement s
  | .migration l g => Sys2Proof.Machine.execMigration l g s
  | .quantumEnd => Sys2Proof.Machine.execQuantumEnd s
  | .preemption l g => Sys2Proof.Machine.execPreemption l g s
  | .restore l g => Sys2Proof.Machine.execRestore l g s
  | .budgetExpiry l g wg => Sys2Proof.Machine.execBudgetExpiry l g wg s
  | .ageCap core ln => Sys2Proof.Machine.execAgeCap core ln s
  | .workgroupEnd l g wg => Sys2Proof.Machine.execWorkgroupEnd l g wg s
  -- The memory system (R102, R107, R115, R119-R143)
  | .loadValueReturn t op => Sys2Proof.Machine.execLoadValueReturn t op s
  | .pageWalk core ctx va => Sys2Proof.Machine.execPageWalk core ctx va s
  | .homeFill k => Sys2Proof.Machine.execHomeFill k s
  | .homeWriteAccept k => Sys2Proof.Machine.execHomeWriteAccept k s
  | .writeAcknowledgement k => Sys2Proof.Machine.execWriteAcknowledgement k s
  | .speculativeValidation k => Sys2Proof.Machine.execSpeculativeValidation k s
  | .replicatedCommit k => Sys2Proof.Machine.execReplicatedCommit k s
  | .replicaLockTimeout k => Sys2Proof.Machine.execReplicaLockTimeout k s
  | .roundViewUpdate core k => Sys2Proof.Machine.execRoundViewUpdate core k s
  | .stashFill k => Sys2Proof.Machine.execStashFill k s
  | .stashUpgrade k => Sys2Proof.Machine.execStashUpgrade k s
  | .stashRecall line => Sys2Proof.Machine.execStashRecall line s
  -- Engines (R151-R180, R221-R248)
  | .copyCompletion k => Sys2Proof.Machine.execCopyCompletion k s
  | .fusedPassStart core => Sys2Proof.Machine.execFusedPassStart core s
  | .matrixPassEnd core => Sys2Proof.Machine.execMatrixPassEnd core s
  | .hobUpdateApply line => Sys2Proof.Machine.execHobUpdateApply line s
  | .hobWindowClose line => Sys2Proof.Machine.execHobWindowClose line s
  | .emberContributionApply k => Sys2Proof.Machine.execEmberContributionApply k s
  | .mergeWindowClose line => Sys2Proof.Machine.execMergeWindowClose line s
  | .eldAtHome k => Sys2Proof.Machine.execEldAtHome k s
  | .resultBlockPush t => Sys2Proof.Machine.execResultBlockPush t s
  | .generationPublish k => Sys2Proof.Machine.execGenerationPublish k s
  | .stokerCommandComplete k => Sys2Proof.Machine.execStokerCommandComplete k s
  | .fireboxClaimGrant => Sys2Proof.Machine.execFireboxClaimGrant s
  | .fireboxConversion => Sys2Proof.Machine.execFireboxConversion s
  | .fireboxOperationRun => Sys2Proof.Machine.execFireboxOperationRun s
  -- Graphics (R236-R239); `l` is the draw's slice
  | .drawBinning l => Sys2Proof.Machine.execDrawBinning l s
  | .rasterise l => Sys2Proof.Machine.execRasterise l s
  | .pixelBackEndWrite l => Sys2Proof.Machine.execPixelBackEndWrite l s
  | .drawRelease l => Sys2Proof.Machine.execDrawRelease l s
  -- Hardware errors, security, bring-up, sideband, fabric (R263-R277)
  | .correctedError => Sys2Proof.Machine.execCorrectedError s
  | .uncorrectableError line => Sys2Proof.Machine.execUncorrectableError line s
  | .dieLoss die => Sys2Proof.Machine.execDieLoss die s
  | .securityAlarm x => Sys2Proof.Machine.execSecurityAlarm x s
  | .powerOn => Sys2Proof.Machine.execPowerOn s
  | .deviceReset => Sys2Proof.Machine.execDeviceReset s
  | .testCommand => Sys2Proof.Machine.execTestCommand s
  | .identityRequest => Sys2Proof.Machine.execIdentityRequest s
  | .recoveryImage => Sys2Proof.Machine.execRecoveryImage s
  | .sidebandStatusRequest => Sys2Proof.Machine.execSidebandStatusRequest s
  | .powerLimit reached => Sys2Proof.Machine.execPowerLimit reached s
  | .flitReceive port crcOk => Sys2Proof.Machine.execFlitReceive port crcOk s
  | .remoteAccess r => Sys2Proof.Machine.execRemoteAccess r s
  -- Fetch and time (R46, R47, R61, R87, R122)
  | .illegalInstruction => Sys2Proof.Machine.execIllegalInstruction s
  | .instructionFetchFault => Sys2Proof.Machine.execInstructionFetchFault s
  | .writeCompletionTime => Sys2Proof.Machine.execWriteCompletionTime s
  | .slowPathCompletion t => Sys2Proof.Machine.execSlowPathCompletion t s

end Sys2Proof.Machine
end

