-- ==== Sys2Proof/Machine/Step.lean ====
section
/-! DEFINITION. One step: the agent whose turn it is moves, and time passes. -/

namespace Sys2Proof.Machine

/-- One step of the machine. A lane runs the instruction its TG's fetch delivers, which may wait for a walk or an engine's line; an
event of the device runs by its own row; a waiting TG is woken to test its condition again. -/
def step (s : State) : Host.Outcome State Fault Refusal :=
  match s.turn with
  | .wake k => .next (finish (wakeTg s k))
  | .event e => if laneOnly e then .next (finish s) else finished (kept s (exec e s))
  | .lane core ln =>
    match laneTurn s core ln with
    | .idle => .next (finish s)
    | .budget s => finished (kept s (budgetStop s))
    | .held s => .next (finish s)
    | .run i s => finished (missed s (exec i s))

/-- The word `w` where the next step fetches. When no thread group is resident, a program is loaded from outside (log 1). -/
def State.withFetchWord (s : State) (_ w : Nat) : State := if s.tg.on then placeWord s w else placeWord (placeProgram s) w

end Sys2Proof.Machine
end

