-- ==== Sys2Proof/Safety.lean ====
section
/-! DEFINITION. The terms in which the statements speak: what each shape of instruction reads and writes, the state that its own
effect leaves, and the invariants of a run. -/

namespace Sys2Proof.Safety

open Sys2Proof.Machine

/-! ### Outcomes -/

/-- The next state, or the given one where there is none. -/
def after (s : State) : Out → State
  | .next t => t
  | _ => s

/-- The outcome is a next state. -/
def isNext : Out → Bool
  | .next _ => true
  | _ => false

/-- The issuing TG's bookkeeping when an instruction is over: no wait, no phase, no value held for it. -/
def over_ (g : Tg) : Tg :=
  { g with waiting := false, woken := false, keepLane := false, place := [], yielded := false, phase := .fresh, held := [], readyFor := 0 }

/-- Only the issuing TG differs. -/
def onlyTg (s t : State) : Prop := t = { s with tg := t.tg }

/-! ### Operands -/

/-- An operand that is a register, a latch, a constant or a predicate: neither a queue nor a stream. -/
def plainOpnd : Opnd → Bool
  | .q _ => false
  | .sp _ => false
  | .rsv _ => false
  | _ => true

/-! ### Instructions that read operands, compute for each thread and write a destination (R12, R18, R27, R44-R46) -/

/-- What such an instruction names: sources with their widths, the destination and the further registers of a run, the
destination's width, whether it is switch-capable, whether an s result is sign-extended, the acting threads, whether it takes
one value from all of them, its own rules on operands and on their values, its types, its result and its side effect. -/
structure Form where
  reads : List (Opnd × Nat)
  dst : Opnd
  more : List Opnd
  bits : Nat
  sw : Bool
  sext : Bool
  mask : Mask
  whole : Bool
  own : Bool
  typeOk : Bool
  late : Bool
  f : Reads → Nat → Elem
  post : Reads → Tg → Tg

def Form.shape (F : Form) : Shape := ⟨F.reads, F.dst, F.bits, F.sw⟩

/-- The threads that read the sources and raise the flags: the lowest alone for an s destination (R45), unless all make one value. -/
def Form.readers (F : Form) : Mask := if F.whole then F.mask else F.shape.readers F.mask

/-- The checks of R46 pass, and every q code has a binding (R163). -/
def Form.legal (F : Form) (s : State) : Bool :=
  F.own && (F.shape.operandTrap s F.mask).isNone && (F.shape.bindTrap s F.mask).isNone
    && F.more.all (fun d => (writeCause s.hdr s.tg F.shape.uniform d F.bits).isNone) && F.typeOk && F.late

/-- No register or latch of the instruction and no predicate of the guard is pending (R115). -/
def Form.ready (F : Form) (s : State) : Bool :=
  !(s.tg.guardPending || F.shape.pending s.tg || F.more.any (fun d => (opndSpan d F.bits).any s.tg.pending))

/-- Every operand is plain. -/
def Form.plain (F : Form) : Bool := F.reads.all (fun r => plainOpnd r.1) && plainOpnd F.dst

/-- The plain sources as the reading threads see them. -/
def Form.values (F : Form) (s : State) : Reads :=
  ⟨F.reads.map (fun r => plainVector s.tg r.1 r.2 F.readers), 0, s, []⟩

/-- The flags that the instruction raises (R71). -/
def Form.flags (F : Form) (r : Reads) : Byte := flagsOf F.readers (fun t => (F.f r t).flags ||| (if bitOf r.poison t then flagPz else 0))

/-- No raised flag has its enable bit set (R73). -/
def Form.noTrap (F : Form) (s : State) (r : Reads) : Bool :=
  (flagTrap s.tg.fptrap F.readers (fun t => (F.f r t).flags ||| (if bitOf r.poison t then flagPz else 0))).isNone

/-- The results of thread t, one for each destination register of the run. -/
def Form.results (F : Form) (r : Reads) (t : Nat) : List (Opnd × W128) :=
  (F.dst, (F.f r t).val) :: F.more.zip (F.f r t).more

/-- Beat `u` of v register `n` afterwards: a word of the result where an acting thread's destination covers it (R12, R43). -/
def Form.vAfter (F : Form) (s : State) (r : Reads) (n u : Nat) : W32 :=
  match (F.results r u).find? (fun x => match x.1 with | .v k => decide (k.toNat ≤ n) && decide (n < k.toNat + F.bits / 32) | _ => false) with
  | some (.v k, x) => if bitOf F.mask u then x.extractLsb' (32 * (n - k.toNat)) 32 else vget (vget s.tg.v n) u
  | _ => vget (vget s.tg.v n) u

/-- s register `n` afterwards: the result for the lowest acting thread (R45), 32 bits extended by the type (R43). -/
def Form.sAfter (F : Form) (s : State) (r : Reads) (n : Nat) : W64 :=
  match (F.results r (lowest F.mask)).find? (fun x => match x.1 with
      | .s k => k.toNat = n || (F.bits = 128 && k.toNat + 1 = n) | _ => false) with
  | some (.s k, x) =>
    if F.bits = 128 then (if k.toNat = n then x.extractLsb' 0 64 else x.extractLsb' 64 64)
    else if F.bits = 64 then x.extractLsb' 0 64 else extendS F.sext x.toNat
  | _ => vget s.tg.s n

/-- Bit `u` of p register `n` afterwards: bit 0 of the result of an acting thread. -/
def Form.pAfter (F : Form) (s : State) (r : Reads) (n u : Nat) : Bool :=
  match F.dst with
  | .p k => if k.toNat = n && bitOf F.mask u then (F.f r u).val.getLsbD 0 else bitOf (vget s.tg.p n) u
  | _ => bitOf (vget s.tg.p n) u

/-- b0 of beat `u` afterwards (R18): the result; one value for all beats from an s destination; 0 where no thread acted. -/
def Form.bAfter (F : Form) (r : Reads) (u : Nat) : W64 :=
  if F.shape.uniform then latchValue F.dst F.bits F.sext (F.f r (lowest F.mask)).val
  else if bitOf F.mask u then latchValue F.dst F.bits false (F.f r u).val else 0

/-- What the instruction leaves with a register, latch or constant as destination, its sources read as `r`: its destination, the
latches moved up (b1 to b3 invalid after a switch-capable one), the flags, the streams moved on, the next word; and nothing else but
what the reading itself took. -/
def Form.resultOf (F : Form) (s : State) (r : Reads) (t : State) : Prop :=
  let g := s.tg
  let h := t.tg
  onlyTg r.st t
    ∧ h = { F.post r (over_ (advanceStreams r.st.tg r.streams)) with v := h.v, s := h.s, p := h.p, b := h.b, bv := h.bv, bop := h.bop, flags := h.flags, pc := h.pc }
    ∧ (∀ n < 64, ∀ u < 8, vget (vget h.v n) u = F.vAfter s r n u)
    ∧ (∀ n < 32, vget h.s n = F.sAfter s r n)
    ∧ (∀ n < 8, ∀ u < 8, bitOf (vget h.p n) u = F.pAfter s r n u)
    ∧ (∀ u < 8, vget (vget h.b 0) u = F.bAfter r u)
    ∧ (∀ n < 3, vget h.b (n + 1) = vget g.b n ∧ vget h.bop (n + 1) = vget g.bop n)
    ∧ vget h.bop 0 = none ∧ vget h.bv 0 = true
    ∧ (∀ n < 3, vget h.bv (n + 1) = (!F.shape.switches && vget g.bv n))
    ∧ h.flags = g.flags ||| F.flags r
    ∧ h.pc = g.pc + 4

/-- The same with plain operands alone: nothing else has changed. -/
def Form.result (F : Form) (s t : State) : Prop := F.resultOf s (F.values s) t

/-- Sources and destination of the container of gm.et, over the active threads; `w` is nw, whose rd must be zr (R38). -/
def plainForm (g : Tg) (d : Opnd) (w : Bool) (reads : List Opnd) (sw : Bool) (types : Nat → Bool) (f : Reads → Nat → Elem) : Form :=
  let bits := etContainer g.et
  { reads := reads.map (fun o => (o, bits)), dst := d, more := [], bits := bits, sw := sw, sext := etSext g.et, mask := g.active
    whole := false, own := !w || d == .zr, typeOk := types g.et, late := true, f := f, post := fun _ g => g }

def lift2Form (g : Tg) (d a b : Opnd) (w sw : Bool) (types : Nat → Bool) (f : Nat → Nat → Res) : Form :=
  plainForm g d w [a, b] sw types (fun r t => lift2 g.et f (r.at 0 t) (r.at 1 t))

def lift1Form (g : Tg) (d a : Opnd) (w : Bool) (types : Nat → Bool) (f : Nat → Res) : Form :=
  plainForm g d w [a] false types (fun r t => lift1 g.et f (r.at 0 t))

/-- Opcodes 0x01-0x10. -/
def arithForm (s : State) (i : Instr) : Option Form :=
  let g := s.tg
  let et := g.et
  let sat := gmSat g.gm
  match i with
  | .add d a b w => some (lift2Form g d a b w false anyArith (addElem et g.rm sat))
  | .sub d a b w => some (lift2Form g d a b w false anyArith (subElem et g.rm sat))
  | .mul d a b w => some (lift2Form g d a b w false anyArith (mulElem et g.rm sat))
  | .mulh d a b w => some (lift2Form g d a b w false anyInt (mulhElem et))
  | .mad d a b w k =>
    let c : Opnd := if k = 0 then d else .b (k - 1)
    let F := plainForm g d w [a, b, c] false anyArith (fun r t => lift3 et (madElem et g.rm sat) (r.at 0 t) (r.at 1 t) (r.at 2 t))
    some { F with own := if w then d == .zr else isVReg d || isSReg d }
  | .div d a b w =>
    some { lift2Form g d a b w true (fun et => et ≤ 11) (divElem et g.rm sat) with
           post := fun r g => { g with slow := !anyInt g.et && slowIn 0x06 (Shape.readers ⟨[], d, 0, true⟩ g.active) r } }
  | .rem d a b w => some (lift2Form g d a b w true anyInt (remElem et))
  | .min d a b w => some (lift2Form g d a b w false anyArith (minMaxElem et false))
  | .max d a b w => some (lift2Form g d a b w false anyArith (minMaxElem et true))
  | .abs d a w => some (lift1Form g d a w anyArith (absElem et sat))
  | .neg d a w => some (lift1Form g d a w anyArith (negElem et sat))
  | .clz d a w => some (lift1Form g d a w anyInt (clzElem et))
  | .popc d a w => some (lift1Form g d a w anyInt (popcElem et))
  | .cmp d a b c =>
    let isP := match d with | .p _ => true | _ => false
    let F := plainForm g d false [a, b] false (fun et => anyArith et && !(isP && 1 < etLanes et))
      (fun r t => cmpElem et c.toNat (r.at 0 t) (r.at 1 t))
    some { F with bits := 32, sext := false, own := isP || isVReg d || isSReg d || d == .zr }
  | .sel d a b w =>
    let F := plainForm g d w [a, b] false (fun _ => true) (fun r t => { val := if bitOf g.guard t then r.at 0 t else r.at 1 t })
    some { F with mask := g.cm, own := F.own && !wideQueue F.bits [d, a, b] }
  | .cvt d a ty w tr =>
    let from_ := ty.toNat
    let k := max (perReg from_) (perReg et)
    match runOf a from_ (k / perReg from_), runOf d et (k / perReg et) with
    | some srcs, some (d0 :: ds) =>
      some { reads := srcs.map (fun o => (o, etContainer from_)), dst := d0, more := if w then [] else ds, bits := etContainer et
             sw := false, sext := etSext et, mask := g.active, whole := false, own := !w || d == .zr
             typeOk := from_ ≤ 12 && et ≤ 12, late := true
             f := fun r t => cvtAll from_ et (if tr then 1 else g.rm) sat k ((upTo srcs.length).map (fun i => r.at i t))
             post := fun _ g => g }
    | _, _ => none
  | _ => none

/-- A shift or BFX: the second source in its own width. -/
def shiftForm (g : Tg) (d a b : Opnd) (w : Bool) (bBits : Nat) (types : Nat → Bool) (f : Nat → Nat → Res) : Form :=
  let F := plainForm g d w [a] false types
    (fun r t => packRes g.et [f ((r.at 0 t).toNat % 2 ^ etWidth g.et) (r.at 1 t).toNat])
  { F with reads := F.reads ++ [(b, bBits)] }

/-- Opcodes 0x11-0x17. -/
def logicForm (s : State) (i : Instr) : Option Form :=
  let g := s.tg
  let et := g.et
  match i with
  | .and d a b w => some (plainForm g d w [a, b] false anyLogic (fun r t => { val := r.at 0 t &&& r.at 1 t }))
  | .or d a b w => some (plainForm g d w [a, b] false anyLogic (fun r t => { val := r.at 0 t ||| r.at 1 t }))
  | .xor d a b w => some (plainForm g d w [a, b] false anyLogic (fun r t => { val := r.at 0 t ^^^ r.at 1 t }))
  | .shl d a b w => some (shiftForm g d a b w (amountBits b) anyInt (shlElem et (gmSat g.gm)))
  | .shr d a b w => some (shiftForm g d a b w (amountBits b) anyInt (shrElem et))
  | .sra d a b w => some (shiftForm g d a b w (amountBits b) anyInt (sraElem et))
  | .bfx d a b w k => some (shiftForm g d a b w (etContainer et) (fun et => 4 ≤ et && et ≤ 7) (bfxElem et k))
  | _ => none

/-- A function of one IEEE element, on the slow path where Config says so (R87). -/
def slowForm (g : Tg) (op : Nat) (d a : Opnd) (w : Bool) (f : Fmt → Nat → Res) : Form :=
  { lift1Form g d a w anyIeee (ieee1 g.et f) with
    sw := true
    post := fun r g => { g with slow := !anyInt g.et && slowIn op (Shape.readers ⟨[], d, 0, true⟩ g.active) r } }

/-- Opcodes 0x20-0x27. -/
def funcForm (s : State) (i : Instr) : Option Form :=
  let g := s.tg
  match i with
  | .rcp d a w => some (slowForm g 0x20 d a w (fun f => f.rcp g.rm))
  | .rsq d a w => some (slowForm g 0x21 d a w (fun f => f.rsq g.rm))
  | .rsqs d a w => some (plainForm g d w [a] false (fun et => et = etF32) (fun r t => lift1 etF32 rsqsF32 (r.at 0 t)))
  | .sqrt d a w => some (slowForm g 0x23 d a w (fun f => f.sqrt g.rm))
  | .ex2 d a w => some (slowForm g 0x24 d a w (fun f => f.ex2 g.rm))
  | .lg2 d a w => some (slowForm g 0x25 d a w (fun f => f.lg2 g.rm))
  | .sinp d a w => some (slowForm g 0x26 d a w (fun f => f.sinp g.rm))
  | .cosp d a w => some (slowForm g 0x27 d a w (fun f => f.cosp g.rm))
  | _ => none

/-- Opcodes 0x30-0x36 and WID. -/
def moveForm (s : State) (i : Instr) : Option Form :=
  let g := s.tg
  let bits := etContainer g.et
  match i with
  | .mov d a w =>
    let F := plainForm g d w [a] false (fun _ => true) (fun r t => { val := r.at 0 t })
    some { F with own := F.own && !wideQueue bits [d, a] }
  | .movi d n =>
    let F := plainForm g d false [] false (fun _ => true)
      (fun _ _ => { val := if isSReg d then (n.signExtend 64).setWidth 128 else (n.signExtend 32).setWidth 128 })
    some { F with bits := if isSReg d then 64 else 32, sext := true, own := vOrS d }
  | .movh d n =>
    let F := plainForm g d false [] false (fun _ => true)
      (fun r t => { val := BitVec.ofNat 128 (n.toNat * 2 ^ 17 + (r.at 0 t).toNat % 2 ^ 17) })
    some { F with reads := [(d, 32)], bits := 32, sext := true, own := vOrS d }
  | .lane d a b w k =>
    let F := plainForm g d false [] false (fun _ => true)
      (fun r t => { val := beatValue g a bits (laneFrom k.toNat (r.at 1 t).toNat t) })
    some { F with reads := [(a, bits), (b, amountBits b)], sext := false, own := (if w then d == .zr else isVReg d) && isVReg a }
  | .bcst d a b w k =>
    let u := bcstBeat g b k.toNat g.active
    let F := plainForm g d false [] false (fun _ => true) (fun _ _ => { val := beatValue g a bits u })
    some { F with reads := if k = 0 then [(a, bits), (b, 64)] else [(a, bits)]
                  own := isVReg a && (k ≠ 0 || isSReg b || b == .zr) && (!w || d == .zr), late := u ≤ 7 }
  | .red d a c =>
    let F := plainForm g d false [a] false (fun et => if c.toNat ≤ 2 then et ≤ 11 else anyInt et)
      (fun r _ => redAll g.et g.rm (gmSat g.gm) c.toNat g.active (fun t => r.at 0 t))
    some { F with whole := true, own := (vOrS d || d == .zr) && isVReg a }
  | .rnd d w =>
    let F := plainForm g d false [] false (fun et => et ∈ [4, 5, 6, 7, 10, 11])
      (fun _ t => { val := rndDeliver g.et (rndValue s.launch.seed (g.wid s.launch t) (vget g.rnd t)) })
    some { F with sext := false, own := if w then d == .zr else isVReg d
                  post := fun _ g => { g with rnd := (beatsOf g.active).foldl (fun v t => vset v t (vget v t + 1)) g.rnd } }
  | .wid d a =>
    let n := (readS g a).toNat
    let F := plainForm g d false [] false (fun _ => true) (fun _ t => { val := BitVec.ofNat 128 (widField s.hdr (g.wid s.launch t) n) })
    some { F with reads := [(a, 64)], bits := if isSReg d then 64 else 32, sext := false, own := vOrS d && isSReg a, late := n ≤ 5 }
  | _ => none

/-- Every instruction of this kind. -/
def elemForm (s : State) (i : Instr) : Option Form :=
  match arithForm s i, logicForm s i, funcForm s i with
  | some F, _, _ => some F
  | none, some F, _ => some F
  | none, none, some F => some F
  | none, none, none => moveForm s i

/-! ### Control -/

/-- The TG at another word, every latch invalid (R19): what a control transfer does to it. -/
def transferred (g : Tg) (pc : W64) : Tg := { over_ g with bv := Vector.replicate 4 false, pc := pc }

/-- The state with the issuing TG replaced. -/
def withTg (s : State) (g : Tg) : State := { s with tg := g }

/-- The target of a branch word (R39). -/
def branchTo (g : Tg) (disp : Int) : W64 := g.pc + 4 + BitVec.ofInt 64 (4 * disp)

/-- After a switch-capable instruction without a result b1 to b3 are invalid (R19). -/
def lost (g : Tg) : Tg := { g with bv := #v[vget g.bv 0, false, false, false] }

/-- The next word with nothing else changed. -/
def nextWord (g : Tg) : Tg := { over_ g with pc := g.pc + 4 }

/-- A value in b0 of every beat, the older latches moved up (R18). -/
def pushLatch (g : Tg) (x : W64) : Tg :=
  { g with b := #v[Vector.replicate 8 x, vget g.b 0, vget g.b 1, vget g.b 2]
           bv := #v[true, vget g.bv 0, vget g.bv 1, vget g.bv 2]
           bop := #v[none, vget g.bop 0, vget g.bop 1, vget g.bop 2] }

/-- An s register written; zr discards (R41). -/
def putS (g : Tg) (d : Opnd) (x : W64) : Tg := match d with | .s n => { g with s := vset g.s n.toNat x } | _ => g

/-- The TG waits at a switch point: its lane may turn to another (R17, R115). -/
def waits (s : State) : State := withTg s { s.tg with waiting := true, woken := false, keepLane := false }

/-- Where Resolve leads a TG whose current mask has become empty, from the innermost entry outwards: threads, PC and stack; none
when no entry holds a live thread (R24). -/
def resolution (live : Mask) : List Entry → Option (Mask × W64 × List Entry)
  | [] => none
  | e :: es =>
    if e.pm &&& live ≠ 0 then some (e.pm &&& live, e.ppc, { e with pm := 0 } :: es)
    else if e.rm &&& live ≠ 0 then
      match e.rpc with
      | some pc => some (e.rm &&& live, pc, es)
      | none => some (e.rm &&& live, e.ppc, e :: es)
    else resolution live es

/-- The lane chooses again at a switch point (R17). -/
def freeLane (s : State) : State := { s with lanes := s.lanes.filter (fun x => x.2.2 ≠ s.tg.key) }

/-- s registers within the declared count, or zr where `z`. -/
def sOperand (s : State) (z : Bool) : Opnd → Bool
  | .s n => decide (n.toNat < s.hdr.sregs)
  | .zr => z
  | _ => false

/-! ### Exceptions -/

/-- The issuing TG just after Trap(cause, mask, va) has entered a handler (R200): the saved registers written, PRIV at S, the
guard and mode bits of gm cleared, every latch invalid, the PC at the handler; an armed monitor has fired (R117). -/
def inHandler (g : Tg) (i : TrapInfo) (handler : W64) (region : Option (Nat × Nat)) : Tg :=
  { over_ g with
    trpc := g.pc, tepc := g.pc, taddr := i.va, tgm := g.gm
    tcause := BitVec.ofNat 64 (i.cause + 2 ^ 8 * g.priv.code + 2 ^ 16 * g.stack.length)
    tmask := BitVec.ofNat 64 (i.mask.toNat + 2 ^ 8 * g.cm.toNat)
    priv := .s, gm := g.gm &&& 0xFF000000, bv := Vector.replicate 4 false, pc := handler, region := region
    slow := false, sysw := none, monitor := g.monitor.map (fun m => { m with fired := true })
    budgetTrap := g.budgetTrap && i.cause != 0x0A }

/-- A trap is taken outside U, or there is no handler: the TG is killed (R199). -/
def killsTg (s : State) : Bool := s.tg.priv ≠ .u || (s.hdr.trapOff = 0 && s.ctx.tvec = 0)

/-- The issuing TG's workgroup. -/
def myWg (s : State) (w : Wg) : Bool := w.is s.tg.key.launch s.tg.key.gang s.tg.key.wg

/-- What a kill leaves (R199): the TG ended, its workgroup marked, and each of its live threads' status of 0x8000_0000 | cause
recorded with it (R25). -/
def killed (s : State) (cause : Nat) (t : State) : Prop :=
  let k := s.tg.key
  t.tg.on = false ∧ t.tg.live = 0 ∧ t.tg.cm = 0
    ∧ ∀ w, s.findWg k.launch k.gang k.wg = some w → ∃ w', t.findWg k.launch k.gang k.wg = some w' ∧ w'.killed = true
        ∧ w'.status = (beatsOf s.tg.live).foldl (fun r u => betterStatus r (some (BitVec.ofNat 32 (0x80000000 + cause), s.tg.wid s.launch u))) w.status

/-! ### Control registers (R206, R207, R269) -/

/-- Numbers that a privilege may read. -/
def readTable : List (Nat × Nat × Priv) :=
  [(0x000, 0x004, .u), (0x010, 0x011, .s), (0x012, 0x012, .u), (0x013, 0x017, .s), (0x020, 0x020, .u), (0x021, 0x021, .s)
   , (0x022, 0x022, .u), (0x030, 0x04F, .s), (0x050, 0x053, .u), (0x060, 0x061, .u), (0x070, 0x077, .u), (0x080, 0x080, .u)
   , (0x081, 0x083, .s), (0x084, 0x084, .u), (0x090, 0x090, .u), (0x100, 0x17F, .m)]

/-- Numbers that a privilege may write. -/
def writeTable : List (Nat × Nat × Priv) :=
  [(0x003, 0x004, .u), (0x010, 0x011, .s), (0x012, 0x012, .u), (0x013, 0x015, .s), (0x020, 0x020, .m), (0x021, 0x021, .s)
   , (0x022, 0x022, .m), (0x030, 0x04F, .s), (0x050, 0x051, .s), (0x052, 0x052, .u), (0x053, 0x053, .m), (0x060, 0x060, .m)
   , (0x061, 0x061, .s), (0x070, 0x077, .u), (0x081, 0x083, .m), (0x090, 0x090, .s), (0x100, 0x17F, .m)]

/-- A table allows an access at a privilege. -/
def allowed (xs : List (Nat × Nat × Priv)) (n : Nat) (p : Priv) : Bool :=
  xs.any (fun x => decide (x.1 ≤ n) && decide (n ≤ x.2.1) && decide (x.2.2.code ≤ p.code))

/-- What the registers hold, by number (R206, R207, R269). -/
def registerValues (s : State) : List (Nat × W64) :=
  let g := s.tg
  let x := s.ctx
  [(0x000, BitVec.ofNat 64 s.gt), (0x001, BitVec.ofNat 64 s.cycle), (0x002, BitVec.ofNat 64 g.priv.code)
   , (0x003, g.flags.setWidth 64), (0x004, g.fptrap.setWidth 64), (0x010, x.tvec), (0x011, g.tcause), (0x012, g.trec)
   , (0x013, g.tepc), (0x014, g.tmask), (0x015, g.tgm.setWidth 64), (0x016, g.taddr), (0x017, g.trpc)
   , (0x020, BitVec.ofNat 64 g.ctx), (0x021, x.ptroot), (0x022, x.ctxcap), (0x050, x.rrtab), (0x051, x.ertab)
   , (0x052, g.lease.setWidth 64), (0x053, if s.dev.detm then 1 else 0), (0x060, s.dev.quant.setWidth 64)
   , (0x061, BitVec.ofNat 64 ((if x.kindEn then 1 else 0) + 2 ^ 16 * x.kindling.length + 2 ^ 48 * x.dropped))
   , (0x080, s.dev.nodeid.setWidth 64), (0x081, BitVec.ofNat 64 (s.dev.cor.toNat + 2 ^ 32 * s.dev.unc.toNat))
   , (0x082, s.dev.salvb), (0x083, BitVec.ofNat 64 (s.dev.written.toNat + 2 ^ 32 * s.dev.dropped.toNat)), (0x084, s.dev.dieLost.setWidth 64), (0x090, x.sqld)]
    ++ (upTo 16).map (fun n => (0x030 + n, vget x.ncb n)) ++ (upTo 16).map (fun n => (0x040 + n, vget x.ncl n))
    ++ (upTo 4).map (fun n => (0x070 + n, vget s.wg.stga n)) ++ (upTo 4).map (fun n => (0x074 + n, vget s.wg.stsc n))
    ++ (upTo 32).flatMap (fun w => let f := vget s.dev.fw w
        [(0x100 + 4 * w, f.base), (0x101 + 4 * w, f.lim), (0x102 + 4 * w, f.scale), (0x103 + 4 * w, f.ctl)])

/-- The TG after a SYSW of one of its own registers; `x` is the source with the register's zero fields cleared. -/
def wroteReg (g : Tg) (n : Nat) (x : W64) : Option Tg :=
  if n = 0x003 then some { g with flags := x.setWidth 8 }
  else if n = 0x004 then some { g with fptrap := x.setWidth 8 &&& 0x9F }
  else if n = 0x011 then some { g with tcause := x &&& 0x1F03FF }
  else if n = 0x012 then some { g with trec := x }
  else if n = 0x013 then some { g with tepc := x }
  else if n = 0x014 then some { g with tmask := x &&& 0xFFFF }
  else if n = 0x015 then some { g with tgm := x.setWidth 32 }
  else if n = 0x052 then some { g with lease := x.setWidth 5 }
  else none

/-! ### Loads, stores and atomics -/

/-- What a load, store or atomic does with its operands before it looks at memory: it runs, its codes are legal, no register and no
predicate of the guard is pending, no acquire is outstanding, queues are bound and ready, and its sources read as `r`. -/
def issues (s : State) (x : Shape) (a : Opnd) (r : Reads) : Prop :=
  s.tg.on = true ∧ s.tg.active ≠ 0 ∧ s.tg.guardPending = false ∧ addrOk s.hdr a = true ∧ x.operandTrap s s.tg.active = none
    ∧ x.bindTrap s s.tg.active = none ∧ x.pending s.tg = false ∧ (opndSpan a 64).any s.tg.pending = false ∧ s.tg.acquiring = false
    ∧ queuesReady s (queueWords s.tg x.reads (beatsOf (x.readers s.tg.active)).length) [] = true
    ∧ readSources s x.switches (x.readers s.tg.active) x.reads 0 ⟨[], 0, s, []⟩ = .go r

/-- No table, region entry or counter that an access reads has an owner, an open window or a write that has come due at its home:
reading it changes no byte (R102, R107, R122, R158, R180). -/
def tablesQuiet (s : State) : Prop :=
  s.heldHob = [] ∧ s.heldEmber = [] ∧ ∀ l ∈ s.lines, l.due s.gt = [] ∧ ∀ a b c, l.owner ≠ some (.stash a b c)

/-- The operations outstanding after one of the instruction's own that is finished at once: it counts only behind an outstanding one
of its path (R114). -/
def quick (g : Tg) (p : Path) : List Op :=
  retireOps [] (g.ops ++ [{ id := g.nextOp, path := some p, pc := g.pc, word := g.word, sink := none, need := 0, got := [], load := false, done := true }])

/-- No thread's poison calls for the trap of R73. -/
def poisonPasses (s : State) (m : Mask) : Bool := !(s.tg.fptrap.getLsbD 7 && m != 0)

/-- The flags with pz set where a thread met poison. -/
def poisonFlags (g : Tg) (m : Mask) : Byte := if m = 0 then g.flags else g.flags ||| flagPz

/-- A v word, an s register, a predicate bit and b0 of beat u after values came for the threads of `got` (R43, R311, R18). -/
def loadedV (g : Tg) (d : Opnd) (bits : Nat) (got : List Piece) (n u : Nat) : W32 :=
  match d, got.find? (fun p => p.t = u) with
  | .v k, some p =>
    if k.toNat ≤ n && n < k.toNat + bits / 32 && bitOf g.live u then p.data.extractLsb' (32 * (n - k.toNat)) 32
    else vget (vget g.v n) u
  | _, _ => vget (vget g.v n) u

def loadedS (g : Tg) (d : Opnd) (bits : Nat) (sext : Bool) (got : List Piece) (n : Nat) : W64 :=
  match d, got with
  | .s k, p :: _ =>
    if bits = 128 then
      if k.toNat = n then p.data.extractLsb' 0 64 else if k.toNat + 1 = n then p.data.extractLsb' 64 64 else vget g.s n
    else if k.toNat = n then (if bits = 64 then p.data.extractLsb' 0 64 else extendS sext p.data.toNat) else vget g.s n
  | _, _ => vget g.s n

def loadedP (g : Tg) (d : Opnd) (got : List Piece) (n u : Nat) : Bool :=
  match d, got.find? (fun p => p.t = u) with
  | .p k, some p => if k.toNat = n && bitOf g.live u then p.data.getLsbD 0 else bitOf (vget g.p n) u
  | _, _ => bitOf (vget g.p n) u

def loadedB (d : Opnd) (bits : Nat) (sext : Bool) (got : List Piece) (u : Nat) : W64 :=
  if isSReg d then (match got with | p :: _ => latchValue d bits sext p.data | [] => 0)
  else match got.find? (fun p => p.t = u) with | some p => latchValue d bits sext p.data | none => 0

/-- `h` is `g` with the values of `got` in destination `d` and in b0, the older latches moved up and then lost; nothing else of it
differs but what `rest` allows. -/
def tookValues (g h : Tg) (d : Opnd) (got : List Piece) (owed : Option Nat) : Prop :=
  let bits := etContainer g.et
  let sext := etSext g.et
  (∀ n < 64, ∀ u < 8, vget (vget h.v n) u = loadedV g d bits got n u)
    ∧ (∀ n < 32, vget h.s n = loadedS g d bits sext got n)
    ∧ (∀ n < 8, ∀ u < 8, bitOf (vget h.p n) u = loadedP g d got n u)
    ∧ (∀ u < 8, vget (vget h.b 0) u = loadedB d bits sext got u)
    ∧ (∀ n < 3, vget h.b (n + 1) = vget g.b n ∧ vget h.bop (n + 1) = vget g.bop n)
    ∧ vget h.bop 0 = owed ∧ h.bv = #v[true, false, false, false]

/-- The latches moved up, b0 owed by operation `id`, b1 to b3 lost. -/
def owing (g : Tg) (id : Option Nat) : Tg :=
  { g with b := #v[Vector.replicate 8 0, vget g.b 0, vget g.b 1, vget g.b 2], bv := #v[true, false, false, false]
           bop := #v[id, vget g.bop 0, vget g.bop 1, vget g.bop 2] }

/-- The word of a load, by its kind. -/
def loadWord : LoadKind → Opnd → Opnd → Opnd → Bool → Instr
  | .plain => .ld
  | .bounded => .ldb
  | .acquire => .lda

/-- The state in which a load looks at memory: the pages of its accesses cached; an LDA has dropped the core's non-coherent copies. -/
def lookState (s : State) (k : LoadKind) (accs : List Acc1) : State :=
  let s := touchPages s accs
  if k = .acquire then dropNc s s.tg.core else s

/-- What a load finds: values at hand and messages to send. -/
def found (s : State) (k : LoadKind) (accs : List Acc1) : Gathered :=
  gather (lookState s k accs) s.tg.et s.tg.nextOp (etBytes s.tg.et) (k = .bounded) accs

/-- Nothing stands in a load's way: room in its counter, no stash line to fill first, no LDB below its floor. -/
def loadGoes (r : Reads) (k : LoadKind) (accs : List Acc1) : Bool :=
  decide (r.st.tg.count (pathOf accs) < 255) && !(found r.st k accs).stall && (found r.st k accs).fills.isEmpty

/-- The word of a store, by its kind. -/
def storeWord (release : Bool) : Opnd → Opnd → Opnd → Instr := if release then .str else .st

/-- The messages of stores to memory, in ascending t. -/
def storeMsgs (s : State) (op floor : Nat) (xs : List (Acc1 × List Byte)) : List Msg :=
  xs.filterMap (fun x => match x.1.target with
    | .mem pa attr nc _ => some { tg := s.tg.key, op := op, t := x.1.t, core := s.tg.core, ctx := s.tg.ctx, pa := pa, rep := attr = 2
                                  dev := attr = 3, ask := .write x.2 floor nc true }
    | _ => none)

/-- The scratch places of stores, in ascending t: workgroup, offset and bytes. -/
def storePuts (s : State) (xs : List (Acc1 × List Byte)) : List ((Nat × Nat × Nat) × Nat × List Byte) :=
  xs.filterMap (fun x => match x.1.target with
    | .scratch l g w off => some ((l, g, w), off, x.2)
    | .stash _ _ off _ _ => some ((s.wg.launch, s.wg.gang, s.wg.no), off, x.2)
    | .mem _ _ _ _ => none)

/-- A byte of a workgroup's scratch after a list of stores: the last one that covers it, else what it was. -/
def byteAfter (w : Nat × Nat × Nat) (a : Nat) (old : Byte) (ps : List ((Nat × Nat × Nat) × Nat × List Byte)) : Byte :=
  ps.foldl (fun b p => if p.1 = w && p.2.1 ≤ a && a < p.2.1 + p.2.2.length then byteAt p.2.2 (a - p.2.1) else b) old

/-- The byte of a workgroup's scratch, 0 for a workgroup that is not there. -/
def scratchByte (s : State) (w : Nat × Nat × Nat) (a : Nat) : Byte :=
  match s.findWg w.1 w.2.1 w.2.2 with | some x => memGet x.scratch a | none => 0

/-- An engine has written byte `b` at `pa`, with its poison (R132, R168, R248); a lost home discards it (R267). -/
def byteWritten (s u : State) (pa : Nat) (b : Byte) (bad : Bool) : Prop :=
  s.orphaned (lineOf pa) = false → latestBytes u pa 1 = [b] ∧ (bad = true → (u.line (lineOf pa)).poison = true)

/-- Outside some lines memory is as before, and in them so is every byte that was not written. -/
def restOfLines (s u : State) (lines : List Nat) (hit : Nat → Bool) : Prop :=
  ∀ a, (lineOf a ∉ lines → memGet u.mem a = memGet s.mem a) ∧ (lineOf a ∈ lines → hit a = false → latestBytes u a 1 = latestBytes s a 1)

/-- The atomics by their operation number (R280), and the hob updates. -/
def atomicWord (op : Nat) : Opnd → Opnd → Opnd → Instr :=
  match op with | 0 => .aadd | 1 => .amin | 2 => .amax | 3 => .aand | 4 => .aor | 5 => .axor | 6 => .axch | _ => .acas

def hobWord (i : Nat) : Opnd → Opnd → Opnd → Instr := match i with | 0 => .hbadd | 1 => .hbmax | _ => .hbmin

/-- The operands of an atomic: ACAS also reads rd, its new value (R279). -/
def atomicShape (g : Tg) (op : Nat) (d b : Opnd) : Shape :=
  let bits := etContainer g.et
  ⟨if op = 7 then [(b, bits), (d, bits)] else [(b, bits)], d, bits, true⟩

/-- The threads of an atomic that read poison: in a source, or in a stash line of theirs (R73, R266, R281). -/
def atomicPoison (s : State) (r : Reads) (accs : List Acc1) : Mask :=
  r.poison ||| maskOf (fun t => accs.any (fun y => y.t = t && stashPoison s y))

/-- Nothing stands in an atomic's way: the type and the use allow it, queues have room, a strong one's earlier writes are
acknowledged, its addresses pass R97, its counter has room, its stash lines are owned, and no poison traps. -/
def atomicGoes (s : State) (op : Nat) (d a : Opnd) (r : Reads) (accs : List Acc1) : Prop :=
  let x := atomicShape s.tg op d .zr
  let ts := x.readers s.tg.active
  let size := etBytes s.tg.et
  atomicType op s.tg.et = true ∧ (noReturn (auOf s.tg) = true → op < 6 ∧ d = .zr) ∧ (auOf s.tg = 0 → strReady s = true)
    ∧ checkEach .atomic (fun va => thenCheck deviceFault (checkAccess s s.tg .atomic size size va))
        ((beatsOf ts).map (fun t => (t, (readPlain s.tg a 64 t).setWidth 64))) = (none, accs)
    ∧ r.st.tg.count (if pathOf accs = .g then .h else .s) < 255 ∧ needOwn s accs = []
    ∧ poisonPasses s (atomicPoison s r accs) = true

/-- The state in which an atomic looks at memory: the pages of its accesses cached, a strong one's non-coherent copies dropped. -/
def lookAtomic (s : State) (r : Reads) (accs : List Acc1) : State :=
  let s0 := withTg r.st { r.st.tg with flags := poisonFlags s.tg (atomicPoison s r accs) }
  let s1 := if auOf s.tg = 4 then cachePages s0 accs else touchPages s0 accs
  if auOf s.tg = 0 then dropNc s1 s1.tg.core else s1

/-! ### Commands to engines -/

/-- The issuing TG has handed a command to an engine: one operation outstanding on the path, its status register `d` pending, the
next word at a switch point, b1 to b3 lost; no register, flag, latch or byte of memory has changed, as far as no table or structure
that is read is recalled (which could fire its monitor); `q` are the quantum atomics that it still holds. -/
def commandSent (s t : State) (p : Path) (d : Opnd) (q : List Quantum) : Prop :=
  (tablesQuiet s → t.mem = s.mem ∧ t.wgs = s.wgs ∧ t.tg.monitor = s.tg.monitor)
    ∧ ∃ o, o.id = s.tg.nextOp ∧ o.path = some p ∧ o.sink = some ⟨d, 6, 0xFF, false⟩ ∧ o.need = 1 ∧ o.done = false ∧ o.got = []
        ∧ t.tg = { nextWord (lost s.tg) with
                   ops := s.tg.ops ++ [o], nextOp := s.tg.nextOp + 1, unack := t.tg.unack, monitor := t.tg.monitor, quantum := q }

/-- CTST: 0 while the register is pending, else 1 (R171). -/
def testForm (s : State) (d a : Opnd) : Form :=
  { reads := [], dst := d, more := [], bits := if isSReg d then 64 else 32, sw := true, sext := false, mask := s.tg.active
    whole := false, own := true, typeOk := true, late := true, f := fun _ _ => { val := if s.tg.pending a then 0 else 1 }
    post := fun _ g => g }

/-- The stoker commands by their opcode. -/
def stokerWord (code : Nat) (d a b : Opnd) : Instr :=
  match code with | 0x94 => .skb d a b | 0x95 => .skr d a b | 0x96 => .skl d a | 0x97 => .skp d a | _ => .skq d a b

/-! ### Embers, firebox, context images -/

/-- EST's or EMRG's word. -/
def emberWord (merge : Bool) : Opnd → Opnd → Opnd → Instr := if merge then .emrg else .est

/-- The contribution of a thread's operand, none when R150 drops it. -/
def contributionOf (merge : Bool) (x : W128) : Option Contribution := if merge then emrgOf x else estOf x

/-- The operand checks, waits and reads of an ember operation are passed, its addresses are embers, the round values are at hand. -/
def emberGoes (s : State) (x : Shape) (d a : Opnd) (write : Bool) (r : Reads) (es : List EmberAt) (round : Nat → W32) : Prop :=
  let s0 := noteEmbers s s.tg.ctx
  let ts := x.readers s.tg.active
  s.tg.on = true ∧ s.tg.active ≠ 0 ∧ s.tg.guardPending = false ∧ (isVReg d || isSReg d) = true ∧ addrOk s.hdr a = true
    ∧ x.operandTrap s s.tg.active = none ∧ x.bindTrap s s.tg.active = none
    ∧ s.tg.et = etEmb ∧ s.hdr.emb = true ∧ x.pending s.tg = false ∧ (opndSpan a 64).any s.tg.pending = false
    ∧ s.tg.count .e < 255 ∧ s.tg.acquiring = false ∧ queuesReady s (queueWords s.tg x.reads (beatsOf ts).length) [] = true
    ∧ readSources s0 true ts x.reads 0 ⟨[], 0, s0, []⟩ = .go r
    ∧ firstTrap (emberChecks s0 write (effVas s.tg a r 0 ts)).1 = none ∧ (emberChecks s0 write (effVas s.tg a r 0 ts)).2 = es
    ∧ (roundValues s0 (roundsOf es) = .ready round)

/-- The state in which an ember operation goes out: views taken, flags raised, pages cached, held quantum atomics to its embers sent. -/
def emberState (r : Reads) (es : List EmberAt) (fl : Byte) : State :=
  let s := noteViews r.st (roundsOf es)
  let s := es.foldl (fun s e => cachePage s s.tg.core s.tg.ctx e.va) (withTg s { s.tg with flags := s.tg.flags ||| fl })
  sendHeld s (es.map (fun e => ⟨e.t, e.va, .mem e.pa 1 false false⟩))

/-- The issuing TG has handed an operation to the firebox controller: it stands last in the queue, and one operation is outstanding
on the F path. Memory and workgroups are as before, as far as no table that is read is recalled; `held` are the quantum atomics that the
TG still holds. -/
def fireboxSent (s t : State) (code sub : Nat) (d a b : W64) (dst : Opnd) (sink : Option Sink) (held : List Quantum) : Prop :=
  (tablesQuiet s → t.mem = s.mem ∧ t.wgs = s.wgs ∧ t.tg.monitor = s.tg.monitor)
    ∧ (∃ q, t.fb = { s.fb with queue := s.fb.queue ++ [q] } ∧ q.tg = s.tg.key ∧ q.op = s.tg.nextOp ∧ q.code = code ∧ q.sub = sub
        ∧ q.d = d ∧ q.a = a ∧ q.b = b ∧ q.dst = dst)
    ∧ ∃ o, o.id = s.tg.nextOp ∧ o.path = some .f ∧ o.sink = sink ∧ o.need = 1 ∧ o.done = false
        ∧ t.tg = { nextWord (lost s.tg) with
                   ops := s.tg.ops ++ [o], nextOp := s.tg.nextOp + 1, unack := t.tg.unack, monitor := t.tg.monitor, quantum := held }

/-- The registers name legal s registers none of which is pending, the F counter and the controller's queue have room, and the
workgroup owns the firebox domain with n ≥ 1. -/
def fireboxGoes (s : State) (xs : List (BitVec 5)) : Prop :=
  s.tg.on = true ∧ s.tg.guardPending = false ∧ s.tg.active ≠ 0 ∧ (∀ n ∈ xs, n.toNat < s.hdr.sregs ∧ s.tg.pending (.s n) = false) ∧ s.tg.count .f < 255
    ∧ fbOwns s s.tg.key = true ∧ s.fb.queue.length < 16

/-- The operations between rows with three descriptors, with their opcode and selector. -/
def rowWord (code : Nat) (k : BitVec 2) (d a b : Opnd) : Instr :=
  match code with
  | 0xB1 => .fbadd d a b k | 0xB2 => .fbsub d a b k | 0xB3 => .fblog d a b k | 0xB5 => .fbsel d a b | _ => .fbmul d a b (k = 1)

/-- The bytes of a TG's context image at an offset. -/
def imageField (b : List Byte) (off n : Nat) : Nat := recNat b off n

/-! ### A word that is fetched and run -/

/-- The state in which a fetched word runs: the word in the TG, its engine noted, its workgroup issued. -/
def fetched (s : State) (w : W32) : State :=
  let s1 := noteUse s s.tg.core (engineOf (w.toNat / 2 ^ 24))
  { s1 with tg := { s.tg with word := w }
            wgs := replaceFirst (myWg s) (fun x => { x with issued := true }) s.wgs }

/-! ### Answers of the homes -/

/-- The operation of the message has its value: one piece more, one response fewer due. -/
def valueCame (s u : State) (m : Msg) (b : List Byte) (poison : Bool) (ready : Nat) : Prop :=
  ∀ g o, s.findTg m.tg = some g → g.ops.find? (fun x => x.id = m.op) = some o →
    ∃ h o', u.findTg m.tg = some h ∧ h.ops.find? (fun x => x.id = m.op) = some o' ∧ o'.need = o.need - 1
      ∧ o'.got = o.got ++ [mkPiece (match o.sink with | some z => z.et.toNat | none => etU32) m.t b poison ready]

/-- Every operation of the message is acknowledged with WCT `t`; `bad` marks the threads that met a poisoned line. -/
def acked (s u : State) (m : Msg) (t : Nat) (counted retires bad : Bool) : Prop :=
  u.acks = s.acks ++ ((m.op, m.t) :: m.also).map (fun x =>
    ⟨m.tg, x.1, t, counted, retires, if bad then some x.2 else none, !s.isRemote m.pa⟩)

/-- A write accepted at WCT `t`: from then on its bytes are the value; till then it is the last of the line's accepted writes. -/
def writeTaken (s1 u : State) (no t pa : Nat) (data : List Byte) (tg : TgKey) : Prop :=
  (u.line no).wct = max (s1.line no).wct t ∧ (u.line no).version = (s1.line no).version + 1
    ∧ (s1.gt < t → u.mem = s1.mem ∧ (u.line no).pend = (s1.line no).pend ++ [⟨t, pa, data, tg⟩])
    ∧ (t = s1.gt → ∀ i < data.length, memGet u.mem (pa + i) = byteAt data i)

/-! ### The invariant of every step -/

/-- R140: news of a round counter older than 200 ns has reached every L1. -/
def newsFresh (s : State) : Prop := ∀ n ∈ s.news, s.gt < n.wct + 200

end Sys2Proof.Safety
end

