-- ==== Sys2Proof/Certificates/Slice0/Obligations.lean ====
section
/-! DEFINITION. The statements about the machine, each from the spec's rules. -/

open Sys2Proof Sys2Proof.Machine Sys2Proof.Safety

/-! ### Encoding -/

/-- R38-R41, R48: for every well-formed instruction there is a word, and decoding it gives the instruction back with every operand,
selector, immediate and displacement. -/
def Obligations.DecodeOfEncode : Prop :=
  ∀ i : Instr, i.isWord = true → i.wf = true → ∃ w, encode i = some w ∧ decode w = .ok i

/-- R38, R40, R46: a word that decodes is the one word of its instruction, which is well-formed; every field that the entry calls
zero is zero. -/
def Obligations.EncodeOfDecode : Prop :=
  ∀ (w : W32) (i : Instr), decode w = .ok i → i.isWord = true ∧ i.wf = true ∧ encode i = some w

/-- R38-R41: words written out field by field from the encoding of each family decode to their instructions: opcode, rd, ra, rb,
nw, sub-op; opcode, rd, imm17; opcode, imm24. A word is stored with its least significant byte first. The word 0, an ADD of a
sub-operation that R284 does not give and an EXIT with a bit set in its zero field decode to nothing. -/
def Obligations.SpecWordsDecode : Prop :=
  decode (0x01#8 ++ 3#7 ++ 5#7 ++ 98#7 ++ 0#1 ++ 0#2) = .ok (.add (.v 3) (.v 5) (.s 2) false)
    ∧ decode (0x05#8 ++ 68#7 ++ 5#7 ++ 6#7 ++ 1#1 ++ 2#2) = .ok (.mad .zr (.v 5) (.v 6) true 2)
    ∧ decode (0x31#8 ++ 97#7 ++ 0x1FFFE#17) = .ok (.movi (.s 1) 0x1FFFE)
    ∧ decode (0x40#8 ++ 0xFFFFFE#24) = .ok (.br 0xFFFFFE)
    ∧ decode (0x50#8 ++ 4#7 ++ 96#7 ++ 68#7 ++ 0#3) = .ok (.ld (.v 4) (.s 0) .zr false)
    ∧ decode (0xD2#8 ++ 97#7 ++ 0x20#17) = .ok (.sysr (.s 1) 0x20)
    ∧ decodeBytes [0x2#8, 0#8, 0#8, 0x31#8] = .ok (.movi (.v 0) 2, [])
    ∧ (∃ e, decode 0 = .error e) ∧ (∃ e, decode 0x01000001#32 = .error e) ∧ (∃ e, decode 0x49000001#32 = .error e)

/-! ### Fetch and step -/

/-- R20, R28, R46, R61, R121, R122: when it is a lane's turn and it issues from a TG that is not due a budget trap, the line at its PC
is fetched into the core's instruction cache, unless it is there; while its home holds the fill, the TG issues nothing. Then the
word that the fetch delivers is decoded and run, by `exec`, in the state with the word noted; a word that is none is the illegal
instruction; a fetch that fails is the fetch fault, before any decoding. Around it a step adds the passing of time and the waits of
R102, R132 and R249: a TG whose fetch or instruction misses a TLB waits at it, with none of its effects, for the walk, which brings
the translation; one that meets a line that an engine owns waits for the engine's data. That a fetched line is filled and leased on
behalf of the TG is the model's choice (log 58), as is where the walk of a miss ends (log 8). -/
def Obligations.StepRunsDecoded : Prop :=
  ∀ (s : State) (core ln : Nat) (k : TgKey), s.turn = .lane core ln → s.dev.halted = false → pick s core ln = some k →
    let s1 := takeLane s core ln k
    budgetDue s1 s1.tg = false →
    let f := fetchLine s1 s1.tg s1.tg.pc
    let word := fetchAt f.1 s1.tg s1.tg.pc
    let met := f.1.waits && !s1.waits
    let here := met = false ∧ newPages s1 f.1 = [] ∧ f.2 = true
    let runs := fun (i : Instr) (u : State) => step s = finished (missed u (exec i u))
    (met = true → step s = .next (finish s1))
    ∧ (met = false → newPages s1 f.1 ≠ [] → step s = .next (finish (walkWait (withTg s1 { s1.tg with word := 0 }) f.1)))
    ∧ (met = false → newPages s1 f.1 = [] → f.2 = false → step s = .next (finish f.1))
    ∧ (∀ w i, here → word = .word w → decode w = .ok i → runs i (fetched f.1 w))
    ∧ (∀ w e, here → word = .word w → decode w = .error e → runs .illegalInstruction (fetched f.1 w))
    ∧ (∀ c, here → word = .fault c → runs .instructionFetchFault (f.1.modTg (fun g => { g with word := 0 })))
    ∧ ∀ u t : State,
      let lost := t.waits && !u.waits
      let stays := fun (x : State) => x.tg.waiting = true ∧ x.tg.woken = false ∧ x.tg.pc = u.tg.pc ∧ x.tg.v = u.tg.v ∧ x.tg.s = u.tg.s
        ∧ x.tg.p = u.tg.p ∧ x.tg.bv = u.tg.bv ∧ x.tg.flags = u.tg.flags ∧ x.tg.ops = u.tg.ops ∧ x.net = u.net ∧ (tablesQuiet u → x.mem = u.mem)
      (lost = false → newPages u t = [] ∨ t.tg.waiting = true → missed u (.next t) = .next t)
      ∧ (lost = true → ∃ x, missed u (.next t) = .next x ∧ stays x ∧ x = withTg u x.tg)
      ∧ (lost = false → newPages u t ≠ [] → t.tg.waiting = false → ∃ x, missed u (.next t) = .next x ∧ stays x ∧ x.tlb = newPages u t ++ u.tlb)

/-- R46, R47, R61: an illegal word raises Trap(0x01) and a failed fetch its own cause at the PC, with the current mask, whatever the
guard; outside the code region the cause is 0x06. -/
def Obligations.IllegalWordsTrap : Prop :=
  ∀ s : State, s.tg.on = true →
    exec .illegalInstruction s = trap s { cause := 0x01, mask := s.tg.cm }
    ∧ (∀ c, fetchAt s s.tg s.tg.pc = .fault c →
        exec .instructionFetchFault s = trap s { cause := c, mask := s.tg.cm, va := s.tg.pc, access := 4 })
    ∧ (∀ w, fetchAt s s.tg s.tg.pc = .word w → exec .instructionFetchFault s = .next s)
    ∧ (inCode s s.tg s.tg.pc = false → fetchAt s s.tg s.tg.pc = .fault 0x06)

/-! ### Arithmetic, logic, functions and moves -/

/-- R284, R369, R338, R330, R306, R351, R331, R282, R339, R296, R355, R303, R295, R343, with R12, R18, R43, R45: an instruction of
0x01-0x10 with plain operands completes with the value of its element function in its destination, for the acting threads, in b0,
with its flags, and nothing else.
R285, R289, R356: the same of AND, OR, XOR, SHL, SHR, SRA and BFX. -/
def Obligations.ArithmeticAndLogicResults : Prop :=
  (∀ (s : State) (i : Instr) (F : Form), arithForm s i = some F → s.tg.on = true → F.mask ≠ 0 → F.legal s = true → F.ready s = true →
     F.plain = true → F.noTrap s (F.values s) = true → ∃ t, exec i s = .next t ∧ F.result s t) ∧
  (∀ (s : State) (i : Instr) (F : Form), logicForm s i = some F → s.tg.on = true → F.mask ≠ 0 → F.legal s = true → F.ready s = true →
     F.plain = true → F.noTrap s (F.values s) = true → ∃ t, exec i s = .next t ∧ F.result s t)

/-- R75-R84, R87: the same of RCP, RSQ, RSQS, SQRT, EX2, LG2, SINP and COSP; outside the 2 ulp functions' values (log 10), and with
the TG on the slow path where the device takes it.
R336, R337, R323, R288, R348, R349, R353, R379: the same of MOV, MOVI, MOVH, LANE, BCST, RED, RND and WID.
R342: PLOG combines two masks, writes the active threads' bits of a p register, and puts the whole mask into b0 of every beat. -/
def Obligations.FunctionAndMoveResults : Prop :=
  (∀ (s : State) (i : Instr) (F : Form), funcForm s i = some F → s.tg.on = true → F.mask ≠ 0 → F.legal s = true → F.ready s = true →
     F.plain = true → F.noTrap s (F.values s) = true → ∃ t, exec i s = .next t ∧ F.result s t) ∧
  (∀ (s : State) (i : Instr) (F : Form), moveForm s i = some F → s.tg.on = true → F.mask ≠ 0 → F.legal s = true → F.ready s = true →
     F.plain = true → F.noTrap s (F.values s) = true → ∃ t, exec i s = .next t ∧ F.result s t) ∧
  (∀ (s : State) (n : BitVec 3) (a b : Opnd) (c : BitVec 3), s.tg.on = true → s.tg.active ≠ 0 → s.tg.guardPending = false →
     plogSrcOk s.hdr a = true → plogSrcOk s.hdr b = true → ([.p n, a, b] : List Opnd).any s.tg.pending = false →
     let src : Opnd → Mask := fun o => match o with | .p k => vget s.tg.p k.toNat | .s k => (vget s.tg.s k.toNat).setWidth 8 | _ => 0
     let x : Mask := src a
     let y : Mask := src b
     let z : Mask := [x &&& y, x ||| y, x ^^^ y, x &&& ~~~ y, x ||| ~~~ y, ~~~ (x &&& y), ~~~ (x ||| y), ~~~ (x ^^^ y)].getD c.toNat 0
     let old := vget s.tg.p n.toNat
     exec (.plog (.p n) a b c) s = .next (withTg s (nextWord (pushLatch
       { s.tg with p := vset s.tg.p n.toNat ((old &&& ~~~ s.tg.active) ||| (z &&& s.tg.active)) } (z.setWidth 64)))))

/-- R46, R38, R73, R163: an instruction of these kinds with an illegal operand traps with 0x02, one whose operands are legal but
whose type is not traps with 0x13, and one whose type is legal too but that names an unbound queue traps with 0x0E; a raised flag
whose enable is set traps with 0x12 or 0x0B, with FLAGS already set and no result.
R27: an instruction of these kinds with no acting thread goes on at the next word, with zeros in b0 of every beat, no register
written and no check but that of an invalid latch. -/
def Obligations.ElementwiseTrapsAndIdle : Prop :=
  (∀ (s : State) (i : Instr) (F : Form), elemForm s i = some F → s.tg.on = true → s.tg.guardPending = false → F.mask ≠ 0 →
     (F.own = false → exec i s = trap s { cause := 0x02, mask := F.mask })
     ∧ (∀ x, F.own = true → F.shape.operandTrap s F.mask = some x → exec i s = trap s x ∧ x.mask = F.mask ∧ x.cause = 0x02)
     ∧ (F.own = true → F.shape.operandTrap s F.mask = none → F.more = [] → F.typeOk = false →
         exec i s = trap s { cause := 0x13, mask := F.mask })
     ∧ (F.own = true → F.shape.operandTrap s F.mask = none → F.more = [] → F.typeOk = true → (F.shape.bindTrap s F.mask).isSome = true →
         exec i s = trap s { cause := 0x0E, mask := F.mask })
     ∧ (F.legal s = true → F.ready s = true → F.plain = true →
         let r := F.values s
         ∀ x, flagTrap s.tg.fptrap F.readers (fun t => (F.f r t).flags ||| (if bitOf r.poison t then flagPz else 0)) = some x →
           exec i s = trap (withTg s { s.tg with flags := s.tg.flags ||| F.flags r }) x ∧ (x.cause = 0x0B ∨ x.cause = 0x12))) ∧
  (∀ (s : State) (i : Instr) (F : Form), elemForm s i = some F → s.tg.on = true → s.tg.guardPending = false → F.mask = 0 →
     (F.reads.all (fun x => match x.1 with | .b n => vget s.tg.bv n.toNat | _ => true) = true →
       exec i s = .next (withTg s (let g := nextWord (pushLatch s.tg 0); if F.shape.switches then lost g else g)))
     ∧ (F.reads.all (fun x => match x.1 with | .b n => vget s.tg.bv n.toNat | _ => true) = false →
       exec i s = trap s { cause := 0x02, mask := 0 }))

/-- R44, R164, R182: queues and streams as operands, source by source in their order. A source queue gives the acting threads the front
words of its port, in ascending order, and they leave: a second source of the same queue gives the next ones. A source stream gives
each acting thread the element at its position, 0 beyond its count, from scratch at once or as the values that came for it; it counts
only behind an outstanding operation of its path (R114); once the instruction completes it has moved on by one vector for each time
that it was read. An instruction with such sources and a register as destination completes with its result of what was read. A
destination queue takes the results as words behind what stands there. A destination stream stores the results through the checks of
a store at its positions and moves on by one vector; that the bytes of scratch stand written when the instruction has issued is the
model's choice (log 7), as the operations of its stores (log 21). -/
def Obligations.QueueAndStreamOperands : Prop :=
  (∀ (s : State) (sw : Bool) (m : Mask) (rest : List (Opnd × Nat)) (k bits : Nat) (r : Reads),
    (∀ (n : BitVec 3) (b : Binding) (p : Nat), s.tg.binding n = some b → p = b.port.toNat → wordPop p = true →
      (beatsOf m).length ≤ (portWords r.st p).length →
      ∃ v u, readSources s sw m ((.q n, bits) :: rest) k r = readSources s sw m rest (k + 1) { r with vals := r.vals ++ [v], st := u }
        ∧ (∀ i t, (beatsOf m)[i]? = some t → vget v t = (((portWords r.st p).getD i 0).setWidth 128))
        ∧ portWords u p = (portWords r.st p).drop (beatsOf m).length ∧ (∀ q, q ≠ p → portWords u q = portWords r.st q)
        ∧ u.mem = r.st.mem ∧ u.net = r.st.net)
    ∧ (∀ (n : BitVec 3) (x : Stream) (accs : List Acc1), vget s.tg.sp n.toNat = some x → s.tg.acquiring = false →
      checkAll s .read (etBytes s.tg.et) (etBytes s.tg.et) (streamVas x (x.pos + consumedOf n.toNat r.streams) m) = (none, accs) →
      let next := fun (v : Vector W128 8) (p : Mask) (u : State) =>
        readSources s sw m ((.sp n, bits) :: rest) k r = readSources s sw m rest (k + 1)
          { vals := r.vals ++ [v], poison := r.poison ||| p, st := u, streams := r.streams ++ [n.toNat] }
      (∀ h, s.tg.held.find? (fun h => h.pc = s.tg.pc && h.k = k) = some h → next (pieceVector h.got) (piecePoison h.got) r.st)
      ∧ (s.tg.held.any (fun h => h.pc = s.tg.pc && h.k = k) = false → s.tg.ops.any (fun o => o.sync = some k && o.pc = s.tg.pc && !o.done) = false →
        (accs = [] → next (Vector.replicate 8 0) 0 r.st)
        ∧ (accs ≠ [] → r.st.tg.count .s < 255 → (∀ y ∈ accs, ∃ l g w off, y.target = .scratch l g w off) →
        ∃ v, next v 0 (withTg r.st { r.st.tg with ops := quick r.st.tg .s, nextOp := r.st.tg.nextOp + 1 })
          ∧ (∀ y ∈ accs, ∀ l g w off, y.target = .scratch l g w off →
              vget v y.t = deliverBytes s.tg.et ((upTo (etBytes s.tg.et)).map (fun i => scratchByte s (l, g, w) (off + i))))
          ∧ ∀ t < 8, (∀ y ∈ accs, y.t ≠ t) → vget v t = 0))))
  ∧ (∀ (g : Tg) (xs : List Nat), ∀ n < 8,
      vget (advanceStreams g xs).sp n = (vget g.sp n).map (fun x => { x with pos := x.pos + consumedOf n xs }))
  ∧ (∀ (s : State) (i : Instr) (F : Form) (r : Reads), elemForm s i = some F → s.tg.on = true → F.mask ≠ 0 → F.legal s = true → F.ready s = true →
    plainOpnd F.dst = true → queuesReady s (queueWords s.tg F.reads (beatsOf F.readers).length) [] = true →
    readSources s F.shape.switches F.readers F.reads 0 ⟨[], 0, s, []⟩ = .go r → F.noTrap s r = true → ∃ t, exec i s = .next t ∧ F.resultOf s r t)
  ∧ ∀ (s : State) (i : Instr) (F : Form) (r : Reads), elemForm s i = some F → s.tg.on = true → F.mask ≠ 0 → F.legal s = true → F.ready s = true →
    queuesReady s (queueWords s.tg F.reads (beatsOf F.readers).length) (queueWords s.tg [(F.dst, F.bits)] (beatsOf F.readers).length) = true →
    readSources s F.shape.switches F.readers F.reads 0 ⟨[], 0, s, []⟩ = .go r → F.noTrap s r = true → F.more = [] →
    (∀ n b, F.dst = .q n → s.tg.binding n = some b → s.tg.key = r.st.tg.key → (s.findWg s.tg.key.launch s.tg.key.gang s.tg.key.wg).isSome = true →
      pushable b.port.toNat = true → portFill r.st b.port.toNat % 4 = 0 →
      ∃ t, exec i s = .next t ∧ t.mem = s.mem ∧ t.net = r.st.net ∧ t.tg.pc = s.tg.pc + 4 ∧ t.tg.flags = s.tg.flags ||| F.flags r
        ∧ (∀ u < 8, vget (vget t.tg.b 0) u = F.bAfter r u)
        ∧ t.tg.v = s.tg.v ∧ t.tg.s = s.tg.s ∧ t.tg.p = s.tg.p
        ∧ portWords t b.port.toNat = portWords r.st b.port.toNat ++ (beatsOf F.mask).map (fun u => (F.f r u).val.setWidth 32))
    ∧ (∀ n x accs, F.dst = .sp n → vget s.tg.sp n.toNat = some x → x.write = true →
      checkAll s .write (etBytes s.tg.et) (etBytes s.tg.et) (streamVas x x.pos F.mask) = (none, accs) → needOwn s accs = [] →
      s.tg.acquiring = false → accs = [] ∨ r.st.tg.count (pathOf accs) < 255 →
      let xs := accs.map (fun y => (y, natLe (etBytes s.tg.et) (F.f r y.t).val.toNat))
      let ms := storeMsgs s r.st.tg.nextOp 0 xs
      ∃ t, exec i s = .next t ∧ (tablesQuiet s → t.mem = s.mem) ∧ t.net = (touchPages r.st accs).net ++ ms ∧ t.tg.unack = s.tg.unack + ms.length
        ∧ (∀ w k, scratchByte t w k = byteAfter w k (scratchByte r.st w k) (storePuts r.st xs))
        ∧ vget t.tg.sp n.toNat = some { x with pos := x.pos + 1 } ∧ t.tg.pc = s.tg.pc + 4 ∧ t.tg.flags = s.tg.flags ||| F.flags r
        ∧ t.tg.v = s.tg.v ∧ t.tg.s = s.tg.s ∧ t.tg.p = s.tg.p)

/-- R284, R338, R76, R306, R351, R356: integer elements of 8 to 64 bits. Without saturation sum, difference and product wrap to
the width; MULH is the high half of the exact product; DIV and REM truncate, and by zero give the value of R76 with idz; a
shift by the width or more leaves nothing, or copies of the top bit.
R68, R69: binary floating-point elements at the edges. The first NaN operand is the result, made quiet, with nv when an operand
signals; a NaN made from none is the canonical one with nv; a finite nonzero number divided by zero is infinity with dz. -/
def Obligations.ElementEdges : Prop :=
  (∀ (et rm x y : Nat), et ≤ 7 → x < 2 ^ etWidth et → y < 2 ^ etWidth et →
     let w := etWidth et
     let a := intVal et x
     let b := intVal et y
     let v : Int := if 2 ^ (w - 1) ≤ x then (x : Int) - 2 ^ w else x
     (addElem et rm false x y).bits = (x + y) % 2 ^ w ∧ (subElem et rm false x y).bits = (x + 2 ^ w - y) % 2 ^ w
       ∧ (mulElem et rm false x y).bits = x * y % 2 ^ w ∧ (mulhElem et x y).bits = (a * b / 2 ^ w % 2 ^ w).toNat
       ∧ (b ≠ 0 → ((divElem et rm false x y).bits : Int) = a.tdiv b % 2 ^ w ∧ ((remElem et x y).bits : Int) = a.tmod b % 2 ^ w
           ∧ (remElem et x y).flags = 0)
       ∧ (b = 0 → (divElem et rm false x y).flags = flagIdz ∧ (remElem et x y).flags = flagIdz ∧ (remElem et x y).bits = x
           ∧ (divElem et rm false x y).bits = (if etSigned et then (if a < 0 then 2 ^ (w - 1) else 2 ^ (w - 1) - 1) else 2 ^ w - 1))
       ∧ (w ≤ y → (shlElem et false x y).bits = 0 ∧ (shrElem et x y).bits = 0 ∧ (sraElem et x y).bits = if v < 0 then 2 ^ w - 1 else 0)
       ∧ (y < w → (shlElem et false x y).bits = x * 2 ^ y % 2 ^ w ∧ (shrElem et x y).bits = x / 2 ^ y
           ∧ ((sraElem et x y).bits : Int) = v / 2 ^ y % 2 ^ w)) ∧
  (∀ (f : Fmt) (rm x y : Nat), (f = fmtF16 ∨ f = fmtBf16 ∨ f = fmtF32 ∨ f = fmtF64) → x < 2 ^ f.width → y < 2 ^ f.width →
     let n := if f.isNan x then f.quiet x else f.quiet y
     let fl := if f.isSnan x || f.isSnan y then flagNv else 0
     let made : Res := ⟨(2 ^ f.eb - 1) * 2 ^ f.fb + 2 ^ (f.fb - 1), flagNv⟩
     let infinity := fun (neg : Bool) => (if neg then 2 ^ (f.eb + f.fb) else 0) + (2 ^ f.eb - 1) * 2 ^ f.fb
     (f.isNan x = true ∨ f.isNan y = true →
       f.add rm x y = ⟨n, fl⟩ ∧ f.sub rm x y = ⟨n, fl⟩ ∧ f.mul rm x y = ⟨n, fl⟩ ∧ f.div rm x y = ⟨n, fl⟩)
     ∧ (f.isNan x = false → f.isNan y = false →
         (f.isInf x = true → f.isInf y = true → (f.neg x ≠ f.neg y → f.add rm x y = made) ∧ (f.neg x = f.neg y → f.sub rm x y = made)
           ∧ f.div rm x y = made)
         ∧ (f.isInf x = true → f.isZero y = true → f.mul rm x y = made)
         ∧ (f.isZero x = true → f.isZero y = true → f.div rm x y = made)
         ∧ (f.isInf x = false → f.isZero x = false → f.isZero y = true →
             f.div rm x y = ⟨infinity (f.neg x != f.neg y), flagDz⟩)))

/-! ### Control transfer and divergence -/

/-- R39, R290, R292, R294, R352: BR, BRP, CALL and RET. Each completes; a branch that is not taken goes on at the next word; every
latch is invalid afterwards, and nothing else changes but s31 of a CALL.
R39: the words of BR and BRP, where a displacement leads, and that BRP's condition 0b11 is no word.
R24, R364: SPLIT pushes one entry and takes the threads for which the guard holds, or the others where there is none. -/
def Obligations.BranchesAndSplit : Prop :=
  (∀ disp : BitVec 24, encode (.br disp) = some (0x40#8 ++ disp) ∧ decode (0x40#8 ++ disp) = .ok (.br disp)) ∧
  (∀ (c : BitVec 2) (disp : BitVec 22), (c ≠ 3 → decode (0x41#8 ++ c ++ disp) = .ok (.brp c disp))
     ∧ (c = 3 → ∃ e, decode (0x41#8 ++ c ++ disp) = .error e)) ∧
  (∀ (g : Tg) (n : Int), branchTo g n = g.pc + 4 + BitVec.ofInt 64 (4 * n)) ∧
  (∀ disp : BitVec 24, -8388608 ≤ disp.toInt ∧ disp.toInt ≤ 8388607) ∧ (∀ disp : BitVec 22, -2097152 ≤ disp.toInt ∧ disp.toInt ≤ 2097151) ∧
  (∀ s : State, s.tg.on = true → s.tg.guardPending = false →
     (∀ disp : BitVec 24, exec (.br disp) s =
       .next (withTg s (transferred s.tg (if s.tg.active = 0 then s.tg.pc + 4 else branchTo s.tg disp.toInt))))
     ∧ (∀ (c : BitVec 2) (disp : BitVec 22), c ≠ 3 → exec (.brp c disp) s =
       .next (withTg s (transferred s.tg
         (if (if c = 0 then s.tg.cm &&& s.tg.guard ≠ 0 else if c = 1 then s.tg.cm &&& s.tg.guard = s.tg.cm else s.tg.cm &&& s.tg.guard = 0)
          then branchTo s.tg disp.toInt else s.tg.pc + 4))))
     ∧ (∀ disp : BitVec 24, s.tg.active ≠ 0 → 32 ≤ s.hdr.sregs → s.tg.pending (.s 31) = false → exec (.call disp) s =
       .next (withTg s (transferred (putS s.tg (.s 31) (s.tg.pc + 4)) (branchTo s.tg disp.toInt))))
     ∧ (∀ n : BitVec 5, s.tg.active ≠ 0 → n.toNat < s.hdr.sregs → s.tg.pending (.s n) = false → (vget s.tg.s n.toNat).toNat % 4 = 0 →
       exec (.ret (.s n)) s = .next (withTg s (transferred s.tg (vget s.tg.s n.toNat))))
     ∧ (∀ disp : BitVec 24, ∀ a : Opnd, s.tg.active = 0 →
       exec (.call disp) s = .next (withTg s (transferred s.tg (s.tg.pc + 4)))
         ∧ exec (.ret a) s = .next (withTg s (transferred s.tg (s.tg.pc + 4))))) ∧
  (∀ (s : State) (disp : BitVec 24), s.tg.on = true → s.tg.guardPending = false → s.tg.stack.length < 16 →
     let t := s.tg.cm &&& s.tg.guard
     let p := s.tg.cm &&& ~~~ t
     let els := branchTo s.tg disp.toInt
     exec (.split disp) s = .next (withTg s
       (if t ≠ 0 then { transferred s.tg (s.tg.pc + 4) with cm := t, stack := ⟨s.tg.cm, p, els, none⟩ :: s.tg.stack }
        else { transferred s.tg els with cm := p, stack := ⟨s.tg.cm, 0, els, none⟩ :: s.tg.stack })))

/-- R24, R321, R291: JOIN resumes the pending threads, or pops and goes on with the entry's live threads; BRK n takes its threads
out of cm and of the n innermost rejoin masks. Where no thread follows the PC after either, Resolve leads the TG on by its stack,
or it ends. -/
def Obligations.JoinAndBrk : Prop :=
  ∀ s : State, s.tg.on = true → s.tg.stack.length ≤ 16 →
    (∀ e es, s.tg.stack = e :: es → e.pm &&& s.tg.live ≠ 0 → exec .join s = .next (withTg s
      { transferred s.tg e.ppc with cm := e.pm &&& s.tg.live, stack := { e with pm := 0, rpc := some (s.tg.pc + 4) } :: es }))
    ∧ (∀ e es, s.tg.stack = e :: es → e.pm &&& s.tg.live = 0 → e.rm &&& s.tg.live ≠ 0 → exec .join s = .next (withTg s
      { transferred s.tg (s.tg.pc + 4) with cm := e.rm &&& s.tg.live, stack := es }))
    ∧ (∀ e es, s.tg.stack = e :: es → e.pm &&& s.tg.live = 0 → e.rm &&& s.tg.live = 0 →
      (∀ m pc st, resolution s.tg.live es = some (m, pc, st) →
        exec .join s = .next (withTg s { transferred s.tg pc with cm := m, stack := st }))
      ∧ (resolution s.tg.live es = none → ∃ t, exec .join s = .next t ∧ t.tg.on = false ∧ t.tg.live = 0))
    ∧ (∀ n : BitVec 17, s.tg.guardPending = false → s.tg.active ≠ 0 → n.toNat < 15 → n.toNat < s.tg.stack.length →
      let cm := s.tg.cm &&& ~~~ s.tg.active
      let stack := (s.tg.stack.take n.toNat).map (fun e => { e with rm := e.rm &&& ~~~ s.tg.active }) ++ s.tg.stack.drop n.toNat
      (cm ≠ 0 → exec (.brk n) s = .next (withTg s { transferred s.tg (s.tg.pc + 4) with cm := cm, stack := stack }))
      ∧ (∀ m pc st, cm = 0 → resolution s.tg.live stack = some (m, pc, st) →
        exec (.brk n) s = .next (withTg s { transferred s.tg pc with cm := m, stack := st }))
      ∧ (cm = 0 → resolution s.tg.live stack = none → ∃ t, exec (.brk n) s = .next t ∧ t.tg.on = false ∧ t.tg.live = 0))

/-- R318-R320: JMPI. With a legal target for every thread of cm, the threads of the lowest one's target go on there; the others
are kept pending at this JMPI, in the entry that an earlier pass pushed or in a new one. -/
def Obligations.JmpiGathers : Prop :=
  ∀ (s : State) (a b : Opnd), s.tg.on = true → addrOk s.hdr a = true → sOperand s true b = true →
    (opndSpan a 64).any s.tg.pending = false → s.tg.pending b = false → (readS s.tg b).toNat < 2 ^ 17 →
    let tgt := fun t => (readPlain s.tg a 64 t).setWidth 64
    let tag := if b = .zr then none else some (readS s.tg b).toNat
    (∀ t < 8, bitOf s.tg.cm t = true → targetReason s s.tg tag (tgt t) = 0) →
    let target := tgt (lowest s.tg.cm)
    let same := s.tg.cm &&& maskOf (fun t => tgt t = target)
    let others := s.tg.cm &&& ~~~ same
    (others = 0 → exec (.jmpi a b) s = .next (withTg s { transferred s.tg target with cm := same }))
    ∧ (∀ e es, others ≠ 0 → s.tg.stack = e :: es → e.ppc = s.tg.pc → e.pm = 0 →
        exec (.jmpi a b) s = .next (withTg s { transferred s.tg target with cm := same, stack := { e with pm := others } :: es }))
    ∧ (others ≠ 0 → s.tg.stack.length < 16 → (∀ e es, s.tg.stack = e :: es → e.ppc ≠ s.tg.pc ∨ e.pm ≠ 0) →
        exec (.jmpi a b) s = .next (withTg s
          { transferred s.tg target with cm := same, stack := ⟨s.tg.cm, others, s.tg.pc, none⟩ :: s.tg.stack }))

/-- R24, R25, R310: EXIT of threads none of which has a ray in flight. The threads leave cm, the live threads and every stack
entry; the workgroup keeps the greatest status. While a thread follows the PC the TG goes on at the next word; where none does,
Resolve leads it on by its stack, or it ends.
R25: of two statuses the greater stands, and of equal ones that of the lower work identifier. -/
def Obligations.ExitEndsThreads : Prop :=
  (∀ (s : State) (a : Opnd), s.tg.on = true → s.tg.guardPending = false → s.tg.active ≠ 0 → (statusCause s.hdr s.tg a).isNone = true →
     Shape.pending ⟨[(a, 32)], .zr, 32, false⟩ s.tg = false → s.launch.draw = none → s.tg.rays = [] → s.tg.stack.length ≤ 16 →
     let x := s.tg.active
     let st := fun t => (readPlain s.tg a 32 t).setWidth 32
     let cm := s.tg.cm &&& ~~~ x
     let live := s.tg.live &&& ~~~ x
     let stack := s.tg.stack.map (fun e => { e with rm := e.rm &&& ~~~ x, pm := e.pm &&& ~~~ x })
     let left := fun (m : Mask) (pc : W64) (es : List Entry) =>
       { s with
         wgs := replaceFirst (myWg s)
           (fun w => { w with status := (beatsOf x).foldl (fun r t => betterStatus r (some (st t, s.tg.wid s.launch t))) w.status }) s.wgs
         tg := { transferred s.tg pc with
                 cm := m, live := live, stack := es
                 blocks := s.tg.blocks.map (fun b => { b with threads := b.threads.filter (fun t => !bitOf x t) }) } }
     (cm ≠ 0 → exec (.exit a) s = .next (left cm (s.tg.pc + 4) stack))
     ∧ (∀ m pc es, cm = 0 → resolution live stack = some (m, pc, es) → exec (.exit a) s = .next (left m pc es))
     ∧ (cm = 0 → resolution live stack = none → ∃ t, exec (.exit a) s = .next t ∧ t.tg.on = false ∧ t.tg.live = 0)) ∧
  (∀ (x y : W32) (i j : W64),
     betterStatus (some (x, i)) (some (y, j)) =
       if x < y then some (y, j) else if y < x then some (x, i) else some (x, if j < i then j else i))

/-- R52, R53: the words of MODE and MODES, their effects whatever the guard, and their traps: 0x13 for a reserved value, 0x02 for
an operand of MODES that is neither an s register nor zr, 0x01 for one of its other fields. gm.det is never written.
R322, R340, R381: LAND, NOP and YIELD, whatever the guard. -/
def Obligations.ModeAndNop : Prop :=
  (∀ i : BitVec 24, encode (.mode i) = some (0x4C#8 ++ i) ∧ (Instr.mode i).wf = true) ∧
  (∀ d a : BitVec 5, encode (.modes (.s d) (.s a)) = some (0x4D#8 ++ (0b11#2 ++ d) ++ (0b11#2 ++ a) ++ 0#7 ++ 0#3)
    ∧ encode (.modes .zr (.s a)) = some (0x4D#8 ++ 68#7 ++ (0b11#2 ++ a) ++ 0#7 ++ 0#3)
    ∧ encode (.modes (.s d) .zr) = some (0x4D#8 ++ (0b11#2 ++ d) ++ 68#7 ++ 0#7 ++ 0#3)) ∧
  (∀ (d a b : BitVec 7) (x : BitVec 3), b ≠ 0 ∨ x ≠ 0 → ∃ e, decode (0x4D#8 ++ d ++ a ++ b ++ x) = .error e) ∧
  ∀ s : State, s.tg.on = true →
    (∀ i : BitVec 24, let n : Nat := i.toNat
      let reserved := n / 2 ^ 5 % 16 = 15 ∨ 4 < n / 2 ^ 9 % 8 ∨ 5 < n / 2 ^ 21
      (reserved → exec (.mode i) s = trap s { cause := 0x13, mask := s.tg.cm })
      ∧ (¬ reserved → exec (.mode i) s = .next (withTg s { nextWord s.tg with gm := (s.tg.gm &&& 0xFF000000) ||| i.setWidth 32 })))
    ∧ (∀ d a : Opnd, ¬ (sOperand s true d = true ∧ sOperand s true a = true) →
      exec (.modes d a) s = trap s { cause := 0x02, mask := s.tg.cm })
    ∧ (∀ d a : Opnd, sOperand s true d = true → sOperand s true a = true → s.tg.pending d = false → s.tg.pending a = false → a ≠ .zr →
      modeReserved (((readS s.tg a).extractLsb' 0 24).setWidth 32) = true → exec (.modes d a) s = trap s { cause := 0x13, mask := s.tg.cm })
    ∧ (∀ d a : Opnd, sOperand s true d = true → sOperand s true a = true → s.tg.pending d = false → s.tg.pending a = false →
      let n : W32 := ((readS s.tg a).extractLsb' 0 24).setWidth 32
      (a = .zr ∨ modeReserved n = false) → exec (.modes d a) s = .next (withTg s
        (nextWord (pushLatch (putS { s.tg with gm := if a = .zr then s.tg.gm else (s.tg.gm &&& 0xFF000000) ||| n } d (s.tg.gm.setWidth 64))
          (s.tg.gm.setWidth 64)))))
    ∧ (∀ i : BitVec 17, exec (.land i) s = .next (withTg s (nextWord s.tg)))
    ∧ exec .nop s = .next (withTg s (nextWord s.tg))
    ∧ exec .yield s = .next (withTg (freeLane s) { nextWord (lost s.tg) with yielded := true })

/-- R26, R350: REGRP. When the last TG of a workgroup arrives at a REGRP, all are regrouped together; before that the TG waits,
arrived. Of each lane class, TG i in ascending order then holds at each beat the i-th of that beat's threads, those whose bit is 1
first: its home, v registers, p bits, counts and values still due come with it. The TG's current mask is its new live set, its latches are
invalid, it goes on at its own PC + 4 with its s registers, gm, queues, streams, monitor and pins, or ends with no thread left.
R26: the threads of one beat are dealt to the TGs in ascending order, those whose predicate bit is 1 first; a TG gets one while
there are any, and the thread's home goes with it. -/
def Obligations.Regrouping : Prop :=
  (∀ (s : State) (n : BitVec 3), s.tg.on = true → s.tg.stack = [] → s.tg.rays = [] → s.tg.pending (.p n) = false →
     let k := s.tg.key
     let s1 := withTg s { s.tg with phase := .arrived }
     let all := (s1.tgsOf k.launch k.gang k.wg).all (fun x =>
       x.key = k || (x.phase = .arrived && (match decode x.word with | .ok (.regrp _) => true | _ => false)))
     let pred := fun (x : Tg) => if x.key = k then n.toNat else match decode x.word with | .ok (.regrp (.p m)) => m.toNat | _ => 0
     (all = true → ∃ u, exec (.regrp (.p n)) s = .next u ∧ ((s.allTgs.map (fun x => x.key)).Nodup → ∀ (i : Nat) (g : Tg),
       let gs := (s1.tgsOf k.launch k.gang k.wg).filter (fun x => x.key.tg % 32 = g.key.tg % 32)
       let here := fun (t : Nat) => gs.filter (fun x => bitOf x.live t)
       let order := fun (t : Nat) => (here t).filter (fun x => bitOf (vget x.p (pred x)) t) ++ (here t).filter (fun x => !bitOf (vget x.p (pred x)) t)
       gs[i]? = some g → ∃ h, u.findTg g.key = some h ∧ h.cm = h.live ∧ (∀ t < 8, bitOf h.live t = decide (i < (order t).length))
         ∧ h.on = (h.live != 0)
         ∧ (h.on = true → h.pc = g.pc + 4 ∧ h.bv = Vector.replicate 4 false ∧ h.s = g.s ∧ h.gm = g.gm ∧ h.q = g.q ∧ h.sp = g.sp ∧ h.pins = g.pins
           ∧ h.monitor.isSome = g.monitor.isSome
           ∧ ∀ t < 8, ∀ x, (order t)[i]? = some x → vget h.home t = vget x.home t ∧ (∀ n < 64, vget (vget h.v n) t = vget (vget x.v n) t)
             ∧ (∀ n < 8, bitOf (vget h.p n) t = bitOf (vget x.p n) t) ∧ vget h.rnd t = vget x.rnd t ∧ vget h.embers t = vget x.embers t
             ∧ vget h.elds t = vget x.elds t ∧ vget h.hobs t = vget x.hobs t ∧ vget h.spawns t = vget x.spawns t
             ∧ (x.key ≠ g.key → ∀ o ∈ x.ops, o.perThread = true → ∀ z, o.sink = some z → bitOf z.mask t = true →
               ∃ y ∈ h.ops, y.done = false ∧ y.sink = some { z with mask := 1#8 <<< t } ∧ y.moved = some (o.moved.getD (x.key.tg, o.id))))))
     ∧ (all = false → exec (.regrp (.p n)) s = .next (waits s1))) ∧
  (∀ (gs : List Tg) (pred : Tg → Nat) (t i : Nat) (g : Tg), t < 8 → gs[i]? = some g →
     let here := gs.filter (fun g => bitOf g.live t)
     let order := here.filter (fun g => bitOf (vget g.p (pred g)) t) ++ here.filter (fun g => !bitOf (vget g.p (pred g)) t)
     ∃ h, (dealBeat gs pred t gs)[i]? = some h ∧ bitOf h.live t = decide (i < order.length)
       ∧ (∀ src, order[i]? = some src → vget h.home t = vget src.home t ∧ ∀ n < 64, vget (vget h.v n) t = vget (vget src.v n) t)
       ∧ (∀ u < 8, u ≠ t → bitOf h.live u = bitOf g.live u ∧ vget h.home u = vget g.home u))

/-! ### Exceptions -/

/-- R200, R377: taking an exception at U with a handler in the launch's code and no trap record. TRAP does it with cause 0x11
over the active threads; the handler runs on the threads of cm, and cm, the stack, the registers and the in-flight counters stay.
What the checked access's walk reads is reached first (R102). That a claim to the firebox domain is withdrawn, but for an accepted
FBMODE's, is the model's (log 39). -/
def Obligations.TrapEntersHandler : Prop :=
  ∀ (s : State) (i : TrapInfo), s.tg.priv = .u → s.hdr.trapOff ≠ 0 → s.tg.trec = 0 →
    let handler := BitVec.ofNat 64 (s.hdr.code + s.hdr.trapOff)
    let accepted := s.fb.queue.any (fun o => o.tg = s.tg.key && o.code = 0xB0 && o.a != 0)
    let entered := fun i =>
      let s1 := faultWalk s i
      { withTg (freeLane s1) (inHandler s1.tg i handler none) with
        fb := { s1.fb with claims := s.fb.claims.filter (fun k => k ≠ s.tg.key || accepted) } }
    trap s i = .next (entered i)
    ∧ (s.tg.on = true → s.tg.guardPending = false → s.tg.active ≠ 0 → ∀ n : BitVec 17,
        exec (.trap n) s = .next (entered { cause := 0x11, mask := s.tg.active, detail := natLe 4 n.toNat }))
    ∧ (s.tg.on = true → s.tg.guardPending = false → s.tg.active = 0 → ∀ n : BitVec 17, exec (.trap n) s = .next (withTg s (nextWord s.tg)))

/-- R201: the trap record is 64 bytes: cause, access kind, PRIV, mask, cm and depth, then PC, address, word, gm, time and the cause's
detail at their offsets. It is written only when TREC is not 0, at TREC with its low bits ignored: in scratch it stands after the
entry and no other byte has changed; to memory it goes out as one store. -/
def Obligations.TrapRecordLayout : Prop :=
  (∀ (s : State) (i : TrapInfo), s.tg.priv = .u → s.hdr.trapOff ≠ 0 →
    let va := BitVec.ofNat 64 (s.tg.trec.toNat / 64 * 64)
    let r := trapRecord s i
    let s1 := faultWalk s i
    let still := i.access = 0 ∨ tablesQuiet s
    (s.tg.trec = 0 → ∃ t, trap s i = .next t ∧ t.net = s.net ∧ (still → t.mem = s.mem ∧ t.wgs = s.wgs))
    ∧ (∀ l g w off, s.tg.trec ≠ 0 → checkAccess s1 s1.tg .write 64 64 va = .ok (.scratch l g w off) → (s.findWg l g w).isSome = true →
      ∃ t, trap s i = .next t ∧ t.net = s.net ∧ (still → t.mem = s.mem)
        ∧ ∀ k, scratchByte t (l, g, w) k = if off ≤ k ∧ k < off + 64 then byteAt r (k - off) else scratchByte s (l, g, w) k)
    ∧ (∀ pa attr nc x, s.tg.trec ≠ 0 → checkAccess s1 s1.tg .write 64 64 va = .ok (.mem pa attr nc x) →
      ∃ t m, trap s i = .next t ∧ (tablesQuiet s → t.mem = s.mem ∧ t.wgs = s.wgs) ∧ t.net = s.net ++ [m] ∧ m.pa = pa
        ∧ m.ask = .write r 0 nc true)) ∧
  ∀ (s : State) (i : TrapInfo), i.cause < 256 → i.access < 256 → s.tg.stack.length ≤ 16 → s.gt < 2 ^ 64 →
    let r := trapRecord s i
    r.length = 64 ∧ recNat r 0 1 = i.cause ∧ recNat r 1 1 = i.access ∧ recNat r 2 1 = s.tg.priv.code ∧ recNat r 3 1 = i.mask.toNat
      ∧ recNat r 4 1 = s.tg.cm.toNat ∧ recNat r 5 1 = s.tg.stack.length ∧ recNat r 6 2 = 0 ∧ recNat r 8 8 = s.tg.pc.toNat
      ∧ recNat r 16 8 = i.va.toNat ∧ recNat r 24 4 = s.tg.word.toNat ∧ recNat r 28 4 = s.tg.gm.toNat
      ∧ recNat r 32 8 = (if s.det then 0 else s.gt) ∧ r.drop 40 = (i.detail ++ zeroBytes 24).take 24

/-- R199, R25: a trap outside U, or with no handler, kills: every live thread ends with a status of 0x8000_0000 | cause; a kill at M also
raises a management event, and with no ray in flight and no pin held nothing else interrupts the BMC. -/
def Obligations.KillEndsTg : Prop :=
  ∀ (s : State) (i : TrapInfo), killsTg s = true → i.cause < 2 ^ 31 →
    ∃ t, trap s i = .next t ∧ killed s i.cause t
      ∧ (s.tg.priv = .m → s.dev.interrupts < t.dev.interrupts
          ∧ (i.access = 0 → s.tg.rays = [] → s.tg.pins = [] → t.dev.interrupts = s.dev.interrupts + 1))

/-- R202, R308: ERET above U with a legal TCAUSE restores gm (not det), PRIV and cm, invalidates every latch, leaves a context
handler's region, and goes on at TEPC, TRPC + 4 or TRPC; `.kill` ends the active threads and sets the workgroup's killed bit (R25).
R202, R308: an ERET at U traps with 0x03; one whose TCAUSE names a privilege above the current one kills with 0x03, and one
whose depth differs kills with 0x08. -/
def Obligations.EretRestoresOrIsRefused : Prop :=
  (∀ (s : State), s.tg.on = true → s.tg.guardPending = false → s.tg.active ≠ 0 → s.tg.priv ≠ .u → s.tg.savedPriv ≤ s.tg.priv.code →
     s.tg.stack.length = s.tg.savedDepth →
     let g := { over_ s.tg with
                gm := (s.tg.gm &&& 0xFF000000) ||| (s.tg.tgm &&& 0x00FFFFFF), bv := Vector.replicate 4 false, region := none
                priv := if s.tg.savedPriv = 0 then .u else if s.tg.savedPriv = 1 then .s else .m
                cm := BitVec.ofNat 8 (s.tg.tmask.toNat / 2 ^ 8) &&& s.tg.live }
     (g.cm ≠ 0 →
       exec (.eret (.v 0) 0) s = .next (withTg s { g with pc := s.tg.tepc })
       ∧ exec (.eret (.v 0) 1) s = .next (withTg s { g with pc := s.tg.trpc + 4 })
       ∧ exec (.eret (.v 0) 2) s = .next (withTg s { g with pc := s.tg.trpc }))
     ∧ (∀ a : Opnd, (a = .zr ∨ (∃ n, a = .s n ∧ n.toNat < s.hdr.sregs) ∨ (∃ n, a = .v n ∧ n.toNat < s.hdr.vregs)) →
         s.tg.pending a = false →
         exec (.eret a 3) s = .next (settle
           (((exitThreads (withTg s g) s.tg.active (fun t => (readPlain s.tg a 32 t).setWidth 32)).modMyWg
             (fun w => { w with killed := true })).modTg (fun g => { g with pc := s.tg.trpc + 4 }))))) ∧
  (∀ s : State, s.tg.on = true → s.tg.guardPending = false → s.tg.active ≠ 0 →
     (s.tg.priv = .u → ∀ a k, exec (.eret a k) s = trap s { cause := 0x03, mask := s.tg.cm })
     ∧ (∀ k : BitVec 2, k ≠ 3 → s.tg.priv ≠ .u → s.tg.priv.code < s.tg.savedPriv → exec (.eret (.v 0) k) s = .next (kill s 0x03))
     ∧ (∀ k : BitVec 2, k ≠ 3 → s.tg.priv ≠ .u → s.tg.savedPriv ≤ s.tg.priv.code → s.tg.stack.length ≠ s.tg.savedDepth →
         exec (.eret (.v 0) k) s = .next (kill s 0x08)))

/-! ### Control registers -/

/-- R206, R269: which privilege may read and write which register; any other access raises Trap(0x03).
R370, R207, R120, R190: a SYSW of a value that the register's map refuses raises Trap(0x13) and leaves the register unchanged. -/
def Obligations.RegisterAccessRefused : Prop :=
  ((∀ n p, knownRegister n = true → mayRead n p = allowed readTable n p ∧ mayWrite n p = allowed writeTable n p)
     ∧ ∀ (s : State) (d : Opnd) (i : BitVec 17), s.tg.on = true → s.tg.guardPending = false → s.tg.active ≠ 0 → knownRegister i.toNat = true →
         (allowed readTable i.toNat s.tg.priv = false → exec (.sysr d i) s = trap s { cause := 0x03, mask := s.tg.cm })
         ∧ (allowed writeTable i.toNat s.tg.priv = false → exec (.sysw d i) s = trap s { cause := 0x03, mask := s.tg.cm })) ∧
  (∀ (s : State) (n : BitVec 5) (i : BitVec 17), s.tg.on = true → s.tg.guardPending = false → s.tg.active ≠ 0 → n.toNat < s.hdr.sregs →
     s.tg.pending (.s n) = false → allowed writeTable i.toNat s.tg.priv = true →
     let x := (vget s.tg.s n.toNat).toNat
     (i = 0x011 ∧ x / 2 ^ 8 % 4 = 3) ∨ (i = 0x015 ∧ modeReserved (BitVec.ofNat 32 x) = true)
       ∨ (i = 0x052 ∧ (x % 32 < 6 ∨ 16 < x % 32)) ∨ (i = 0x060 ∧ x % 2 ^ 32 < 1000) ∨ (i = 0x020 ∧ 255 < x % 2 ^ 16) →
     exec (.sysw (.s n) i) s = trap s { cause := 0x13, mask := s.tg.cm })

/-- R370: SYSR writes the register's 64 bits to rd and shifts the latches.
R370-R372: SYSW of a register of the TG takes effect at once, with the zero fields of R207 kept zero; a write to a register of
the workgroup, context or device is under way, and the TG waits. -/
def Obligations.ControlRegisterAccess : Prop :=
  (∀ (s : State) (n : BitVec 5) (i : BitVec 17) (x : W64), s.tg.on = true → s.tg.guardPending = false → s.tg.active ≠ 0 → n.toNat < s.hdr.sregs →
     s.tg.pending (.s n) = false → allowed readTable i.toNat s.tg.priv = true → (i = 3 → flagsDue s.tg = false) →
     (i.toNat, x) ∈ registerValues s →
     exec (.sysr (.s n) i) s = .next (withTg s (nextWord (pushLatch (putS s.tg (.s n) x) x)))) ∧
  (∀ (s : State) (n : BitVec 5) (i : BitVec 17), s.tg.on = true → s.tg.guardPending = false → s.tg.active ≠ 0 → n.toNat < s.hdr.sregs →
     s.tg.pending (.s n) = false → knownRegister i.toNat = true → allowed writeTable i.toNat s.tg.priv = true →
     (i = 3 → flagsDue s.tg = false) →
     let x := vget s.tg.s n.toNat
     let kept := x &&& BitVec.ofNat 64 (writable i.toNat)
     valueRefused s i.toNat kept = false →
     (∀ g, wroteReg s.tg i.toNat x = some g → exec (.sysw (.s n) i) s = .next (withTg s (nextWord (lost g))))
     ∧ (wroteReg s.tg i.toNat x = none → exec (.sysw (.s n) i) s = .next (waits (withTg s { s.tg with sysw := some ⟨i.toNat, kept⟩ }))))

/-! ### Loads and stores -/

/-- R18, R43, R324, R325, R326: LD, LDB and LDA. When every value is at hand (scratch, a stash line, the TG's own stores, a usable
copy), the registers receive the values and nothing but the issuing TG changes, beside cached pages (and, for LDA, dropped
non-coherent copies), and held quantum atomics that go out first. The load counts only behind an outstanding one of its path
(R114). Memory is as before, as far as no table that is read is recalled. That a load's pages are translated in the step that
issues it is the model's choice (logs 7, 8). -/
def Obligations.LoadsDeliver : Prop :=
  ∀ (s : State) (k : LoadKind) (d a b : Opnd) (w : Bool) (r : Reads) (accs : List Acc1),
    let x : Shape := ⟨[(b, 32)], d, etContainer s.tg.et, true⟩
    issues s x a r → loadDst d = true → (w = true → d = .zr) →
    checkLoads s k (etBytes s.tg.et) (effVas s.tg a r 0 (x.readers s.tg.active)) = (none, accs) →
    loadGoes r k accs = true → (found r.st k accs).msgs = [] →
    let got := (found r.st k accs).got
    let m := piecePoison got ||| r.poison
    let s2 := lookState r.st k accs
    let g := advanceStreams s2.tg r.streams
    poisonPasses s m = true →
    ∃ t, exec (loadWord k d a b w) s = .next t
      ∧ t = { s2 with tg := t.tg }
      ∧ tookValues g t.tg d got (some r.st.tg.nextOp)
      ∧ t.tg = { over_ g with
                 v := t.tg.v, s := t.tg.s, p := t.tg.p, b := t.tg.b, bv := t.tg.bv, bop := t.tg.bop, floors := t.tg.floors
                 flags := poisonFlags s.tg m, nextOp := r.st.tg.nextOp + 1, ops := quick r.st.tg (pathOf accs), pc := s.tg.pc + 4 }
      ∧ (k ≠ .acquire → t.tg.floors = s.tg.floors)
      ∧ (tablesQuiet s → t.mem = s.mem)

/-- R114, R115, R325: a load that must ask a home leaves one operation outstanding, with its destination pending, one message for
each access to ask for, and the latch b0 owed; the TG goes on at the next word at a switch point. -/
def Obligations.LoadsAsk : Prop :=
  ∀ (s : State) (k : LoadKind) (d a b : Opnd) (w : Bool) (r : Reads) (accs : List Acc1),
    let x : Shape := ⟨[(b, 32)], d, etContainer s.tg.et, true⟩
    issues s x a r → loadDst d = true → (w = true → d = .zr) →
    checkLoads s k (etBytes s.tg.et) (effVas s.tg a r 0 (x.readers s.tg.active)) = (none, accs) →
    loadGoes r k accs = true →
    let y := found r.st k accs
    let s2 := lookState r.st k accs
    y.msgs ≠ [] → poisonPasses s r.poison = true →
    ∃ raises, exec (loadWord k d a b w) s = .next
      { freeLane s2 with
        net := s2.net ++ y.msgs
        tg := { nextWord (owing (advanceStreams s2.tg r.streams) (some r.st.tg.nextOp)) with
                flags := poisonFlags s.tg r.poison, nextOp := r.st.tg.nextOp + 1
                ops := r.st.tg.ops ++ [{ id := r.st.tg.nextOp, path := some (pathOf accs), pc := s.tg.pc, word := s.tg.word
                                         sink := some ⟨d, BitVec.ofNat 4 s.tg.et, x.readers s.tg.active, true⟩, need := y.msgs.length
                                         got := y.got, load := true, remote := anyRemote accs, acquire := k = .acquire
                                         raises := raises, done := false }] } }

/-- R366, R367, R109, R114, R126: ST and STR. Every access of the active threads is performed in ascending t: bytes of scratch are
written at once (log 7), a store to memory goes out to its home (with floor WCTmax for STR), counts as an unacknowledged write and
drops the core's copy of the line; held quantum atomics to its bytes go out first. One operation counts on the G path, or, where
every access is to scratch, only behind an outstanding one of the S path (R114). No register, flag but pz, nor byte of memory
changes at issue. -/
def Obligations.StoresIssue : Prop :=
  ∀ (s : State) (release : Bool) (d a b : Opnd) (r : Reads) (accs : List Acc1),
    let x : Shape := ⟨[(b, 32), (d, etContainer s.tg.et)], .zr, 32, release⟩
    issues s x a r → (release = true → strReady s = true) →
    checkAll s .write (etBytes s.tg.et) (etBytes s.tg.et) (effVas s.tg a r 0 s.tg.active) = (none, accs) →
    r.st.tg.count (pathOf accs) < 255 → needOwn s accs = [] → poisonPasses s r.poison = true →
    let xs := accs.map (fun y => (y, natLe (etBytes s.tg.et) (r.at 1 y.t).toNat))
    let ms := storeMsgs s r.st.tg.nextOp (if release then s.tg.wctMax else 0) xs
    let s2 := touchPages r.st accs
    let g := advanceStreams s2.tg r.streams
    ∃ t, exec (storeWord release d a b) s = .next t
      ∧ (tablesQuiet s → t.mem = s.mem) ∧ t.net = s2.net ++ ms
      ∧ (∀ w n, scratchByte t w n = byteAfter w n (scratchByte r.st w n) (storePuts r.st xs))
      ∧ (∀ c, c ∈ t.l1 ↔ c ∈ r.st.l1 ∧ ∀ m ∈ ms, ¬ (c.core = s.tg.core ∧ c.line = lineOf m.pa))
      ∧ t.tg = { (if release || isQReg b || isQReg d then lost (nextWord g) else nextWord g) with
                 flags := poisonFlags s.tg r.poison, unack := s.tg.unack + ms.length
                 nextOp := r.st.tg.nextOp + 1
                 ops := if ms = [] then quick r.st.tg .s else r.st.tg.ops ++
                   [{ id := r.st.tg.nextOp, path := some .g, pc := s.tg.pc, word := s.tg.word, sink := none, need := ms.length, got := []
                      load := false, remote := anyRemote accs, done := false }] }

/-- R97: a load whose accesses fail a check takes the fault of the lowest failing thread, with every thread that fails with the
same cause in the mask and that thread's address; no access is performed. Canonical form comes before alignment. An LDB of a
leased stash line within its bound reads it with no access to check (R107, R141). -/
def Obligations.LoadsFault : Prop :=
  (∀ (s : State) (g : Tg) (acc : Access) (size : Nat) (va : W64),
    (canonical va = false → checkAccess s g acc size size va = .error 0x06)
    ∧ (canonical va = true → va.toNat % size ≠ 0 → checkAccess s g acc size size va = .error 0x04))
  ∧ ∀ (s : State) (k : LoadKind) (d a b : Opnd) (w : Bool) (r : Reads) (i : TrapInfo) (accs : List Acc1),
    let x : Shape := ⟨[(b, 32)], d, etContainer s.tg.et, true⟩
    issues s x a r → loadDst d = true → (w = true → d = .zr) →
    let vas := effVas s.tg a r 0 (x.readers s.tg.active)
    let none_ := fun (va : W64) => k = .bounded ∧ (staleStash s s.tg (etBytes s.tg.et) va).isSome = true
    let look := checkAccess s s.tg .read (etBytes s.tg.et) (etBytes s.tg.et)
    checkLoads s k (etBytes s.tg.et) vas = (some i, accs) →
    exec (loadWord k d a b w) s = trap s i
      ∧ ∃ t va, (t, va) ∈ vas ∧ look va = .error i.cause ∧ ¬ none_ va ∧ i.va = va ∧ bitOf i.mask t = true
          ∧ (∀ y ∈ vas, y.1 < t → none_ y.2 ∨ ∃ z, look y.2 = .ok z)
          ∧ (∀ y ∈ vas, bitOf i.mask y.1 = true ↔ look y.2 = .error i.cause ∧ ¬ none_ y.2)

/-- R124, R125, R116, R378, R117, R334: FENCE, WAITC and MWAIT complete when what they wait for holds: a release when it is
complete for its scope, an acquire when every earlier load and atomic has its value and the counter of region gm.rr can be read at
its home, a lease-only fence when GT has reached WCTmax; WAITC when the counters that it names are low enough; MWAIT when the monitor has
fired or none is armed. Each waits otherwise, and each is switch-capable. A release never waits for scratch (log 7).
A quantum atomic still held is sent first. R125: what the release part of each scope waits for, with that of every narrower scope; what
the acquire part waits for and does. -/
def Obligations.FencesAndWaits : Prop :=
  (∀ s : State, s.tg.on = true → s.tg.guardPending = false → s.tg.active ≠ 0 →
     (∀ sc : BitVec 3, s.tg.quantum = [] →
       (exec (.fence 1 sc) s = if released s sc.toNat then .next (withTg s (nextWord (lost s.tg))) else .next (waits s))
       ∧ (exec (.fence 3 sc) s = if s.tg.wctMax ≤ s.gt then .next (withTg s (nextWord (lost s.tg))) else .next (waits s))
       ∧ (exec (.fence 2 sc) s = if acquirable s then .next (withTg (acquire s) (nextWord (lost (acquire s).tg))) else .next (waits s))
       ∧ (exec (.fence 0 sc) s = if released s sc.toNat && acquirable s then .next (withTg (acquire s) (nextWord (lost (acquire s).tg))) else .next (waits s)))
     ∧ (∀ sc : BitVec 3, (sendQuantum s s.tg.key).tg.quantum = []
       ∧ ∀ k, exec (.fence k sc) s = exec (.fence k sc) (sendQuantum s s.tg.key))
     ∧ (∀ (a : Opnd) (c : BitVec 3), c ≠ 7 → sOperand s true a = true → s.tg.pending a = false →
       let n := match a with | .s k => (vget s.tg.s k.toNat).toNat | _ => 0
       let named : List Path := match c.toNat with
         | 0 => [.g] | 1 => [.s] | 2 => [.c] | 3 => [.e] | 4 => [.f] | 5 => [.h] | _ => [.g, .s, .c, .e, .f, .h]
       ((∀ p ∈ named, s.tg.count p ≤ n) → exec (.waitc a c) s = .next (withTg s (nextWord (lost s.tg))))
       ∧ ((∃ p ∈ named, n < s.tg.count p) → s.tg.quantum = [] → exec (.waitc a c) s = .next (waits s))
       ∧ ((∃ p ∈ named, n < s.tg.count p) → exec (.waitc a c) s = .next (waits (if Path.h ∈ named then sendQuantum s s.tg.key else s))))
     ∧ (s.tg.monitor = none → exec .mwait s = .next (withTg s (nextWord (lost s.tg))))
     ∧ (∀ m, s.tg.monitor = some m → m.fired = true → exec .mwait s = .next (withTg s (nextWord (lost { s.tg with monitor := none }))))
     ∧ (∀ m, s.tg.monitor = some m → m.fired = false → exec .mwait s = .next (waits s))) ∧
  (∀ s : State,
     let wrote := s.tg.unack = 0 ∧ ∀ o ∈ s.tg.ops, o.done = false → o.path = some .h → o.near = 0
     let n := gmRr s.tg.gm
     let seen := s.tg.wctMax ≤ s.gt ∧ ∀ l ∈ s.lines, l.locked ≠ none → ∀ p ∈ l.pend, p.tg ≠ s.tg.key
     let far := ∀ o ∈ s.tg.ops, o.done = false → o.remote = true → o.path = some .g ∧ o.load = true
     (released s 0 = true)
     ∧ (released s 1 = true ↔ wrote) ∧ (released s 2 = true ↔ wrote) ∧ (released s 3 = true ↔ wrote)
     ∧ (released s 4 = true ↔ wrote ∧ seen) ∧ (released s 5 = true ↔ wrote ∧ seen ∧ far)
     ∧ (acquirable s = true ↔ (∀ o ∈ s.tg.ops, o.load = true → o.done = true) ∧ ∀ r pa, roundRegion s s.tg.ctx n = some r →
         paOf s s.tg.core s.tg.ctx r.cva = some pa → (∀ p ∈ (s.line (lineOf pa)).pend, p.wct ≤ s.gt) ∧ granting s (lineOf pa) = false
           ∧ engineOwned s (lineOf pa) = false ∧ ∀ m ∈ s.net, m.tg = s.tg.key → lineOf m.pa ≠ lineOf pa)
     ∧ (∀ c, c ∈ (acquire s).l1 ↔ c ∈ s.l1 ∧ ¬ (c.core = s.tg.core ∧ c.nc = true))
     ∧ (tablesQuiet s → (acquire s).mem = s.mem ∧ (roundRegion s s.tg.ctx n = none → (acquire s).tg = s.tg)
       ∧ ∀ r pa, roundRegion s s.tg.ctx n = some r → paOf s s.tg.core s.tg.ctx r.cva = some pa →
         let x := BitVec.ofNat 32 (latestNat s pa 4)
         ∃ g, (acquire s).tg = { s.tg with floors := g } ∧ (∀ k < 32, k ≠ n → vget g k = vget s.tg.floors k)
           ∧ vget g n = if atOrAfter x (vget s.tg.floors n) then x else vget s.tg.floors n))

/-- R344, R334, R117: PRF sends a prefetch for each access that passes R97 and may be cached, and never traps on an address, nor on
a stream element that gives one; the poison of an offset sets pz (log 42). MON arms the monitor of the line of its lowest active
thread's address and drops the core's copy. Neither writes a register; no byte of memory changes, as far as no table that is read
is recalled. -/
def Obligations.PrefetchAndMonitor : Prop :=
  ∀ (s : State) (a b : Opnd) (r : Reads), s.tg.on = true → s.tg.guardPending = false → s.tg.active ≠ 0 → addrOk s.hdr a = true →
    (opndSpan a 64).any s.tg.pending = false → Shape.pending ⟨[(b, 32)], .zr, 32, false⟩ s.tg = false → s.tg.acquiring = false →
    (let x : Shape := ⟨[(b, 32)], .zr, 32, false⟩
     let m := s.tg.active &&& ~~~ prfDropped s b s.tg.active
     x.operandTrap s s.tg.active = none → x.bindTrap s s.tg.active = none →
      queuesReady s (queueWords s.tg x.reads (beatsOf s.tg.active).length) [] = true →
      readSources s (isQReg b) m x.reads 0 ⟨[], 0, s, []⟩ = .go r →
      let accs := (checkAll s .read 1 1 (effVas s.tg a r 0 m)).2
      let s1 := touchPages (withTg r.st { r.st.tg with flags := poisonFlags s.tg r.poison }) accs
      ∀ llc, exec (.prf a b llc) s = .next { s1 with
          net := s1.net ++ accs.filterMap (prefetchMsg s1 llc)
          tg := { (if isQReg b then lost (nextWord (advanceStreams s1.tg r.streams)) else nextWord (advanceStreams s1.tg r.streams)) with
                  nextOp := r.st.tg.nextOp + 1 } }
        ∧ (tablesQuiet s → s1.mem = s.mem))
    ∧ (∀ pa attr nc, readCause s.hdr s.tg true b 32 = none → unbound s.tg b = false → queuesReady s (queueWords s.tg [(b, 32)] 1) [] = true →
      readSources s (isQReg b) (1#8 <<< lowest s.tg.active) [(b, 32)] 0 ⟨[], 0, s, []⟩ = .go r →
      checkAccess s s.tg .read 1 1 (effVa s.tg a (r.at 0 (lowest s.tg.active)) (lowest s.tg.active)) = .ok (.mem pa attr nc false) →
      attr ≠ 3 → s.toLine s.tg.key (lineOf pa) = [] →
      let full := decide (64 ≤ monitorsIn s (lineOf pa))
      ∃ t, exec (.mon a b) s = .next t ∧ (tablesQuiet s → t.mem = s.mem ∧ t.wgs = r.st.wgs) ∧ t.net = r.st.net
        ∧ (∀ c, c ∈ t.l1 ↔ c ∈ r.st.l1 ∧ ¬ (c.core = s.tg.core ∧ c.line = lineOf pa))
        ∧ (homeOf pa ∈ t.overflowed ↔ homeOf pa ∈ s.overflowed ∨ full = true)
        ∧ t.tg = { (if isQReg b then lost (nextWord r.st.tg) else nextWord r.st.tg) with monitor := some ⟨lineOf pa, false, full⟩ })

/-- R140, R346, R115: RADV waits as STR does and then sends one increment of the counter of region gm.rr to its home, with floor
WCTmax; RCNT in a launch that is not deterministic reads the core's view of that region, with no wait; in a deterministic one it
asks the counter's home where its value is not at hand, and rd is pending. -/
def Obligations.RoundCounters : Prop :=
  ∀ (s : State) (r : RoundRegion), s.tg.on = true → s.tg.guardPending = false → s.tg.active ≠ 0 →
    roundRegion s s.tg.ctx (gmRr s.tg.gm) = some r →
    (∀ pa attr nc remote, checkAccess s s.tg .write 4 4 r.cva = .ok (.mem pa attr nc remote) → s.tg.acquiring = false → strReady s = true →
      let s1 := cachePage (noteRound s s.tg.ctx (gmRr s.tg.gm)) s.tg.core s.tg.ctx r.cva
      ∃ t, exec .radv s = .next t ∧ (tablesQuiet s → t.mem = s.mem ∧ t.wgs = s.wgs)
        ∧ t.net = s.net ++ [{ tg := s.tg.key, op := s.tg.nextOp, t := 0, core := s.tg.core, ctx := s.tg.ctx, pa := pa, rep := attr = 2
                              ask := .radv (gmRr s.tg.gm) s.tg.wctMax }]
        ∧ t.tg = { nextWord (lost s1.tg) with unack := s.tg.unack + 1, nextOp := s.tg.nextOp + 1 })
    ∧ (s.det = false →
      let s1 := noteView s s.tg.core s.tg.ctx (gmRr s.tg.gm)
      let x := viewOf s1 s.tg.core s.tg.ctx (gmRr s.tg.gm)
      (∀ d : Opnd, sOperand s true d = true → s.tg.pending d = false →
        exec (.rcnt d) s = .next (withTg s1 (nextWord (pushLatch (putS s1.tg d (x.setWidth 64)) (x.setWidth 64)))))
      ∧ (∀ n : BitVec 6, n.toNat < s.hdr.vregs → s.tg.pending (.v n) = false →
        ∃ t, exec (.rcnt (.v n)) s = .next t ∧ t = { s1 with tg := t.tg }
          ∧ (∀ k < 64, ∀ u < 8, vget (vget t.tg.v k) u = if k = n.toNat ∧ bitOf s.tg.active u = true then x else vget (vget s.tg.v k) u)
          ∧ t.tg = { nextWord (pushLatch s1.tg (x.setWidth 64)) with v := t.tg.v }))
    ∧ (∀ (n : BitVec 5) (pa : Nat), s.det = true → s.tg.acquiring = false → n.toNat < s.hdr.sregs → s.tg.pending (.s n) = false →
      let s1 := cachePage (noteRound s s.tg.ctx (gmRr s.tg.gm)) s.tg.core s.tg.ctx r.cva
      paOf s1 s1.tg.core s1.tg.ctx r.cva = some pa →
      let y : Acc1 := ⟨0, r.cva, .mem pa 0 false (s1.isRemote pa)⟩
      let s2 := touchPages s1 [y]
      let ms := (gather s2 etU32 s2.tg.nextOp 4 false [y]).msgs
      ms ≠ [] → ∃ t o, exec (.rcnt (.s n)) s = .next t ∧ t = { s2 with net := s2.net ++ ms, tg := t.tg }
        ∧ o.id = s.tg.nextOp ∧ o.path = none ∧ o.done = false ∧ o.need = 1 ∧ o.sink.map (fun k => k.d) = some (.s n)
        ∧ t.tg = { nextWord { pushLatch s2.tg 0 with bop := #v[some s.tg.nextOp, vget s.tg.bop 0, vget s.tg.bop 1, vget s.tg.bop 2] } with
                   ops := s.tg.ops ++ [o], nextOp := s.tg.nextOp + 1 })

/-- R328, R114: LDFE reads its words and marks each empty, STFE writes its words and marks each full, both when every word named is
ready; no other word of scratch and no other bit changes. -/
def Obligations.FullEmptyWords : Prop :=
  ∀ (s : State) (d a b : Opnd) (r : Reads) (xs : List (Nat × Nat × Nat × Nat)),
    let hit := fun (y : Nat × Nat × Nat × Nat) => xs.any (fun z => z.1 = y.1 && z.2.1 = y.2.1 && z.2.2.1 = y.2.2.1 && z.2.2.2 / 4 = y.2.2.2 / 4)
    let g := advanceStreams r.st.tg r.streams
    (let x : Shape := ⟨[(b, 32)], d, 32, true⟩
     issues s x a r → (isVReg d || isSReg d || d == .zr) = true → r.st.tg.count .s < 255 →
      poisonPasses s r.poison = true → s.tg.et ∈ [4, 5, 10] → (s.tg.priv = .m ∨ s.dev.maint ≠ .service) →
      (effVas s.tg a r 0 (x.readers s.tg.active)).map (fun y => feTarget s s.tg y.2) = xs.map .ok → hasTwice xs = false →
      (∀ y ∈ xs, isFull s y = true) → feYields s xs = false →
      ∃ t, exec (.ldfe d a b) s = .next t ∧ t.mem = s.mem ∧ t.net = r.st.net
        ∧ (∀ w n, scratchByte t w n = scratchByte r.st w n)
        ∧ (∀ y, isFull t y = (isFull r.st y && !hit y))
        ∧ tookValues g t.tg d ((beatsOf (x.readers s.tg.active)).zip xs |>.map (fun p =>
            ⟨p.1, deliverBytes s.tg.et ((upTo 4).map (fun i => scratchByte s (p.2.1, p.2.2.1, p.2.2.2.1) (p.2.2.2.2 + i))), false, 0⟩)) none
        ∧ t.tg = { over_ g with
                   v := t.tg.v, s := t.tg.s, p := t.tg.p, b := t.tg.b, bv := t.tg.bv, bop := t.tg.bop
                   flags := poisonFlags s.tg r.poison, nextOp := r.st.tg.nextOp + 1, ops := quick r.st.tg .s, pc := s.tg.pc + 4 })
    ∧ (let x : Shape := ⟨[(b, 32), (d, 32)], .zr, 32, true⟩
     issues s x a r → (isVReg d || isSReg d) = true → r.st.tg.count .s < 255 →
      poisonPasses s r.poison = true → s.tg.et ∈ [4, 5, 10] → (s.tg.priv = .m ∨ s.dev.maint ≠ .service) →
      (effVas s.tg a r 0 s.tg.active).map (fun y => feTarget s s.tg y.2) = xs.map .ok → hasTwice xs = false →
      (∀ y ∈ xs, isFull s y = false) → feYields s xs = false →
      ∃ t, exec (.stfe d a b) s = .next t ∧ t.mem = s.mem ∧ t.net = r.st.net
        ∧ (∀ w n, scratchByte t w n = byteAfter w n (scratchByte r.st w n)
            ((beatsOf s.tg.active).zip xs |>.map (fun p => ((p.2.1, p.2.2.1, p.2.2.2.1), p.2.2.2.2, natLe 4 (r.at 1 p.1).toNat))))
        ∧ (∀ y, isFull t y = (isFull r.st y || hit y))
        ∧ t.tg = { nextWord (lost g) with flags := poisonFlags s.tg r.poison, nextOp := r.st.tg.nextOp + 1, ops := quick r.st.tg .s })

/-! ### Atomics and hob updates -/

/-- R133, R279-R281, R114: an atomic on places of scratch alone, with a v, s or p register or zr as destination. The threads act in
ascending order; each receives the value from before its own operation; a stash line that holds poison is not changed, and delivers
poison; no message leaves; it counts only behind an outstanding operation of the S path. That the bytes change when it issues is the model's choice (log 7). -/
def Obligations.AtomicsInScratch : Prop :=
  ∀ (s : State) (op : Nat) (d a b : Opnd) (r : Reads) (accs : List Acc1),
    let x := atomicShape s.tg op d b
    op < 8 → issues s x a r → atomicGoes s op d a r accs → loadDst d = true → (∀ y ∈ accs, ∀ pa at_ nc rem, y.target ≠ .mem pa at_ nc rem) →
    let s1 := lookAtomic s r accs
    let g := advanceStreams s1.tg r.streams
    let run := scratchAtomics s1 (aopOf s.tg op r) accs
    let bad := atomicPoison s r accs
    ∃ t, exec (atomicWord op d a b) s = .next t
      ∧ (tablesQuiet s → t.mem = s.mem) ∧ t.net = r.st.net ∧ t.wgs = run.1.wgs ∧ t.tg.unack = s.tg.unack ∧ t.tg.pc = s.tg.pc + 4
      ∧ t.tg.flags = poisonFlags s.tg bad ∧ t.tg.ops = quick r.st.tg .s ∧ t.tg.nextOp = r.st.tg.nextOp + 1
      ∧ (noReturn (auOf s.tg) = false → tookValues g t.tg d run.2 none)
      ∧ (noReturn (auOf s.tg) = true → t.tg = { nextWord (owing g none) with
          flags := poisonFlags s.tg bad, ops := quick r.st.tg .s, nextOp := r.st.tg.nextOp + 1 })
      ∧ (∀ y l gg w off z, accs = [y] → y.target = .scratch l gg w off → r.st.findWg l gg w = some z →
          let f := aopOf s.tg op r y.t
          let old := memBytes z.scratch off f.size
          run.2 = [⟨y.t, deliverBytes s.tg.et old, false, 0⟩]
            ∧ ∀ n, scratchByte t (l, gg, w) n = byteAfter (l, gg, w) n (memGet z.scratch n) [((l, gg, w), off, natLe f.size (f.apply (leNat old)))])
      ∧ (∀ y, accs = [y] → stashPoison s1 y = true →
          run.2 = [⟨y.t, poisonValue s.tg.et, true, 0⟩] ∧ ∀ w n, scratchByte t w n = scratchByte r.st w n)

/-- R114, R133, R279-R281: an atomic with an access to memory. Each such access is one message to its home and one unacknowledged
write (a quantum atomic is held in the core, unless poison could trap: log 59, and counts from its issue: log 42); with a returning use the destination is pending and b0 is
owed, on the H path. -/
def Obligations.AtomicsAsk : Prop :=
  ∀ (s : State) (op : Nat) (d a b : Opnd) (r : Reads) (accs : List Acc1),
    let x := atomicShape s.tg op d b
    op < 8 → issues s x a r → atomicGoes s op d a r accs → loadDst d = true → pathOf accs = .g →
    let au := auOf s.tg
    let s1 := lookAtomic s r accs
    let id := r.st.tg.nextOp
    let ms := accs.filterMap (fun y => atomicMsg s1 id (if au = 0 then s.tg.wctMax else 0) (aopOf s.tg op r y.t) y)
    ∃ t, exec (atomicWord op d a b) s = .next t
      ∧ (tablesQuiet s → t.mem = s.mem)
      ∧ t.tg.unack = s.tg.unack + storeCount accs
      ∧ t.tg.v = s.tg.v ∧ t.tg.s = s.tg.s ∧ t.tg.p = s.tg.p ∧ t.tg.flags = poisonFlags s.tg (atomicPoison s r accs)
      ∧ t.tg.pc = s.tg.pc + 4 ∧ vget t.tg.b 0 = Vector.replicate 8 0 ∧ t.tg.bv = #v[true, false, false, false]
      ∧ (au ≠ 4 → t.net = s1.net ++ ms)
      ∧ (au = 4 → quantumAddrs s.tg + accs.length < 64 → s.tg.fptrap.getLsbD 7 = false →
        t.net = r.st.net ∧ t.tg.quantum = s.tg.quantum ++ accs.filterMap (fun y =>
          match y.target with | .mem pa attr nc _ => some ⟨id, y.t, pa, aopOf s.tg op r y.t, attr = 2, nc⟩ | _ => none))
      ∧ ∃ o, t.tg.ops = r.st.tg.ops ++ [o] ∧ o.id = id ∧ o.path = some .h ∧ o.need = storeCount accs ∧ o.done = false
          ∧ o.near = nearCount accs ∧ o.remote = anyRemote accs
          ∧ o.sink = (if noReturn au then none else some ⟨d, BitVec.ofNat 4 s.tg.et, x.readers s.tg.active, true⟩)
          ∧ o.acquire = (decide (au = 0) && !noReturn au) ∧ o.mark = noReturn au

/-- R280: what each operation makes of the old value, for the integer types (without saturation) and, for AMIN and AMAX, their
order. AADD wraps; ACAS stores its new value exactly where the old value is the expected one. -/
def Obligations.AtomicOperations : Prop :=
  ∀ (et : BitVec 4) (rm : BitVec 3) (x n : W64) (old : Nat), 4 ≤ et.toNat → et.toNat ≤ 7 → old < 2 ^ etWidth et.toNat →
    let w := etWidth et.toNat
    let v := x.toNat % 2 ^ w
    let f := fun op => AOp.apply ⟨op, et, rm, false, x, n⟩ old
    f 0 = (old + v) % 2 ^ w
      ∧ (f 1 = old ∨ f 1 = v) ∧ intVal et.toNat (f 1) = min (intVal et.toNat old) (intVal et.toNat v)
      ∧ (f 2 = old ∨ f 2 = v) ∧ intVal et.toNat (f 2) = max (intVal et.toNat old) (intVal et.toNat v)
      ∧ f 3 = old &&& v ∧ f 4 = old ||| v ∧ f 5 = old ^^^ v ∧ f 6 = v ∧ f 7 = if old = v then n.toNat % 2 ^ w else old

/-- R178-R180, R317: HBADD, HBMAX and HBMIN send each active thread's update to the home of its word and return nothing; they count
on the H path and not as unacknowledged writes, and each thread's issuer-key count rises by one. -/
def Obligations.HobUpdatesIssue : Prop :=
  ∀ (s : State) (i : Nat) (d a b : Opnd) (r : Reads) (accs : List Acc1),
    let x : Shape := ⟨[(b, 32), (d, etContainer s.tg.et)], .zr, 32, true⟩
    i < 3 → issues s x a r → atomicType 0 s.tg.et = true → s.tg.count .h < 255 → poisonPasses s r.poison = true →
    checkEach .atomic (checkHob s (etBytes s.tg.et)) (effVas s.tg a r 0 s.tg.active) = (none, accs) →
    let s1 := touchPages (withTg r.st { r.st.tg with flags := poisonFlags s.tg r.poison }) accs
    ∃ t, exec (hobWord i d a b) s = .next t
      ∧ (tablesQuiet s → t.mem = s.mem) ∧ t.wgs = s1.wgs
      ∧ t.net = s1.net ++ accs.filterMap (fun y => match y.target with
          | .mem pa attr _ _ => some
              { tg := s.tg.key, op := r.st.tg.nextOp, t := y.t, core := s.tg.core, ctx := s.tg.ctx, pa := pa, rep := attr = 2
                ask := .hob ⟨[0, 2, 1].getD i 0, BitVec.ofNat 4 s.tg.et, BitVec.ofNat 3 s.tg.rm, gmSat s.tg.gm, (r.at 1 y.t).setWidth 64, 0⟩
                  ⟨s.tg.wid s.launch y.t, vget s.tg.hobs y.t⟩ s.det }
          | _ => none)
      ∧ (∀ u < 8, vget t.tg.hobs u = vget s.tg.hobs u + if bitOf s.tg.active u then 1 else 0)
      ∧ ∃ o, o.id = r.st.tg.nextOp ∧ o.path = some .h ∧ o.sink = none ∧ o.done = false ∧ o.need = accs.length
          ∧ o.near = nearCount accs ∧ o.remote = anyRemote accs
          ∧ t.tg = { nextWord (lost (advanceStreams s1.tg r.streams)) with
                     flags := poisonFlags s.tg r.poison, ops := r.st.tg.ops ++ [o], nextOp := r.st.tg.nextOp + 1, hobs := t.tg.hobs }

/-! ### Copies, queues and streams -/

/-- R166, R167, R169, R132: CPY with legal operands whose places pass their checks: one job that moves 4 × 2^c bytes for each active
thread, in ascending t, with its status register pending, counted on the C path; the ports that its bytes go to are noted, and its
destination lines in memory are asked for, in ascending order. R169: CPYT with legal operands and shape, none of whose places traps
or must be filled, to memory, scratch or a port: one tile job in the same way. That neither shifts the latches when it issues is the
model's reading (log 33). R127: held quantum atomics to bytes that the engine is to read or write go out before it. -/
def Obligations.CopiesIssue : Prop :=
  (∀ (s : State) (n : BitVec 5) (a b : Opnd) (c : BitVec 3), c.toNat ≤ 2 → s.tg.on = true → s.tg.guardPending = false → s.tg.active ≠ 0 →
     n.toNat < s.hdr.sregs → addrOk s.hdr a = true → addrOk s.hdr b = true →
     (opndSpan a 64 ++ opndSpan b 64 ++ [Opnd.s n]).any s.tg.pending = false → s.tg.count .c < 255 → s.tg.acquiring = false →
     let size := 4 * 2 ^ c.toNat
     let src := fun t => (readPlain s.tg a 64 t).setWidth 64
     let dst := fun t => (readPlain s.tg b 64 t).setWidth 64
     ∀ p q : Nat → Place, (∀ t < 8, bitOf s.tg.active t = true → engPlace s size false (src t) = .place (p t) ∧ engPlace s size true (dst t) = .place (q t)) →
     let s1 := sendHeldTo s ((beatsOf s.tg.active).flatMap (fun t => (upTo size).flatMap (fun i => [(q t).plus i, (p t).plus i])))
     ∃ t, exec (.cpy (.s n) a b c) s = .next t
       ∧ commandSent s t .c (.s n) s1.tg.quantum
       ∧ ∃ j, t.copies = s.copies ++ [j] ∧ j.tg = s.tg.key ∧ j.op = s.tg.nextOp ∧ j.d = .s n ∧ j.err = 0 ∧ j.data = none ∧ j.wrote = false
           ∧ j.moves = (beatsOf s.tg.active).flatMap (fun t => (upTo size).map (fun i => ⟨[(p t).plus i], false, (q t).plus i⟩))
           ∧ j.ports = (portsOf ((beatsOf s.tg.active).flatMap (fun t => [p t, q t]))).map (fun x => (x, 0))
           ∧ (∀ no, no ∈ j.lines ↔ ∃ m ∈ j.moves, ∃ pa, m.dst = .mem pa ∧ lineOf pa = no)
           ∧ t.tg.unack = s.tg.unack + j.lines.length
           ∧ t.net = s1.net ++ (sortBy (fun (x y : Nat) => decide (x < y)) j.lines).map (fun no =>
               { tg := s.tg.key, op := s.tg.nextOp, t := 0, core := s.tg.core, ctx := s.tg.ctx, pa := no * 128, ask := .engineOwn j.id })) ∧
  (∀ (s : State) (n k : BitVec 5) (w : BitVec 2), s.tg.on = true → s.tg.guardPending = false → s.tg.active ≠ 0 →
     n.toNat < s.hdr.sregs → k.toNat % 4 = 0 → k.toNat + 4 ≤ s.hdr.sregs →
     ([0, 1, 2, 3].map (fun i => Opnd.s (BitVec.ofNat 5 (k.toNat + i))) ++ [Opnd.s n]).any s.tg.pending = false →
     s.tg.count .c < 255 → s.tg.acquiring = false →
     let bits := 4 * 2 ^ w.toNat
     let x := tileCopyOf s.tg k.toNat
     x.bad s.tg k.toNat bits = false → x.rowTrap s bits s.tg.active = none →
     ∀ p : W64 → Place, (∀ y ∈ x.pairs bits, match x.toPort with
         | some o => pushable o = true ∧ p y.1 = .port o
         | none => engPlace s 1 true y.1 = .place (p y.1)) →
       ∀ q : W64 → Place, (∀ y ∈ x.pairs bits, ∀ va ∈ y.2.1, engPlace s 1 false va = .place (q va)) →
     let s1 := sendHeldTo s ((x.pairs bits).flatMap (fun y => p y.1 :: y.2.1.map q))
     ∃ t, exec (.cpyt (.s n) (.s k) w) s = .next t
       ∧ commandSent s t .c (.s n) s1.tg.quantum
       ∧ ∃ j, t.copies = s.copies ++ [j] ∧ j.tg = s.tg.key ∧ j.op = s.tg.nextOp ∧ j.d = .s n ∧ j.err = 0 ∧ j.data = none ∧ j.wrote = false
           ∧ j.ports = x.toPort.toList.map (fun o => (o, 0))
           ∧ j.moves = (x.pairs bits).map (fun y => ⟨y.2.1.map q, y.2.2, p y.1⟩)
           ∧ t.tg.unack = s.tg.unack + j.lines.length ∧ ∃ ms, t.net = s1.net ++ ms ∧ ms.length = j.lines.length) ∧
  (∀ (s : State) (ps : List Place),
     let near := ∃ pa, Place.mem pa ∈ ps ∧ ∃ q ∈ s.tg.quantum, q.pa / 16 = pa / 16
     (¬ near → sendHeldTo s ps = s)
     ∧ (near → ∃ ms, sendHeldTo s ps = { s with net := s.net ++ ms, tg := { s.tg with quantum := [] } }
       ∧ ∀ q ∈ s.tg.quantum, ∃ m ∈ ms, m.tg = s.tg.key ∧ m.pa = q.pa ∧ ∃ ops floor nc, m.ask = .atomic ops floor false nc ∧ q.a ∈ ops))

/-- R171, R163, R165, R181, R115: CTST answers 0 while the status register is pending and 1 afterwards (of any register, log 30); QBIND
records the binding and unbinds, and a pop of a B FIFO enters the queue register in the TG's one entry of the set; SPCFG puts the
descriptor's stream, at position 0, into its register, or, where its load must go out, leaves spN pending and goes on at the next
word. An SPCFG whose descriptor as it stands is unsound waits for its values instead (the model's choice, log 66). -/
def Obligations.TestsAndBindings : Prop :=
  ∀ s : State, s.tg.on = true → s.tg.guardPending = false → s.tg.active ≠ 0 →
    (∀ (d : Opnd) (n : BitVec 5), loadDst d = true → n.toNat < s.hdr.sregs → (s.det = true → s.tg.pending (.s n) = false) →
      let F := testForm s d (.s n)
      F.legal s = true → F.ready s = true → ∃ t, exec (.ctst d (.s n)) s = .next t ∧ F.result s t)
    ∧ (∀ n : BitVec 3, n.toNat < s.hdr.queues → (∀ x ∈ s.wg.subs, x.tg = s.tg.key.tg → x.qs.contains n.toNat = false) →
      exec (.qbind (.q n) .zr 2) s = .next (withTg s (nextWord (lost { s.tg with q := vset s.tg.q n.toNat none })))
      ∧ ∀ k : BitVec 5, k.toNat < s.hdr.sregs → s.tg.pending (.s k) = false →
          let v := (vget s.tg.s k.toNat).toNat
          v ≤ 255 → portExists v = true →
          (pushable v = true → exec (.qbind (.q n) (.s k) 1) s = .next (withTg s
            (nextWord (lost { s.tg with q := vset s.tg.q n.toNat (some ⟨BitVec.ofNat 8 v, .push⟩) }))))
          ∧ (isBFifo v = false → exec (.qbind (.q n) (.s k) 0) s = .next (withTg s
            (nextWord (lost { s.tg with q := vset s.tg.q n.toNat (some ⟨BitVec.ofNat 8 v, .pop⟩) }))))
          ∧ (∀ shared : Bool, isBFifo v = true → subBreach s.wg v s.tg.key.tg n.toNat shared = false →
            (s.findWg s.tg.key.launch s.tg.key.gang s.tg.key.wg).isSome = true →
            ∃ t, exec (.qbind (.q n) (.s k) (if shared then 3 else 0)) s = .next t
              ∧ t.tg = nextWord (lost { s.tg with q := vset s.tg.q n.toNat (some ⟨BitVec.ofNat 8 v, if shared then .sub else .pop⟩) })
              ∧ ∃ x ∈ t.wg.subs, x.port = v ∧ x.tg = s.tg.key.tg ∧ x.shared = shared ∧ n.toNat ∈ x.qs))
    ∧ (∀ (n : BitVec 3) (k : BitVec 5) (x y : Target), k.toNat < s.hdr.sregs → s.tg.pending (.s k) = false → s.tg.pending (.sp n) = false →
      s.tg.count .g < 255 → s.tg.acquiring = false →
      let va := vget s.tg.s k.toNat
      let accs : List Acc1 := [⟨0, va, x⟩, ⟨1, va + 16, y⟩]
      checkAccess s s.tg .read 32 32 va = .ok x → checkAccess s s.tg .read 16 16 (va + 16) = .ok y →
      (∀ (h : HeldRead) (z : Stream), s.tg.held.find? (fun o => o.pc = s.tg.pc && o.k = 0) = some h → piecePoison h.got = 0 →
        streamOf (natLe 16 (vget (pieceVector h.got) 0).toNat ++ natLe 16 (vget (pieceVector h.got) 1).toNat) = .ok z →
        exec (.spcfg (.sp n) (.s k)) s = .next (withTg s (nextWord (lost { s.tg with sp := vset s.tg.sp n.toNat (some z) }))) ∧ z.pos = 0)
      ∧ (s.tg.held = [] → s.tg.ops.any (fun o => o.sync = some 0 && o.pc = s.tg.pc && !o.done) = false →
        ∀ z, streamOf (bytesNow s x 16 ++ bytesNow s y 16) = .ok z →
        let s1 := touchPages s accs
        let w := gather s1 etB128 s1.tg.nextOp 16 false accs
        w.stall = false → w.fills = [] →
        (w.msgs ≠ [] → ∃ o, exec (.spcfg (.sp n) (.s k)) s = .next
            { freeLane s1 with
              net := s1.net ++ w.msgs
              tg := { nextWord (lost s1.tg) with ops := s.tg.ops ++ [o], nextOp := s.tg.nextOp + 1 } }
          ∧ o.id = s.tg.nextOp ∧ o.path = some .g ∧ o.need = w.msgs.length ∧ o.conf = some (n.toNat, va) ∧ o.done = false)
        ∧ (w.msgs = [] → piecePoison w.got = 0 →
          ∀ z', streamOf (natLe 16 (vget (pieceVector w.got) 0).toNat ++ natLe 16 (vget (pieceVector w.got) 1).toNat) = .ok z' →
          ∃ t, exec (.spcfg (.sp n) (.s k)) s = .next t ∧ (tablesQuiet s → t.mem = s.mem) ∧ z'.pos = 0
            ∧ t.tg = { nextWord (lost s1.tg) with
                       sp := vset s.tg.sp n.toNat (some z'), ops := quick s.tg .g, nextOp := s.tg.nextOp + 1 })))

/-! ### Matrix instructions -/

/-- R172, R173, R175, R114: MMA, MMAB and MMAC. A pass whose operands stand in the FIFOs and pass the acceptance checks is accepted: its
A data leaves the FIFO and its B position moves on, the workgroup's tiles are those of the acceptance, and one operation is outstanding
on the E path. The k-th MMACs of a gang form its pass k: it begins when a TG of every workgroup stands at its MMAC; each then waits for
its own A data and its column's B data, which the column's first workgroup reads and sends, takes the trap of its own checks alone, or
is accepted and goes on at its next word.
R81-R83, R174: acceptance fixes the mode of a tile whose mode is unset and records the scales of the rows and columns that the pass
touches; a tile in the other mode, or another scale recorded, is no acceptance. When the pass ends each word that it makes has had its
groups added in ascending K: in integer mode each exact sum of products clamped into 56 bits, in float mode each rounded once to a56; a
poisoned operand makes 0 or NaN and sets pz. Every other word, scale and mode stays. -/
def Obligations.MatrixPassesIssue : Prop :=
  (∀ (s : State) (a b : Opnd), s.tg.on = true → s.tg.guardPending = false → s.tg.active ≠ 0 → passOperands s s.tg a b = none →
     passUnbound s.tg a b = none → mmaType s.tg.et = true → s.tg.count .e < 255 →
     (∀ (blocks : Bool) (t : BitVec 2) (x y : List (Byte × Bool)) (side : List Side) (port pos : Nat) (tiles : Vector Tile 4),
       let kind : PassKind := if blocks then .blocks else .quarter (s.tg.key.tg % 4)
       let d : PassData := ⟨x, y, s.tg.aSide, side, port, pos⟩
       t.toNat < s.hdr.tiles → aData s.tg (kind.rows * kind.k) = some x →
       bData s.wg s.tg.key.tg (qIndex b) (kind.cols * kind.k) = some (y, side, port, pos) →
       acceptTiles s.tg.et kind t.toNat d s.wg.tiles = .ok tiles → waitingPasses s s.tg.core < 8 →
       ∃ u o, exec (if blocks then .mmab a b t else .mma a b t) s = .next u
         ∧ u.mem = s.mem ∧ u.net = s.net
         ∧ u.wg = { s.wg with
                    tiles := tiles
                    subs := s.wg.subs.map (fun z =>
                      if z.tg = s.tg.key.tg && z.qs.contains (qIndex b) then { z with pos := z.pos + kind.cols * kind.k } else z) }
         ∧ o.id = s.tg.nextOp ∧ o.path = some .e ∧ o.sink = none ∧ o.need = 1 ∧ o.done = false
         ∧ u.tg = { nextWord (lost s.tg) with
                    aFifo := s.tg.aFifo.drop (kind.rows * kind.k), aSide := s.tg.aSide.drop (kind.rows * kind.k / 128)
                    ops := s.tg.ops ++ [o], nextOp := s.tg.nextOp + 1 }
         ∧ ∃ p, u.passes = s.passes ++ [p] ∧ p.tg = s.tg.key ∧ p.op = s.tg.nextOp ∧ p.kind = kind ∧ p.tile = t.toNat ∧ p.a = x ∧ p.b = y
             ∧ p.started = false)
     ∧ (∀ (n : BitVec 5),
       let k := s.hdr.gx * s.hdr.gy
       let nr := (vget s.tg.s n.toNat).toNat
       let me := s.tg.key
       let lead := decide (me.wg % nr = 0)
       let column := me.wg / nr * nr
       let s1 := arriveGang s k
       let begun := match gangPass s with
         | some x => some x
         | none => if (upTo k).all (fun w => (participant s w).isSome) then some ⟨upTo k, []⟩ else none
       n.toNat < s.hdr.sregs → s.tg.pending (.s n) = false → 4 ≤ s.hdr.tiles → k ≤ 128 → 1 ≤ nr → nr ≤ 16 → k % nr = 0 → k / nr ≤ 8 →
       gangIntruder s = false → (s.findWg me.launch me.gang me.wg).isSome = true → (s.findGang me.launch me.gang).isSome = true →
       gangPass s1 = begun ∧ s1.tg = { s.tg with phase := .arrived } ∧ s1.wg = { s.wg with gangTg := some me.tg }
       ∧ (begun = none → exec (.mmac (.s n) a b) s = .next (waits s1))
       ∧ (∀ x, begun = some x →
         (x.left.contains me.wg = false ∨ aData s.tg 2048 = none ∨ gangB s x nr (qIndex b) = none → exec (.mmac (.s n) a b) s = .next (waits s1))
         ∧ (∀ (da db : List (Byte × Bool)) (side : List Side), x.left.contains me.wg = true → aData s.tg 2048 = some da →
           (match x.sent.find? (fun y => y.wg = column) with
            | some y => y.b = db ∧ y.side = side
            | none => ∃ h w port pos, participant s column = some h ∧ s.findWg h.key.launch h.key.gang column = some w
                ∧ bData w h.key.tg (if h.key = me then qIndex b else qIndex (wordRb h)) 4096 = some (db, side, port, pos)) →
           let checked := acceptTiles s.tg.et (.gang nr) 0 ⟨da, db, s.tg.aSide, side, 0, 0⟩ s.wg.tiles
           (∀ e, checked = .error e → exec (.mmac (.s n) a b) s = trap s1 { cause := e, mask := s.tg.cm })
           ∧ (∀ tiles, checked = .ok tiles → 8 ≤ waitingPasses s s.tg.core → exec (.mmac (.s n) a b) s = .next (waits s1))
           ∧ (∀ tiles, checked = .ok tiles → waitingPasses s s.tg.core < 8 →
             ∃ u o p, exec (.mmac (.s n) a b) s = .next u ∧ u.mem = s.mem ∧ u.net = s.net ∧ u.rest = s.rest
               ∧ o.id = s.tg.nextOp ∧ o.path = some .e ∧ o.sink = none ∧ o.need = 1 ∧ o.done = false
               ∧ u.tg = { nextWord (lost s.tg) with
                          aFifo := s.tg.aFifo.drop 2048, aSide := s.tg.aSide.drop 16, ops := s.tg.ops ++ [o], nextOp := s.tg.nextOp + 1 }
               ∧ u.wg = { s.wg with
                          tiles := tiles, gangTg := some me.tg
                          subs := if lead then s.wg.subs.map (fun z =>
                              if z.tg = me.tg && z.qs.contains (qIndex b) then { z with pos := z.pos + 4096 } else z) else s.wg.subs }
               ∧ u.passes = s.passes ++ [p] ∧ p.tg = me ∧ p.op = s.tg.nextOp ∧ p.kind = .gang nr ∧ p.a = da ∧ p.b = db ∧ p.started = false
               ∧ (let left := x.left.filter (fun w => w ≠ me.wg)
                  (left = [] → gangPass u = none)
                  ∧ (left ≠ [] → gangPass u = some ⟨left, if lead then ⟨me.wg, db, side⟩ :: x.sent else x.sent⟩)))))))
  ∧ (∀ (et tile : Nat) (kind : PassKind) (d : PassData) (tiles ts : Vector Tile 4), tile < 4 → (∀ q, kind = .quarter q → q < 4) →
    acceptTiles et kind tile d tiles = .ok ts → ∀ t < 4,
      let x := vget tiles t
      let y := vget ts t
      y.words = x.words
      ∧ (t ∉ kind.tiles tile → y = x)
      ∧ (t ∈ kind.tiles tile → y.float = some (passFloat et) ∧ (x.float = none ∨ x.float = some (passFloat et)))
      ∧ ∀ i j r c, i < kind.rows → j < kind.cols → kind.target tile i j = some (t, r, c) →
          vget y.sa r = some (rowScale d.aSide kind.k i) ∧ (vget x.sa r = none ∨ vget x.sa r = vget y.sa r)
          ∧ vget y.sb c = some (rowScale d.bSide kind.k j) ∧ (vget x.sb c = none ∨ vget x.sb c = vget y.sb c))
  ∧ (∀ (p : Pass) (tiles : Vector Tile 4) (tile r c : Nat), p.tile < 4 → tile < 4 → r < 32 → c < 16 → (∀ q, p.kind = .quarter q → q < 4) →
    mmaType p.et.toNat = true →
    let et := p.et.toNat
    let float := passFloat et
    let x := vget tiles tile
    let y := vget (runPass p tiles) tile
    let hit := fun (i j : Nat) => i < p.kind.rows ∧ j < p.kind.cols ∧ p.kind.target p.tile i j = some (tile, r, c)
    let k := p.kind.k
    let row := fun i => (p.a.drop (i * k)).take k
    let col := fun j => (p.b.drop (j * k)).take k
    let a := fun i => (row i).map (fun b => b.1)
    let b := fun j => (col j).map (fun b => b.1)
    let bad := fun i j => (row i).any (fun b => b.2) || (col j).any (fun b => b.2) || p.aBad.getD i false || p.bBad.getD j false
    ((∀ i j, ¬ hit i j) → vget y.words (16 * r + c) = vget x.words (16 * r + c))
    ∧ (∀ i j, hit i j → bad i j = true → vget y.words (16 * r + c) = (if float then BitVec.ofNat 56 fmtA56.canonNan else 0) ∧ y.pz = true)
    ∧ (∀ i j, hit i j → bad i j = false → float = false →
        vget y.words (16 * r + c) = (upTo (k / 4)).foldl (fun (acc : BitVec 56) g =>
          let dot := (upTo 4).foldl (fun (n : Int) e => n + intVal et (recNat (a i) (4 * g + e) 1) * intVal et (recNat (b j) (4 * g + e) 1)) 0
          BitVec.ofInt 56 (max (-(2 ^ 55)) (min (2 ^ 55 - 1) (acc.toInt + dot)))) (vget x.words (16 * r + c)))
    ∧ (∀ i j, hit i j → bad i j = false → float = true →
        vget y.words (16 * r + c) = (upTo (k / 4)).foldl (fun (acc : BitVec 56) g =>
          BitVec.ofNat 56 (addFloat et acc.toNat ((a i).drop (4 * g) |>.take 4) ((b j).drop (4 * g) |>.take 4)).1) (vget x.words (16 * r + c)))
    ∧ y.sa = x.sa ∧ y.sb = x.sb ∧ y.float = x.float
    ∧ (x.pz = true → y.pz = true) ∧ (x.nv = true → y.nv = true) ∧ (x.ofl = true → y.ofl = true) ∧ (x.sv = true → y.sv = true))
  ∧ (∀ (et acc : Nat) (a b : List Byte),
    (Ext.nan ∈ (passElems et a).map (Ext.ofElem et) ∨ Ext.nan ∈ (passElems et b).map (Ext.ofElem et) → addFloat et acc a b = (fmtA56.canonNan, true, false))
    ∧ (∀ xs ys : List Dy, (passElems et a).map (Ext.ofElem et) = xs.map .fin → (passElems et b).map (Ext.ofElem et) = ys.map .fin →
        let sum := (xs.zip ys).foldl (fun (s : Dy) (p : Dy × Dy) => s.add (p.1.mul p.2)) Dy.zero
        (fmtA56.isNan acc = true → addFloat et acc a b = (fmtA56.canonNan, false, false))
        ∧ (fmtA56.isNan acc = false → fmtA56.isInf acc = true → addFloat et acc a b = (acc, false, false))
        ∧ (fmtA56.isNan acc = false → fmtA56.isInf acc = false →
          let r := fmtA56.round 0 ((fmtA56.dy acc).add sum) (fmtA56.isZero acc && fmtA56.neg acc && groupNegZero et a b)
          addFloat et acc a b = (r.bits, false, r.flags &&& flagOf != 0))))

/-- R176, R283, R114: ACZ empties a tile, ACDR reads and converts rows of it, ACLD loads rows, in the tile's new mode and with no scale
recorded; each when no accepted pass holds the tile, and each counts only behind an outstanding operation of the E path. A flag of
theirs that is enabled traps, with nothing moved (R73). That they wait at issue is the model's reading (log 41). -/
def Obligations.AccumulatorMoves : Prop :=
  ∀ (s : State) (t : BitVec 2), s.tg.on = true → s.tg.guardPending = false → s.tg.active ≠ 0 → t.toNat < s.hdr.tiles →
    s.tg.count .e < 255 → tileBusy s t.toNat = false →
    let next := { nextWord (lost s.tg) with ops := quick s.tg .e, nextOp := s.tg.nextOp + 1 }
    (exec (.acz t) s = .next { freeLane s with
      wgs := replaceFirst (myWg s) (fun w => { w with tiles := vset w.tiles t.toNat Tile.empty }) s.wgs
      tg := next })
    ∧ ∀ (n : BitVec 6) (a : Opnd), sOperand s true a = true → s.tg.pending a = false → tileType s.tg.et = true →
      runOk s.hdr s.tg.et (.v n) = true → (runRegs n.toNat (tileRun s.tg.et)).any s.tg.pending = false → rowBlock s.tg a ≤ 3 →
      let x := vget s.wg.tiles t.toNat
      let row := fun u => 8 * rowBlock s.tg a + u
      (let loaded := fun u => (unpackRow s.tg.et ((upTo (tileRun s.tg.et)).map (fun i => vget (vget s.tg.v (n.toNat + i)) u))).map
         (loadElem s.tg.et s.tg.rm)
       let fl := fun u => (loaded u).foldl (fun f e => f ||| e.2) 0
       (∀ i, flagTrap s.tg.fptrap s.tg.active fl = some i →
         exec (.acld (.v n) a t) s = trap (withTg s { s.tg with flags := s.tg.flags ||| flagsOf s.tg.active fl }) i)
       ∧ (flagTrap s.tg.fptrap s.tg.active fl = none → ∃ y, exec (.acld (.v n) a t) s = .next y
         ∧ y = { freeLane s with wgs := y.wgs, tg := { next with flags := s.tg.flags ||| flagsOf s.tg.active fl } }
         ∧ ((s.findWg s.tg.key.launch s.tg.key.gang s.tg.key.wg).isSome = true →
             let z := vget y.wg.tiles t.toNat
             y.wg = { s.wg with tiles := vset s.wg.tiles t.toNat z }
               ∧ z = { x with words := z.words, float := some (!etInt s.tg.et), sa := Vector.replicate 32 none, sb := Vector.replicate 16 none
                              nv := false, ofl := false, sv := false, pz := false }
               ∧ ∀ i < 32, ∀ j < 16, vget z.words (16 * i + j) =
                   if decide (i / 8 = rowBlock s.tg a) && bitOf s.tg.active (i % 8) then ((loaded (i % 8)).getD j (0, 0)).1
                   else vget x.words (16 * i + j))))
      ∧ (¬ (x.float = some true ∧ etInt s.tg.et = true) →
        let out := fun u => packRow s.tg.et ((upTo 16).map (fun j => (drainElem x s.tg.et s.tg.rm (row u) j).bits))
        let fl := fun u => ((upTo 16).map (drainElem x s.tg.et s.tg.rm (row u))).foldl (fun f r => f ||| r.flags) x.flags
        (∀ i, flagTrap s.tg.fptrap s.tg.active fl = some i →
          exec (.acdr (.v n) a t) s = trap (withTg s { s.tg with flags := s.tg.flags ||| flagsOf s.tg.active fl }) i)
        ∧ (flagTrap s.tg.fptrap s.tg.active fl = none → ∃ y, exec (.acdr (.v n) a t) s = .next y ∧ y = { freeLane s with tg := y.tg }
          ∧ y.tg = { next with v := y.tg.v, flags := s.tg.flags ||| flagsOf s.tg.active fl }
          ∧ ∀ k < 64, ∀ u < 8, vget (vget y.tg.v k) u =
              if bitOf s.tg.active u && decide (n.toNat ≤ k) && decide (k < n.toNat + tileRun s.tg.et)
              then (out u).getD (k - n.toNat) 0 else vget (vget s.tg.v k) u))

/-! ### Rays, stoker commands and embers -/

/-- R217-R223, R375, R316, R115: TRACE puts one ray for each active thread in flight, of the descriptor's current generation, pinned while
its slot is live, and owes their result block; TRCONT resumes stopped rays and owes a block. GPIN asks the descriptor's home with rd
pending; the home answers with the current generation, pinned, where its slot is live, else with all ones. GUNP gives an explicit
pin of a generation back. -/
def Obligations.RaysIssue : Prop :=
  ∀ s : State, (s.tg.on = true → s.tg.guardPending = false → s.tg.active ≠ 0 → s.tg.acquiring = false →
    (∀ (n : BitVec 5) (k : BitVec 6) (first : Bool), n.toNat < s.hdr.sregs → k.toNat % 8 = 0 → k.toNat + 8 ≤ s.hdr.vregs →
      s.tg.pending (.s n) = false → (beats.map (fun i => Opnd.v (BitVec.ofNat 6 (k.toNat + i)))).any s.tg.pending = false → s.tg.count .e < 255 →
      let va := vget s.tg.s n.toNat
      let d := descOf s s.tg va
      descTrap s s.tg va s.tg.active = none → raysIn s.tg s.tg.active = 0 → blockRoom s.tg (beatsOf s.tg.active).length = true →
      descFree s d.pa = true →
      let s1 := descArrive (cachePage s s.tg.core s.tg.ctx va) d.pa
      let live := d.liveGen s1 (d.g s1)
      ∃ t rs o, exec (.trace (.s n) (.v k) first) s = .next t
        ∧ rs.map (fun (r : Ray) => r.t) = beatsOf s.tg.active
        ∧ (∀ r ∈ rs, r.closest = !first ∧ r.desc = va ∧ r.q = rayWords s.tg k.toNat r.t ∧ r.tmax = vget r.q 7 ∧ r.stopped = none
            ∧ r.best = none ∧ r.gen = BitVec.ofNat 16 (d.g s1) ∧ r.pinned = (live && !rayInvalid r.q)
            ∧ r.ended = (if rayInvalid r.q then some 4 else if live then none else some 0)
            ∧ r.todo = (if live && !rayInvalid r.q then [⟨.node (d.root s1 (d.g s1) * 16), none⟩] else []))
        ∧ o.id = s.tg.nextOp ∧ o.path = some .e ∧ o.sink = none ∧ o.need = 1 ∧ o.done = false
        ∧ t.tg = { nextWord (lost s.tg) with
                   rays := s.tg.rays ++ rs, blocks := s.tg.blocks ++ [⟨s.tg.nextOp, beatsOf s.tg.active, []⟩]
                   ops := s.tg.ops ++ [o], nextOp := s.tg.nextOp + 1, monitor := t.tg.monitor })
    ∧ (∀ (a b : Opnd), (isVReg a || isSReg a) = true → (isVReg b || isSReg b || b == .zr) = true →
      readCause s.hdr s.tg false a 32 = none → readCause s.hdr s.tg false b 32 = none →
      s.tg.pending a = false → s.tg.pending b = false → s.tg.count .e < 255 →
      (∀ t < 8, bitOf s.tg.active t = true → ∃ h, stoppedRay s.tg t = some h ∧ (readPlain s.tg a 32 t).toNat ≤ 2 ∧ (h.kind = 3 → b ≠ .zr)) →
      blockRoom s.tg (beatsOf s.tg.active).length = true →
      ∃ o, exec (.trcont a b) s = .next { freeLane s with
          tg := { nextWord (lost s.tg) with
                  rays := s.tg.rays.map (fun r => if bitOf s.tg.active r.t
                    then r.resume (readPlain s.tg a 32 r.t).toNat ((readPlain s.tg b 32 r.t).setWidth 32) else r)
                  blocks := s.tg.blocks ++ [⟨s.tg.nextOp, beatsOf s.tg.active, []⟩], ops := s.tg.ops ++ [o], nextOp := s.tg.nextOp + 1 } }
        ∧ o.id = s.tg.nextOp ∧ o.path = some .e ∧ o.sink = none ∧ o.need = 1 ∧ o.done = false)
    ∧ (∀ (n k : BitVec 5), n.toNat < s.hdr.sregs → k.toNat < s.hdr.sregs → s.tg.pending (.s n) = false → s.tg.pending (.s k) = false →
      let va := vget s.tg.s k.toNat
      let gen := vget s.tg.s n.toNat
      let d := descOf s s.tg va
      descTrap s s.tg va s.tg.cm = none →
      (s.tg.pins.length < 4 → s.tg.pins.length + pinsOut s s.tg.key < 4 → ∃ t o, exec (.gpin (.s n) (.s k)) s = .next t
        ∧ (tablesQuiet s → t.mem = s.mem ∧ t.wgs = s.wgs)
        ∧ t.net = s.net ++ [{ tg := s.tg.key, op := s.tg.nextOp, t := 0, core := s.tg.core, ctx := s.tg.ctx, pa := d.pa, ask := .pin va }]
        ∧ o.id = s.tg.nextOp ∧ o.path = none ∧ o.sink = some ⟨.s n, 7, 0xFF, true⟩ ∧ o.need = 1 ∧ o.done = false ∧ o.got = []
        ∧ t.tg = { nextWord (owing s.tg (some s.tg.nextOp)) with
                   ops := s.tg.ops ++ [o], nextOp := s.tg.nextOp + 1, monitor := t.tg.monitor })
      ∧ (s.tg.loadsIn = true → pinsOut s s.tg.key = 0 → s.tg.pins.any (fun p => p.desc = va && p.gen = gen) = true →
        descFree s d.pa = true →
        let s1 := d.dropPin (descArrive (cachePage s s.tg.core s.tg.ctx va) d.pa) gen.toNat
        ∃ t, exec (.gunp (.s k) (.s n)) s = .next t
          ∧ t.mem = s1.mem ∧ t.lines = s1.lines ∧ t.frees = s1.frees ∧ t.net = s.net
          ∧ t.tg = { nextWord (lost s.tg) with
                     pins := dropFirst (fun p => p.desc = va && p.gen = gen) s.tg.pins, monitor := t.tg.monitor })))
    ∧ (∀ (k : Nat) (m : Msg) (va : W64) (h : Tg) (o : Op), served s k = some m → m.ask = .pin va → m.rep = false →
      engineOwned s (lineOf m.pa + 1) = false → s.findTg m.tg = some h → h.ops.find? (fun x => x.id = m.op) = some o →
      (∃ x y z, o.sink = some ⟨x, 7, y, z⟩) →
      let s1 := arriveRange (arriveAt (applyDue (s.dropMsg k) (lineOf m.pa)) (lineOf m.pa * 128) 128) m.pa 256
      let d : Desc := ⟨m.core, m.ctx, va, m.pa⟩
      let live := d.liveGen s1 (d.g s1) && h.on
      let x : W64 := if live then BitVec.ofNat 64 (d.g s1) else BitVec.allOnes 64
      ∃ t h' o' p, exec (.homeWriteAccept k) s = .next t ∧ t.net = dropAt s.net k
        ∧ t.findTg m.tg = some h' ∧ h'.pins = (if live then h.pins ++ [⟨va, x⟩] else h.pins)
        ∧ h'.ops.find? (fun y => y.id = m.op) = some o' ∧ o'.need = o.need - 1 ∧ o'.got = o.got ++ [p] ∧ p.t = m.t
        ∧ p.data = x.setWidth 128)

/-- R224, R225, R359: the five stoker commands. A command whose descriptor, command block or destination passes the checks of each
row of R359 is queued at the stoker of the core's cluster, with rd pending until its status word comes. That it shifts no latch
when it issues is the model's reading (log 33). -/
def Obligations.StokerCommandsIssue : Prop :=
  ∀ (s : State) (code : Nat) (d a b : BitVec 5), 0x94 ≤ code → code ≤ 0x98 → s.tg.on = true → s.tg.guardPending = false → s.tg.active ≠ 0 →
    s.tg.acquiring = false → d.toNat < s.hdr.sregs → a.toNat < s.hdr.sregs → b.toNat < s.hdr.sregs →
    ([.s d, .s a, .s b] : List Opnd).any s.tg.pending = false → s.tg.count .e < 255 →
    let va := vget s.tg.s a.toNat
    let arg := if code = 0x96 ∨ code = 0x97 then 0 else vget s.tg.s b.toNat
    let args : List W64 := if code = 0x96 ∨ code = 0x97 then [] else if code = 0x98 then [arg, arg + 64] else [arg]
    let acc : Access := if code = 0x98 then .write else .read
    let block := code = 0x94 ∨ code = 0x95
    let dpa := (paOf s s.tg.core s.tg.ctx va).getD 0
    let bpa := (paOf s s.tg.core s.tg.ctx arg).getD 0
    va.toNat % 256 = 0 → arg.toNat % 64 = 0 →
    (∀ x ∈ ((va, .read) :: args.map (fun x => (x, acc)) : List (W64 × Access)), stokerFault s s.tg x.2 x.1 = none ∧ stokerPage s s.tg x.2 x.1 = none) →
    descFree s dpa = true → (block → homesFree s bpa 64 = true) →
    let s1 := descArrive (cacheAll s (va :: args)) dpa
    let s2 := if block then arriveRange s1 bpa 64 else s1
    descBad (latestBytes s2 dpa 256) = false → (block → blockBad (latestBytes s2 bpa 64) = false) →
    stokerLoad s (s.tg.core / 256) < 64 →
    ∃ t, exec (stokerWord code (.s d) (.s a) (.s b)) s = .next t ∧ commandSent s t .e (.s d) s.tg.quantum ∧ t.tg.unack = s.tg.unack
      ∧ t.mem = s2.mem ∧ t.lines = s2.lines ∧ t.net = s.net
      ∧ ∃ c, t.stoker = s.stoker ++ [c] ∧ c.code = code ∧ c.desc = va ∧ c.arg = arg ∧ c.d = .s d ∧ c.tg = s.tg.key ∧ c.op = s.tg.nextOp
          ∧ c.cluster = s.tg.core / 256 ∧ c.result = none

/-- R148-R150, R156, R160, R307, R114: EST, EMRG and ELD. Each contribution that R150 does not drop is one message to the ember's home
with its round value, an unacknowledged write, an operation on the E path and one more in the thread's issuer-key count; a
dropped one raises nv, and does not raise the count (the model's reading, log 50). ELD asks each ember's home and leaves its
destination pending and b0 owed. Held quantum atomics to the embers go out first. -/
def Obligations.EmbersIssue : Prop :=
  ∀ (s : State) (d a b : Opnd) (r : Reads) (es : List EmberAt) (round : Nat → W32),
    (∀ merge : Bool,
      let bits := if merge then 128 else 32
      let x : Shape := ⟨[(b, 32), (d, bits)], .zr, 32, true⟩
      let con := fun t => contributionOf merge (r.at 1 t)
      let fl := fun t => (if (con t).isNone then flagNv else 0) ||| (if bitOf r.poison t then flagPz else 0)
      emberGoes s x d a true r es round → flagTrap s.tg.fptrap s.tg.active fl = none →
      let sent := es.filter (fun e => (con e.t).isSome)
      let s1 := emberState r es (flagsOf s.tg.active fl)
      ∃ t ops, exec (emberWord merge d a b) s = .next t
        ∧ t.mem = s1.mem ∧ (tablesQuiet s → t.mem = s.mem) ∧ t.wgs = s1.wgs
        ∧ t.net = s1.net ++ sent.filterMap (fun e => (con e.t).map (fun c =>
            { tg := s.tg.key, op := r.st.tg.nextOp, t := e.t, core := s.tg.core, ctx := s.tg.ctx, pa := e.pa
              ask := .ember c (round e.region.rr.toNat) e.region ⟨s.tg.wid s.launch e.t, vget s.tg.embers e.t⟩ s.det }))
        ∧ t.tg = { nextWord (lost (advanceStreams s1.tg r.streams)) with
                   flags := s.tg.flags ||| flagsOf s.tg.active fl, unack := s.tg.unack + sent.length, embers := t.tg.embers
                   ops := ops, nextOp := r.st.tg.nextOp + 1 }
        ∧ (∀ u < 8, vget t.tg.embers u = vget s.tg.embers u + (if sent.any (fun e => e.t = u) then 1 else 0))
        ∧ t.tg.v = s.tg.v ∧ t.tg.s = s.tg.s ∧ t.tg.p = s.tg.p
        ∧ (sent = [] → ops = quick r.st.tg .e)
        ∧ (sent ≠ [] → ∃ o, ops = r.st.tg.ops ++ [o] ∧ o.id = r.st.tg.nextOp ∧ o.path = some .e ∧ o.sink = none ∧ o.done = false
            ∧ o.need = sent.length))
    ∧ (let x : Shape := ⟨[(b, 32)], d, 128, true⟩
      let s1 := emberState r es (if r.poison = 0 then 0 else flagPz)
      emberGoes s x d a false r es round → poisonPasses s r.poison = true →
      ∃ t o, exec (.eld d a b) s = .next t
        ∧ t.mem = s1.mem ∧ (tablesQuiet s → t.mem = s.mem) ∧ t.wgs = s1.wgs
        ∧ t.net = s1.net ++ es.map (fun e =>
            { tg := s.tg.key, op := r.st.tg.nextOp, t := e.t, core := s.tg.core, ctx := s.tg.ctx, pa := e.pa
              ask := .eld (round e.region.rr.toNat) e.n e.region e.va ⟨s.tg.wid s.launch e.t, vget s.tg.elds e.t⟩ s.det })
        ∧ t.tg = { nextWord (owing (advanceStreams s1.tg r.streams) (some r.st.tg.nextOp)) with
                   flags := poisonFlags s.tg r.poison, elds := t.tg.elds, ops := r.st.tg.ops ++ [o], nextOp := r.st.tg.nextOp + 1 }
        ∧ t.tg.v = s.tg.v ∧ t.tg.s = s.tg.s ∧ t.tg.p = s.tg.p ∧ t.tg.unack = s.tg.unack
        ∧ o.id = r.st.tg.nextOp ∧ o.path = some .e ∧ o.done = false ∧ o.need = es.length
        ∧ o.sink = some ⟨d, BitVec.ofNat 4 etEmb, x.readers s.tg.active, true⟩)

/-! ### Firebox -/

/-- R243, R246, R247, R312-R314: the eleven firebox words. By a workgroup that owns the domain, with legal descriptors and room in
the controller's queue, each hands the values of its descriptors to the controller; FBPOP also leaves rd pending. FBMODE 0 needs
no ownership; FBMODE n by a TG that does not own the domain enters a claim and waits. That none shifts a latch when it issues is the
model's reading (log 33). -/
def Obligations.FireboxIssue : Prop :=
  ∀ (s : State) (d a b : BitVec 5),
    let D := vget s.tg.s d.toNat
    let A := vget s.tg.s a.toNat
    let B := vget s.tg.s b.toNat
    (∀ (code : Nat) (k : BitVec 2), code ∈ [0xB1, 0xB2, 0xB3, 0xB5, 0xB6] → fireboxGoes s [d, a, b] → descOk D = true → descOk A = true → descOk B = true →
      (code = 0xB6 → k.toNat ≤ 1) →
      ∃ t, exec (rowWord code k (.s d) (.s a) (.s b)) s = .next t ∧ fireboxSent s t code (if code = 0xB5 then 0 else k.toNat) D A B .zr none s.tg.quantum ∧ t.tg.unack = s.tg.unack)
    ∧ (∀ k : BitVec 2, fireboxGoes s [a, b] → descOk A = true → descOk B = true →
      ∃ t, exec (.fbcmp (.s a) (.s b) k) s = .next t ∧ fireboxSent s t 0xB4 k.toNat 0 A B .zr none s.tg.quantum ∧ t.tg.unack = s.tg.unack)
    ∧ (fireboxGoes s [d, a, b] → descOk D = true → descOk A = true → -64 ≤ B.toInt → B.toInt ≤ 64 →
      ∃ t, exec (.fbshf (.s d) (.s a) (.s b)) s = .next t ∧ fireboxSent s t 0xB8 0 D A B .zr none s.tg.quantum ∧ t.tg.unack = s.tg.unack)
    ∧ (fireboxGoes s [d, a] → descOk A = true →
      ∃ t, exec (.fbpop (.s d) (.s a)) s = .next t ∧ fireboxSent s t 0xB7 0 0 A 0 (.s d) (some ⟨.s d, 7, 0xFF, false⟩) s.tg.quantum ∧ t.tg.unack = s.tg.unack)
    ∧ (∀ (store : Bool) (k : BitVec 2), fireboxGoes s [d, a, b] → descOk D = true → descWidth D ≤ 8 * 2 ^ k.toNat → 1 ≤ columnCount B →
      firstColumn B + columnCount B ≤ columnsOf (waysAhead s.fb (wgOf s.tg.key)) → A.toNat % 2 ^ k.toNat = 0 →
      rangeFault s s.tg store A (columnCount B * 2 ^ k.toNat) = none → s.tg.acquiring = false →
      let s1 := cacheAll s (piecesOf A (columnCount B * 2 ^ k.toNat))
      let pas := (upTo (columnCount B)).map (fun i => (paOf s1 s.tg.core s.tg.ctx (A + BitVec.ofNat 64 (i * 2 ^ k.toNat))).getD 0)
      let s2 := sendHeldTo s1 (pas.map Place.mem)
      ∃ t, exec (if store then .fbst (.s d) (.s a) (.s b) k else .fbld (.s d) (.s a) (.s b) k) s = .next t
        ∧ fireboxSent s t (if store then 0xBA else 0xB9) k.toNat D A B .zr none s2.tg.quantum
        ∧ (store = false → t.tg.unack = s.tg.unack ∧ t.net = s2.net)
        ∧ (store = true → ∃ ms, t.net = s2.net ++ ms ∧ t.tg.unack = s.tg.unack + ms.length
            ∧ (∀ m ∈ ms, m.tg = s.tg.key ∧ ∃ j, m.ask = .engineOwn j) ∧ ∀ no, (∃ m ∈ ms, m.pa = no * 128) ↔ ∃ pa ∈ pas, lineOf pa = no))
    ∧ (s.tg.on = true → s.tg.guardPending = false → s.tg.active ≠ 0 → a.toNat < s.hdr.sregs → s.hdr.fbx = true → s.tg.pending (.s a) = false →
      s.tg.count .f < 255 → A.toNat ≤ 16 →
      (A = 0 ∨ s.fb.owner = some (wgOf s.tg.key) → s.fb.queue.length < 16 →
        ∃ t, exec (.fbmode (.s a)) s = .next t ∧ fireboxSent s t 0xB0 0 0 A 0 .zr none s.tg.quantum ∧ t.tg.unack = s.tg.unack)
      ∧ (A ≠ 0 → s.fb.owner ≠ some (wgOf s.tg.key) → s.fb.claims.contains s.tg.key = false →
        exec (.fbmode (.s a)) s = .next { waits s with fb := { s.fb with claims := s.fb.claims ++ [s.tg.key] } }))

/-- R241, R246: what an operation between rows makes of one column. The predicate masks every write but FBCMP's and FBSEL's; FBADD
and FBSUB leave the carry of their unsigned sum; no row outside the destination changes. FBSHF gives a column another column's value;
an element loaded into a column fills the destination's rows alone (R247). -/
def Obligations.FireboxColumns : Prop :=
  ∀ (o : FbOp) (c : Column), descOk o.d = true → descOk o.a = true → descOk o.b = true →
    let w := descWidth o.d
    let A := if o.sub / 2 % 2 = 1 then (rowInt true (descWidth o.a) (c.get o.a) % 2 ^ w).toNat else c.get o.a % 2 ^ w
    let B := if o.sub / 2 % 2 = 1 then (rowInt true (descWidth o.b) (c.get o.b) % 2 ^ w).toNat else c.get o.b % 2 ^ w
    let t := columnStep o c
    (o.code = 0xB1 → c.p = true →
      let sum := A + B + (if o.sub % 2 = 1 ∧ c.c = true then 1 else 0)
      t.get o.d = sum % 2 ^ w ∧ t.c = decide (2 ^ w ≤ sum) ∧ t.p = c.p)
    ∧ (o.code = 0xB2 → c.p = true →
      let sum := A + (2 ^ w - 1 - B) + (if o.sub % 2 = 1 ∧ c.c = false then 0 else 1)
      t.get o.d = sum % 2 ^ w ∧ t.c = decide (2 ^ w ≤ sum) ∧ t.p = c.p)
    ∧ (o.code = 0xB3 → c.p = true → t.c = c.c ∧ t.p = c.p ∧
      (let x := c.get o.a % 2 ^ w
       let y := c.get o.b % 2 ^ w
       t.get o.d = match o.sub with | 0 => x &&& y | 1 => x ||| y | 2 => x ^^^ y | _ => x &&& (2 ^ w - 1 - y)))
    ∧ (o.code = 0xB4 → t.rows = c.rows ∧ t.c = c.c ∧
      (let x := c.get o.a
       let y := c.get o.b
       t.p = match o.sub with
         | 0 => decide (x = y) | 1 => decide (x ≠ y)
         | 2 => decide (rowInt true (descWidth o.a) x < rowInt true (descWidth o.b) y) | _ => decide (x < y)))
    ∧ (o.code = 0xB5 → t.get o.d = (if c.p then c.get o.a else c.get o.b) % 2 ^ w ∧ t.c = c.c ∧ t.p = c.p)
    ∧ (o.code = 0xB6 → c.p = true → t.c = c.c ∧ t.p = c.p ∧
      (let f := fun x => rowInt (o.sub % 2 = 1) (descWidth x) (c.get x)
       (t.get o.d : Int) = f o.a * f o.b % 2 ^ w))
    ∧ (c.p = false → o.code ≠ 0xB4 → o.code ≠ 0xB5 → t = c)
    ∧ (o.code ≠ 0xB4 → ∀ r < 256, (r < descBase o.d ∨ descBase o.d + w ≤ r) → t.rows.getLsbD r = c.rows.getLsbD r)
    ∧ (∀ x : Column, c.p = true → (columnTake o c x).get o.d = x.get o.a % 2 ^ w ∧ (columnTake o c x).poison = x.poison
      ∧ (columnTake o c x).c = c.c ∧ (columnTake o c x).p = c.p)
    ∧ (∀ x : Column, c.p = false → columnTake o c x = c)
    ∧ (∀ v : Nat, (c.put o.d v).get o.d = v % 2 ^ w ∧ (c.put o.d v).c = c.c ∧ (c.put o.d v).p = c.p
      ∧ ∀ r < 256, (r < descBase o.d ∨ descBase o.d + w ≤ r) → (c.put o.d v).rows.getLsbD r = c.rows.getLsbD r)

/-! ### Work and context images -/

/-- R184, R362, R211, R286, R287, R193, R293: SPAWN, ARRV, BARC, BARR and BUDG when what they wait for holds. SPAWN hands its record
to the scheduler with rd pending; the barriers count arrivals and collect, with a release before and an acquire after, whatever the
guard; BUDG reads the budget and, above U, sets it. That a BARR entered anew counts its arrival again (the clauses with s1) is log 32
(DEDUCED); that BUDG's old value also enters b0 (pushLatch) is log 33 (DEDUCED). -/
def Obligations.WorkInstructions : Prop :=
  ∀ s : State, s.tg.on = true →
    (∀ n k : BitVec 5, s.tg.guardPending = false → s.tg.active ≠ 0 →
      n.toNat < s.hdr.sregs → k.toNat < s.hdr.sregs → s.tg.pending (.s n) = false → s.tg.pending (.s k) = false →
      recordTrap s s.tg (vget s.tg.s k.toNat) = none → s.tg.quantum = [] → s.tg.acquiring = false → released s 4 = true →
      let t := lowest s.tg.active
      let s1 := cachePage s s.tg.core s.tg.ctx (vget s.tg.s k.toNat)
      ∃ u, exec (.spawn (.s n) (.s k)) s = .next u ∧ u.mem = s1.mem ∧ u.wgs = s1.wgs ∧ (tablesQuiet s → u.mem = s.mem ∧ u.wgs = s.wgs)
        ∧ u.net = s.net
        ∧ u.spawnQ = s.spawnQ ++ [{ source := .tg s.tg.key s.tg.nextOp (.s n) ⟨s.tg.wid s.launch t, vget s.tg.spawns t⟩ s.det
                                    record := vget s.tg.s k.toNat, ctx := s.tg.ctx, priv := s.tg.priv, region := none }]
        ∧ u.tg = { nextWord (lost s1.tg) with
            ops := s.tg.ops ++ [{ id := s.tg.nextOp, path := none, pc := s.tg.pc, word := s.tg.word, sink := some ⟨.s n, 7, 0xFF, false⟩
                                  need := 1, got := [], load := false, done := false }]
            nextOp := s.tg.nextOp + 1, spawns := vset s.tg.spawns t (vget s.tg.spawns t + 1) })
    ∧ (∀ gang : Bool, s.tg.quantum = [] → s.tg.loadsIn = true → released s (if gang then 3 else 1) = true →
      exec (.arrv gang) s = .next (withTg s (nextWord (lost (arriveTg gang s.tg)))))
    ∧ (∀ gang : Bool,
      (othersArrived s gang = true → acquirable s = true →
        exec (.barc gang) s = .next (withTg (acquire s) (nextWord (lost (acquire s).tg))))
      ∧ (othersArrived s gang = false → exec (.barc gang) s = .next (waits s)))
    ∧ (s.tg.phase ≠ .arrived → s.tg.quantum = [] → s.tg.loadsIn = true → released s 1 = true →
      let s1 := withTg s { s.tg with arrA := s.tg.arrA + 1, phase := .arrived }
      (othersArrived s1 false = true → acquirable s1 = true →
        exec .barr s = .next (withTg (acquire s1) (nextWord (lost (acquire s1).tg))))
      ∧ (othersArrived s1 false = false → exec .barr s = .next (waits s1)))
    ∧ (s.tg.phase = .arrived → othersArrived s false = true → acquirable s = true →
      exec .barr s = .next (withTg (acquire s) (nextWord (lost (acquire s).tg))))
    ∧ (∀ d a : Opnd, s.tg.guardPending = false → s.tg.active ≠ 0 →
      sOperand s true d = true → sOperand s true a = true → s.tg.pending d = false → s.tg.pending a = false →
      let old := match s.wg.budget with | some n => BitVec.ofNat 64 n | none => BitVec.allOnes 64
      (a ≠ .zr → s.tg.priv = .u → exec (.budg d a) s = trap s { cause := 0x03, mask := s.tg.cm })
      ∧ (a = .zr → exec (.budg d a) s = .next (withTg s (nextWord (pushLatch (putS s.tg d old) old))))
      ∧ (a ≠ .zr → s.tg.priv ≠ .u → exec (.budg d a) s = .next
          { s with tg := nextWord (pushLatch (putS s.tg d old) old)
                   wgs := replaceFirst (myWg s) (fun w => { w with budget := some (readS s.tg a).toNat, expired := false }) s.wgs }))

/-- R300: the fields of a TG's context image at their offsets, with the launch's spawn number and the TG's identity, and its length.
R302: what an image restores; the floors only rise, and WCTmax too. -/
def Obligations.ContextImageLayout : Prop :=
  (∀ (l : Launch) (g : Tg) (m : Nat), m < 256 → l.hdr.vregs ≤ 64 → l.hdr.sregs ≤ 32 → g.stack.length ≤ 16 → g.wctMax < 2 ^ 64 →
     (∀ t < 8, (vget g.home t).1 < 2 ^ 13 ∧ (vget g.home t).2 < 8) →
     let b := contextImage l g m
     b.length = 1088 + 32 * l.hdr.vregs + 8 * l.hdr.sregs
       ∧ imageField b 0 4 = 0x43545856 ∧ imageField b 4 1 = l.hdr.vregs ∧ imageField b 5 1 = l.hdr.sregs ∧ imageField b 6 1 = m
       ∧ imageField b 7 1 = g.cm.toNat ∧ imageField b 8 8 = (g.pc + 4).toNat ∧ imageField b 0x10 8 = l.no % 2 ^ 48
       ∧ imageField b 0x18 8 = (tgIdentity l g).toNat ∧ imageField b 0x20 4 = g.gm.toNat % 2 ^ 24
       ∧ imageField b 0x24 1 = g.stack.length ∧ imageField b 0x25 1 = g.flags.toNat ∧ imageField b 0x26 1 = g.fptrap.toNat
       ∧ imageField b 0x27 1 = g.lease.toNat ∧ imageField b 0x28 8 = g.wctMax
       ∧ (∀ n < 8, imageField b (0x30 + n) 1 = (vget g.p n).toNat)
       ∧ (∀ t < 8, imageField b (0x40 + 2 * t) 2 = 8 * (vget g.home t).1 + (vget g.home t).2)
       ∧ (∀ n < 32, imageField b (0x340 + 4 * n) 4 = (vget g.floors n).toNat)
       ∧ (∀ t < 8, imageField b (0x3C0 + 8 * t) 8 = (vget g.rnd t).toNat)
       ∧ (∀ n < l.hdr.vregs, ∀ t < 8, imageField b (0x440 + 32 * n + 4 * t) 4 = (vget (vget g.v n) t).toNat)
       ∧ (∀ n < l.hdr.sregs, imageField b (0x440 + 32 * l.hdr.vregs + 8 * n) 8 = (vget g.s n).toNat)) ∧
  (∀ (h : Header) (g : Tg) (b : List Byte) (m : W64), h.vregs ≤ 64 → h.sregs ≤ 32 → b.length = 1088 + 32 * h.vregs + 8 * h.sregs →
     let r := restoreImage h g b m
     let k := imageField b 6 1
     r.pc.toNat = imageField b 8 8 ∧ r.gm.toNat % 2 ^ 24 = imageField b 0x20 3 ∧ r.gm.toNat / 2 ^ 24 = g.gm.toNat / 2 ^ 24
       ∧ r.cm = BitVec.ofNat 8 (imageField b 7 1) &&& g.live ∧ r.live = g.live ∧ r.bv = Vector.replicate 4 false
       ∧ r.flags.toNat = imageField b 0x25 1 ∧ r.wctMax = max g.wctMax (imageField b 0x28 8)
       ∧ r.fptrap = BitVec.ofNat 8 (imageField b 0x26 1) &&& 0x9F ∧ r.lease.toNat = imageField b 0x27 1 % 32
       ∧ (∀ n < 32, let x : W32 := BitVec.ofNat 32 (imageField b (0x340 + 4 * n) 4)
           vget r.floors n = if atOrAfter x (vget g.floors n) then x else vget g.floors n)
       ∧ r.stack.length = imageField b 0x24 1 ∧ r.key = g.key ∧ r.priv = g.priv ∧ r.home = g.home
       ∧ (∀ n < 8, (vget r.p n).toNat = imageField b (0x30 + n) 1)
       ∧ (∀ t < 8, (vget r.rnd t).toNat = imageField b (0x3C0 + 8 * t) 8)
       ∧ (∀ n < h.vregs, ∀ t < 8, (vget (vget r.v n) t).toNat = imageField b (0x440 + 32 * n + 4 * t) 4)
       ∧ (∀ n < h.sregs, vget r.s n = if k ≠ 68 ∧ n = k - 96 then m else BitVec.ofNat 64 (imageField b (0x440 + 32 * h.vregs + 8 * n) 8)))

/-- R301, R302: CTXSV and CTXLD of a settled TG on places that pass R97. CTXSV stores the image, in scratch when it issues (the model's
choice, log 7), and its marker's 0 enters b0 (log 33); CTXLD of an image that it may restore restores it, and one that it may not
raises Trap(0x13). -/
def Obligations.ContextImagesMove : Prop :=
  ∀ (s : State) (n : BitVec 5) (m : Opnd), s.tg.on = true → s.tg.guardPending = false → s.tg.active ≠ 0 → n.toNat < s.hdr.sregs →
    sOperand s true m = true → s.tg.pending (.s n) = false → s.tg.pending m = false → s.tg.quantum = [] → s.tg.acquiring = false → settled s.tg = true →
    let va := vget s.tg.s n.toNat
    (imageTrap s s.tg .write va = none → ∀ f : W64 → Target,
      let ps := imagePieces va (imageBytes s.hdr)
      (∀ p ∈ ps, checkAccess s s.tg .write p.2 1 p.1 = .ok (f p.1)) →
      let accs := ps.map (fun p => (⟨0, p.1, f p.1⟩ : Acc1))
      needOwn s accs = [] →
      let b := contextImage s.launch s.tg (match m with | .s k => 96 + k.toNat | _ => 68)
      let xs := accs.zip (mapFrom 0 (fun i (p : W64 × Nat) => (b.drop (64 * i)).take p.2) ps)
      let ms := storeMsgs s s.tg.nextOp 0 xs
      ∃ t, exec (.ctxsv m (.s n)) s = .next t ∧ (tablesQuiet s → t.mem = s.mem) ∧ t.net = s.net ++ ms
        ∧ (∀ w k, scratchByte t w k = byteAfter w k (scratchByte s w k) (storePuts s xs))
        ∧ t.tg.unack = s.tg.unack + ms.length ∧ t.tg.pc = s.tg.pc + 4 ∧ t.tg.v = s.tg.v ∧ t.tg.flags = s.tg.flags
        ∧ t.tg.s = (putS s.tg m 0).s ∧ vget t.tg.b 0 = Vector.replicate 8 0 ∧ t.tg.bv = #v[true, false, false, false])
    ∧ (imageTrap s s.tg .read va = none → ∀ (f : Nat → Target) (got : List Piece),
      let k := imageBytes s.hdr / 8
      (∀ i < k, checkAccess s s.tg .read 8 8 (va + BitVec.ofNat 64 (8 * i)) = .ok (f i)) →
      syncRead s 0 etU64 8 ((upTo k).map (fun i => ⟨i, va + BitVec.ofNat 64 (8 * i), f i⟩)) = .values got →
      (∀ p ∈ got, p.poison = false) →
      let b := (sortBy (fun (x y : Piece) => decide (x.t < y.t)) got).flatMap (fun p => natLe 8 p.data.toNat)
      (imageOk s.launch s.tg b = true →
        let g := restoreImage s.hdr s.tg b (readS s.tg m)
        (g.cm ≠ 0 → exec (.ctxld (.s n) m) s = .next (withTg s (over_ g)))
        ∧ (g.cm = 0 → exec (.ctxld (.s n) m) s = .next (settle (withTg s (over_ g)))))
      ∧ (imageOk s.launch s.tg b = false → exec (.ctxld (.s n) m) s = trap s { cause := 0x13, mask := s.tg.cm, va := va }))

/-- R373, R374: TLBI of one page or of the current context's translations above U, and of every translation at M: once the release
of scope device is complete the entries are gone from every TLB, and the TG goes on when nothing still uses them. At U, or for
the whole device below M, Trap(0x03). -/
def Obligations.TranslationsRemoved : Prop :=
  ∀ (s : State) (a : Opnd) (k : BitVec 2), s.tg.on = true → s.tg.guardPending = false → s.tg.active ≠ 0 → k ≠ 3 →
    let gone := fun (e : TlbEntry) => k = 2 ∨ (e.ctx = s.tg.ctx ∧ (k = 1 ∨ (e.va ≤ (readS s.tg a).toNat ∧ (readS s.tg a).toNat < e.va + e.size)))
    ((s.tg.priv = .u ∨ (k = 2 ∧ s.tg.priv = .s)) → exec (.tlbi a k) s = trap s { cause := 0x03, mask := s.tg.cm })
    ∧ (s.tg.priv ≠ .u → (k = 2 → s.tg.priv = .m) → (if k = 0 then sOperand s false a = true else a = .zr) → s.tg.pending a = false →
      (k = 0 → canonical (readS s.tg a) = true) → s.tg.quantum = [] → released s 4 = true →
      ∃ t, exec (.tlbi a k) s = .next t ∧ (∀ e, e ∈ t.tlb ↔ e ∈ s.tlb ∧ ¬ gone e)
        ∧ (translationsIdle s (k = 2) = true → t = { s with tlb := t.tlb, tg := nextWord (lost s.tg) })
        ∧ (translationsIdle s (k = 2) = false → t = { waits s with tlb := t.tlb }))

/-! ### Events: registers, host, scheduling -/

/-- R371, R372, R86, R108, R137, R147, R196, R207, R235, R269: a SYSW that has reached every core. The register holds the value that
was written, what the register's own rule asks for has happened, and the waiting TG is at its next word; a value that is refused
as things stand raises Trap(0x13). What SQLD reads when no unit has an image is the model's reading (log 49). -/
def Obligations.RegisterWritesArrive : Prop :=
  ∀ (s : State) (g : Tg) (w : RegWrite),
    let k := g.key
    s.findTg k = some g → g.on = true → g.sysw = some w → w.val &&& BitVec.ofNat 64 (writable w.num) = w.val →
    (s.findCtx g.ctx).isSome = true → (s.findWg k.launch k.gang k.wg).isSome = true →
    let s1 := s.focus k
    let g1 := nextWord (lost { g with sysw := none })
    let held := fun (u : State) => u.findTg k = some g1 ∧ (w.num, w.val) ∈ registerValues (u.focus k)
    let there := fun (u : State) => (w.num, w.val) ∈ registerValues (u.focus k) ∧
      ∃ h, u.findTg k = some h ∧ h.pc = g.pc + 4 ∧ h.sysw = none ∧ h.waiting = false ∧ h.v = g.v ∧ h.s = g.s
    (plainRegister w.num = true → valueRefused s1 w.num w.val = true →
      exec (.controlRegisterWrite k) s = trap s1 { cause := 0x13, mask := g.cm })
    ∧ (valueRefused s1 w.num w.val = false →
      (plainRegister w.num = true → ∃ u, exec (.controlRegisterWrite k) s = .next u ∧ u.mem = s.mem ∧ u.net = s.net
        ∧ (w.num ≠ 0x61 → held u)
        ∧ (w.num = 0x61 → u.findTg k = some g1 ∧ (u.ctxOf g.ctx).kindEn = w.val.getLsbD 0 ∧ (u.ctxOf g.ctx).dropped = w.val.toNat / 2 ^ 48))
      ∧ (0x100 ≤ w.num → w.num ≤ 0x17F →
        let p := windowsOf s w
        let ls := windowLines s p.1 ++ windowLines s p.2
        ls.any (engineOwned s) = false →
        ∃ u, exec (.formatWindowWrite k) s = .next u ∧ there u ∧ ∀ no ∈ ls, (u.line no).resident = false ∧ (u.line no).tag = none)
      ∧ (0x74 ≤ w.num → w.num ≤ 0x77 → s.net.any (fun m => m.forStash s1.wg (w.num - 0x74)) = false →
        ∃ u, exec (.stashWindowWrite k) s = .next u ∧ there u
          ∧ ∀ x ∈ (u.focus k).wg.stash, x.win ≠ w.num - 0x74)
      ∧ (w.num = 0x20 → exec (.ctxidWrite k) s = .next (withTg s1 { g1 with ctx := w.val.toNat }))
      ∧ (w.num = 0x50 → ∃ u, exec (.rrtabWrite k) s = .next u ∧ held u ∧ (u.ctxOf g.ctx).rr = [] ∧ u.mem = s.mem)
      ∧ (w.num = 0x51 → ∃ u, exec (.ertabWrite k) s = .next u ∧ held u ∧ (u.ctxOf g.ctx).er = [] ∧ u.mem = s.mem)
      ∧ (w.num = 0x81 → exec (.errcntWrite k) s = .next { withTg s1 g1 with dev := { s.dev with unc := 0, cor := 0 } }))
    ∧ (w.num = 0x90 → w.val.getLsbD 0 = false →
      let pa := sqldPa w.val
      let n := min (64 + recNat (latestBytes s1 pa 64) 8 4 + recNat (latestBytes s1 pa 64) 0xC 4) 131072
      let s2 := arriveRange s1 pa n
      rangeReady s1 pa n = true →
      (∀ i, imageAt s2 s1.tg.ctx pa (sqldUnit w.val) = some i →
        ∃ u, exec (.sqldImageLoad k) s = .next u ∧ there u ∧ (u.ctxOf g.ctx).images.find? (fun x => x.unit = sqldUnit w.val) = some i)
      ∧ (imageAt s2 s1.tg.ctx pa (sqldUnit w.val) = none →
        exec (.sqldImageLoad k) s = trap s2 { cause := 0x13, mask := s2.tg.cm }))
    ∧ (w.num = 0x90 → w.val.getLsbD 0 = true →
      ∃ u, exec (.sqldBaselineRestore k) s = .next u ∧ u.findTg k = some g1 ∧ u.mem = s.mem
        ∧ (∀ x, x ∈ (u.ctxOf g.ctx).images ↔ x ∈ (s.ctxOf g.ctx).images ∧ x.unit ≠ sqldUnit w.val)
        ∧ (u.ctxOf g.ctx).sqld = if (u.ctxOf g.ctx).images = [] then 0 else w.val)

/-- R195, R196, R208, R272: the host command path. The next entry of a live context's ring is handed to the scheduler; a context
command changes the context that it names, or is answered with its status; a quote spends one leaf of the identity key. -/
def Obligations.HostCommands : Prop :=
  ∀ (s s1 : State) (e : RingEntry),
    (∀ c, c ≠ 0 → dispatching s = true → ringNext s c = (s1, some e) →
      ((s.ctxOf c).state = .live → (s1.ctxOf c).state = .live → recordUsable s1 c e.addr = true →
        exec (.hostRingEntry c) s = .next { s1 with
          spawnQ := s1.spawnQ ++ [{ source := .ring c e.slot, record := e.addr, ctx := c, priv := .m, region := none }] })
      ∧ ((s.ctxOf c).state = .closing → (s1.ctxOf c).state = .closing → exec (.hostRingEntry c) s = .next (answerRing s1 c e.slot 0x0A)))
    ∧ (nextCommand s = (s1, some (e, none)) → exec (.hostRingEntry 0) s = .next (answerRing s1 0 e.slot 1))
    ∧ (∀ x : Command, nextCommand s = (s1, some (e, some x)) →
      (x.op = 1 → (s1.ctxOf x.n).state = .free → ∃ u, exec .contextCreate s = .next u
        ∧ (let c := u.ctxOf x.n
           c.state = .live ∧ c.ptroot = x.a ∧ c.tvec = x.b ∧ c.ctxcap = x.c ∧ c.rrtab = 0 ∧ c.ertab = 0 ∧ c.images = []))
      ∧ (x.op = 1 → (s1.ctxOf x.n).state ≠ .free → exec .contextCreate s = .next (answerRing s1 0 e.slot 2))
      ∧ (x.op = 2 → (s1.ctxOf x.n).state = .live → ∃ u, exec .contextDestroy s = .next u ∧ (u.ctxOf x.n).state = .closing)
      ∧ (x.op = 2 → (s1.ctxOf x.n).state ≠ .live → exec .contextDestroy s = .next (answerRing s1 0 e.slot 2))
      ∧ (x.op = 3 → s1.dev.nextLeaf < 32768 → s1.dev.keyErased = false →
        ∃ u, exec .attestationQuote s = .next u ∧ u.dev.nextLeaf = s1.dev.nextLeaf + 1)
      ∧ (x.op = 3 → 32768 ≤ s1.dev.nextLeaf ∨ s1.dev.keyErased = true → exec .attestationQuote s = .next (answerRing s1 0 e.slot 3)))
    ∧ (∀ c, dispatching s = true → (s.ctxOf c).state = .closing → ctxQuiet s c = true →
      ∃ u, exec (.contextFree c) s = .next u ∧ (u.ctxOf c).state = .free ∧ ∀ x, x ∈ u.tlb ↔ x ∈ s.tlb ∧ x.ctx ≠ c)

/-- R184, R185, R186: the scheduler answers the first slice handed to it: a refusal gives its code in rd and in the record, an acceptance
the next spawn number and a cleared record. A slice whose gangs have ended closes its windows, then gets bytes 0x70 to 0x7F of its record
(state and killed, status, the status's work identifier), with its latest WCT as their floor, and leaves the device when that is performed. -/
def Obligations.SlicesAnswered : Prop :=
  ∀ (s : State),
    let recordGets := fun (s u : State) (c : Nat) (va : W64) (data : List Byte) (floor : Nat) =>
      let s1 := walkTo s noCore c (va + 0x70)
      ∀ pa, paOf s1 noCore c (va + 0x70) = some pa → pa % 128 = 0x70 → s.orphaned (lineOf pa) = false →
        let s2 := arriveRange s1 pa data.length
        writeTaken s2 u (lineOf pa) (writeTime s2 (lineOf pa) floor false) pa data noKey
    (∀ (r : SpawnReq) (rs : List SpawnReq) (k : TgKey) (op : Nat) (n : BitVec 5) (key : Key) (s1 : State) (g : Tg),
      s.spawnQ = r :: rs → r.source = .tg k op (.s n) key false → s1.findTg k = some g →
      (∀ c a, checkSlice s r.ctx r.priv r.record = (s1, .code c, a) →
        ∃ u h, exec .spawnAnswer s = .next u ∧ u.spawnQ = rs ∧ u.launches = s1.launches
          ∧ u.findTg k = some h ∧ vget h.s n.toNat = BitVec.ofNat 64 c
          ∧ recordGets { s1 with spawnQ := rs } u r.ctx r.record (natLe 4 (c * 256 + 3)) 0)
      ∧ (∀ l a, checkSlice s r.ctx r.priv r.record = (s1, .slice l, a) →
        ∃ u h, exec .spawnAnswer s = .next u ∧ u.spawnQ = rs ∧ u.dev.nextSpawn = s1.dev.nextSpawn + 1
          ∧ (∃ x, u.launches = s1.launches ++ [x] ∧ x.no = s1.dev.nextSpawn ∧ x.record = l.record ∧ x.hdr = l.hdr)
          ∧ u.findTg k = some h ∧ vget h.s n.toNat = BitVec.ofNat 64 (s1.dev.nextSpawn % 2 ^ 48 * 2 ^ 16)
          ∧ recordGets { s1 with spawnQ := rs } u r.ctx r.record (natLe 16 0) 0))
    ∧ (∀ (n : Nat) (l : Launch), s.findLaunch n = some l → l.done = false → allEnded s l = true → drawReleased s l = true →
      (l.endAt = none → heldLines s n ≠ [] → (∀ h ∈ s.heldHob, 0 < h.a.size) → ∃ u x, exec (.sliceCompletion n) s = .next u
        ∧ heldLines u n = [] ∧ u.findLaunch n = some x ∧ x.endAt = none)
      ∧ (l.endAt = none → heldLines s n = [] → s.gt < l.wct → exec (.sliceCompletion n) s = .next s)
      ∧ (l.endAt = none → heldLines s n = [] → l.wct ≤ s.gt → l.written = true → (paOf s noCore l.ctx l.record).all s.reachable = true →
        let b := completionBytes l
        b.length = 16 ∧ recNat b 0 4 = 1 + (if l.killed then 4 else 0)
        ∧ recNat b 4 4 = (match l.status with | some x => x.1.toNat | none => 0)
        ∧ recNat b 8 8 = (match l.status with | some x => x.2.toNat | none => 2 ^ 64 - 1)
        ∧ ∃ u x t, exec (.sliceCompletion n) s = .next u ∧ u.findLaunch n = some x ∧ x.endAt = some t ∧ x.done = false
          ∧ recordGets s u l.ctx l.record b l.wct
          ∧ (∀ pa, paOf (walkTo s noCore l.ctx (l.record + 0x70)) noCore l.ctx (l.record + 0x70) = some pa → s.orphaned (lineOf pa) = false →
            l.wct ≤ t ∧ (pa % 128 = 0x70 → t = writeTime (arriveRange (walkTo s noCore l.ctx (l.record + 0x70)) pa 16) (lineOf pa) l.wct false)))
      ∧ (∀ t, l.endAt = some t → t ≤ s.gt → l.draw = none → ∃ u, exec (.sliceCompletion n) s = .next u
          ∧ (∀ x ∈ u.launches, x.no ≠ n) ∧ ∀ x ∈ u.gangs, x.launch ≠ n)
      ∧ (∀ t, l.endAt = some t → s.gt < t → exec (.sliceCompletion n) s = .next s))

/-- R187-R192, R203, R205, R250, R17, R20, R28, R142, R311: placement, quantum ends, pre-emption, restore, migration, budgets, switch points
and the end of a workgroup. What counts as room in total, and that a migration leaves the cluster of the last placement as it was, are
the model's choices (log 62); the floor of a TG where its core has no view is the home's counter (log 25). -/
def Obligations.SchedulingActs : Prop :=
  ∀ (s : State),
    (∀ o p, firstFit s = some (o, p) → o.saved = false → ∃ u, exec .gangPlacement s = .next u ∧ (tablesQuiet s → u.mem = s.mem ∧ u.tg = s.tg)
      ∧ u.dev.lastCluster = some p.cluster
      ∧ (∃ x ∈ u.gangs, x.launch = o.launch.no ∧ x.no = o.gang ∧ x.state = .resident ∧ x.cluster = p.cluster)
      ∧ (∀ w < o.launch.hdr.gx * o.launch.hdr.gy, ∀ k < o.launch.hdr.tgs, ∃ g ∈ u.rest, g.key = ⟨o.launch.no, o.gang, w, k⟩
          ∧ g.pc = BitVec.ofNat 64 o.launch.hdr.code ∧ g.cm = g.live ∧ g.stack = [] ∧ g.priv = o.launch.priv
          ∧ (∀ t < 8, bitOf g.live t = decide (ordinal o.launch.hdr o.gang w k t < o.launch.count))
          ∧ g.core = coreAt o.launch.hdr p.cluster p.ox p.oy w
          ∧ ∀ n < 32, vget g.floors n = viewOf u g.core o.launch.ctx n))
    ∧ (let q := s.dev.quant.toNat
       0 < q → s.dev.lastQuantum < s.gt / q * q → ∃ u, exec .quantumEnd s = .next u ∧ u.dev.lastQuantum = s.gt / q * q
         ∧ (∀ k g, u.findTg k = some g → g.quantum = [])
         ∧ ∀ g ∈ u.allTgs, (∃ x ∈ u.lanes, x.2.2 = g.key) → g.turnDue = true)
    ∧ (∀ l g x, s.findGang l g = some x → x.state = .stopping ∨ x.state = .spilling →
      (ownsFirebox s x = true → ∃ u y, exec (.preemption l g) s = .next u ∧ u.findGang l g = some y ∧ y.state = .resident)
      ∧ (ownsFirebox s x = false → (∀ y ∈ gangTgs s l g, y.quantum = []) →
        (gangDrained s l g = false → exec (.preemption l g) s = .next s)
        ∧ (gangDrained s l g = true → x.state = .stopping → ∃ u y, exec (.preemption l g) s = .next u ∧ u.findGang l g = some y ∧ y.state = .spilling)
        ∧ (∀ s1, gangDrained s l g = true → x.state = .spilling → settleGang s l g = (s1, true) → gangDrained s1 l g = true →
          ∃ u y, exec (.preemption l g) s = .next u ∧ u.findGang l g = some y ∧ y.state = .saved
            ∧ ∀ z ∈ u.lanes, ¬ (z.2.2.launch = l ∧ z.2.2.gang = g))))
    ∧ (∀ l g x, s.findGang l g = some x →
      (∀ o p, x.state ≠ .loading → firstFit s = some (o, p) → o.saved = true → o.launch.no = l → o.gang = g →
        ∃ u y, exec (.restore l g) s = .next u ∧ u.findGang l g = some y ∧ y.state = .loading ∧ y.cluster = p.cluster
          ∧ ((∀ w ∈ gangWgs s l g, ∀ z ∈ w.stash, z.owned = false) → u.mem = s.mem)
          ∧ ∀ z ∈ gangTgs u l g, z.core = coreAt o.launch.hdr p.cluster p.ox p.oy z.key.wg)
      ∧ (x.state = .loading → restoreReady s l g = false → exec (.restore l g) s = .next s)
      ∧ (x.state = .loading → restoreReady s l g = true → ∃ u y, exec (.restore l g) s = .next u ∧ u.mem = s.mem ∧ u.allTgs = s.allTgs
        ∧ u.findGang l g = some y ∧ y.state = .resident))
    ∧ (∀ l g x o p, s.findGang l g = some x → (offers s).head? = some o → x.state = .resident → ownsFirebox s x = false →
      (findSpot s [] o.launch.hdr).isNone = true → roomInTotal s o.launch.hdr x.cluster = true → gangDrained s l g = true →
      clusterSpot s [(l, g)] (s.launchOf l).hdr x.cluster (some (x.ox, x.oy)) = some p → (settleGang (runGang s l g) l g).2 = true →
      ∃ u y, exec (.migration l g) s = .next u ∧ u.findGang l g = some y ∧ y.state = .loading ∧ y.cluster = p.cluster ∧ y.ox = p.ox ∧ y.oy = p.oy
        ∧ u.dev.lastCluster = s.dev.lastCluster)
    ∧ (∀ l g wg w, s.findWg l g wg = some w → w.overBudget = true →
      ∃ u, exec (.budgetExpiry l g wg) s = .next u ∧ u.mem = s.mem
        ∧ ∀ x ∈ u.allTgs, x.on = true → x.key.launch = l → x.key.gang = g → x.key.wg = wg → x.budgetTrap = true)
    ∧ (∀ t, step s = .next t → ∀ w ∈ t.wgs, w.overBudget = false)
    ∧ (∀ core ln g, laneTg s core ln = some g → atBoundary g = true →
      (∃ y ∈ s.allTgs, y.core = core ∧ y.key.tg % 32 = ln ∧ y.key ≠ g.key ∧ canIssue s y = true ∧ 256 ≤ y.readyFor) →
      exec (.ageCap core ln) s = .next { s with lanes := s.lanes.filter (fun y => !(y.1 = core && y.2.1 = ln)) }
        ∧ (g.keepLane = false → pick s core ln = (bestOf (chosenBefore s core) (laneChoices s core ln)).map (fun y => y.key)))
    ∧ (∀ core ln g, laneTg s core ln = some g → atBoundary g = true → g.turnDue = true → g.keepLane = false →
      pick s core ln = (bestOf (chosenBefore s core) (laneChoices s core ln)).map (fun y => y.key))
    ∧ (∀ l g wg w, s.findWg l g wg = some w → w.ended = false → wgOver s l g wg = true →
      ∃ u, exec (.workgroupEnd l g wg) s = .next u ∧ (∀ x ∈ u.allTgs, x.key = noKey ∨ ¬ (x.key.launch = l ∧ x.key.gang = g ∧ x.key.wg = wg))
        ∧ (s.fb.owner = some (l, g, wg) → u.fb.owner = none) ∧ ∀ x, u.findWg l g wg = some x → x.ended = true)

/-! ### Events: memory -/

/-- R110, R119, R115, R133, R134, R123, R132, R140, R281, R102: what the homes do with the messages that reach them. A fill is answered
when nothing holds it; a write or an atomic is accepted at a WCT and acknowledged; an atomic at a poisoned line changes nothing and
reports the poison, with GT as its WCT (log 59). A replicated commit locks the line until its WCT, when its copies, whose bytes the model
keeps once (log 9), hold the new bytes. -/
def Obligations.HomesServe : Prop :=
  ∀ (s : State) (k : Nat) (m : Msg), served s k = some m →
    let no := lineOf m.pa
    let came := fun (n : Nat) => arriveAt (applyDue (s.dropMsg k) no) m.pa n
    (∀ size f, m.ask = .fill size f → f.keep = true →
      let s1 := reach s no
      (fillHeld s1 no = true → exec (.homeFill k) s = .next s1)
      ∧ (fillHeld s1 no = false → ∃ u, exec (.homeFill k) s = .next u ∧ u.net = dropAt s.net k
        ∧ (u.line no).lease = (if f.nc then (s1.line no).lease else max (s1.line no).lease (s.gt + 2 ^ f.lg))
        ∧ (∃ c ∈ u.l1, c.core = m.core ∧ c.line = no ∧ c.data = memBytes s1.mem (no * 128) 128 ∧ c.expiry = s.gt + 2 ^ f.lg ∧ c.nc = f.nc
            ∧ c.region = f.region ∧ c.round = f.round ∧ c.version = (s1.line no).version ∧ c.poison = s1.poisoned no m.rep)
        ∧ valueCame s u m (memBytes u.mem m.pa size) (s1.poisoned no m.rep) s.gt))
    ∧ (∀ data floor nc counted, m.ask = .write data floor nc counted → m.rep = false → s.orphaned no = false →
      let s1 := came data.length
      let t := writeTime s1 no floor nc
      ∃ u, exec (.homeWriteAccept k) s = .next u ∧ u.net = dropAt s.net k ∧ writeTaken s1 u no t m.pa data m.tg
        ∧ acked s u m t counted true false)
    ∧ (∀ ops floor back nc a, m.ask = .atomic ops floor back nc → ops.head? = some a → m.rep = false → s.orphaned no = false →
      let s1 := came a.size
      let old := latestNat s1 m.pa a.size
      let t := writeTime s1 no floor nc
      (s1.poisoned no false = false → ∃ u, exec (.homeWriteAccept k) s = .next u ∧ u.net = dropAt s.net k
        ∧ writeTaken s1 u no t m.pa (natLe a.size (applyAll ops old)) m.tg ∧ acked s u m t true (!back) false
        ∧ (back = true → valueCame s u m (natLe a.size old) false (pendTime (s1.line no))))
      ∧ (s1.poisoned no false = true → ∃ u, exec (.homeWriteAccept k) s = .next u ∧ u.net = dropAt s.net k
        ∧ u.mem = s1.mem ∧ u.lines = s1.lines ∧ acked s u m s.gt true (!back) (!back)
        ∧ (back = true → valueCame s u m (natLe a.size old) true (pendTime (s1.line no)))))
    ∧ (∀ region floor, m.ask = .radv region floor → m.rep = false → s.orphaned no = false →
      let s1 := arriveAt (applyDue (s.dropMsg k) no) (no * 128) 128
      let t := writeTime s1 no floor false
      let x := latestNat s1 m.pa 4 + 1
      ∃ u, exec (.homeWriteAccept k) s = .next u ∧ writeTaken s1 u no t m.pa (natLe 4 x) m.tg ∧ acked s u m t true false false
        ∧ u.news = s.news ++ [⟨m.ctx, region, m.pa, BitVec.ofNat 32 x, t, []⟩])
    ∧ (∀ job, m.ask = .engineOwn job → m.rep = false → ownTurn s m job = true →
      let s1 := arriveAt (applyDue (s.dropMsg k) no) (no * 128) 128
      let t := writeTime s1 no 0 false
      ∃ u, exec (.homeWriteAccept k) s = .next u ∧ u.mem = s1.mem ∧ (u.line no).owner = some (.engine job) ∧ (u.line no).wct = t
        ∧ acked s u m t true false false)
    ∧ (acceptable s m = true → m.rep = true → s.orphaned no = false → ∃ u, exec (.replicatedCommit k) s = .next u
      ∧ (let t := (acceptMsg (s.dropMsg k) m).2
         s.gt < t → (u.line no).locked ≠ none))
    ∧ (∀ data floor nc counted, m.ask = .write data floor nc counted → m.rep = true → s.orphaned no = false →
      let s1 := came data.length
      let t := writeTime s1 no floor nc
      ∃ u, exec (.replicatedCommit k) s = .next u ∧ u.net = dropAt s.net k ∧ writeTaken s1 u no t m.pa data m.tg ∧ acked s u m t counted true false
        ∧ (s.gt < t → (u.line no).locked ≠ none ∧ fillHeld u no = true
          ∧ (let v := applyDue { u with gt := t } no
             (∀ i < data.length, memGet v.mem (m.pa + i) = byteAt data i) ∧ (v.line no).replicas = (u.line no).replicas
               ∧ ((∀ p ∈ (u.line no).pend, p.wct ≤ t) → (v.line no).locked = none))))
    ∧ (∀ a old new version, m.ask = .spec a old new version → s.orphaned no = false →
      let s1 := came a.size
      let now := latestNat s1 m.pa a.size
      let t := writeTime s1 no 0 false
      (s1.poisoned no false = false → ∃ u, exec (.speculativeValidation k) s = .next u
        ∧ ((s1.line no).version = version → writeTaken s1 u no t m.pa (natLe a.size new.toNat) m.tg
            ∧ valueCame s u m (natLe a.size old.toNat) false (pendTime (s1.line no)))
        ∧ ((s1.line no).version ≠ version → writeTaken s1 u no t m.pa (natLe a.size (a.apply now)) m.tg
            ∧ valueCame s u m (natLe a.size now) false (pendTime (s1.line no)))
        ∧ acked s u m t true false false)
      ∧ (s1.poisoned no false = true → ∃ u, exec (.speculativeValidation k) s = .next u ∧ u.mem = s1.mem ∧ u.lines = s1.lines
        ∧ valueCame s u m (natLe a.size now) true (pendTime (s1.line no)) ∧ acked s u m s.gt true false false))

/-- R122, R113, R244: the write completion time: not before GT, the line's unexpired lease, its last WCT, the writer's floor and its
set's lease floor; GT for a non-coherent line, whatever the floor. At the WCT the bytes are the value, in order of acceptance, and no
byte outside them changes. -/
def Obligations.WritesComplete : Prop :=
  ∀ (s : State) (no floor : Nat),
    writeTime s no floor true = s.gt
    ∧ (let t := writeTime s no floor false
       s.gt ≤ t ∧ floor ≤ t ∧ (s.line no).wct ≤ t ∧ setFloor s no ≤ t ∧ (s.gt < (s.line no).lease → (s.line no).lease ≤ t)
        ∧ (t = s.gt ∨ t = floor ∨ t = (s.line no).wct ∨ t = setFloor s no ∨ t = (s.line no).lease))
    ∧ (let l := s.line no
       let due := l.due s.gt
       let u := applyDue s no
       (u.line no).pend = l.pend.filter (fun p => !decide (p.wct ≤ s.gt))
        ∧ (∀ a, memGet u.mem a = due.foldl (fun b (p : Pend) => if p.pa ≤ a ∧ a < p.pa + p.data.length then byteAt p.data (a - p.pa) else b) (memGet s.mem a))
        ∧ (Memory.wf s.mem = true → Memory.wf u.mem = true))
    ∧ ∃ u, exec .writeCompletionTime s = .next u ∧ ∀ no' p, p ∈ (u.line no').pend → s.gt < p.wct

/-- R114, R115, R123, R133, R134, R138, R140, R102, R43, R181: what comes back to the cores. An acknowledgement lowers the counts it answers
and raises WCTmax; returned values are written and their register is no longer pending; SPCFG's
descriptor becomes the stream; a core's view of a round moves forward only (which views a new value moves: log 54); a
replica lock's timeout counts from the lock (log 43). That poison met by an
atomic without a result sets pz when its acknowledgement comes is the model's reading (log 59). -/
def Obligations.AnswersArrive : Prop :=
  ∀ s : State,
    (∀ k a g, s.acks[k]? = some a → s.findTg a.tg = some g →
      (a.bad = none → (∀ o ∈ g.ops, o.mark = true → piecePoison o.got = 0) → ∃ u h, exec (.writeAcknowledgement k) s = .next u ∧ u.mem = s.mem
        ∧ u.acks = dropAt s.acks k ∧ u.findTg a.tg = some h ∧ h.wctMax = max g.wctMax a.wct
        ∧ h.unack = (if a.counted then g.unack - 1 else g.unack) ∧ h.v = g.v ∧ h.s = g.s ∧ h.pc = g.pc ∧ h.flags = g.flags
        ∧ (∀ l, s.findLaunch a.tg.launch = some l → ∃ x, u.findLaunch a.tg.launch = some x ∧ x.wct = max l.wct a.wct))
      ∧ (∀ t o, a.bad = some t → t < 8 → a.retires = true → g.ops.find? (fun x => x.id = a.op) = some o → o.need = 1 → o.mark = true →
        g.fptrap.getLsbD 7 = false → ∃ u h, exec (.writeAcknowledgement k) s = .next u ∧ u.mem = s.mem ∧ u.findTg a.tg = some h
          ∧ h.flags = g.flags ||| flagPz ∧ h.v = g.v ∧ h.s = g.s ∧ h.pc = g.pc)
      ∧ (∀ o, a.bad = none → a.retires = true → g.ops.find? (fun x => x.id = a.op) = some o → 1 < o.need →
        ∃ u h y, exec (.writeAcknowledgement k) s = .next u ∧ u.findTg a.tg = some h ∧ h.ops.find? (fun x => x.id = a.op) = some y
          ∧ y.need = o.need - 1 ∧ y.near = if a.near then o.near - 1 else o.near))
    ∧ (∀ (k : TgKey) (g : Tg) (o : Op) (z : Sink), s.findTg k = some g → g.ops.find? (fun x => x.id = o.id) = some o → o.sink = some z →
      o.complete s.gt = true → o.sync = none → o.conf = none → o.all = false → (isVReg z.d || isSReg z.d) = true →
      (∀ p ∈ o.got, bitOf z.mask p.t = true) → (∀ x ∈ g.ops, x.moved ≠ some (k.tg, o.id)) →
      (if isSReg z.d then piecePoison o.got else piecePoison o.got &&& g.live) = 0 →
      ∃ u h, exec (.loadValueReturn k o.id) s = .next u ∧ u.mem = s.mem ∧ u.net = s.net ∧ u.wgs = s.wgs ∧ u.findTg k = some h
        ∧ h.flags = g.flags ∧ h.pc = g.pc ∧ h.p = g.p
        ∧ (g.ops.filter (fun x => !x.done && (x.sink.any (fun y => y.covers z.d))) = [o] → h.pending z.d = false)
        ∧ (let got := sortBy (fun (a b : Piece) => decide (a.t < b.t)) o.got
           let bits := etContainer z.et.toNat
           (∀ n < 64, ∀ t < 8, vget (vget h.v n) t = loadedV g z.d bits got.reverse n t)
            ∧ (∀ n < 32, vget h.s n = loadedS g z.d bits (etSext z.et.toNat) got n)))
    ∧ (∀ (k : TgKey) (g : Tg) (o : Op) (n : Nat) (va : W64) (z : Stream), s.findTg k = some g → g.ops.find? (fun x => x.id = o.id) = some o →
      o.conf = some (n, va) → o.sync = none → o.complete s.gt = true → piecePoison o.got = 0 → n < 8 →
      streamOf (natLe 16 (vget (pieceVector o.got) 0).toNat ++ natLe 16 (vget (pieceVector o.got) 1).toNat) = .ok z →
      ∃ u h, exec (.loadValueReturn k o.id) s = .next u ∧ u.mem = s.mem ∧ u.net = s.net ∧ u.findTg k = some h
        ∧ h.sp = vset g.sp n (some z) ∧ z.pos = 0 ∧ h.v = g.v ∧ h.s = g.s ∧ h.p = g.p ∧ h.pc = g.pc ∧ h.flags = g.flags)
    ∧ (∀ core k n, s.news[k]? = some n → n.wct ≤ s.gt → n.seen.contains core = false → ∃ u, exec (.roundViewUpdate core k) s = .next u ∧ u.mem = s.mem
      ∧ u.views = s.views.map (fun v => if v.core = core ∧ newsFor s n v = true ∧ atOrAfter n.val v.val = true then { v with val := n.val } else v))
    ∧ (∀ k m t, s.net[k]? = some m → (s.line (lineOf m.pa)).locked = some t → m.rep = true → t + 2000 ≤ s.gt → (∃ size f, m.ask = .fill size f) →
      exec (.replicaLockTimeout k) s = .next { s with net := s.net.set k { m with rep := false } })
    ∧ (∀ core ctx va, canonical va = true → regionOf va = .translated → (∃ g ∈ s.allTgs, g.on = true ∧ g.core = core ∧ g.ctx = ctx) →
      ∃ u, exec (.pageWalk core ctx va) s = .next u ∧ (tablesQuiet s → u.mem = s.mem) ∧ (∀ e ∈ s.tlb, e ∈ u.tlb)
        ∧ ∀ x, walk (reachTables s ctx va) ctx va = .ok x → ∃ e ∈ u.tlb, e.hits core ctx va = true)
    ∧ (∀ k g, s.findTg k = some g → ∃ u, exec (.slowPathCompletion k) s = .next u ∧ u.mem = s.mem ∧ u.findTg k = some { g with slow := false })

/-- R107, R132, R178-R180, R151-R158, R317: stash lines, hob updates and embers at their homes. A recall brings the owner's dirty bytes
back; a window that closes applies what it holds, in key order. An update or contribution discarded at a poisoned line is acknowledged with
GT (log 59). -/
def Obligations.UnitsAtHome : Prop :=
  ∀ (s : State),
    (∀ k m, served s k = some m →
      let no := lineOf m.pa
      let s1 := reach s no
      (∀ l g w win idx f x, m.ask = .stashFill l g w win idx f → s.findWg l g w = some x → x.stash.any (fun z => z.is win idx && z.owned) = false →
        fillHeld s1 no = false → ∃ u y, exec (.stashFill k) s = .next u ∧ u.findWg l g w = some y
          ∧ (∃ z ∈ y.stash, z.win = win ∧ z.idx = idx ∧ z.pa = no ∧ z.owned = false ∧ z.expiry = s.gt + 2 ^ f.lg ∧ z.dirty = 0
              ∧ z.region = f.region ∧ z.round = f.round)
          ∧ (∀ i < 128, memGet y.scratch (stashOffset y win idx + i) = memGet u.mem (no * 128 + i)))
      ∧ (∀ l g w win idx cited f, m.ask = .stashOwn l g w win idx cited f → ∃ u, exec (.stashUpgrade k) s = .next u ∧ u.mem = s1.mem
          ∧ (let t := writeTime s1 no 0 false
             u.net = s.net.set k { m with ask := .stashGrant l g w win idx t f } ∧ (u.line no).wct = t
              ∧ (u.line no).pend = (s1.line no).pend ++ [⟨t, no * 128, [], m.tg⟩]))
      ∧ (∀ l g w win idx t f x, m.ask = .stashGrant l g w win idx t f → s.findWg l g w = some x →
        (s.gt < t → exec (.stashUpgrade k) s = .next s1)
        ∧ (t ≤ s.gt → (s1.line no).pend = [] →
        ∃ u y, exec (.stashUpgrade k) s = .next u ∧ u.findWg l g w = some y ∧ (u.line no).owner = some (.stash l g w)
          ∧ acked s u m t true false false ∧ ∃ z ∈ y.stash, z.win = win ∧ z.idx = idx ∧ z.pa = no ∧ z.owned = true ∧ z.dirty = 0))
      ∧ (∀ c r region key, let s2 := contributionArrives (s.dropMsg k) no
        (m.ask = .ember c r region key true → ∃ u, exec (.emberContributionApply k) s = .next u ∧ u.mem = s2.mem ∧ u.lines = s2.lines
          ∧ u.heldEmber = s.heldEmber ++ [⟨m.tg.launch, m.pa, c, r, region, key⟩] ∧ acked s u m s.gt true true false)
        ∧ (m.ask = .ember c r region key false → s.orphaned no = false → s2.poisoned no false = false →
          ∃ u, exec (.emberContributionApply k) s = .next u
            ∧ (let t := writeTime s2 no 0 false
               let x := EmberWord.apply (.ofBytes (latestBytes s2 m.pa 16)) region.k r c
               writeTaken s2 u no t m.pa x.bytes m.tg ∧ acked s u m t true true false))
        ∧ (m.ask = .ember c r region key false → s2.poisoned no false = true → ∃ u, exec (.emberContributionApply k) s = .next u
            ∧ u.mem = s2.mem ∧ u.lines = s2.lines ∧ acked s u m s.gt true true false))
      ∧ (∀ r n region va key det, m.ask = .eld r n region va key det →
        let s2 := arriveAt (applyDue (s.dropMsg k) no) m.pa 16
        (s2.poisoned no false = false → ∃ u, exec (.eldAtHome k) s = .next u ∧ u.net = dropAt s.net k ∧ u.mem = s2.mem
          ∧ (let e := EmberWord.estimate (.ofBytes (latestBytes s2 m.pa 16)) r region
             (e.kindles = true → markedFor (u.line no) m.pa r = true)
              ∧ valueCame s u m (e.words.flatMap (natLe 4)) false (pendTime (s2.line no))))
        ∧ (s2.poisoned no false = true → ∃ u, exec (.eldAtHome k) s = .next u ∧ u.net = dropAt s.net k ∧ u.mem = s2.mem
          ∧ valueCame s u m [] true s.gt)))
    ∧ (∀ no w x, (∃ m ∈ s.net, lineOf m.pa = no) → ownerLine s no = some (w, x) → s.orphaned no = false →
      ∃ u y, exec (.stashRecall no) s = .next u ∧ (u.line no).owner = none ∧ u.findWg w.launch w.gang w.no = some y
        ∧ (∀ z, z ∈ y.stash ↔ z ∈ w.stash ∧ ¬ (z.pa = no ∧ z.owned = true))
        ∧ (∀ a, memGet u.mem a = if lineOf a = no ∧ x.dirty.getLsbD (a % 128) = true then memGet w.scratch (stashOffset w x.win x.idx + a % 128)
            else memGet s.mem a)
        ∧ (u.line no).poison = if x.dirty = 0 then (s.line no).poison else ((s.line no).poison && x.dirty != BitVec.allOnes 128) || x.bad)
    ∧ (∀ no, (∀ m ∈ s.net, lineOf m.pa ≠ no) ∨ (∀ l g n, (s.line no).owner ≠ some (.stash l g n)) → exec (.stashRecall no) s = .next s)
    ∧ (∀ no k m a key, nextHob s no = some k → served s k = some m →
      let s2 := hobArrives (s.dropMsg k) no
      let t := writeTime s2 no 0 false
      (m.ask = .hob a key true → ∃ u, exec (.hobUpdateApply no) s = .next u
        ∧ u.mem = s2.mem ∧ u.net = dropAt s.net k ∧ (u.line no).resident = false
        ∧ u.heldHob = s.heldHob ++ [⟨m.tg.launch, m.pa, a, key⟩] ∧ acked s u m s.gt false true false)
      ∧ (m.ask = .hob a key false → s.orphaned no = false → s2.poisoned no false = false →
        ∃ u, exec (.hobUpdateApply no) s = .next u ∧ u.net = dropAt s.net k ∧ (u.line no).resident = false
          ∧ writeTaken s2 u no t m.pa (natLe a.size (a.apply (latestNat s2 m.pa a.size))) m.tg ∧ acked s u m t false true false)
      ∧ (m.ask = .hob a key false → s2.poisoned no false = true → ∃ u, exec (.hobUpdateApply no) s = .next u
          ∧ u.mem = s2.mem ∧ u.lines = s2.lines ∧ acked s u m s.gt false true false))
    ∧ (∀ no k m, otherAccess s no isHob = some k → s.net[k]? = some m →
      (∀ size f, m.ask = .fill size f → ∃ u, exec (.hobWindowClose no) s = .next u ∧ (∀ h ∈ u.heldHob, h ∈ s.heldHob ∧ lineOf h.pa ≠ no)
        ∧ ∀ pa n xs, lineOf pa = no → pa % 128 + n ≤ 128 → s.poisoned no false = false → (∀ l g w, (s.line no).owner ≠ some (.stash l g w)) →
          (∀ h ∈ s.heldEmber, lineOf h.pa ≠ no) →
          (∀ h ∈ s.heldHob, lineOf h.pa = no → (h.pa = pa ∧ h.a.size = n) ∨ h.pa + h.a.size ≤ pa ∨ pa + n ≤ h.pa) →
          List.Perm xs (s.heldHob.filter (fun h => h.pa = pa)) → xs.Pairwise (fun a b => keyLt a.key b.key = true) →
          latestBytes u pa n = xs.foldl (fun b h => natLe n (h.a.apply (leNat b))) (latestBytes s pa n))
      ∧ (∀ data floor nc counted, m.ask = .write data floor nc counted → m.rep = false → ∃ u, exec (.hobWindowClose no) s = .next u
        ∧ ∀ h, h ∈ u.heldHob ↔ h ∈ s.heldHob ∧ lineOf h.pa ≠ no))
    ∧ (∀ no k m, otherAccess s no isContribution = some k → s.net[k]? = some m →
      let applied := fun (u : State) (pa : Nat) => ∀ xs, lineOf pa = no → pa % 128 + 16 ≤ 128 →
        s.poisoned no false = false → (∀ l g w, (s.line no).owner ≠ some (.stash l g w)) → (∀ h ∈ s.heldHob, lineOf h.pa ≠ no) →
        (∀ h ∈ s.heldEmber, lineOf h.pa = no → h.pa = pa ∨ h.pa + 16 ≤ pa ∨ pa + 16 ≤ h.pa) →
        List.Perm xs (s.heldEmber.filter (fun h => h.pa = pa)) → xs.Pairwise (fun a b => keyLt a.key b.key = true) →
        latestBytes u pa 16 = xs.foldl (fun b h => (EmberWord.apply (.ofBytes b) h.region.k h.r h.c).bytes) (latestBytes s pa 16)
      (∀ size f, m.ask = .fill size f → ∃ u, exec (.mergeWindowClose no) s = .next u ∧ (∀ h ∈ u.heldEmber, h ∈ s.heldEmber ∧ lineOf h.pa ≠ no)
        ∧ ∀ pa, applied u pa)
      ∧ (∀ r n region va key det, m.ask = .eld r n region va key det → ∃ u, exec (.mergeWindowClose no) s = .next u ∧ applied u m.pa
        ∧ ∀ h, h ∈ u.heldEmber ↔ h ∈ s.heldEmber ∧ ¬ (lineOf h.pa = no ∧ h.pa < m.pa + 16 ∧ m.pa < h.pa + 16)))

/-! ### Events: engines -/

/-- R167, R168, R173, R174, R221, R229, R230, R232, R243, R244, R246-R248, R259: the engines at work. A copy reads every source, then writes
once its lines are owned, then ends with its status word; started passes end with their products in the tiles; a TG's first result
block is pushed once its rays stand and its pins are given back, five words for each ray; a stoker command ends with its status word;
the firebox controller grants the first claim, converts ways, and runs the next operation over every column (which ways hold the
lines: log 9; a conversion waits for an engine's line, and the controller keeps the order of issue: log 44; errors of commands: log 46). -/
def Obligations.EnginesRun : Prop :=
  ∀ s : State,
    (∀ (k : Nat) (j : CopyJob), s.copies.find? (fun c => c.id = k) = some j →
      let f := s.focus j.tg
      (∀ (n : BitVec 5) (g : Tg), j.d = .s n → s.findTg j.tg = some g →
        (j.err ≠ 0 → linesOwned s j.id j.lines = true → ∃ u h, exec (.copyCompletion k) s = .next u ∧ u.mem = s.mem ∧ u.findTg j.tg = some h
          ∧ vget h.s n.toNat = BitVec.ofNat 64 (j.err * 2 ^ 8 + 1) ∧ (∀ c ∈ u.copies, c.id ≠ k) ∧ ∀ no ∈ j.lines, (u.line no).owner = none)
        ∧ (∀ data, j.err = 0 → j.data = some data → j.wrote = true → j.ports = [] →
          ∃ u h, exec (.copyCompletion k) s = .next u ∧ u.mem = s.mem ∧ u.findTg j.tg = some h ∧ (∀ c ∈ u.copies, c.id ≠ k)
            ∧ vget h.s n.toNat = BitVec.ofNat 64 (data.length * 2 ^ 32 + (if data.any (fun x => x.bad) then 0x12 else 0) * 2 ^ 8 + 1)))
      ∧ (let s1 := reachAll f j.sources
         let s2 := (fillSources s1 j).1
         let tag := fun (no : Nat) => ((fillSources s1 j).2.find? (fun x => x.1 = no)).bind (fun x => x.2)
         j.err = 0 → j.data = none → j.ports = [] → j.sources.any (sourceHeld s1 j.tg j.id j.op) = false → stashWants s1 false j.reads = [] →
         ∃ u data, exec (.copyCompletion k) s = .next u ∧ u.mem = s2.mem
           ∧ u.copies.find? (fun c => c.id = k) = some { j with data := some data } ∧ data = j.moves.map (moveByte s2 j.reps tag)
           ∧ (∀ (i pa : Nat) (m : Move), j.moves[i]? = some m → m.src = [.mem pa] →
             ∃ x, data[i]? = some x ∧ x.b = memGet u.mem pa ∧ x.bad = s2.poisoned (lineOf pa) (j.reps.contains (lineOf pa)))
           ∧ (∀ (i l gg w off : Nat) (m : Move), j.moves[i]? = some m → m.src = [.scratch l gg w off] → (s.findWg l gg w).isSome = true →
             ∃ x, data[i]? = some x ∧ x.b = scratchByte s2 (l, gg, w) off)
           ∧ (∀ (i pa pb : Nat) (m : Move), j.moves[i]? = some m → m.src = [.mem pa, .mem pb] →
             ∃ x, data[i]? = some x ∧ x.b.toNat = nibble m.high (memGet u.mem pa) + 16 * nibble m.high (memGet u.mem pb)))
      ∧ (∀ data, j.err = 0 → j.data = some data → j.wrote = false → linesOwned f j.id j.lines = true →
        stashWants f true (j.moves.map (fun m => m.dst)) = [] →
        ∃ u, exec (.copyCompletion k) s = .next u ∧ u.copies.find? (fun c => c.id = k) = some { j with lines := [], wrote := true }
          ∧ (∀ no ∈ j.lines, (u.line no).owner = none)
          ∧ (data.length = j.moves.length → ∀ (i : Nat) (m : Move), j.moves[i]? = some m →
            (∀ n y, i < n → j.moves[n]? = some y → y.dst ≠ m.dst) → ∃ x, data[i]? = some x
            ∧ (∀ l gg w off, m.dst = .scratch l gg w off → (s.findWg l gg w).isSome = true → scratchByte u (l, gg, w) off = x.b)
            ∧ (∀ pa, m.dst = .mem pa → lineOf pa ∈ j.lines → (s.line (lineOf pa)).pend = [] → byteWritten s u pa x.b x.bad))
          ∧ ((∀ no ∈ j.lines, (s.line no).pend = []) →
            restOfLines s u j.lines (fun a => (j.moves.zip data).any (fun x => x.1.dst = .mem a)))))
    ∧ (∀ core p ps q, corePasses s core = p :: ps → p.kind = .quarter q → (p :: ps).any (fun x => x.started) = false → p.clock + 4 ≤ s.cycle →
      ∃ u, exec (.fusedPassStart core) s = .next u ∧ u.mem = s.mem ∧ u.passes.length = s.passes.length
        ∧ ∀ x ∈ u.passes, x.core = core → x.tg = p.tg → x.op = p.op → x.started = true)
    ∧ (∀ core ps, ps ≠ [] → (corePasses s core).filter (fun x => x.started) = ps
        ∨ (∃ p, ps = [p] ∧ (corePasses s core).filter (fun x => x.started) = [] ∧ (corePasses s core).head? = some p ∧ ∀ q, p.kind ≠ .quarter q) →
      ∃ u, exec (.matrixPassEnd core) s = .next u ∧ u.mem = s.mem ∧ (∀ p ∈ ps, ∀ x ∈ u.passes, ¬ (x.tg = p.tg ∧ x.op = p.op))
        ∧ ∀ l gg n w, s.findWg l gg n = some w → ∃ y, u.findWg l gg n = some y
          ∧ y.tiles = (ps.filter (fun p => wgOf p.tg = (l, gg, n))).foldl (fun t p => runPass p t) w.tiles)
    ∧ (∀ k g b bs, s.findTg k = some g → g.blocks = b :: bs → isResident s g = true →
      let f := s.focus k
      let s1 := runBlock f b (if spilling f f.tg then 0 else maxVisits + 1)
      let b1 := s1.tg.blocks.headD b
      let s2 := releaseBlock s1 b1
      b1.threads = b.threads ∧ b.got <+: b1.got
      ∧ (∀ r ∈ blockRays s1.tg b, r.stands = true → ⟨r.t, r.words, r.ended.isSome⟩ ∈ b1.got)
      ∧ (∀ x ∈ b1.got, x ∈ b.got ∨ ∃ r ∈ s1.tg.rays, r.stands = true ∧ x = ⟨r.t, r.words, r.ended.isSome⟩)
      ∧ (blockReady s2 b1 = false → exec (.resultBlockPush k) s = .next (s2.focus s.tg.key))
      ∧ (blockReady s2 b1 = true → ∃ u h ws, exec (.resultBlockPush k) s = .next u ∧ u.findTg k = some h
        ∧ ((∀ x ∈ bs, x.op ≠ b.op) → h.blocks = bs) ∧ h.rayOut = g.rayOut ++ ws ∧ ws.length = 5 * b.threads.length
        ∧ (∀ i j t x, i < 5 → b.threads[j]? = some t → b1.result t = some x → ws[i * b.threads.length + j]? = some (x.words.getD i 0))
        ∧ h.v = g.v ∧ h.s = g.s ∧ h.pc = g.pc))
    ∧ (∀ k c x t g n, s.stoker.find? (fun c => c.id = k) = some c → c.result = some (x, t) → t ≤ s.gt → c.d = .s n → s.findTg c.tg = some g → g.on = true →
      ∃ u h, exec (.stokerCommandComplete k) s = .next u ∧ u.mem = s.mem ∧ u.findTg c.tg = some h ∧ vget h.s n.toNat = x ∧ ∀ y ∈ u.stoker, y.id ≠ k)
    ∧ (∀ k c d p, s.stoker.find? (fun c => c.id = k) = some c → c.code = 0x97 → c.result = none → cmdDesc s c = some d → commandTurn s c d.pa = true →
      let t := atDesc s d.pa
      descErr t d = none → descDenied t c d = 0 → d.get t 2 1 % 2 = 1 → pendingOf t d = some p → d.slotState t ((d.g t + 1) % 65536) = 0 →
      poolWritable t c d = .ok () →
      ∃ u w y, exec (.generationPublish k) s = .next u ∧ (∀ x ∈ u.pendings, x.desc ≠ d.pa)
        ∧ u.stoker.find? (fun c => c.id = k) = some y ∧ y.result = some (stokerStatus 0 ((d.g t + 1) % 65536) 0, w) ∧ s.gt < w)
    ∧ (∀ k ks, s.fb.owner = none → s.fb.claims = k :: ks → ∃ u, exec .fireboxClaimGrant s = .next u ∧ u.mem = s.mem
      ∧ u.fb.owner = some (wgOf k) ∧ u.fb.ways = 0 ∧ u.fb.cols = [] ∧ ∀ x, x ∈ u.fb.claims ↔ x ∈ s.fb.claims ∧ wgOf x ≠ wgOf k)
    ∧ (let claim := s.fb.queue.find? (fun o => fbClaims s o && fbWaits s (wgOf o.tg) && !s.fb.claims.contains o.tg)
       (∀ o, claim = some o → ∃ u, exec .fireboxConversion s = .next u ∧ u.mem = s.mem ∧ u.fb = { s.fb with claims := s.fb.claims ++ [o.tg] })
        ∧ (∀ o, claim = none → fbNext s = some o → o.code = 0xB0 → s.fb.owner = some (wgOf o.tg) →
          let rest := s.fb.queue.filter (fun x => x.id ≠ o.id)
          (o.a = 0 → ∃ u, exec .fireboxConversion s = .next u ∧ u.mem = s.mem ∧ u.fb.ways = 0 ∧ u.fb.owner = none ∧ u.fb.cols = [] ∧ u.fb.queue = rest)
          ∧ (o.a ≠ 0 → (∀ x ∈ takenLines s s.fb.ways o.a.toNat, engineOwned s x.1 = false) →
            ∃ u, exec .fireboxConversion s = .next u ∧ u.fb.ways = o.a.toNat ∧ u.fb.owner = s.fb.owner ∧ u.fb.queue = rest
              ∧ (s.fb.ways < o.a.toNat → ∀ x ∈ takenLines s s.fb.ways o.a.toNat, (u.line x.1).heldIn x.2 = false))))
    ∧ (∀ o, fbNext s = some o → s.fb.owner = some (wgOf o.tg) →
      let rest := s.fb.queue.filter (fun x => x.id ≠ o.id)
      let cols := spreadRuns s.fb.cols
      let c0 := firstColumn o.b
      let size := 2 ^ o.sub
      (0xB1 ≤ o.code → o.code ≤ 0xB6 → ∃ u, exec .fireboxOperationRun s = .next u ∧ u.mem = s.mem ∧ u.fb.queue = rest ∧ u.fb.owner = s.fb.owner
        ∧ spreadRuns u.fb.cols = cols.map (columnStep o))
      ∧ (o.code = 0xB8 → cols.length = columnsOf s.fb.ways → ∃ u, exec .fireboxOperationRun s = .next u ∧ u.mem = s.mem ∧ u.fb.queue = rest
        ∧ u.fb.owner = s.fb.owner ∧ (spreadRuns u.fb.cols).length = cols.length
        ∧ ∀ (n : Nat) (c : Column), cols[n]? = some c → (spreadRuns u.fb.cols)[n]? = some (columnTake o c
          (if 0 ≤ (n : Int) - o.b.toInt then cols.getD ((n : Int) - o.b.toInt).toNat ⟨0, false, false, false⟩ else ⟨0, false, false, false⟩)))
      ∧ (∀ g n, o.code = 0xB7 → s.findTg o.tg = some g → o.dst = .s n →
        ((spreadRuns s.fb.cols).filter (fun c => c.p)).any (fun c => c.poison) = false →
        ∃ u h, exec .fireboxOperationRun s = .next u ∧ u.fb.queue = rest ∧ u.findTg o.tg = some h
          ∧ vget h.s n.toNat = BitVec.ofNat 64 (((spreadRuns s.fb.cols).filter (fun c => c.p)).foldl (fun k c => k + c.get o.a) 0))
      ∧ (let s1 := reachAll s o.lines
         let s2 := o.lines.foldl (fun s no => engineFill s o.tg no (o.reps.contains no)) s1
         o.code = 0xB9 → o.lines.any (sourceHeld s1 o.tg o.id o.op) = false → c0 + columnCount o.b ≤ cols.length →
           o.places.length = columnCount o.b → ∃ u, exec .fireboxOperationRun s = .next u ∧ u.mem = s2.mem ∧ u.fb.queue = rest
           ∧ (spreadRuns u.fb.cols).length = cols.length
           ∧ ∀ n c, cols[n]? = some c → (spreadRuns u.fb.cols)[n]? = some (match (if c0 ≤ n then o.places[n - c0]? else none) with
             | some pa => { c.put o.d (memNat s2.mem pa size) with poison := s2.poisoned (lineOf pa) (o.reps.contains (lineOf pa)) }
             | none => c))
      ∧ (o.code = 0xBA → linesOwned s o.id o.lines = true → o.sub < 4 → (∀ pa ∈ o.places, pa % size = 0) → o.places.length = columnCount o.b →
        ∃ u, exec .fireboxOperationRun s = .next u ∧ u.fb.queue = rest ∧ u.fb.cols = s.fb.cols ∧ (∀ no ∈ o.lines, (u.line no).owner = none)
        ∧ (∀ i pa c, o.places[i]? = some pa → cols[c0 + i]? = some c → (∀ n, i < n → o.places[n]? ≠ some pa) → lineOf pa ∈ o.lines →
          (s.line (lineOf pa)).pend = [] → ∀ n < size, byteWritten s u (pa + n) (byteAt (natLe size (c.get o.d)) n) c.poison)
        ∧ ((∀ no ∈ o.lines, (s.line no).pend = []) → restOfLines s u o.lines (fun a => o.places.any (fun pa => pa ≤ a && a < pa + size)))))

/-- R236-R239: the stages of a draw. The binner takes one primitive after another into the batch; rasterising starts one pixel
thread for each fragment; the back end writes the fragments one after another; the release word is written last, not before the
draw's latest WCT. -/
def Obligations.DrawsRun : Prop :=
  ∀ (s : State) (l : Nat) (d : Draw) (x : Launch), s.findDraw l = some d → s.findLaunch l = some x → d.launch = l →
    (d.phase = .mesh → allEnded s x = false ∨ s.gt < x.wct → exec (.drawBinning l) s = .next s)
    ∧ (∀ s1 s2 s3 t n h ps, d.phase = .mesh → allEnded s x = true → x.wct ≤ s.gt → drawRead s d d.target 32 = (s1, .bytes t) →
      drawRead s1 d d.prims 4 = (s2, .bytes n) → pixelHeader s2 d = (s3, .ok (h, ps)) → leNat n ≤ d.cap → d.formatOk (recNat t 0x10 4) = true →
      s3.findDraw l = some d → ∃ u e, exec (.drawBinning l) s = .next u ∧ u.findDraw l = some e ∧ e.phase = .bin ∧ e.total = leNat n
        ∧ e.width = recNat t 0xC 2 ∧ e.height = recNat t 0xE 2 ∧ e.format = recNat t 0x10 4 ∧ e.pixHdr = h)
    ∧ (d.rasterImage = [] → ∀ i, d.primAt i = (d.prims + BitVec.ofNat 64 (64 + 64 * i), 64))
    ∧ (d.phase = .bin → d.total ≤ d.next → ∃ u e, exec (.drawBinning l) s = .next u ∧ u.mem = s.mem ∧ u.findDraw l = some e
      ∧ e.phase = (if d.binned = [] then .written else .raster))
    ∧ (∀ (s1 s2 : State) (b : List Byte) (t : Nat), d.phase = .bin → d.next < d.total →
      drawRead s d (d.primAt d.next).1 (d.primAt d.next).2 = (s1, .bytes b) →
      let tiles := tilesTouched (fragsOf d d.next b)
      let data := tiles.flatMap (fun y => natLe 8 (Config.binEntry d.next y.1 y.2).toNat)
      let va := d.binBuf + BitVec.ofNat 64 (8 * d.entries)
      (tiles.length ≤ d.binBytes / 8 → d.entries + tiles.length ≤ d.binBytes / 8 → drawReady s1 d va data.length = true →
        drawWrite s1 d va data 0 = some (s2, t) → s2.findDraw l = some d →
        ∃ u e, exec (.drawBinning l) s = .next u ∧ u.findDraw l = some e ∧ e.binned = d.binned ++ [(d.next, b)] ∧ e.next = d.next + 1
          ∧ e.entries = d.entries + tiles.length ∧ d.wct ≤ e.wct ∧ t ≤ e.wct)
      ∧ (tiles.length ≤ d.binBytes / 8 → d.binBytes / 8 < d.entries + tiles.length → s1.findDraw l = some d →
        ∃ u e, exec (.drawBinning l) s = .next u ∧ u.findDraw l = some e ∧ e.phase = .raster ∧ e.overflow = true ∧ e.next = d.next))
    ∧ (let fs := d.binned.flatMap (fun p => fragsOf d p.1 p.2)
       d.phase = .raster → ∃ u e, exec (.rasterise l) s = .next u ∧ u.mem = s.mem ∧ u.findDraw l = some e ∧ e.binned = []
         ∧ (fs = [] → u.launches = s.launches ∧ e.phase = if d.next < d.total then .bin else .written)
         ∧ (fs ≠ [] → e.phase = .pixels ∧ ∃ p, u.launches = s.launches ++ [p] ∧ e.pixLaunch = some p.no ∧ p.count = fs.length ∧ p.hdr = d.pixHdr
              ∧ p.draw = some x.no ∧ p.ctx = x.ctx))
    ∧ (∀ n g f, d.phase = .pixels → d.pixLaunch = some n → (s.launchOf n).done = true → nextFrag s n = some (g, f) →
      (f.done = none ∨ f.done = some none → ∃ u, exec (.pixelBackEndWrite l) s = .next u ∧ u.mem = s.mem
        ∧ (∀ y, s.findGang n g = some y → ∃ z, u.findGang n g = some z ∧ z.frags = y.frags.drop 1))
      ∧ (∀ c s1, f.done = some (some c) → writeFrag s d f c = some s1 → ∃ u, exec (.pixelBackEndWrite l) s = .next u ∧ u.mem = s1.mem))
    ∧ (∀ n, d.phase = .pixels → d.pixLaunch = some n → (s.launchOf n).done = true → nextFrag s n = none →
      ∃ u e, exec (.pixelBackEndWrite l) s = .next u ∧ u.mem = s.mem ∧ u.findDraw l = some e ∧ e.pixLaunch = none
        ∧ e.phase = if d.next < d.total then .bin else .written)
    ∧ (∀ s1 t, d.phase = .written → d.wct ≤ s.gt → drawReady s d d.release 8 = true → s1.findDraw l = some d →
      drawWrite s d d.release (natLe 4 d.number.toNat ++ natLe 4 (1 + (if d.overflow then 2 else 0) + (if d.error then 4 else 0))) d.wct = some (s1, t) →
      ∃ u e, exec (.drawRelease l) s = .next u ∧ u.mem = s1.mem ∧ u.findDraw l = some e ∧ e.phase = .released)

/-! ### Events: the device -/

/-- R263, R265-R277: errors, die loss, alarms, bring-up and maintenance states, the sideband, the fabric, and accesses from other
nodes. The values of context 0 that the spec does not give (log 18), what a reset in service does (log 40) and how the test firmware
starts (log 19) are the model's choices. -/
def Obligations.DeviceEvents : Prop :=
  ∀ s : State,
    exec .correctedError s = .next { s with dev := { s.dev with cor := if s.dev.cor = BitVec.allOnes 32 then s.dev.cor else s.dev.cor + 1 } }
    ∧ (∀ no, ownLine s no = true → ∃ u, exec (.uncorrectableError no) s = .next u ∧ u.mem = s.mem ∧ (u.line no).poison = true
      ∧ (s.dev.unc ≠ BitVec.allOnes 32 → u.dev.unc = s.dev.unc + 1 ∧ u.dev.interrupts = s.dev.interrupts + 1))
    ∧ (∀ die : BitVec 2, s.dev.dieLost.getLsbD die.toNat = false → ∃ u, exec (.dieLoss die) s = .next u ∧ u.dev.dieLost.getLsbD die.toNat = true
      ∧ (∀ k < 4, k ≠ die.toNat → u.dev.dieLost.getLsbD k = s.dev.dieLost.getLsbD k)
      ∧ (∀ no, s.isRemote (no * 128) = false → homeOf (no * 128) / 64 = die.toNat → u.poisoned no false = true))
    ∧ (∀ x, x = .tamper ∨ x = .glitch → ∃ u, exec (.securityAlarm x) s = .next u ∧ u = { s with dev := u.dev }
      ∧ u.dev.halted = true ∧ u.dev.portsDown = true ∧ u.dev.alarm = true ∧ u.dev.keyErased = true ∧ u.dev.interrupts = s.dev.interrupts + 1)
    ∧ (s.dev.maint = .startUp → ∃ u, exec (.securityAlarm .bootSignature) s = .next u ∧ u = { s with dev := u.dev }
      ∧ u.dev.halted = true ∧ u.dev.portsDown = true ∧ u.dev.alarm = true ∧ u.dev.maint = .recovery ∧ u.dev.keyErased = s.dev.keyErased)
    ∧ (s.dev.maint = .startUp → s.dev.halted = false → ∃ u, exec .powerOn s = .next u
      ∧ (bootVerifies s.ctr = true → u.dev.maint = .service ∧ u.dev.portsDown = false ∧ u.dev.booted = bootHashes s.ctr
        ∧ u.dev.nodeid = Config.nodeId ∧ (u.ctxOf 0).state = .live ∧ (u.ctxOf 0).ptroot = 0)
      ∧ (bootVerifies s.ctr = false → u.dev.maint = .recovery ∧ u.dev.alarm = true ∧ u.dev.halted = true))
    ∧ (s.dev.maint = .recovery → s.dev.imageOk = false → exec .deviceReset s = .next s)
    ∧ (s.dev.maint ≠ .recovery ∨ s.dev.imageOk = true → ∃ u, exec .deviceReset s = .next u ∧ u.gt = s.gt ∧ u.dev.keyErased = s.dev.keyErased
      ∧ u.dev.nextLeaf = s.dev.nextLeaf ∧ u.dev.maint = .startUp ∧ u.dev.quant = 100000 ∧ u.tg.on = false ∧ u.rest = [] ∧ u.ctxs = []
      ∧ u.launches = [] ∧ u.lines = [] ∧ u.tlb = [])
    ∧ (s.dev.maint = .service → openSlices s = 0 → s.spawnQ = [] →
      let t := { s with dev := { s.dev with halted := true, portsDown := true, maint := .test } }
      exec .testCommand s = .next (if testRuns s then
          { loadTest t with launches := s.launches ++ [testLaunch s]
                            dev := { (loadTest t).dev with halted := false, nextSpawn := (loadTest t).dev.nextSpawn + 1 } }
        else t))
    ∧ exec .identityRequest s = .next { s with dev := { s.dev with report := identityKey ++ Config.certificate } }
    ∧ (s.dev.maint = .recovery → exec .recoveryImage s = .next { s with
        dev := { s.dev with imageOk := s.dev.imageOk || firmwareOk (Config.recoveryImage s.ctr).1 (Config.recoveryImage s.ctr).2 } })
    ∧ (s.dev.maint ≠ .recovery → exec .recoveryImage s = .next s)
    ∧ (∃ r, exec .sidebandStatusRequest s = .next { s with dev := { s.dev with report := r } })
    ∧ (∀ b, exec (.powerLimit b) s = .next { s with dev := { s.dev with clockLow := b } })
    ∧ (∀ port ok, port < 36 → s.dev.portsDown = false → exec (.flitReceive port ok) s = .next { s with
        dev := { s.dev with flits := s.dev.flits + (if ok then 1 else 0), retries := s.dev.retries + (if ok then 0 else 1) } })
    ∧ (∀ port ok, s.dev.portsDown = true → exec (.flitReceive port ok) s = .next s)
    ∧ (∀ r : Remote, remoteOk s r = true → engineOwned s (lineOf r.pa) = false →
      (let s1 := reach s (lineOf r.pa)
       ∀ n, r.kind = .load n → fillHeld s1 (lineOf r.pa) = false → exec (.remoteAccess r) s = .next { s1 with
        dev := { s1.dev with answer := memBytes s1.mem r.pa n ++ [if s1.poisoned (lineOf r.pa) false then 1 else 0] } })
      ∧ (∀ data, r.kind = .store data → s.orphaned (lineOf r.pa) = false →
        let s1 := arriveAt (applyDue s (lineOf r.pa)) r.pa data.length
        let t := writeTime s1 (lineOf r.pa) 0 false
        ∃ u, exec (.remoteAccess r) s = .next u ∧ writeTaken s1 u (lineOf r.pa) t r.pa data noKey ∧ u.dev.answer = natLe 8 t)
      ∧ (∀ n target wmin k, r.kind = .emberRead n target wmin k →
        let s1 := arriveAt (applyDue s (lineOf r.pa)) r.pa 16
        let x := EmberWord.estimate (.ofBytes (latestBytes s1 r.pa 16)) n (carried target wmin k)
        let b := x.words.flatMap (natLe 4) ++ [if x.kindles && !markedFor (s1.line (lineOf r.pa)) r.pa n then 1 else 0]
        let t := pendTime (s1.line (lineOf r.pa))
        s1.poisoned (lineOf r.pa) false = false → ∃ u, exec (.remoteAccess r) s = .next u ∧ u.mem = s1.mem
          ∧ (t ≤ s.gt → u.dev.answer = b) ∧ (s.gt < t → u.dev.owed = s.dev.owed ++ [⟨t, b⟩])))

/-! ### Reset and the invariant -/

/-- R207, R190, R269, R49, R120: the machine right after power-on reset, with the values that the spec states: GT, CYCLE and every register of a
TG at 0 but LEASE at 10, q at 100,000, no die lost, no error counted, DETM clear, no format window enabled, nothing resident, no
firebox owner; and no news older than the bound of R140. Memory lists nothing then, and every step keeps its canonical form, which is the
model's own (log 3); that the fabric ports are down until they are trained is the model's (log 26). -/
def Obligations.ResetHoldsSpecValues : Prop :=
  let s := Machine.State.reset
  s.gt = 0 ∧ s.cycle = 0 ∧ s.dev.quant = 100000 ∧ s.dev.detm = false ∧ s.dev.dieLost = 0 ∧ s.dev.unc = 0 ∧ s.dev.cor = 0 ∧ s.dev.salvb = 0
    ∧ s.dev.written = 0 ∧ s.dev.dropped = 0 ∧ s.dev.portsDown = true ∧ (∀ w < 32, (vget s.dev.fw w).en = false) ∧ s.fb.owner = none ∧ s.dev.maint = .startUp
    ∧ s.tg.on = false ∧ s.rest = [] ∧ s.tg.gm = 0 ∧ s.tg.flags = 0 ∧ s.tg.fptrap = 0 ∧ s.tg.lease = 10 ∧ s.tg.tepc = 0 ∧ s.tg.tcause = 0
    ∧ s.tg.tmask = 0 ∧ s.tg.tgm = 0 ∧ s.tg.taddr = 0 ∧ s.tg.trpc = 0 ∧ s.tg.trec = 0
    ∧ (let x := Ctx.fresh 1 .live
       x.tvec = 0 ∧ x.rrtab = 0 ∧ x.ertab = 0 ∧ (∀ n < 16, vget x.ncb n = 0 ∧ vget x.ncl n = 0) ∧ x.kindEn = false ∧ x.sqld = 0)
    ∧ newsFresh s ∧ Memory.wf s.mem = true
    ∧ ∀ s t : Machine.State, step s = .next t → Memory.wf s.mem = true → Memory.wf t.mem = true

/-- R140: after every step, whatever it ran, no news of a round counter is older than 200 ns: it has reached every L1, and every
view of its counter that it found behind has moved forward to it. -/
def Obligations.StepDeliversNews : Prop :=
  ∀ s t : State, step s = .next t → newsFresh t
    ∧ ∃ x : State, t = finish x
      ∧ (let y := budgetsOut (applyAllDue (passTime x)) (fun _ => true)
         let due := x.news.filter (fun n => n.wct + 200 ≤ t.gt)
         t.views = x.views.map (fun v => (due.filter (fun n => newsFor y n v)).foldl (fun v n => v.forward n.val) v)
          ∧ (∀ n, n ∈ t.news ↔ n ∈ x.news ∧ t.gt < n.wct + 200)
          ∧ ∀ v ∈ x.views, ∀ n, due.filter (fun n => newsFor y n v) = [n] → atOrAfter n.val v.val = true → { v with val := n.val } ∈ t.views)
end

