-- ==== Sys2Proof/Laws/Memory.lean ====
section
/-! SUPPORT. Memory: a read after a write, what a write leaves alone, and that every operation keeps the canonical form. -/

namespace Sys2Proof.Machine

/-! ### Reading after a write of one byte -/

theorem memDrop_keys (m : Memory) (a : Nat) : ∀ c ∈ memDrop m a, c.1 ≠ a := by
  induction m with
  | nil => simp [memDrop]
  | cons c m ih =>
    obtain ⟨k, b⟩ := c
    by_cases hk : a = k
    · rw [memDrop, if_pos hk]
      exact ih
    · simp only [memDrop, if_neg hk, List.mem_cons]
      rintro c (rfl | hc)
      · exact fun h => hk h.symm
      · exact ih c hc

theorem memGet_memDrop (m : Memory) (a x : Nat) : memGet (memDrop m a) x = if x = a then unlistedByte else memGet m x := by
  induction m with
  | nil => simp [memDrop, memGet]
  | cons c m ih =>
    obtain ⟨k, b⟩ := c
    by_cases hk : a = k
    · subst hk
      simp only [memDrop, if_true, memGet, ih]
      split <;> simp_all
    · simp only [memDrop, if_neg hk, memGet, ih]
      by_cases hx : x = k <;> simp_all [eq_comm]

theorem memGet_memInsert (m : Memory) (a : Nat) (b : Byte) (x : Nat) (h : ∀ c ∈ m, c.1 ≠ a) :
    memGet (memInsert m a b) x = if x = a then b else memGet m x := by
  induction m with
  | nil => simp [memInsert, memGet]
  | cons c m ih =>
    obtain ⟨k, y⟩ := c
    have hka : k ≠ a := h (k, y) (by simp)
    have hm := ih (fun c hc => h c (by simp [hc]))
    by_cases hlt : a < k
    · simp [memInsert, memGet, hlt]
    · simp only [memInsert, if_neg hlt, memGet, hm]
      by_cases hx : x = k
      · simp [hx, hka]
      · simp [hx]

/-- A read of one byte after a write of one. -/
theorem memGet_memSet (m : Memory) (a : Nat) (b : Byte) (x : Nat) : memGet (memSet m a b) x = if x = a then b else memGet m x := by
  by_cases hb : b = unlistedByte
  · simp [memSet, hb, memGet_memDrop]
  · rw [memSet, if_neg hb, memGet_memInsert _ _ _ _ (memDrop_keys m a), memGet_memDrop]
    split <;> simp_all

/-! ### Reading after a write of a run of bytes -/

/-- A read after a write: the written byte within the run, the old one outside. -/
theorem memGet_memPut (bs : List Byte) : ∀ (m : Memory) (a x : Nat),
    memGet (memPut m a bs) x = if a ≤ x ∧ x < a + bs.length then byteAt bs (x - a) else memGet m x := by
  induction bs with
  | nil => intro m a x; simp [memPut]
  | cons b bs ih =>
    intro m a x
    rw [memPut, ih, memGet_memSet]
    by_cases hx : x = a
    · subst hx
      simp [byteAt]
    · by_cases hr : a ≤ x ∧ x < a + (b :: bs).length
      · have h1 : a + 1 ≤ x ∧ x < a + 1 + bs.length := by simp at hr; omega
        have h2 : x - a = (x - (a + 1)) + 1 := by omega
        rw [if_pos h1, if_pos hr, h2]
        rfl
      · have h1 : ¬ (a + 1 ≤ x ∧ x < a + 1 + bs.length) := by simp at hr; omega
        simp only [if_neg h1, if_neg hx, if_neg hr]

/-- A write leaves every byte outside its run alone. -/
theorem memGet_memPut_outside (m : Memory) (a x : Nat) (bs : List Byte) (h : x < a ∨ a + bs.length ≤ x) :
    memGet (memPut m a bs) x = memGet m x := by
  rw [memGet_memPut, if_neg (by omega)]

theorem memBytes_length (m : Memory) (n : Nat) : ∀ a, (memBytes m a n).length = n := by
  induction n with
  | zero => intro a; rfl
  | succ n ih => intro a; simp [memBytes, ih]

/-- A run of bytes read back after it was written. -/
theorem memBytes_memPut (bs : List Byte) : ∀ (m : Memory) (a : Nat), memBytes (memPut m a bs) a bs.length = bs := by
  have key : ∀ (cs : List Byte) (m : Memory) (a n : Nat), (∀ i < n, memGet m (a + i) = byteAt cs i) → n = cs.length → memBytes m a n = cs := by
    intro cs
    induction cs with
    | nil => intro m a n _ hn; subst hn; rfl
    | cons c cs ih =>
      intro m a n h hn
      subst hn
      simp only [List.length_cons, memBytes]
      rw [ih m (a + 1) cs.length (fun i hi => by have := h (i + 1) (by simp; omega); rwa [show a + 1 + i = a + (i + 1) by omega]) rfl]
      have := h 0 (by simp)
      simp only [Nat.add_zero, byteAt] at this
      rw [this]
  intro m a
  refine key bs _ a _ (fun i hi => ?_) rfl
  rw [memGet_memPut, if_pos (by omega)]
  congr 1
  omega

/-! ### The canonical form -/

theorem memFrom_mono (m : Memory) (lo lo' : Nat) (h : lo' ≤ lo) (hm : memFrom lo m = true) : memFrom lo' m = true := by
  cases m with
  | nil => rfl
  | cons c m =>
    simp only [memFrom, Bool.and_eq_true, decide_eq_true_eq] at hm ⊢
    exact ⟨⟨by omega, hm.1.2⟩, hm.2⟩

theorem memFrom_memDrop (m : Memory) (a : Nat) : ∀ lo, memFrom lo m = true → memFrom lo (memDrop m a) = true := by
  induction m with
  | nil => intro lo _; rfl
  | cons c m ih =>
    obtain ⟨k, b⟩ := c
    intro lo h
    simp only [memFrom, Bool.and_eq_true, decide_eq_true_eq] at h
    by_cases hk : a = k
    · simp only [memDrop, if_pos hk]
      exact ih lo (memFrom_mono m (k + 1) lo (by omega) h.2)
    · simp only [memDrop, if_neg hk, memFrom, Bool.and_eq_true, decide_eq_true_eq]
      exact ⟨h.1, ih (k + 1) h.2⟩

theorem memFrom_memInsert (m : Memory) (a : Nat) (b : Byte) (hb : b ≠ unlistedByte) : ∀ lo, lo ≤ a → (∀ c ∈ m, c.1 ≠ a) →
    memFrom lo m = true → memFrom lo (memInsert m a b) = true := by
  induction m with
  | nil => intro lo h _ _; simp [memInsert, memFrom, h, hb]
  | cons c m ih =>
    obtain ⟨k, y⟩ := c
    intro lo hlo hne h
    have hka : k ≠ a := hne (k, y) (by simp)
    simp only [memFrom, Bool.and_eq_true, decide_eq_true_eq] at h
    by_cases hlt : a < k
    · simp only [memInsert, if_pos hlt, memFrom, Bool.and_eq_true, decide_eq_true_eq]
      exact ⟨⟨hlo, hb⟩, ⟨by omega, h.1.2⟩, h.2⟩
    · simp only [memInsert, if_neg hlt, memFrom, Bool.and_eq_true, decide_eq_true_eq]
      exact ⟨h.1, ih (k + 1) (by omega) (fun c hc => hne c (by simp [hc])) h.2⟩

theorem wf_memSet (m : Memory) (a : Nat) (b : Byte) (h : Memory.wf m = true) : Memory.wf (memSet m a b) = true := by
  by_cases hb : b = unlistedByte
  · simpa [Memory.wf, memSet, hb] using memFrom_memDrop m a 0 h
  · simp only [Memory.wf, memSet, if_neg hb]
    exact memFrom_memInsert _ _ _ hb 0 (Nat.zero_le a) (memDrop_keys m a) (memFrom_memDrop m a 0 h)

theorem wf_memPut (bs : List Byte) : ∀ (m : Memory) (a : Nat), Memory.wf m = true → Memory.wf (memPut m a bs) = true := by
  induction bs with
  | nil => intro m a h; exact h
  | cons b bs ih => intro m a h; exact ih _ _ (wf_memSet m a b h)

/-- Two memories in canonical form that read the same everywhere are one list. -/
theorem memFrom_ext (m : Memory) : ∀ (n : Memory) (lo : Nat), memFrom lo m = true → memFrom lo n = true → (∀ a, memGet m a = memGet n a) → m = n := by
  have low : ∀ (m : Memory) (lo a : Nat), memFrom lo m = true → a < lo → memGet m a = unlistedByte := by
    intro m
    induction m with
    | nil => intro lo a _ _; rfl
    | cons c m ih =>
      intro lo a h ha
      simp only [memFrom, Bool.and_eq_true, decide_eq_true_eq] at h
      rw [memGet, if_neg (by omega)]
      exact ih (c.1 + 1) a h.2 (by omega)
  induction m with
  | nil =>
    intro n lo _ hn h
    cases n with
    | nil => rfl
    | cons c n =>
      simp only [memFrom, Bool.and_eq_true, decide_eq_true_eq] at hn
      have := h c.1
      simp only [memGet, if_true] at this
      exact absurd this.symm hn.1.2
  | cons c m ih =>
    intro n lo hm hn h
    simp only [memFrom, Bool.and_eq_true, decide_eq_true_eq] at hm
    cases n with
    | nil =>
      have := h c.1
      simp only [memGet, if_true] at this
      exact absurd this hm.1.2
    | cons d n =>
      simp only [memFrom, Bool.and_eq_true, decide_eq_true_eq] at hn
      have hcd : c.1 = d.1 := by
        rcases Nat.lt_trichotomy c.1 d.1 with hlt | heq | hgt
        · have := h c.1
          rw [memGet, if_pos rfl, low (d :: n) d.1 c.1 (by simp [memFrom, hn.1.2, hn.2]) hlt] at this
          exact absurd this hm.1.2
        · exact heq
        · have := h d.1
          rw [low (c :: m) c.1 d.1 (by simp [memFrom, hm.1.2, hm.2]) hgt, memGet, if_pos rfl] at this
          exact absurd this.symm hn.1.2
      have hb : c.2 = d.2 := by
        have := h c.1
        rwa [memGet, if_pos rfl, memGet, if_pos hcd] at this
      have hmn : m = n := by
        refine ih n (c.1 + 1) hm.2 (hcd ▸ hn.2) (fun a => ?_)
        by_cases ha : a = c.1
        · rw [low m (c.1 + 1) a hm.2 (by omega), low n (c.1 + 1) a (hcd ▸ hn.2) (by omega)]
        · have := h a
          rwa [memGet, if_neg ha, memGet, if_neg (hcd ▸ ha)] at this
      exact congrArg₂ _ (Prod.ext hcd hb) hmn

/-- The memory after reset is in canonical form. -/
theorem reset_mem_wf : Memory.wf State.reset.mem = true := rfl

end Sys2Proof.Machine
end

