-- ==== Sys2Proof/Laws/State.lean ====
section
/-! SUPPORT. What each update of the state leaves as it was: one lemma for each field, so that no proof unfolds a record update. -/

namespace Sys2Proof.Machine

open Sys2Proof.Safety

/-! ### The issuing thread group -/

@[simp] theorem State.modTg_ctr (s : State) (f : Tg → Tg) : (s.modTg f).ctr = s.ctr := rfl
@[simp] theorem State.modTg_turn (s : State) (f : Tg → Tg) : (s.modTg f).turn = s.turn := rfl
@[simp] theorem State.modTg_gt (s : State) (f : Tg → Tg) : (s.modTg f).gt = s.gt := rfl
@[simp] theorem State.modTg_cycle (s : State) (f : Tg → Tg) : (s.modTg f).cycle = s.cycle := rfl
@[simp] theorem State.modTg_mem (s : State) (f : Tg → Tg) : (s.modTg f).mem = s.mem := rfl
@[simp] theorem State.modTg_lines (s : State) (f : Tg → Tg) : (s.modTg f).lines = s.lines := rfl
@[simp] theorem State.modTg_setFloors (s : State) (f : Tg → Tg) : (s.modTg f).setFloors = s.setFloors := rfl
@[simp] theorem State.modTg_l1 (s : State) (f : Tg → Tg) : (s.modTg f).l1 = s.l1 := rfl
@[simp] theorem State.modTg_icopies (s : State) (f : Tg → Tg) : (s.modTg f).icopies = s.icopies := rfl
@[simp] theorem State.modTg_tlb (s : State) (f : Tg → Tg) : (s.modTg f).tlb = s.tlb := rfl
@[simp] theorem State.modTg_views (s : State) (f : Tg → Tg) : (s.modTg f).views = s.views := rfl
@[simp] theorem State.modTg_news (s : State) (f : Tg → Tg) : (s.modTg f).news = s.news := rfl
@[simp] theorem State.modTg_net (s : State) (f : Tg → Tg) : (s.modTg f).net = s.net := rfl
@[simp] theorem State.modTg_acks (s : State) (f : Tg → Tg) : (s.modTg f).acks = s.acks := rfl
@[simp] theorem State.modTg_overflowed (s : State) (f : Tg → Tg) : (s.modTg f).overflowed = s.overflowed := rfl
@[simp] theorem State.modTg_heldHob (s : State) (f : Tg → Tg) : (s.modTg f).heldHob = s.heldHob := rfl
@[simp] theorem State.modTg_heldEmber (s : State) (f : Tg → Tg) : (s.modTg f).heldEmber = s.heldEmber := rfl
@[simp] theorem State.modTg_tg (s : State) (f : Tg → Tg) : (s.modTg f).tg = f s.tg := rfl
@[simp] theorem State.modTg_rest (s : State) (f : Tg → Tg) : (s.modTg f).rest = s.rest := rfl
@[simp] theorem State.modTg_wgs (s : State) (f : Tg → Tg) : (s.modTg f).wgs = s.wgs := rfl
@[simp] theorem State.modTg_gangs (s : State) (f : Tg → Tg) : (s.modTg f).gangs = s.gangs := rfl
@[simp] theorem State.modTg_launches (s : State) (f : Tg → Tg) : (s.modTg f).launches = s.launches := rfl
@[simp] theorem State.modTg_lanes (s : State) (f : Tg → Tg) : (s.modTg f).lanes = s.lanes := rfl
@[simp] theorem State.modTg_engUse (s : State) (f : Tg → Tg) : (s.modTg f).engUse = s.engUse := rfl
@[simp] theorem State.modTg_ctxs (s : State) (f : Tg → Tg) : (s.modTg f).ctxs = s.ctxs := rfl
@[simp] theorem State.modTg_spawnQ (s : State) (f : Tg → Tg) : (s.modTg f).spawnQ = s.spawnQ := rfl
@[simp] theorem State.modTg_heldSpawns (s : State) (f : Tg → Tg) : (s.modTg f).heldSpawns = s.heldSpawns := rfl
@[simp] theorem State.modTg_copies (s : State) (f : Tg → Tg) : (s.modTg f).copies = s.copies := rfl
@[simp] theorem State.modTg_passes (s : State) (f : Tg → Tg) : (s.modTg f).passes = s.passes := rfl
@[simp] theorem State.modTg_stoker (s : State) (f : Tg → Tg) : (s.modTg f).stoker = s.stoker := rfl
@[simp] theorem State.modTg_frees (s : State) (f : Tg → Tg) : (s.modTg f).frees = s.frees := rfl
@[simp] theorem State.modTg_pendings (s : State) (f : Tg → Tg) : (s.modTg f).pendings = s.pendings := rfl
@[simp] theorem State.modTg_fb (s : State) (f : Tg → Tg) : (s.modTg f).fb = s.fb := rfl
@[simp] theorem State.modTg_draws (s : State) (f : Tg → Tg) : (s.modTg f).draws = s.draws := rfl
@[simp] theorem State.modTg_waits (s : State) (f : Tg → Tg) : (s.modTg f).waits = s.waits := rfl
@[simp] theorem State.modTg_dev (s : State) (f : Tg → Tg) : (s.modTg f).dev = s.dev := rfl

@[simp] theorem withTg_ctr (s : State) (g : Tg) : (withTg s g).ctr = s.ctr := rfl
@[simp] theorem withTg_turn (s : State) (g : Tg) : (withTg s g).turn = s.turn := rfl
@[simp] theorem withTg_gt (s : State) (g : Tg) : (withTg s g).gt = s.gt := rfl
@[simp] theorem withTg_cycle (s : State) (g : Tg) : (withTg s g).cycle = s.cycle := rfl
@[simp] theorem withTg_mem (s : State) (g : Tg) : (withTg s g).mem = s.mem := rfl
@[simp] theorem withTg_lines (s : State) (g : Tg) : (withTg s g).lines = s.lines := rfl
@[simp] theorem withTg_setFloors (s : State) (g : Tg) : (withTg s g).setFloors = s.setFloors := rfl
@[simp] theorem withTg_l1 (s : State) (g : Tg) : (withTg s g).l1 = s.l1 := rfl
@[simp] theorem withTg_icopies (s : State) (g : Tg) : (withTg s g).icopies = s.icopies := rfl
@[simp] theorem withTg_tlb (s : State) (g : Tg) : (withTg s g).tlb = s.tlb := rfl
@[simp] theorem withTg_views (s : State) (g : Tg) : (withTg s g).views = s.views := rfl
@[simp] theorem withTg_news (s : State) (g : Tg) : (withTg s g).news = s.news := rfl
@[simp] theorem withTg_net (s : State) (g : Tg) : (withTg s g).net = s.net := rfl
@[simp] theorem withTg_acks (s : State) (g : Tg) : (withTg s g).acks = s.acks := rfl
@[simp] theorem withTg_overflowed (s : State) (g : Tg) : (withTg s g).overflowed = s.overflowed := rfl
@[simp] theorem withTg_heldHob (s : State) (g : Tg) : (withTg s g).heldHob = s.heldHob := rfl
@[simp] theorem withTg_heldEmber (s : State) (g : Tg) : (withTg s g).heldEmber = s.heldEmber := rfl
@[simp] theorem withTg_tg (s : State) (g : Tg) : (withTg s g).tg = g := rfl
@[simp] theorem withTg_rest (s : State) (g : Tg) : (withTg s g).rest = s.rest := rfl
@[simp] theorem withTg_wgs (s : State) (g : Tg) : (withTg s g).wgs = s.wgs := rfl
@[simp] theorem withTg_gangs (s : State) (g : Tg) : (withTg s g).gangs = s.gangs := rfl
@[simp] theorem withTg_launches (s : State) (g : Tg) : (withTg s g).launches = s.launches := rfl
@[simp] theorem withTg_lanes (s : State) (g : Tg) : (withTg s g).lanes = s.lanes := rfl
@[simp] theorem withTg_engUse (s : State) (g : Tg) : (withTg s g).engUse = s.engUse := rfl
@[simp] theorem withTg_ctxs (s : State) (g : Tg) : (withTg s g).ctxs = s.ctxs := rfl
@[simp] theorem withTg_spawnQ (s : State) (g : Tg) : (withTg s g).spawnQ = s.spawnQ := rfl
@[simp] theorem withTg_heldSpawns (s : State) (g : Tg) : (withTg s g).heldSpawns = s.heldSpawns := rfl
@[simp] theorem withTg_copies (s : State) (g : Tg) : (withTg s g).copies = s.copies := rfl
@[simp] theorem withTg_passes (s : State) (g : Tg) : (withTg s g).passes = s.passes := rfl
@[simp] theorem withTg_stoker (s : State) (g : Tg) : (withTg s g).stoker = s.stoker := rfl
@[simp] theorem withTg_frees (s : State) (g : Tg) : (withTg s g).frees = s.frees := rfl
@[simp] theorem withTg_pendings (s : State) (g : Tg) : (withTg s g).pendings = s.pendings := rfl
@[simp] theorem withTg_fb (s : State) (g : Tg) : (withTg s g).fb = s.fb := rfl
@[simp] theorem withTg_draws (s : State) (g : Tg) : (withTg s g).draws = s.draws := rfl
@[simp] theorem withTg_waits (s : State) (g : Tg) : (withTg s g).waits = s.waits := rfl
@[simp] theorem withTg_dev (s : State) (g : Tg) : (withTg s g).dev = s.dev := rfl

/-! ### Workgroups, gangs, launches, contexts, the device -/

@[simp] theorem State.modWg_ctr (s : State) (l g n : Nat) (f : Wg → Wg) : (s.modWg l g n f).ctr = s.ctr := rfl
@[simp] theorem State.modWg_turn (s : State) (l g n : Nat) (f : Wg → Wg) : (s.modWg l g n f).turn = s.turn := rfl
@[simp] theorem State.modWg_gt (s : State) (l g n : Nat) (f : Wg → Wg) : (s.modWg l g n f).gt = s.gt := rfl
@[simp] theorem State.modWg_cycle (s : State) (l g n : Nat) (f : Wg → Wg) : (s.modWg l g n f).cycle = s.cycle := rfl
@[simp] theorem State.modWg_mem (s : State) (l g n : Nat) (f : Wg → Wg) : (s.modWg l g n f).mem = s.mem := rfl
@[simp] theorem State.modWg_lines (s : State) (l g n : Nat) (f : Wg → Wg) : (s.modWg l g n f).lines = s.lines := rfl
@[simp] theorem State.modWg_setFloors (s : State) (l g n : Nat) (f : Wg → Wg) : (s.modWg l g n f).setFloors = s.setFloors := rfl
@[simp] theorem State.modWg_l1 (s : State) (l g n : Nat) (f : Wg → Wg) : (s.modWg l g n f).l1 = s.l1 := rfl
@[simp] theorem State.modWg_icopies (s : State) (l g n : Nat) (f : Wg → Wg) : (s.modWg l g n f).icopies = s.icopies := rfl
@[simp] theorem State.modWg_tlb (s : State) (l g n : Nat) (f : Wg → Wg) : (s.modWg l g n f).tlb = s.tlb := rfl
@[simp] theorem State.modWg_views (s : State) (l g n : Nat) (f : Wg → Wg) : (s.modWg l g n f).views = s.views := rfl
@[simp] theorem State.modWg_news (s : State) (l g n : Nat) (f : Wg → Wg) : (s.modWg l g n f).news = s.news := rfl
@[simp] theorem State.modWg_net (s : State) (l g n : Nat) (f : Wg → Wg) : (s.modWg l g n f).net = s.net := rfl
@[simp] theorem State.modWg_acks (s : State) (l g n : Nat) (f : Wg → Wg) : (s.modWg l g n f).acks = s.acks := rfl
@[simp] theorem State.modWg_overflowed (s : State) (l g n : Nat) (f : Wg → Wg) : (s.modWg l g n f).overflowed = s.overflowed := rfl
@[simp] theorem State.modWg_heldHob (s : State) (l g n : Nat) (f : Wg → Wg) : (s.modWg l g n f).heldHob = s.heldHob := rfl
@[simp] theorem State.modWg_heldEmber (s : State) (l g n : Nat) (f : Wg → Wg) : (s.modWg l g n f).heldEmber = s.heldEmber := rfl
@[simp] theorem State.modWg_tg (s : State) (l g n : Nat) (f : Wg → Wg) : (s.modWg l g n f).tg = s.tg := rfl
@[simp] theorem State.modWg_rest (s : State) (l g n : Nat) (f : Wg → Wg) : (s.modWg l g n f).rest = s.rest := rfl
@[simp] theorem State.modWg_wgs (s : State) (l g n : Nat) (f : Wg → Wg) : (s.modWg l g n f).wgs = replaceFirst (fun w => w.is l g n) f s.wgs := rfl
@[simp] theorem State.modWg_gangs (s : State) (l g n : Nat) (f : Wg → Wg) : (s.modWg l g n f).gangs = s.gangs := rfl
@[simp] theorem State.modWg_launches (s : State) (l g n : Nat) (f : Wg → Wg) : (s.modWg l g n f).launches = s.launches := rfl
@[simp] theorem State.modWg_lanes (s : State) (l g n : Nat) (f : Wg → Wg) : (s.modWg l g n f).lanes = s.lanes := rfl
@[simp] theorem State.modWg_engUse (s : State) (l g n : Nat) (f : Wg → Wg) : (s.modWg l g n f).engUse = s.engUse := rfl
@[simp] theorem State.modWg_ctxs (s : State) (l g n : Nat) (f : Wg → Wg) : (s.modWg l g n f).ctxs = s.ctxs := rfl
@[simp] theorem State.modWg_spawnQ (s : State) (l g n : Nat) (f : Wg → Wg) : (s.modWg l g n f).spawnQ = s.spawnQ := rfl
@[simp] theorem State.modWg_heldSpawns (s : State) (l g n : Nat) (f : Wg → Wg) : (s.modWg l g n f).heldSpawns = s.heldSpawns := rfl
@[simp] theorem State.modWg_copies (s : State) (l g n : Nat) (f : Wg → Wg) : (s.modWg l g n f).copies = s.copies := rfl
@[simp] theorem State.modWg_passes (s : State) (l g n : Nat) (f : Wg → Wg) : (s.modWg l g n f).passes = s.passes := rfl
@[simp] theorem State.modWg_stoker (s : State) (l g n : Nat) (f : Wg → Wg) : (s.modWg l g n f).stoker = s.stoker := rfl
@[simp] theorem State.modWg_frees (s : State) (l g n : Nat) (f : Wg → Wg) : (s.modWg l g n f).frees = s.frees := rfl
@[simp] theorem State.modWg_pendings (s : State) (l g n : Nat) (f : Wg → Wg) : (s.modWg l g n f).pendings = s.pendings := rfl
@[simp] theorem State.modWg_fb (s : State) (l g n : Nat) (f : Wg → Wg) : (s.modWg l g n f).fb = s.fb := rfl
@[simp] theorem State.modWg_draws (s : State) (l g n : Nat) (f : Wg → Wg) : (s.modWg l g n f).draws = s.draws := rfl
@[simp] theorem State.modWg_waits (s : State) (l g n : Nat) (f : Wg → Wg) : (s.modWg l g n f).waits = s.waits := rfl
@[simp] theorem State.modWg_dev (s : State) (l g n : Nat) (f : Wg → Wg) : (s.modWg l g n f).dev = s.dev := rfl

@[simp] theorem State.modGang_ctr (s : State) (l g : Nat) (f : Gang → Gang) : (s.modGang l g f).ctr = s.ctr := rfl
@[simp] theorem State.modGang_turn (s : State) (l g : Nat) (f : Gang → Gang) : (s.modGang l g f).turn = s.turn := rfl
@[simp] theorem State.modGang_gt (s : State) (l g : Nat) (f : Gang → Gang) : (s.modGang l g f).gt = s.gt := rfl
@[simp] theorem State.modGang_cycle (s : State) (l g : Nat) (f : Gang → Gang) : (s.modGang l g f).cycle = s.cycle := rfl
@[simp] theorem State.modGang_mem (s : State) (l g : Nat) (f : Gang → Gang) : (s.modGang l g f).mem = s.mem := rfl
@[simp] theorem State.modGang_lines (s : State) (l g : Nat) (f : Gang → Gang) : (s.modGang l g f).lines = s.lines := rfl
@[simp] theorem State.modGang_setFloors (s : State) (l g : Nat) (f : Gang → Gang) : (s.modGang l g f).setFloors = s.setFloors := rfl
@[simp] theorem State.modGang_l1 (s : State) (l g : Nat) (f : Gang → Gang) : (s.modGang l g f).l1 = s.l1 := rfl
@[simp] theorem State.modGang_icopies (s : State) (l g : Nat) (f : Gang → Gang) : (s.modGang l g f).icopies = s.icopies := rfl
@[simp] theorem State.modGang_tlb (s : State) (l g : Nat) (f : Gang → Gang) : (s.modGang l g f).tlb = s.tlb := rfl
@[simp] theorem State.modGang_views (s : State) (l g : Nat) (f : Gang → Gang) : (s.modGang l g f).views = s.views := rfl
@[simp] theorem State.modGang_news (s : State) (l g : Nat) (f : Gang → Gang) : (s.modGang l g f).news = s.news := rfl
@[simp] theorem State.modGang_net (s : State) (l g : Nat) (f : Gang → Gang) : (s.modGang l g f).net = s.net := rfl
@[simp] theorem State.modGang_acks (s : State) (l g : Nat) (f : Gang → Gang) : (s.modGang l g f).acks = s.acks := rfl
@[simp] theorem State.modGang_overflowed (s : State) (l g : Nat) (f : Gang → Gang) : (s.modGang l g f).overflowed = s.overflowed := rfl
@[simp] theorem State.modGang_heldHob (s : State) (l g : Nat) (f : Gang → Gang) : (s.modGang l g f).heldHob = s.heldHob := rfl
@[simp] theorem State.modGang_heldEmber (s : State) (l g : Nat) (f : Gang → Gang) : (s.modGang l g f).heldEmber = s.heldEmber := rfl
@[simp] theorem State.modGang_tg (s : State) (l g : Nat) (f : Gang → Gang) : (s.modGang l g f).tg = s.tg := rfl
@[simp] theorem State.modGang_rest (s : State) (l g : Nat) (f : Gang → Gang) : (s.modGang l g f).rest = s.rest := rfl
@[simp] theorem State.modGang_wgs (s : State) (l g : Nat) (f : Gang → Gang) : (s.modGang l g f).wgs = s.wgs := rfl
@[simp] theorem State.modGang_gangs (s : State) (l g : Nat) (f : Gang → Gang) : (s.modGang l g f).gangs = replaceFirst (fun x => x.launch = l && x.no = g) f s.gangs := rfl
@[simp] theorem State.modGang_launches (s : State) (l g : Nat) (f : Gang → Gang) : (s.modGang l g f).launches = s.launches := rfl
@[simp] theorem State.modGang_lanes (s : State) (l g : Nat) (f : Gang → Gang) : (s.modGang l g f).lanes = s.lanes := rfl
@[simp] theorem State.modGang_engUse (s : State) (l g : Nat) (f : Gang → Gang) : (s.modGang l g f).engUse = s.engUse := rfl
@[simp] theorem State.modGang_ctxs (s : State) (l g : Nat) (f : Gang → Gang) : (s.modGang l g f).ctxs = s.ctxs := rfl
@[simp] theorem State.modGang_spawnQ (s : State) (l g : Nat) (f : Gang → Gang) : (s.modGang l g f).spawnQ = s.spawnQ := rfl
@[simp] theorem State.modGang_heldSpawns (s : State) (l g : Nat) (f : Gang → Gang) : (s.modGang l g f).heldSpawns = s.heldSpawns := rfl
@[simp] theorem State.modGang_copies (s : State) (l g : Nat) (f : Gang → Gang) : (s.modGang l g f).copies = s.copies := rfl
@[simp] theorem State.modGang_passes (s : State) (l g : Nat) (f : Gang → Gang) : (s.modGang l g f).passes = s.passes := rfl
@[simp] theorem State.modGang_stoker (s : State) (l g : Nat) (f : Gang → Gang) : (s.modGang l g f).stoker = s.stoker := rfl
@[simp] theorem State.modGang_frees (s : State) (l g : Nat) (f : Gang → Gang) : (s.modGang l g f).frees = s.frees := rfl
@[simp] theorem State.modGang_pendings (s : State) (l g : Nat) (f : Gang → Gang) : (s.modGang l g f).pendings = s.pendings := rfl
@[simp] theorem State.modGang_fb (s : State) (l g : Nat) (f : Gang → Gang) : (s.modGang l g f).fb = s.fb := rfl
@[simp] theorem State.modGang_draws (s : State) (l g : Nat) (f : Gang → Gang) : (s.modGang l g f).draws = s.draws := rfl
@[simp] theorem State.modGang_waits (s : State) (l g : Nat) (f : Gang → Gang) : (s.modGang l g f).waits = s.waits := rfl
@[simp] theorem State.modGang_dev (s : State) (l g : Nat) (f : Gang → Gang) : (s.modGang l g f).dev = s.dev := rfl

@[simp] theorem State.modLaunch_ctr (s : State) (l : Nat) (f : Launch → Launch) : (s.modLaunch l f).ctr = s.ctr := rfl
@[simp] theorem State.modLaunch_turn (s : State) (l : Nat) (f : Launch → Launch) : (s.modLaunch l f).turn = s.turn := rfl
@[simp] theorem State.modLaunch_gt (s : State) (l : Nat) (f : Launch → Launch) : (s.modLaunch l f).gt = s.gt := rfl
@[simp] theorem State.modLaunch_cycle (s : State) (l : Nat) (f : Launch → Launch) : (s.modLaunch l f).cycle = s.cycle := rfl
@[simp] theorem State.modLaunch_mem (s : State) (l : Nat) (f : Launch → Launch) : (s.modLaunch l f).mem = s.mem := rfl
@[simp] theorem State.modLaunch_lines (s : State) (l : Nat) (f : Launch → Launch) : (s.modLaunch l f).lines = s.lines := rfl
@[simp] theorem State.modLaunch_setFloors (s : State) (l : Nat) (f : Launch → Launch) : (s.modLaunch l f).setFloors = s.setFloors := rfl
@[simp] theorem State.modLaunch_l1 (s : State) (l : Nat) (f : Launch → Launch) : (s.modLaunch l f).l1 = s.l1 := rfl
@[simp] theorem State.modLaunch_icopies (s : State) (l : Nat) (f : Launch → Launch) : (s.modLaunch l f).icopies = s.icopies := rfl
@[simp] theorem State.modLaunch_tlb (s : State) (l : Nat) (f : Launch → Launch) : (s.modLaunch l f).tlb = s.tlb := rfl
@[simp] theorem State.modLaunch_views (s : State) (l : Nat) (f : Launch → Launch) : (s.modLaunch l f).views = s.views := rfl
@[simp] theorem State.modLaunch_news (s : State) (l : Nat) (f : Launch → Launch) : (s.modLaunch l f).news = s.news := rfl
@[simp] theorem State.modLaunch_net (s : State) (l : Nat) (f : Launch → Launch) : (s.modLaunch l f).net = s.net := rfl
@[simp] theorem State.modLaunch_acks (s : State) (l : Nat) (f : Launch → Launch) : (s.modLaunch l f).acks = s.acks := rfl
@[simp] theorem State.modLaunch_overflowed (s : State) (l : Nat) (f : Launch → Launch) : (s.modLaunch l f).overflowed = s.overflowed := rfl
@[simp] theorem State.modLaunch_heldHob (s : State) (l : Nat) (f : Launch → Launch) : (s.modLaunch l f).heldHob = s.heldHob := rfl
@[simp] theorem State.modLaunch_heldEmber (s : State) (l : Nat) (f : Launch → Launch) : (s.modLaunch l f).heldEmber = s.heldEmber := rfl
@[simp] theorem State.modLaunch_tg (s : State) (l : Nat) (f : Launch → Launch) : (s.modLaunch l f).tg = s.tg := rfl
@[simp] theorem State.modLaunch_rest (s : State) (l : Nat) (f : Launch → Launch) : (s.modLaunch l f).rest = s.rest := rfl
@[simp] theorem State.modLaunch_wgs (s : State) (l : Nat) (f : Launch → Launch) : (s.modLaunch l f).wgs = s.wgs := rfl
@[simp] theorem State.modLaunch_gangs (s : State) (l : Nat) (f : Launch → Launch) : (s.modLaunch l f).gangs = s.gangs := rfl
@[simp] theorem State.modLaunch_launches (s : State) (l : Nat) (f : Launch → Launch) : (s.modLaunch l f).launches = replaceFirst (fun x => x.no = l) f s.launches := rfl
@[simp] theorem State.modLaunch_lanes (s : State) (l : Nat) (f : Launch → Launch) : (s.modLaunch l f).lanes = s.lanes := rfl
@[simp] theorem State.modLaunch_engUse (s : State) (l : Nat) (f : Launch → Launch) : (s.modLaunch l f).engUse = s.engUse := rfl
@[simp] theorem State.modLaunch_ctxs (s : State) (l : Nat) (f : Launch → Launch) : (s.modLaunch l f).ctxs = s.ctxs := rfl
@[simp] theorem State.modLaunch_spawnQ (s : State) (l : Nat) (f : Launch → Launch) : (s.modLaunch l f).spawnQ = s.spawnQ := rfl
@[simp] theorem State.modLaunch_heldSpawns (s : State) (l : Nat) (f : Launch → Launch) : (s.modLaunch l f).heldSpawns = s.heldSpawns := rfl
@[simp] theorem State.modLaunch_copies (s : State) (l : Nat) (f : Launch → Launch) : (s.modLaunch l f).copies = s.copies := rfl
@[simp] theorem State.modLaunch_passes (s : State) (l : Nat) (f : Launch → Launch) : (s.modLaunch l f).passes = s.passes := rfl
@[simp] theorem State.modLaunch_stoker (s : State) (l : Nat) (f : Launch → Launch) : (s.modLaunch l f).stoker = s.stoker := rfl
@[simp] theorem State.modLaunch_frees (s : State) (l : Nat) (f : Launch → Launch) : (s.modLaunch l f).frees = s.frees := rfl
@[simp] theorem State.modLaunch_pendings (s : State) (l : Nat) (f : Launch → Launch) : (s.modLaunch l f).pendings = s.pendings := rfl
@[simp] theorem State.modLaunch_fb (s : State) (l : Nat) (f : Launch → Launch) : (s.modLaunch l f).fb = s.fb := rfl
@[simp] theorem State.modLaunch_draws (s : State) (l : Nat) (f : Launch → Launch) : (s.modLaunch l f).draws = s.draws := rfl
@[simp] theorem State.modLaunch_waits (s : State) (l : Nat) (f : Launch → Launch) : (s.modLaunch l f).waits = s.waits := rfl
@[simp] theorem State.modLaunch_dev (s : State) (l : Nat) (f : Launch → Launch) : (s.modLaunch l f).dev = s.dev := rfl

@[simp] theorem State.modCtx_ctr (s : State) (c : Nat) (f : Ctx → Ctx) : (s.modCtx c f).ctr = s.ctr := rfl
@[simp] theorem State.modCtx_turn (s : State) (c : Nat) (f : Ctx → Ctx) : (s.modCtx c f).turn = s.turn := rfl
@[simp] theorem State.modCtx_gt (s : State) (c : Nat) (f : Ctx → Ctx) : (s.modCtx c f).gt = s.gt := rfl
@[simp] theorem State.modCtx_cycle (s : State) (c : Nat) (f : Ctx → Ctx) : (s.modCtx c f).cycle = s.cycle := rfl
@[simp] theorem State.modCtx_mem (s : State) (c : Nat) (f : Ctx → Ctx) : (s.modCtx c f).mem = s.mem := rfl
@[simp] theorem State.modCtx_lines (s : State) (c : Nat) (f : Ctx → Ctx) : (s.modCtx c f).lines = s.lines := rfl
@[simp] theorem State.modCtx_setFloors (s : State) (c : Nat) (f : Ctx → Ctx) : (s.modCtx c f).setFloors = s.setFloors := rfl
@[simp] theorem State.modCtx_l1 (s : State) (c : Nat) (f : Ctx → Ctx) : (s.modCtx c f).l1 = s.l1 := rfl
@[simp] theorem State.modCtx_icopies (s : State) (c : Nat) (f : Ctx → Ctx) : (s.modCtx c f).icopies = s.icopies := rfl
@[simp] theorem State.modCtx_tlb (s : State) (c : Nat) (f : Ctx → Ctx) : (s.modCtx c f).tlb = s.tlb := rfl
@[simp] theorem State.modCtx_views (s : State) (c : Nat) (f : Ctx → Ctx) : (s.modCtx c f).views = s.views := rfl
@[simp] theorem State.modCtx_news (s : State) (c : Nat) (f : Ctx → Ctx) : (s.modCtx c f).news = s.news := rfl
@[simp] theorem State.modCtx_net (s : State) (c : Nat) (f : Ctx → Ctx) : (s.modCtx c f).net = s.net := rfl
@[simp] theorem State.modCtx_acks (s : State) (c : Nat) (f : Ctx → Ctx) : (s.modCtx c f).acks = s.acks := rfl
@[simp] theorem State.modCtx_overflowed (s : State) (c : Nat) (f : Ctx → Ctx) : (s.modCtx c f).overflowed = s.overflowed := rfl
@[simp] theorem State.modCtx_heldHob (s : State) (c : Nat) (f : Ctx → Ctx) : (s.modCtx c f).heldHob = s.heldHob := rfl
@[simp] theorem State.modCtx_heldEmber (s : State) (c : Nat) (f : Ctx → Ctx) : (s.modCtx c f).heldEmber = s.heldEmber := rfl
@[simp] theorem State.modCtx_tg (s : State) (c : Nat) (f : Ctx → Ctx) : (s.modCtx c f).tg = s.tg := rfl
@[simp] theorem State.modCtx_rest (s : State) (c : Nat) (f : Ctx → Ctx) : (s.modCtx c f).rest = s.rest := rfl
@[simp] theorem State.modCtx_wgs (s : State) (c : Nat) (f : Ctx → Ctx) : (s.modCtx c f).wgs = s.wgs := rfl
@[simp] theorem State.modCtx_gangs (s : State) (c : Nat) (f : Ctx → Ctx) : (s.modCtx c f).gangs = s.gangs := rfl
@[simp] theorem State.modCtx_launches (s : State) (c : Nat) (f : Ctx → Ctx) : (s.modCtx c f).launches = s.launches := rfl
@[simp] theorem State.modCtx_lanes (s : State) (c : Nat) (f : Ctx → Ctx) : (s.modCtx c f).lanes = s.lanes := rfl
@[simp] theorem State.modCtx_engUse (s : State) (c : Nat) (f : Ctx → Ctx) : (s.modCtx c f).engUse = s.engUse := rfl
@[simp] theorem State.modCtx_ctxs (s : State) (c : Nat) (f : Ctx → Ctx) : (s.modCtx c f).ctxs = replaceFirst (fun x => x.id = c) f s.ctxs := rfl
@[simp] theorem State.modCtx_spawnQ (s : State) (c : Nat) (f : Ctx → Ctx) : (s.modCtx c f).spawnQ = s.spawnQ := rfl
@[simp] theorem State.modCtx_heldSpawns (s : State) (c : Nat) (f : Ctx → Ctx) : (s.modCtx c f).heldSpawns = s.heldSpawns := rfl
@[simp] theorem State.modCtx_copies (s : State) (c : Nat) (f : Ctx → Ctx) : (s.modCtx c f).copies = s.copies := rfl
@[simp] theorem State.modCtx_passes (s : State) (c : Nat) (f : Ctx → Ctx) : (s.modCtx c f).passes = s.passes := rfl
@[simp] theorem State.modCtx_stoker (s : State) (c : Nat) (f : Ctx → Ctx) : (s.modCtx c f).stoker = s.stoker := rfl
@[simp] theorem State.modCtx_frees (s : State) (c : Nat) (f : Ctx → Ctx) : (s.modCtx c f).frees = s.frees := rfl
@[simp] theorem State.modCtx_pendings (s : State) (c : Nat) (f : Ctx → Ctx) : (s.modCtx c f).pendings = s.pendings := rfl
@[simp] theorem State.modCtx_fb (s : State) (c : Nat) (f : Ctx → Ctx) : (s.modCtx c f).fb = s.fb := rfl
@[simp] theorem State.modCtx_draws (s : State) (c : Nat) (f : Ctx → Ctx) : (s.modCtx c f).draws = s.draws := rfl
@[simp] theorem State.modCtx_waits (s : State) (c : Nat) (f : Ctx → Ctx) : (s.modCtx c f).waits = s.waits := rfl
@[simp] theorem State.modCtx_dev (s : State) (c : Nat) (f : Ctx → Ctx) : (s.modCtx c f).dev = s.dev := rfl

@[simp] theorem State.modDev_ctr (s : State) (f : Dev → Dev) : (s.modDev f).ctr = s.ctr := rfl
@[simp] theorem State.modDev_turn (s : State) (f : Dev → Dev) : (s.modDev f).turn = s.turn := rfl
@[simp] theorem State.modDev_gt (s : State) (f : Dev → Dev) : (s.modDev f).gt = s.gt := rfl
@[simp] theorem State.modDev_cycle (s : State) (f : Dev → Dev) : (s.modDev f).cycle = s.cycle := rfl
@[simp] theorem State.modDev_mem (s : State) (f : Dev → Dev) : (s.modDev f).mem = s.mem := rfl
@[simp] theorem State.modDev_lines (s : State) (f : Dev → Dev) : (s.modDev f).lines = s.lines := rfl
@[simp] theorem State.modDev_setFloors (s : State) (f : Dev → Dev) : (s.modDev f).setFloors = s.setFloors := rfl
@[simp] theorem State.modDev_l1 (s : State) (f : Dev → Dev) : (s.modDev f).l1 = s.l1 := rfl
@[simp] theorem State.modDev_icopies (s : State) (f : Dev → Dev) : (s.modDev f).icopies = s.icopies := rfl
@[simp] theorem State.modDev_tlb (s : State) (f : Dev → Dev) : (s.modDev f).tlb = s.tlb := rfl
@[simp] theorem State.modDev_views (s : State) (f : Dev → Dev) : (s.modDev f).views = s.views := rfl
@[simp] theorem State.modDev_news (s : State) (f : Dev → Dev) : (s.modDev f).news = s.news := rfl
@[simp] theorem State.modDev_net (s : State) (f : Dev → Dev) : (s.modDev f).net = s.net := rfl
@[simp] theorem State.modDev_acks (s : State) (f : Dev → Dev) : (s.modDev f).acks = s.acks := rfl
@[simp] theorem State.modDev_overflowed (s : State) (f : Dev → Dev) : (s.modDev f).overflowed = s.overflowed := rfl
@[simp] theorem State.modDev_heldHob (s : State) (f : Dev → Dev) : (s.modDev f).heldHob = s.heldHob := rfl
@[simp] theorem State.modDev_heldEmber (s : State) (f : Dev → Dev) : (s.modDev f).heldEmber = s.heldEmber := rfl
@[simp] theorem State.modDev_tg (s : State) (f : Dev → Dev) : (s.modDev f).tg = s.tg := rfl
@[simp] theorem State.modDev_rest (s : State) (f : Dev → Dev) : (s.modDev f).rest = s.rest := rfl
@[simp] theorem State.modDev_wgs (s : State) (f : Dev → Dev) : (s.modDev f).wgs = s.wgs := rfl
@[simp] theorem State.modDev_gangs (s : State) (f : Dev → Dev) : (s.modDev f).gangs = s.gangs := rfl
@[simp] theorem State.modDev_launches (s : State) (f : Dev → Dev) : (s.modDev f).launches = s.launches := rfl
@[simp] theorem State.modDev_lanes (s : State) (f : Dev → Dev) : (s.modDev f).lanes = s.lanes := rfl
@[simp] theorem State.modDev_engUse (s : State) (f : Dev → Dev) : (s.modDev f).engUse = s.engUse := rfl
@[simp] theorem State.modDev_ctxs (s : State) (f : Dev → Dev) : (s.modDev f).ctxs = s.ctxs := rfl
@[simp] theorem State.modDev_spawnQ (s : State) (f : Dev → Dev) : (s.modDev f).spawnQ = s.spawnQ := rfl
@[simp] theorem State.modDev_heldSpawns (s : State) (f : Dev → Dev) : (s.modDev f).heldSpawns = s.heldSpawns := rfl
@[simp] theorem State.modDev_copies (s : State) (f : Dev → Dev) : (s.modDev f).copies = s.copies := rfl
@[simp] theorem State.modDev_passes (s : State) (f : Dev → Dev) : (s.modDev f).passes = s.passes := rfl
@[simp] theorem State.modDev_stoker (s : State) (f : Dev → Dev) : (s.modDev f).stoker = s.stoker := rfl
@[simp] theorem State.modDev_frees (s : State) (f : Dev → Dev) : (s.modDev f).frees = s.frees := rfl
@[simp] theorem State.modDev_pendings (s : State) (f : Dev → Dev) : (s.modDev f).pendings = s.pendings := rfl
@[simp] theorem State.modDev_fb (s : State) (f : Dev → Dev) : (s.modDev f).fb = s.fb := rfl
@[simp] theorem State.modDev_draws (s : State) (f : Dev → Dev) : (s.modDev f).draws = s.draws := rfl
@[simp] theorem State.modDev_waits (s : State) (f : Dev → Dev) : (s.modDev f).waits = s.waits := rfl
@[simp] theorem State.modDev_dev (s : State) (f : Dev → Dev) : (s.modDev f).dev = f s.dev := rfl

/-! ### Lines and messages -/

@[simp] theorem State.dropMsg_ctr (s : State) (k : Nat) : (s.dropMsg k).ctr = s.ctr := rfl
@[simp] theorem State.dropMsg_turn (s : State) (k : Nat) : (s.dropMsg k).turn = s.turn := rfl
@[simp] theorem State.dropMsg_gt (s : State) (k : Nat) : (s.dropMsg k).gt = s.gt := rfl
@[simp] theorem State.dropMsg_cycle (s : State) (k : Nat) : (s.dropMsg k).cycle = s.cycle := rfl
@[simp] theorem State.dropMsg_mem (s : State) (k : Nat) : (s.dropMsg k).mem = s.mem := rfl
@[simp] theorem State.dropMsg_lines (s : State) (k : Nat) : (s.dropMsg k).lines = s.lines := rfl
@[simp] theorem State.dropMsg_setFloors (s : State) (k : Nat) : (s.dropMsg k).setFloors = s.setFloors := rfl
@[simp] theorem State.dropMsg_l1 (s : State) (k : Nat) : (s.dropMsg k).l1 = s.l1 := rfl
@[simp] theorem State.dropMsg_icopies (s : State) (k : Nat) : (s.dropMsg k).icopies = s.icopies := rfl
@[simp] theorem State.dropMsg_tlb (s : State) (k : Nat) : (s.dropMsg k).tlb = s.tlb := rfl
@[simp] theorem State.dropMsg_views (s : State) (k : Nat) : (s.dropMsg k).views = s.views := rfl
@[simp] theorem State.dropMsg_news (s : State) (k : Nat) : (s.dropMsg k).news = s.news := rfl
@[simp] theorem State.dropMsg_net (s : State) (k : Nat) : (s.dropMsg k).net = dropAt s.net k := rfl
@[simp] theorem State.dropMsg_acks (s : State) (k : Nat) : (s.dropMsg k).acks = s.acks := rfl
@[simp] theorem State.dropMsg_overflowed (s : State) (k : Nat) : (s.dropMsg k).overflowed = s.overflowed := rfl
@[simp] theorem State.dropMsg_heldHob (s : State) (k : Nat) : (s.dropMsg k).heldHob = s.heldHob := rfl
@[simp] theorem State.dropMsg_heldEmber (s : State) (k : Nat) : (s.dropMsg k).heldEmber = s.heldEmber := rfl
@[simp] theorem State.dropMsg_tg (s : State) (k : Nat) : (s.dropMsg k).tg = s.tg := rfl
@[simp] theorem State.dropMsg_rest (s : State) (k : Nat) : (s.dropMsg k).rest = s.rest := rfl
@[simp] theorem State.dropMsg_wgs (s : State) (k : Nat) : (s.dropMsg k).wgs = s.wgs := rfl
@[simp] theorem State.dropMsg_gangs (s : State) (k : Nat) : (s.dropMsg k).gangs = s.gangs := rfl
@[simp] theorem State.dropMsg_launches (s : State) (k : Nat) : (s.dropMsg k).launches = s.launches := rfl
@[simp] theorem State.dropMsg_lanes (s : State) (k : Nat) : (s.dropMsg k).lanes = s.lanes := rfl
@[simp] theorem State.dropMsg_engUse (s : State) (k : Nat) : (s.dropMsg k).engUse = s.engUse := rfl
@[simp] theorem State.dropMsg_ctxs (s : State) (k : Nat) : (s.dropMsg k).ctxs = s.ctxs := rfl
@[simp] theorem State.dropMsg_spawnQ (s : State) (k : Nat) : (s.dropMsg k).spawnQ = s.spawnQ := rfl
@[simp] theorem State.dropMsg_heldSpawns (s : State) (k : Nat) : (s.dropMsg k).heldSpawns = s.heldSpawns := rfl
@[simp] theorem State.dropMsg_copies (s : State) (k : Nat) : (s.dropMsg k).copies = s.copies := rfl
@[simp] theorem State.dropMsg_passes (s : State) (k : Nat) : (s.dropMsg k).passes = s.passes := rfl
@[simp] theorem State.dropMsg_stoker (s : State) (k : Nat) : (s.dropMsg k).stoker = s.stoker := rfl
@[simp] theorem State.dropMsg_frees (s : State) (k : Nat) : (s.dropMsg k).frees = s.frees := rfl
@[simp] theorem State.dropMsg_pendings (s : State) (k : Nat) : (s.dropMsg k).pendings = s.pendings := rfl
@[simp] theorem State.dropMsg_fb (s : State) (k : Nat) : (s.dropMsg k).fb = s.fb := rfl
@[simp] theorem State.dropMsg_draws (s : State) (k : Nat) : (s.dropMsg k).draws = s.draws := rfl
@[simp] theorem State.dropMsg_waits (s : State) (k : Nat) : (s.dropMsg k).waits = s.waits := rfl
@[simp] theorem State.dropMsg_dev (s : State) (k : Nat) : (s.dropMsg k).dev = s.dev := rfl

@[simp] theorem State.modLine_ctr (s : State) (no : Nat) (f : Line → Line) : (s.modLine no f).ctr = s.ctr := rfl
@[simp] theorem State.modLine_turn (s : State) (no : Nat) (f : Line → Line) : (s.modLine no f).turn = s.turn := rfl
@[simp] theorem State.modLine_gt (s : State) (no : Nat) (f : Line → Line) : (s.modLine no f).gt = s.gt := rfl
@[simp] theorem State.modLine_cycle (s : State) (no : Nat) (f : Line → Line) : (s.modLine no f).cycle = s.cycle := rfl
@[simp] theorem State.modLine_mem (s : State) (no : Nat) (f : Line → Line) : (s.modLine no f).mem = s.mem := rfl
@[simp] theorem State.modLine_setFloors (s : State) (no : Nat) (f : Line → Line) : (s.modLine no f).setFloors = s.setFloors := rfl
@[simp] theorem State.modLine_l1 (s : State) (no : Nat) (f : Line → Line) : (s.modLine no f).l1 = s.l1 := rfl
@[simp] theorem State.modLine_icopies (s : State) (no : Nat) (f : Line → Line) : (s.modLine no f).icopies = s.icopies := rfl
@[simp] theorem State.modLine_tlb (s : State) (no : Nat) (f : Line → Line) : (s.modLine no f).tlb = s.tlb := rfl
@[simp] theorem State.modLine_views (s : State) (no : Nat) (f : Line → Line) : (s.modLine no f).views = s.views := rfl
@[simp] theorem State.modLine_news (s : State) (no : Nat) (f : Line → Line) : (s.modLine no f).news = s.news := rfl
@[simp] theorem State.modLine_net (s : State) (no : Nat) (f : Line → Line) : (s.modLine no f).net = s.net := rfl
@[simp] theorem State.modLine_acks (s : State) (no : Nat) (f : Line → Line) : (s.modLine no f).acks = s.acks := rfl
@[simp] theorem State.modLine_overflowed (s : State) (no : Nat) (f : Line → Line) : (s.modLine no f).overflowed = s.overflowed := rfl
@[simp] theorem State.modLine_heldHob (s : State) (no : Nat) (f : Line → Line) : (s.modLine no f).heldHob = s.heldHob := rfl
@[simp] theorem State.modLine_heldEmber (s : State) (no : Nat) (f : Line → Line) : (s.modLine no f).heldEmber = s.heldEmber := rfl
@[simp] theorem State.modLine_tg (s : State) (no : Nat) (f : Line → Line) : (s.modLine no f).tg = s.tg := rfl
@[simp] theorem State.modLine_rest (s : State) (no : Nat) (f : Line → Line) : (s.modLine no f).rest = s.rest := rfl
@[simp] theorem State.modLine_wgs (s : State) (no : Nat) (f : Line → Line) : (s.modLine no f).wgs = s.wgs := rfl
@[simp] theorem State.modLine_gangs (s : State) (no : Nat) (f : Line → Line) : (s.modLine no f).gangs = s.gangs := rfl
@[simp] theorem State.modLine_launches (s : State) (no : Nat) (f : Line → Line) : (s.modLine no f).launches = s.launches := rfl
@[simp] theorem State.modLine_lanes (s : State) (no : Nat) (f : Line → Line) : (s.modLine no f).lanes = s.lanes := rfl
@[simp] theorem State.modLine_engUse (s : State) (no : Nat) (f : Line → Line) : (s.modLine no f).engUse = s.engUse := rfl
@[simp] theorem State.modLine_ctxs (s : State) (no : Nat) (f : Line → Line) : (s.modLine no f).ctxs = s.ctxs := rfl
@[simp] theorem State.modLine_spawnQ (s : State) (no : Nat) (f : Line → Line) : (s.modLine no f).spawnQ = s.spawnQ := rfl
@[simp] theorem State.modLine_heldSpawns (s : State) (no : Nat) (f : Line → Line) : (s.modLine no f).heldSpawns = s.heldSpawns := rfl
@[simp] theorem State.modLine_copies (s : State) (no : Nat) (f : Line → Line) : (s.modLine no f).copies = s.copies := rfl
@[simp] theorem State.modLine_passes (s : State) (no : Nat) (f : Line → Line) : (s.modLine no f).passes = s.passes := rfl
@[simp] theorem State.modLine_stoker (s : State) (no : Nat) (f : Line → Line) : (s.modLine no f).stoker = s.stoker := rfl
@[simp] theorem State.modLine_frees (s : State) (no : Nat) (f : Line → Line) : (s.modLine no f).frees = s.frees := rfl
@[simp] theorem State.modLine_pendings (s : State) (no : Nat) (f : Line → Line) : (s.modLine no f).pendings = s.pendings := rfl
@[simp] theorem State.modLine_fb (s : State) (no : Nat) (f : Line → Line) : (s.modLine no f).fb = s.fb := rfl
@[simp] theorem State.modLine_draws (s : State) (no : Nat) (f : Line → Line) : (s.modLine no f).draws = s.draws := rfl
@[simp] theorem State.modLine_waits (s : State) (no : Nat) (f : Line → Line) : (s.modLine no f).waits = s.waits := rfl
@[simp] theorem State.modLine_dev (s : State) (no : Nat) (f : Line → Line) : (s.modLine no f).dev = s.dev := rfl

/-! ### Another thread group -/

@[simp] theorem State.modTgAt_ctr (s : State) (k : TgKey) (f : Tg → Tg) : (s.modTgAt k f).ctr = s.ctr := by unfold State.modTgAt; split <;> rfl
@[simp] theorem State.modTgAt_turn (s : State) (k : TgKey) (f : Tg → Tg) : (s.modTgAt k f).turn = s.turn := by unfold State.modTgAt; split <;> rfl
@[simp] theorem State.modTgAt_gt (s : State) (k : TgKey) (f : Tg → Tg) : (s.modTgAt k f).gt = s.gt := by unfold State.modTgAt; split <;> rfl
@[simp] theorem State.modTgAt_cycle (s : State) (k : TgKey) (f : Tg → Tg) : (s.modTgAt k f).cycle = s.cycle := by unfold State.modTgAt; split <;> rfl
@[simp] theorem State.modTgAt_mem (s : State) (k : TgKey) (f : Tg → Tg) : (s.modTgAt k f).mem = s.mem := by unfold State.modTgAt; split <;> rfl
@[simp] theorem State.modTgAt_lines (s : State) (k : TgKey) (f : Tg → Tg) : (s.modTgAt k f).lines = s.lines := by unfold State.modTgAt; split <;> rfl
@[simp] theorem State.modTgAt_setFloors (s : State) (k : TgKey) (f : Tg → Tg) : (s.modTgAt k f).setFloors = s.setFloors := by unfold State.modTgAt; split <;> rfl
@[simp] theorem State.modTgAt_l1 (s : State) (k : TgKey) (f : Tg → Tg) : (s.modTgAt k f).l1 = s.l1 := by unfold State.modTgAt; split <;> rfl
@[simp] theorem State.modTgAt_icopies (s : State) (k : TgKey) (f : Tg → Tg) : (s.modTgAt k f).icopies = s.icopies := by unfold State.modTgAt; split <;> rfl
@[simp] theorem State.modTgAt_tlb (s : State) (k : TgKey) (f : Tg → Tg) : (s.modTgAt k f).tlb = s.tlb := by unfold State.modTgAt; split <;> rfl
@[simp] theorem State.modTgAt_views (s : State) (k : TgKey) (f : Tg → Tg) : (s.modTgAt k f).views = s.views := by unfold State.modTgAt; split <;> rfl
@[simp] theorem State.modTgAt_news (s : State) (k : TgKey) (f : Tg → Tg) : (s.modTgAt k f).news = s.news := by unfold State.modTgAt; split <;> rfl
@[simp] theorem State.modTgAt_net (s : State) (k : TgKey) (f : Tg → Tg) : (s.modTgAt k f).net = s.net := by unfold State.modTgAt; split <;> rfl
@[simp] theorem State.modTgAt_acks (s : State) (k : TgKey) (f : Tg → Tg) : (s.modTgAt k f).acks = s.acks := by unfold State.modTgAt; split <;> rfl
@[simp] theorem State.modTgAt_overflowed (s : State) (k : TgKey) (f : Tg → Tg) : (s.modTgAt k f).overflowed = s.overflowed := by unfold State.modTgAt; split <;> rfl
@[simp] theorem State.modTgAt_heldHob (s : State) (k : TgKey) (f : Tg → Tg) : (s.modTgAt k f).heldHob = s.heldHob := by unfold State.modTgAt; split <;> rfl
@[simp] theorem State.modTgAt_heldEmber (s : State) (k : TgKey) (f : Tg → Tg) : (s.modTgAt k f).heldEmber = s.heldEmber := by unfold State.modTgAt; split <;> rfl
@[simp] theorem State.modTgAt_wgs (s : State) (k : TgKey) (f : Tg → Tg) : (s.modTgAt k f).wgs = s.wgs := by unfold State.modTgAt; split <;> rfl
@[simp] theorem State.modTgAt_gangs (s : State) (k : TgKey) (f : Tg → Tg) : (s.modTgAt k f).gangs = s.gangs := by unfold State.modTgAt; split <;> rfl
@[simp] theorem State.modTgAt_launches (s : State) (k : TgKey) (f : Tg → Tg) : (s.modTgAt k f).launches = s.launches := by unfold State.modTgAt; split <;> rfl
@[simp] theorem State.modTgAt_lanes (s : State) (k : TgKey) (f : Tg → Tg) : (s.modTgAt k f).lanes = s.lanes := by unfold State.modTgAt; split <;> rfl
@[simp] theorem State.modTgAt_engUse (s : State) (k : TgKey) (f : Tg → Tg) : (s.modTgAt k f).engUse = s.engUse := by unfold State.modTgAt; split <;> rfl
@[simp] theorem State.modTgAt_ctxs (s : State) (k : TgKey) (f : Tg → Tg) : (s.modTgAt k f).ctxs = s.ctxs := by unfold State.modTgAt; split <;> rfl
@[simp] theorem State.modTgAt_spawnQ (s : State) (k : TgKey) (f : Tg → Tg) : (s.modTgAt k f).spawnQ = s.spawnQ := by unfold State.modTgAt; split <;> rfl
@[simp] theorem State.modTgAt_heldSpawns (s : State) (k : TgKey) (f : Tg → Tg) : (s.modTgAt k f).heldSpawns = s.heldSpawns := by unfold State.modTgAt; split <;> rfl
@[simp] theorem State.modTgAt_copies (s : State) (k : TgKey) (f : Tg → Tg) : (s.modTgAt k f).copies = s.copies := by unfold State.modTgAt; split <;> rfl
@[simp] theorem State.modTgAt_passes (s : State) (k : TgKey) (f : Tg → Tg) : (s.modTgAt k f).passes = s.passes := by unfold State.modTgAt; split <;> rfl
@[simp] theorem State.modTgAt_stoker (s : State) (k : TgKey) (f : Tg → Tg) : (s.modTgAt k f).stoker = s.stoker := by unfold State.modTgAt; split <;> rfl
@[simp] theorem State.modTgAt_frees (s : State) (k : TgKey) (f : Tg → Tg) : (s.modTgAt k f).frees = s.frees := by unfold State.modTgAt; split <;> rfl
@[simp] theorem State.modTgAt_pendings (s : State) (k : TgKey) (f : Tg → Tg) : (s.modTgAt k f).pendings = s.pendings := by unfold State.modTgAt; split <;> rfl
@[simp] theorem State.modTgAt_fb (s : State) (k : TgKey) (f : Tg → Tg) : (s.modTgAt k f).fb = s.fb := by unfold State.modTgAt; split <;> rfl
@[simp] theorem State.modTgAt_draws (s : State) (k : TgKey) (f : Tg → Tg) : (s.modTgAt k f).draws = s.draws := by unfold State.modTgAt; split <;> rfl
@[simp] theorem State.modTgAt_waits (s : State) (k : TgKey) (f : Tg → Tg) : (s.modTgAt k f).waits = s.waits := by unfold State.modTgAt; split <;> rfl
@[simp] theorem State.modTgAt_dev (s : State) (k : TgKey) (f : Tg → Tg) : (s.modTgAt k f).dev = s.dev := by unfold State.modTgAt; split <;> rfl

/-! ### Parts of a thread group -/

@[simp] theorem Tg.fresh_key (g : Tg) : (g.fresh).key = g.key := rfl
@[simp] theorem Tg.fresh_on (g : Tg) : (g.fresh).on = g.on := rfl
@[simp] theorem Tg.fresh_ctx (g : Tg) : (g.fresh).ctx = g.ctx := rfl
@[simp] theorem Tg.fresh_core (g : Tg) : (g.fresh).core = g.core := rfl
@[simp] theorem Tg.fresh_slot (g : Tg) : (g.fresh).slot = g.slot := rfl
@[simp] theorem Tg.fresh_pc (g : Tg) : (g.fresh).pc = g.pc := rfl
@[simp] theorem Tg.fresh_v (g : Tg) : (g.fresh).v = g.v := rfl
@[simp] theorem Tg.fresh_s (g : Tg) : (g.fresh).s = g.s := rfl
@[simp] theorem Tg.fresh_p (g : Tg) : (g.fresh).p = g.p := rfl
@[simp] theorem Tg.fresh_gm (g : Tg) : (g.fresh).gm = g.gm := rfl
@[simp] theorem Tg.fresh_b (g : Tg) : (g.fresh).b = g.b := rfl
@[simp] theorem Tg.fresh_bv (g : Tg) : (g.fresh).bv = g.bv := rfl
@[simp] theorem Tg.fresh_bop (g : Tg) : (g.fresh).bop = g.bop := rfl
@[simp] theorem Tg.fresh_stack (g : Tg) : (g.fresh).stack = g.stack := rfl
@[simp] theorem Tg.fresh_cm (g : Tg) : (g.fresh).cm = g.cm := rfl
@[simp] theorem Tg.fresh_live (g : Tg) : (g.fresh).live = g.live := rfl
@[simp] theorem Tg.fresh_home (g : Tg) : (g.fresh).home = g.home := rfl
@[simp] theorem Tg.fresh_q (g : Tg) : (g.fresh).q = g.q := rfl
@[simp] theorem Tg.fresh_sp (g : Tg) : (g.fresh).sp = g.sp := rfl
@[simp] theorem Tg.fresh_flags (g : Tg) : (g.fresh).flags = g.flags := rfl
@[simp] theorem Tg.fresh_fptrap (g : Tg) : (g.fresh).fptrap = g.fptrap := rfl
@[simp] theorem Tg.fresh_lease (g : Tg) : (g.fresh).lease = g.lease := rfl
@[simp] theorem Tg.fresh_priv (g : Tg) : (g.fresh).priv = g.priv := rfl
@[simp] theorem Tg.fresh_trpc (g : Tg) : (g.fresh).trpc = g.trpc := rfl
@[simp] theorem Tg.fresh_tepc (g : Tg) : (g.fresh).tepc = g.tepc := rfl
@[simp] theorem Tg.fresh_taddr (g : Tg) : (g.fresh).taddr = g.taddr := rfl
@[simp] theorem Tg.fresh_trec (g : Tg) : (g.fresh).trec = g.trec := rfl
@[simp] theorem Tg.fresh_tcause (g : Tg) : (g.fresh).tcause = g.tcause := rfl
@[simp] theorem Tg.fresh_tmask (g : Tg) : (g.fresh).tmask = g.tmask := rfl
@[simp] theorem Tg.fresh_tgm (g : Tg) : (g.fresh).tgm = g.tgm := rfl
@[simp] theorem Tg.fresh_region (g : Tg) : (g.fresh).region = g.region := rfl
@[simp] theorem Tg.fresh_wctMax (g : Tg) : (g.fresh).wctMax = g.wctMax := rfl
@[simp] theorem Tg.fresh_unack (g : Tg) : (g.fresh).unack = g.unack := rfl
@[simp] theorem Tg.fresh_floors (g : Tg) : (g.fresh).floors = g.floors := rfl
@[simp] theorem Tg.fresh_rnd (g : Tg) : (g.fresh).rnd = g.rnd := rfl
@[simp] theorem Tg.fresh_embers (g : Tg) : (g.fresh).embers = g.embers := rfl
@[simp] theorem Tg.fresh_elds (g : Tg) : (g.fresh).elds = g.elds := rfl
@[simp] theorem Tg.fresh_hobs (g : Tg) : (g.fresh).hobs = g.hobs := rfl
@[simp] theorem Tg.fresh_spawns (g : Tg) : (g.fresh).spawns = g.spawns := rfl
@[simp] theorem Tg.fresh_arrA (g : Tg) : (g.fresh).arrA = g.arrA := rfl
@[simp] theorem Tg.fresh_arrG (g : Tg) : (g.fresh).arrG = g.arrG := rfl
@[simp] theorem Tg.fresh_pins (g : Tg) : (g.fresh).pins = g.pins := rfl
@[simp] theorem Tg.fresh_monitor (g : Tg) : (g.fresh).monitor = g.monitor := rfl
@[simp] theorem Tg.fresh_ops (g : Tg) : (g.fresh).ops = g.ops := rfl
@[simp] theorem Tg.fresh_nextOp (g : Tg) : (g.fresh).nextOp = g.nextOp := rfl
@[simp] theorem Tg.fresh_held (g : Tg) : (g.fresh).held = [] := rfl
@[simp] theorem Tg.fresh_quantum (g : Tg) : (g.fresh).quantum = g.quantum := rfl
@[simp] theorem Tg.fresh_rays (g : Tg) : (g.fresh).rays = g.rays := rfl
@[simp] theorem Tg.fresh_blocks (g : Tg) : (g.fresh).blocks = g.blocks := rfl
@[simp] theorem Tg.fresh_aFifo (g : Tg) : (g.fresh).aFifo = g.aFifo := rfl
@[simp] theorem Tg.fresh_aSide (g : Tg) : (g.fresh).aSide = g.aSide := rfl
@[simp] theorem Tg.fresh_rayOut (g : Tg) : (g.fresh).rayOut = g.rayOut := rfl
@[simp] theorem Tg.fresh_phase (g : Tg) : (g.fresh).phase = .fresh := rfl
@[simp] theorem Tg.fresh_waiting (g : Tg) : (g.fresh).waiting = false := rfl
@[simp] theorem Tg.fresh_keepLane (g : Tg) : (g.fresh).keepLane = false := rfl
@[simp] theorem Tg.fresh_woken (g : Tg) : (g.fresh).woken = false := rfl
@[simp] theorem Tg.fresh_turnDue (g : Tg) : (g.fresh).turnDue = g.turnDue := rfl
@[simp] theorem Tg.fresh_place (g : Tg) : (g.fresh).place = [] := rfl
@[simp] theorem Tg.fresh_slow (g : Tg) : (g.fresh).slow = g.slow := rfl
@[simp] theorem Tg.fresh_yielded (g : Tg) : (g.fresh).yielded = false := rfl
@[simp] theorem Tg.fresh_budgetTrap (g : Tg) : (g.fresh).budgetTrap = g.budgetTrap := rfl
@[simp] theorem Tg.fresh_readyFor (g : Tg) : (g.fresh).readyFor = 0 := rfl
@[simp] theorem Tg.fresh_sysw (g : Tg) : (g.fresh).sysw = g.sysw := rfl
@[simp] theorem Tg.fresh_word (g : Tg) : (g.fresh).word = g.word := rfl

@[simp] theorem Tg.next_key (g : Tg) : (g.next).key = g.key := rfl
@[simp] theorem Tg.next_on (g : Tg) : (g.next).on = g.on := rfl
@[simp] theorem Tg.next_ctx (g : Tg) : (g.next).ctx = g.ctx := rfl
@[simp] theorem Tg.next_core (g : Tg) : (g.next).core = g.core := rfl
@[simp] theorem Tg.next_slot (g : Tg) : (g.next).slot = g.slot := rfl
@[simp] theorem Tg.next_pc (g : Tg) : (g.next).pc = g.pc + 4 := rfl
@[simp] theorem Tg.next_v (g : Tg) : (g.next).v = g.v := rfl
@[simp] theorem Tg.next_s (g : Tg) : (g.next).s = g.s := rfl
@[simp] theorem Tg.next_p (g : Tg) : (g.next).p = g.p := rfl
@[simp] theorem Tg.next_gm (g : Tg) : (g.next).gm = g.gm := rfl
@[simp] theorem Tg.next_b (g : Tg) : (g.next).b = g.b := rfl
@[simp] theorem Tg.next_bv (g : Tg) : (g.next).bv = g.bv := rfl
@[simp] theorem Tg.next_bop (g : Tg) : (g.next).bop = g.bop := rfl
@[simp] theorem Tg.next_stack (g : Tg) : (g.next).stack = g.stack := rfl
@[simp] theorem Tg.next_cm (g : Tg) : (g.next).cm = g.cm := rfl
@[simp] theorem Tg.next_live (g : Tg) : (g.next).live = g.live := rfl
@[simp] theorem Tg.next_home (g : Tg) : (g.next).home = g.home := rfl
@[simp] theorem Tg.next_q (g : Tg) : (g.next).q = g.q := rfl
@[simp] theorem Tg.next_sp (g : Tg) : (g.next).sp = g.sp := rfl
@[simp] theorem Tg.next_flags (g : Tg) : (g.next).flags = g.flags := rfl
@[simp] theorem Tg.next_fptrap (g : Tg) : (g.next).fptrap = g.fptrap := rfl
@[simp] theorem Tg.next_lease (g : Tg) : (g.next).lease = g.lease := rfl
@[simp] theorem Tg.next_priv (g : Tg) : (g.next).priv = g.priv := rfl
@[simp] theorem Tg.next_trpc (g : Tg) : (g.next).trpc = g.trpc := rfl
@[simp] theorem Tg.next_tepc (g : Tg) : (g.next).tepc = g.tepc := rfl
@[simp] theorem Tg.next_taddr (g : Tg) : (g.next).taddr = g.taddr := rfl
@[simp] theorem Tg.next_trec (g : Tg) : (g.next).trec = g.trec := rfl
@[simp] theorem Tg.next_tcause (g : Tg) : (g.next).tcause = g.tcause := rfl
@[simp] theorem Tg.next_tmask (g : Tg) : (g.next).tmask = g.tmask := rfl
@[simp] theorem Tg.next_tgm (g : Tg) : (g.next).tgm = g.tgm := rfl
@[simp] theorem Tg.next_region (g : Tg) : (g.next).region = g.region := rfl
@[simp] theorem Tg.next_wctMax (g : Tg) : (g.next).wctMax = g.wctMax := rfl
@[simp] theorem Tg.next_unack (g : Tg) : (g.next).unack = g.unack := rfl
@[simp] theorem Tg.next_floors (g : Tg) : (g.next).floors = g.floors := rfl
@[simp] theorem Tg.next_rnd (g : Tg) : (g.next).rnd = g.rnd := rfl
@[simp] theorem Tg.next_embers (g : Tg) : (g.next).embers = g.embers := rfl
@[simp] theorem Tg.next_elds (g : Tg) : (g.next).elds = g.elds := rfl
@[simp] theorem Tg.next_hobs (g : Tg) : (g.next).hobs = g.hobs := rfl
@[simp] theorem Tg.next_spawns (g : Tg) : (g.next).spawns = g.spawns := rfl
@[simp] theorem Tg.next_arrA (g : Tg) : (g.next).arrA = g.arrA := rfl
@[simp] theorem Tg.next_arrG (g : Tg) : (g.next).arrG = g.arrG := rfl
@[simp] theorem Tg.next_pins (g : Tg) : (g.next).pins = g.pins := rfl
@[simp] theorem Tg.next_monitor (g : Tg) : (g.next).monitor = g.monitor := rfl
@[simp] theorem Tg.next_ops (g : Tg) : (g.next).ops = g.ops := rfl
@[simp] theorem Tg.next_nextOp (g : Tg) : (g.next).nextOp = g.nextOp := rfl
@[simp] theorem Tg.next_held (g : Tg) : (g.next).held = [] := rfl
@[simp] theorem Tg.next_quantum (g : Tg) : (g.next).quantum = g.quantum := rfl
@[simp] theorem Tg.next_rays (g : Tg) : (g.next).rays = g.rays := rfl
@[simp] theorem Tg.next_blocks (g : Tg) : (g.next).blocks = g.blocks := rfl
@[simp] theorem Tg.next_aFifo (g : Tg) : (g.next).aFifo = g.aFifo := rfl
@[simp] theorem Tg.next_aSide (g : Tg) : (g.next).aSide = g.aSide := rfl
@[simp] theorem Tg.next_rayOut (g : Tg) : (g.next).rayOut = g.rayOut := rfl
@[simp] theorem Tg.next_phase (g : Tg) : (g.next).phase = .fresh := rfl
@[simp] theorem Tg.next_waiting (g : Tg) : (g.next).waiting = false := rfl
@[simp] theorem Tg.next_keepLane (g : Tg) : (g.next).keepLane = false := rfl
@[simp] theorem Tg.next_woken (g : Tg) : (g.next).woken = false := rfl
@[simp] theorem Tg.next_turnDue (g : Tg) : (g.next).turnDue = g.turnDue := rfl
@[simp] theorem Tg.next_place (g : Tg) : (g.next).place = [] := rfl
@[simp] theorem Tg.next_slow (g : Tg) : (g.next).slow = g.slow := rfl
@[simp] theorem Tg.next_yielded (g : Tg) : (g.next).yielded = false := rfl
@[simp] theorem Tg.next_budgetTrap (g : Tg) : (g.next).budgetTrap = g.budgetTrap := rfl
@[simp] theorem Tg.next_readyFor (g : Tg) : (g.next).readyFor = 0 := rfl
@[simp] theorem Tg.next_sysw (g : Tg) : (g.next).sysw = g.sysw := rfl
@[simp] theorem Tg.next_word (g : Tg) : (g.next).word = g.word := rfl

@[simp] theorem Tg.loseOlder_key (g : Tg) : (g.loseOlder).key = g.key := rfl
@[simp] theorem Tg.loseOlder_on (g : Tg) : (g.loseOlder).on = g.on := rfl
@[simp] theorem Tg.loseOlder_ctx (g : Tg) : (g.loseOlder).ctx = g.ctx := rfl
@[simp] theorem Tg.loseOlder_core (g : Tg) : (g.loseOlder).core = g.core := rfl
@[simp] theorem Tg.loseOlder_slot (g : Tg) : (g.loseOlder).slot = g.slot := rfl
@[simp] theorem Tg.loseOlder_pc (g : Tg) : (g.loseOlder).pc = g.pc := rfl
@[simp] theorem Tg.loseOlder_v (g : Tg) : (g.loseOlder).v = g.v := rfl
@[simp] theorem Tg.loseOlder_s (g : Tg) : (g.loseOlder).s = g.s := rfl
@[simp] theorem Tg.loseOlder_p (g : Tg) : (g.loseOlder).p = g.p := rfl
@[simp] theorem Tg.loseOlder_gm (g : Tg) : (g.loseOlder).gm = g.gm := rfl
@[simp] theorem Tg.loseOlder_b (g : Tg) : (g.loseOlder).b = g.b := rfl
@[simp] theorem Tg.loseOlder_bv (g : Tg) : (g.loseOlder).bv = #v[vget g.bv 0, false, false, false] := rfl
@[simp] theorem Tg.loseOlder_bop (g : Tg) : (g.loseOlder).bop = g.bop := rfl
@[simp] theorem Tg.loseOlder_stack (g : Tg) : (g.loseOlder).stack = g.stack := rfl
@[simp] theorem Tg.loseOlder_cm (g : Tg) : (g.loseOlder).cm = g.cm := rfl
@[simp] theorem Tg.loseOlder_live (g : Tg) : (g.loseOlder).live = g.live := rfl
@[simp] theorem Tg.loseOlder_home (g : Tg) : (g.loseOlder).home = g.home := rfl
@[simp] theorem Tg.loseOlder_q (g : Tg) : (g.loseOlder).q = g.q := rfl
@[simp] theorem Tg.loseOlder_sp (g : Tg) : (g.loseOlder).sp = g.sp := rfl
@[simp] theorem Tg.loseOlder_flags (g : Tg) : (g.loseOlder).flags = g.flags := rfl
@[simp] theorem Tg.loseOlder_fptrap (g : Tg) : (g.loseOlder).fptrap = g.fptrap := rfl
@[simp] theorem Tg.loseOlder_lease (g : Tg) : (g.loseOlder).lease = g.lease := rfl
@[simp] theorem Tg.loseOlder_priv (g : Tg) : (g.loseOlder).priv = g.priv := rfl
@[simp] theorem Tg.loseOlder_trpc (g : Tg) : (g.loseOlder).trpc = g.trpc := rfl
@[simp] theorem Tg.loseOlder_tepc (g : Tg) : (g.loseOlder).tepc = g.tepc := rfl
@[simp] theorem Tg.loseOlder_taddr (g : Tg) : (g.loseOlder).taddr = g.taddr := rfl
@[simp] theorem Tg.loseOlder_trec (g : Tg) : (g.loseOlder).trec = g.trec := rfl
@[simp] theorem Tg.loseOlder_tcause (g : Tg) : (g.loseOlder).tcause = g.tcause := rfl
@[simp] theorem Tg.loseOlder_tmask (g : Tg) : (g.loseOlder).tmask = g.tmask := rfl
@[simp] theorem Tg.loseOlder_tgm (g : Tg) : (g.loseOlder).tgm = g.tgm := rfl
@[simp] theorem Tg.loseOlder_region (g : Tg) : (g.loseOlder).region = g.region := rfl
@[simp] theorem Tg.loseOlder_wctMax (g : Tg) : (g.loseOlder).wctMax = g.wctMax := rfl
@[simp] theorem Tg.loseOlder_unack (g : Tg) : (g.loseOlder).unack = g.unack := rfl
@[simp] theorem Tg.loseOlder_floors (g : Tg) : (g.loseOlder).floors = g.floors := rfl
@[simp] theorem Tg.loseOlder_rnd (g : Tg) : (g.loseOlder).rnd = g.rnd := rfl
@[simp] theorem Tg.loseOlder_embers (g : Tg) : (g.loseOlder).embers = g.embers := rfl
@[simp] theorem Tg.loseOlder_elds (g : Tg) : (g.loseOlder).elds = g.elds := rfl
@[simp] theorem Tg.loseOlder_hobs (g : Tg) : (g.loseOlder).hobs = g.hobs := rfl
@[simp] theorem Tg.loseOlder_spawns (g : Tg) : (g.loseOlder).spawns = g.spawns := rfl
@[simp] theorem Tg.loseOlder_arrA (g : Tg) : (g.loseOlder).arrA = g.arrA := rfl
@[simp] theorem Tg.loseOlder_arrG (g : Tg) : (g.loseOlder).arrG = g.arrG := rfl
@[simp] theorem Tg.loseOlder_pins (g : Tg) : (g.loseOlder).pins = g.pins := rfl
@[simp] theorem Tg.loseOlder_monitor (g : Tg) : (g.loseOlder).monitor = g.monitor := rfl
@[simp] theorem Tg.loseOlder_ops (g : Tg) : (g.loseOlder).ops = g.ops := rfl
@[simp] theorem Tg.loseOlder_nextOp (g : Tg) : (g.loseOlder).nextOp = g.nextOp := rfl
@[simp] theorem Tg.loseOlder_held (g : Tg) : (g.loseOlder).held = g.held := rfl
@[simp] theorem Tg.loseOlder_quantum (g : Tg) : (g.loseOlder).quantum = g.quantum := rfl
@[simp] theorem Tg.loseOlder_rays (g : Tg) : (g.loseOlder).rays = g.rays := rfl
@[simp] theorem Tg.loseOlder_blocks (g : Tg) : (g.loseOlder).blocks = g.blocks := rfl
@[simp] theorem Tg.loseOlder_aFifo (g : Tg) : (g.loseOlder).aFifo = g.aFifo := rfl
@[simp] theorem Tg.loseOlder_aSide (g : Tg) : (g.loseOlder).aSide = g.aSide := rfl
@[simp] theorem Tg.loseOlder_rayOut (g : Tg) : (g.loseOlder).rayOut = g.rayOut := rfl
@[simp] theorem Tg.loseOlder_phase (g : Tg) : (g.loseOlder).phase = g.phase := rfl
@[simp] theorem Tg.loseOlder_waiting (g : Tg) : (g.loseOlder).waiting = g.waiting := rfl
@[simp] theorem Tg.loseOlder_keepLane (g : Tg) : (g.loseOlder).keepLane = g.keepLane := rfl
@[simp] theorem Tg.loseOlder_woken (g : Tg) : (g.loseOlder).woken = g.woken := rfl
@[simp] theorem Tg.loseOlder_turnDue (g : Tg) : (g.loseOlder).turnDue = g.turnDue := rfl
@[simp] theorem Tg.loseOlder_place (g : Tg) : (g.loseOlder).place = g.place := rfl
@[simp] theorem Tg.loseOlder_slow (g : Tg) : (g.loseOlder).slow = g.slow := rfl
@[simp] theorem Tg.loseOlder_yielded (g : Tg) : (g.loseOlder).yielded = g.yielded := rfl
@[simp] theorem Tg.loseOlder_budgetTrap (g : Tg) : (g.loseOlder).budgetTrap = g.budgetTrap := rfl
@[simp] theorem Tg.loseOlder_readyFor (g : Tg) : (g.loseOlder).readyFor = g.readyFor := rfl
@[simp] theorem Tg.loseOlder_sysw (g : Tg) : (g.loseOlder).sysw = g.sysw := rfl
@[simp] theorem Tg.loseOlder_word (g : Tg) : (g.loseOlder).word = g.word := rfl

@[simp] theorem Tg.clearLatches_key (g : Tg) : (g.clearLatches).key = g.key := rfl
@[simp] theorem Tg.clearLatches_on (g : Tg) : (g.clearLatches).on = g.on := rfl
@[simp] theorem Tg.clearLatches_ctx (g : Tg) : (g.clearLatches).ctx = g.ctx := rfl
@[simp] theorem Tg.clearLatches_core (g : Tg) : (g.clearLatches).core = g.core := rfl
@[simp] theorem Tg.clearLatches_slot (g : Tg) : (g.clearLatches).slot = g.slot := rfl
@[simp] theorem Tg.clearLatches_pc (g : Tg) : (g.clearLatches).pc = g.pc := rfl
@[simp] theorem Tg.clearLatches_v (g : Tg) : (g.clearLatches).v = g.v := rfl
@[simp] theorem Tg.clearLatches_s (g : Tg) : (g.clearLatches).s = g.s := rfl
@[simp] theorem Tg.clearLatches_p (g : Tg) : (g.clearLatches).p = g.p := rfl
@[simp] theorem Tg.clearLatches_gm (g : Tg) : (g.clearLatches).gm = g.gm := rfl
@[simp] theorem Tg.clearLatches_b (g : Tg) : (g.clearLatches).b = g.b := rfl
@[simp] theorem Tg.clearLatches_bv (g : Tg) : (g.clearLatches).bv = Vector.replicate 4 false := rfl
@[simp] theorem Tg.clearLatches_bop (g : Tg) : (g.clearLatches).bop = g.bop := rfl
@[simp] theorem Tg.clearLatches_stack (g : Tg) : (g.clearLatches).stack = g.stack := rfl
@[simp] theorem Tg.clearLatches_cm (g : Tg) : (g.clearLatches).cm = g.cm := rfl
@[simp] theorem Tg.clearLatches_live (g : Tg) : (g.clearLatches).live = g.live := rfl
@[simp] theorem Tg.clearLatches_home (g : Tg) : (g.clearLatches).home = g.home := rfl
@[simp] theorem Tg.clearLatches_q (g : Tg) : (g.clearLatches).q = g.q := rfl
@[simp] theorem Tg.clearLatches_sp (g : Tg) : (g.clearLatches).sp = g.sp := rfl
@[simp] theorem Tg.clearLatches_flags (g : Tg) : (g.clearLatches).flags = g.flags := rfl
@[simp] theorem Tg.clearLatches_fptrap (g : Tg) : (g.clearLatches).fptrap = g.fptrap := rfl
@[simp] theorem Tg.clearLatches_lease (g : Tg) : (g.clearLatches).lease = g.lease := rfl
@[simp] theorem Tg.clearLatches_priv (g : Tg) : (g.clearLatches).priv = g.priv := rfl
@[simp] theorem Tg.clearLatches_trpc (g : Tg) : (g.clearLatches).trpc = g.trpc := rfl
@[simp] theorem Tg.clearLatches_tepc (g : Tg) : (g.clearLatches).tepc = g.tepc := rfl
@[simp] theorem Tg.clearLatches_taddr (g : Tg) : (g.clearLatches).taddr = g.taddr := rfl
@[simp] theorem Tg.clearLatches_trec (g : Tg) : (g.clearLatches).trec = g.trec := rfl
@[simp] theorem Tg.clearLatches_tcause (g : Tg) : (g.clearLatches).tcause = g.tcause := rfl
@[simp] theorem Tg.clearLatches_tmask (g : Tg) : (g.clearLatches).tmask = g.tmask := rfl
@[simp] theorem Tg.clearLatches_tgm (g : Tg) : (g.clearLatches).tgm = g.tgm := rfl
@[simp] theorem Tg.clearLatches_region (g : Tg) : (g.clearLatches).region = g.region := rfl
@[simp] theorem Tg.clearLatches_wctMax (g : Tg) : (g.clearLatches).wctMax = g.wctMax := rfl
@[simp] theorem Tg.clearLatches_unack (g : Tg) : (g.clearLatches).unack = g.unack := rfl
@[simp] theorem Tg.clearLatches_floors (g : Tg) : (g.clearLatches).floors = g.floors := rfl
@[simp] theorem Tg.clearLatches_rnd (g : Tg) : (g.clearLatches).rnd = g.rnd := rfl
@[simp] theorem Tg.clearLatches_embers (g : Tg) : (g.clearLatches).embers = g.embers := rfl
@[simp] theorem Tg.clearLatches_elds (g : Tg) : (g.clearLatches).elds = g.elds := rfl
@[simp] theorem Tg.clearLatches_hobs (g : Tg) : (g.clearLatches).hobs = g.hobs := rfl
@[simp] theorem Tg.clearLatches_spawns (g : Tg) : (g.clearLatches).spawns = g.spawns := rfl
@[simp] theorem Tg.clearLatches_arrA (g : Tg) : (g.clearLatches).arrA = g.arrA := rfl
@[simp] theorem Tg.clearLatches_arrG (g : Tg) : (g.clearLatches).arrG = g.arrG := rfl
@[simp] theorem Tg.clearLatches_pins (g : Tg) : (g.clearLatches).pins = g.pins := rfl
@[simp] theorem Tg.clearLatches_monitor (g : Tg) : (g.clearLatches).monitor = g.monitor := rfl
@[simp] theorem Tg.clearLatches_ops (g : Tg) : (g.clearLatches).ops = g.ops := rfl
@[simp] theorem Tg.clearLatches_nextOp (g : Tg) : (g.clearLatches).nextOp = g.nextOp := rfl
@[simp] theorem Tg.clearLatches_held (g : Tg) : (g.clearLatches).held = g.held := rfl
@[simp] theorem Tg.clearLatches_quantum (g : Tg) : (g.clearLatches).quantum = g.quantum := rfl
@[simp] theorem Tg.clearLatches_rays (g : Tg) : (g.clearLatches).rays = g.rays := rfl
@[simp] theorem Tg.clearLatches_blocks (g : Tg) : (g.clearLatches).blocks = g.blocks := rfl
@[simp] theorem Tg.clearLatches_aFifo (g : Tg) : (g.clearLatches).aFifo = g.aFifo := rfl
@[simp] theorem Tg.clearLatches_aSide (g : Tg) : (g.clearLatches).aSide = g.aSide := rfl
@[simp] theorem Tg.clearLatches_rayOut (g : Tg) : (g.clearLatches).rayOut = g.rayOut := rfl
@[simp] theorem Tg.clearLatches_phase (g : Tg) : (g.clearLatches).phase = g.phase := rfl
@[simp] theorem Tg.clearLatches_waiting (g : Tg) : (g.clearLatches).waiting = g.waiting := rfl
@[simp] theorem Tg.clearLatches_keepLane (g : Tg) : (g.clearLatches).keepLane = g.keepLane := rfl
@[simp] theorem Tg.clearLatches_woken (g : Tg) : (g.clearLatches).woken = g.woken := rfl
@[simp] theorem Tg.clearLatches_turnDue (g : Tg) : (g.clearLatches).turnDue = g.turnDue := rfl
@[simp] theorem Tg.clearLatches_place (g : Tg) : (g.clearLatches).place = g.place := rfl
@[simp] theorem Tg.clearLatches_slow (g : Tg) : (g.clearLatches).slow = g.slow := rfl
@[simp] theorem Tg.clearLatches_yielded (g : Tg) : (g.clearLatches).yielded = g.yielded := rfl
@[simp] theorem Tg.clearLatches_budgetTrap (g : Tg) : (g.clearLatches).budgetTrap = g.budgetTrap := rfl
@[simp] theorem Tg.clearLatches_readyFor (g : Tg) : (g.clearLatches).readyFor = g.readyFor := rfl
@[simp] theorem Tg.clearLatches_sysw (g : Tg) : (g.clearLatches).sysw = g.sysw := rfl
@[simp] theorem Tg.clearLatches_word (g : Tg) : (g.clearLatches).word = g.word := rfl

@[simp] theorem Tg.shift_key (g : Tg) (x : Vector W64 8) (o : Option Nat) : (g.shift x o).key = g.key := rfl
@[simp] theorem Tg.shift_on (g : Tg) (x : Vector W64 8) (o : Option Nat) : (g.shift x o).on = g.on := rfl
@[simp] theorem Tg.shift_ctx (g : Tg) (x : Vector W64 8) (o : Option Nat) : (g.shift x o).ctx = g.ctx := rfl
@[simp] theorem Tg.shift_core (g : Tg) (x : Vector W64 8) (o : Option Nat) : (g.shift x o).core = g.core := rfl
@[simp] theorem Tg.shift_slot (g : Tg) (x : Vector W64 8) (o : Option Nat) : (g.shift x o).slot = g.slot := rfl
@[simp] theorem Tg.shift_pc (g : Tg) (x : Vector W64 8) (o : Option Nat) : (g.shift x o).pc = g.pc := rfl
@[simp] theorem Tg.shift_v (g : Tg) (x : Vector W64 8) (o : Option Nat) : (g.shift x o).v = g.v := rfl
@[simp] theorem Tg.shift_s (g : Tg) (x : Vector W64 8) (o : Option Nat) : (g.shift x o).s = g.s := rfl
@[simp] theorem Tg.shift_p (g : Tg) (x : Vector W64 8) (o : Option Nat) : (g.shift x o).p = g.p := rfl
@[simp] theorem Tg.shift_gm (g : Tg) (x : Vector W64 8) (o : Option Nat) : (g.shift x o).gm = g.gm := rfl
@[simp] theorem Tg.shift_b (g : Tg) (x : Vector W64 8) (o : Option Nat) : (g.shift x o).b = #v[x, vget g.b 0, vget g.b 1, vget g.b 2] := rfl
@[simp] theorem Tg.shift_bv (g : Tg) (x : Vector W64 8) (o : Option Nat) : (g.shift x o).bv = #v[true, vget g.bv 0, vget g.bv 1, vget g.bv 2] := rfl
@[simp] theorem Tg.shift_bop (g : Tg) (x : Vector W64 8) (o : Option Nat) : (g.shift x o).bop = #v[o, vget g.bop 0, vget g.bop 1, vget g.bop 2] := rfl
@[simp] theorem Tg.shift_stack (g : Tg) (x : Vector W64 8) (o : Option Nat) : (g.shift x o).stack = g.stack := rfl
@[simp] theorem Tg.shift_cm (g : Tg) (x : Vector W64 8) (o : Option Nat) : (g.shift x o).cm = g.cm := rfl
@[simp] theorem Tg.shift_live (g : Tg) (x : Vector W64 8) (o : Option Nat) : (g.shift x o).live = g.live := rfl
@[simp] theorem Tg.shift_home (g : Tg) (x : Vector W64 8) (o : Option Nat) : (g.shift x o).home = g.home := rfl
@[simp] theorem Tg.shift_q (g : Tg) (x : Vector W64 8) (o : Option Nat) : (g.shift x o).q = g.q := rfl
@[simp] theorem Tg.shift_sp (g : Tg) (x : Vector W64 8) (o : Option Nat) : (g.shift x o).sp = g.sp := rfl
@[simp] theorem Tg.shift_flags (g : Tg) (x : Vector W64 8) (o : Option Nat) : (g.shift x o).flags = g.flags := rfl
@[simp] theorem Tg.shift_fptrap (g : Tg) (x : Vector W64 8) (o : Option Nat) : (g.shift x o).fptrap = g.fptrap := rfl
@[simp] theorem Tg.shift_lease (g : Tg) (x : Vector W64 8) (o : Option Nat) : (g.shift x o).lease = g.lease := rfl
@[simp] theorem Tg.shift_priv (g : Tg) (x : Vector W64 8) (o : Option Nat) : (g.shift x o).priv = g.priv := rfl
@[simp] theorem Tg.shift_trpc (g : Tg) (x : Vector W64 8) (o : Option Nat) : (g.shift x o).trpc = g.trpc := rfl
@[simp] theorem Tg.shift_tepc (g : Tg) (x : Vector W64 8) (o : Option Nat) : (g.shift x o).tepc = g.tepc := rfl
@[simp] theorem Tg.shift_taddr (g : Tg) (x : Vector W64 8) (o : Option Nat) : (g.shift x o).taddr = g.taddr := rfl
@[simp] theorem Tg.shift_trec (g : Tg) (x : Vector W64 8) (o : Option Nat) : (g.shift x o).trec = g.trec := rfl
@[simp] theorem Tg.shift_tcause (g : Tg) (x : Vector W64 8) (o : Option Nat) : (g.shift x o).tcause = g.tcause := rfl
@[simp] theorem Tg.shift_tmask (g : Tg) (x : Vector W64 8) (o : Option Nat) : (g.shift x o).tmask = g.tmask := rfl
@[simp] theorem Tg.shift_tgm (g : Tg) (x : Vector W64 8) (o : Option Nat) : (g.shift x o).tgm = g.tgm := rfl
@[simp] theorem Tg.shift_region (g : Tg) (x : Vector W64 8) (o : Option Nat) : (g.shift x o).region = g.region := rfl
@[simp] theorem Tg.shift_wctMax (g : Tg) (x : Vector W64 8) (o : Option Nat) : (g.shift x o).wctMax = g.wctMax := rfl
@[simp] theorem Tg.shift_unack (g : Tg) (x : Vector W64 8) (o : Option Nat) : (g.shift x o).unack = g.unack := rfl
@[simp] theorem Tg.shift_floors (g : Tg) (x : Vector W64 8) (o : Option Nat) : (g.shift x o).floors = g.floors := rfl
@[simp] theorem Tg.shift_rnd (g : Tg) (x : Vector W64 8) (o : Option Nat) : (g.shift x o).rnd = g.rnd := rfl
@[simp] theorem Tg.shift_embers (g : Tg) (x : Vector W64 8) (o : Option Nat) : (g.shift x o).embers = g.embers := rfl
@[simp] theorem Tg.shift_elds (g : Tg) (x : Vector W64 8) (o : Option Nat) : (g.shift x o).elds = g.elds := rfl
@[simp] theorem Tg.shift_hobs (g : Tg) (x : Vector W64 8) (o : Option Nat) : (g.shift x o).hobs = g.hobs := rfl
@[simp] theorem Tg.shift_spawns (g : Tg) (x : Vector W64 8) (o : Option Nat) : (g.shift x o).spawns = g.spawns := rfl
@[simp] theorem Tg.shift_arrA (g : Tg) (x : Vector W64 8) (o : Option Nat) : (g.shift x o).arrA = g.arrA := rfl
@[simp] theorem Tg.shift_arrG (g : Tg) (x : Vector W64 8) (o : Option Nat) : (g.shift x o).arrG = g.arrG := rfl
@[simp] theorem Tg.shift_pins (g : Tg) (x : Vector W64 8) (o : Option Nat) : (g.shift x o).pins = g.pins := rfl
@[simp] theorem Tg.shift_monitor (g : Tg) (x : Vector W64 8) (o : Option Nat) : (g.shift x o).monitor = g.monitor := rfl
@[simp] theorem Tg.shift_ops (g : Tg) (x : Vector W64 8) (o : Option Nat) : (g.shift x o).ops = g.ops := rfl
@[simp] theorem Tg.shift_nextOp (g : Tg) (x : Vector W64 8) (o : Option Nat) : (g.shift x o).nextOp = g.nextOp := rfl
@[simp] theorem Tg.shift_held (g : Tg) (x : Vector W64 8) (o : Option Nat) : (g.shift x o).held = g.held := rfl
@[simp] theorem Tg.shift_quantum (g : Tg) (x : Vector W64 8) (o : Option Nat) : (g.shift x o).quantum = g.quantum := rfl
@[simp] theorem Tg.shift_rays (g : Tg) (x : Vector W64 8) (o : Option Nat) : (g.shift x o).rays = g.rays := rfl
@[simp] theorem Tg.shift_blocks (g : Tg) (x : Vector W64 8) (o : Option Nat) : (g.shift x o).blocks = g.blocks := rfl
@[simp] theorem Tg.shift_aFifo (g : Tg) (x : Vector W64 8) (o : Option Nat) : (g.shift x o).aFifo = g.aFifo := rfl
@[simp] theorem Tg.shift_aSide (g : Tg) (x : Vector W64 8) (o : Option Nat) : (g.shift x o).aSide = g.aSide := rfl
@[simp] theorem Tg.shift_rayOut (g : Tg) (x : Vector W64 8) (o : Option Nat) : (g.shift x o).rayOut = g.rayOut := rfl
@[simp] theorem Tg.shift_phase (g : Tg) (x : Vector W64 8) (o : Option Nat) : (g.shift x o).phase = g.phase := rfl
@[simp] theorem Tg.shift_waiting (g : Tg) (x : Vector W64 8) (o : Option Nat) : (g.shift x o).waiting = g.waiting := rfl
@[simp] theorem Tg.shift_keepLane (g : Tg) (x : Vector W64 8) (o : Option Nat) : (g.shift x o).keepLane = g.keepLane := rfl
@[simp] theorem Tg.shift_woken (g : Tg) (x : Vector W64 8) (o : Option Nat) : (g.shift x o).woken = g.woken := rfl
@[simp] theorem Tg.shift_turnDue (g : Tg) (x : Vector W64 8) (o : Option Nat) : (g.shift x o).turnDue = g.turnDue := rfl
@[simp] theorem Tg.shift_place (g : Tg) (x : Vector W64 8) (o : Option Nat) : (g.shift x o).place = g.place := rfl
@[simp] theorem Tg.shift_slow (g : Tg) (x : Vector W64 8) (o : Option Nat) : (g.shift x o).slow = g.slow := rfl
@[simp] theorem Tg.shift_yielded (g : Tg) (x : Vector W64 8) (o : Option Nat) : (g.shift x o).yielded = g.yielded := rfl
@[simp] theorem Tg.shift_budgetTrap (g : Tg) (x : Vector W64 8) (o : Option Nat) : (g.shift x o).budgetTrap = g.budgetTrap := rfl
@[simp] theorem Tg.shift_readyFor (g : Tg) (x : Vector W64 8) (o : Option Nat) : (g.shift x o).readyFor = g.readyFor := rfl
@[simp] theorem Tg.shift_sysw (g : Tg) (x : Vector W64 8) (o : Option Nat) : (g.shift x o).sysw = g.sysw := rfl
@[simp] theorem Tg.shift_word (g : Tg) (x : Vector W64 8) (o : Option Nat) : (g.shift x o).word = g.word := rfl

@[simp] theorem Tg.addOp_key (g : Tg) (o : Op) : (g.addOp o).key = g.key := rfl
@[simp] theorem Tg.addOp_on (g : Tg) (o : Op) : (g.addOp o).on = g.on := rfl
@[simp] theorem Tg.addOp_ctx (g : Tg) (o : Op) : (g.addOp o).ctx = g.ctx := rfl
@[simp] theorem Tg.addOp_core (g : Tg) (o : Op) : (g.addOp o).core = g.core := rfl
@[simp] theorem Tg.addOp_slot (g : Tg) (o : Op) : (g.addOp o).slot = g.slot := rfl
@[simp] theorem Tg.addOp_pc (g : Tg) (o : Op) : (g.addOp o).pc = g.pc := rfl
@[simp] theorem Tg.addOp_v (g : Tg) (o : Op) : (g.addOp o).v = g.v := rfl
@[simp] theorem Tg.addOp_s (g : Tg) (o : Op) : (g.addOp o).s = g.s := rfl
@[simp] theorem Tg.addOp_p (g : Tg) (o : Op) : (g.addOp o).p = g.p := rfl
@[simp] theorem Tg.addOp_gm (g : Tg) (o : Op) : (g.addOp o).gm = g.gm := rfl
@[simp] theorem Tg.addOp_b (g : Tg) (o : Op) : (g.addOp o).b = g.b := rfl
@[simp] theorem Tg.addOp_bv (g : Tg) (o : Op) : (g.addOp o).bv = g.bv := rfl
@[simp] theorem Tg.addOp_bop (g : Tg) (o : Op) : (g.addOp o).bop = g.bop := rfl
@[simp] theorem Tg.addOp_stack (g : Tg) (o : Op) : (g.addOp o).stack = g.stack := rfl
@[simp] theorem Tg.addOp_cm (g : Tg) (o : Op) : (g.addOp o).cm = g.cm := rfl
@[simp] theorem Tg.addOp_live (g : Tg) (o : Op) : (g.addOp o).live = g.live := rfl
@[simp] theorem Tg.addOp_home (g : Tg) (o : Op) : (g.addOp o).home = g.home := rfl
@[simp] theorem Tg.addOp_q (g : Tg) (o : Op) : (g.addOp o).q = g.q := rfl
@[simp] theorem Tg.addOp_sp (g : Tg) (o : Op) : (g.addOp o).sp = g.sp := rfl
@[simp] theorem Tg.addOp_flags (g : Tg) (o : Op) : (g.addOp o).flags = g.flags := rfl
@[simp] theorem Tg.addOp_fptrap (g : Tg) (o : Op) : (g.addOp o).fptrap = g.fptrap := rfl
@[simp] theorem Tg.addOp_lease (g : Tg) (o : Op) : (g.addOp o).lease = g.lease := rfl
@[simp] theorem Tg.addOp_priv (g : Tg) (o : Op) : (g.addOp o).priv = g.priv := rfl
@[simp] theorem Tg.addOp_trpc (g : Tg) (o : Op) : (g.addOp o).trpc = g.trpc := rfl
@[simp] theorem Tg.addOp_tepc (g : Tg) (o : Op) : (g.addOp o).tepc = g.tepc := rfl
@[simp] theorem Tg.addOp_taddr (g : Tg) (o : Op) : (g.addOp o).taddr = g.taddr := rfl
@[simp] theorem Tg.addOp_trec (g : Tg) (o : Op) : (g.addOp o).trec = g.trec := rfl
@[simp] theorem Tg.addOp_tcause (g : Tg) (o : Op) : (g.addOp o).tcause = g.tcause := rfl
@[simp] theorem Tg.addOp_tmask (g : Tg) (o : Op) : (g.addOp o).tmask = g.tmask := rfl
@[simp] theorem Tg.addOp_tgm (g : Tg) (o : Op) : (g.addOp o).tgm = g.tgm := rfl
@[simp] theorem Tg.addOp_region (g : Tg) (o : Op) : (g.addOp o).region = g.region := rfl
@[simp] theorem Tg.addOp_wctMax (g : Tg) (o : Op) : (g.addOp o).wctMax = g.wctMax := rfl
@[simp] theorem Tg.addOp_unack (g : Tg) (o : Op) : (g.addOp o).unack = g.unack := rfl
@[simp] theorem Tg.addOp_floors (g : Tg) (o : Op) : (g.addOp o).floors = g.floors := rfl
@[simp] theorem Tg.addOp_rnd (g : Tg) (o : Op) : (g.addOp o).rnd = g.rnd := rfl
@[simp] theorem Tg.addOp_embers (g : Tg) (o : Op) : (g.addOp o).embers = g.embers := rfl
@[simp] theorem Tg.addOp_elds (g : Tg) (o : Op) : (g.addOp o).elds = g.elds := rfl
@[simp] theorem Tg.addOp_hobs (g : Tg) (o : Op) : (g.addOp o).hobs = g.hobs := rfl
@[simp] theorem Tg.addOp_spawns (g : Tg) (o : Op) : (g.addOp o).spawns = g.spawns := rfl
@[simp] theorem Tg.addOp_arrA (g : Tg) (o : Op) : (g.addOp o).arrA = g.arrA := rfl
@[simp] theorem Tg.addOp_arrG (g : Tg) (o : Op) : (g.addOp o).arrG = g.arrG := rfl
@[simp] theorem Tg.addOp_pins (g : Tg) (o : Op) : (g.addOp o).pins = g.pins := rfl
@[simp] theorem Tg.addOp_monitor (g : Tg) (o : Op) : (g.addOp o).monitor = g.monitor := rfl
@[simp] theorem Tg.addOp_ops (g : Tg) (o : Op) : (g.addOp o).ops = g.ops ++ [{ o with id := g.nextOp }] := rfl
@[simp] theorem Tg.addOp_nextOp (g : Tg) (o : Op) : (g.addOp o).nextOp = g.nextOp + 1 := rfl
@[simp] theorem Tg.addOp_held (g : Tg) (o : Op) : (g.addOp o).held = g.held := rfl
@[simp] theorem Tg.addOp_quantum (g : Tg) (o : Op) : (g.addOp o).quantum = g.quantum := rfl
@[simp] theorem Tg.addOp_rays (g : Tg) (o : Op) : (g.addOp o).rays = g.rays := rfl
@[simp] theorem Tg.addOp_blocks (g : Tg) (o : Op) : (g.addOp o).blocks = g.blocks := rfl
@[simp] theorem Tg.addOp_aFifo (g : Tg) (o : Op) : (g.addOp o).aFifo = g.aFifo := rfl
@[simp] theorem Tg.addOp_aSide (g : Tg) (o : Op) : (g.addOp o).aSide = g.aSide := rfl
@[simp] theorem Tg.addOp_rayOut (g : Tg) (o : Op) : (g.addOp o).rayOut = g.rayOut := rfl
@[simp] theorem Tg.addOp_phase (g : Tg) (o : Op) : (g.addOp o).phase = g.phase := rfl
@[simp] theorem Tg.addOp_waiting (g : Tg) (o : Op) : (g.addOp o).waiting = g.waiting := rfl
@[simp] theorem Tg.addOp_keepLane (g : Tg) (o : Op) : (g.addOp o).keepLane = g.keepLane := rfl
@[simp] theorem Tg.addOp_woken (g : Tg) (o : Op) : (g.addOp o).woken = g.woken := rfl
@[simp] theorem Tg.addOp_turnDue (g : Tg) (o : Op) : (g.addOp o).turnDue = g.turnDue := rfl
@[simp] theorem Tg.addOp_place (g : Tg) (o : Op) : (g.addOp o).place = g.place := rfl
@[simp] theorem Tg.addOp_slow (g : Tg) (o : Op) : (g.addOp o).slow = g.slow := rfl
@[simp] theorem Tg.addOp_yielded (g : Tg) (o : Op) : (g.addOp o).yielded = g.yielded := rfl
@[simp] theorem Tg.addOp_budgetTrap (g : Tg) (o : Op) : (g.addOp o).budgetTrap = g.budgetTrap := rfl
@[simp] theorem Tg.addOp_readyFor (g : Tg) (o : Op) : (g.addOp o).readyFor = g.readyFor := rfl
@[simp] theorem Tg.addOp_sysw (g : Tg) (o : Op) : (g.addOp o).sysw = g.sysw := rfl
@[simp] theorem Tg.addOp_word (g : Tg) (o : Op) : (g.addOp o).word = g.word := rfl

@[simp] theorem Tg.modOp_key (g : Tg) (k : Nat) (f : Op → Op) : (g.modOp k f).key = g.key := rfl
@[simp] theorem Tg.modOp_on (g : Tg) (k : Nat) (f : Op → Op) : (g.modOp k f).on = g.on := rfl
@[simp] theorem Tg.modOp_ctx (g : Tg) (k : Nat) (f : Op → Op) : (g.modOp k f).ctx = g.ctx := rfl
@[simp] theorem Tg.modOp_core (g : Tg) (k : Nat) (f : Op → Op) : (g.modOp k f).core = g.core := rfl
@[simp] theorem Tg.modOp_slot (g : Tg) (k : Nat) (f : Op → Op) : (g.modOp k f).slot = g.slot := rfl
@[simp] theorem Tg.modOp_pc (g : Tg) (k : Nat) (f : Op → Op) : (g.modOp k f).pc = g.pc := rfl
@[simp] theorem Tg.modOp_v (g : Tg) (k : Nat) (f : Op → Op) : (g.modOp k f).v = g.v := rfl
@[simp] theorem Tg.modOp_s (g : Tg) (k : Nat) (f : Op → Op) : (g.modOp k f).s = g.s := rfl
@[simp] theorem Tg.modOp_p (g : Tg) (k : Nat) (f : Op → Op) : (g.modOp k f).p = g.p := rfl
@[simp] theorem Tg.modOp_gm (g : Tg) (k : Nat) (f : Op → Op) : (g.modOp k f).gm = g.gm := rfl
@[simp] theorem Tg.modOp_b (g : Tg) (k : Nat) (f : Op → Op) : (g.modOp k f).b = g.b := rfl
@[simp] theorem Tg.modOp_bv (g : Tg) (k : Nat) (f : Op → Op) : (g.modOp k f).bv = g.bv := rfl
@[simp] theorem Tg.modOp_bop (g : Tg) (k : Nat) (f : Op → Op) : (g.modOp k f).bop = g.bop := rfl
@[simp] theorem Tg.modOp_stack (g : Tg) (k : Nat) (f : Op → Op) : (g.modOp k f).stack = g.stack := rfl
@[simp] theorem Tg.modOp_cm (g : Tg) (k : Nat) (f : Op → Op) : (g.modOp k f).cm = g.cm := rfl
@[simp] theorem Tg.modOp_live (g : Tg) (k : Nat) (f : Op → Op) : (g.modOp k f).live = g.live := rfl
@[simp] theorem Tg.modOp_home (g : Tg) (k : Nat) (f : Op → Op) : (g.modOp k f).home = g.home := rfl
@[simp] theorem Tg.modOp_q (g : Tg) (k : Nat) (f : Op → Op) : (g.modOp k f).q = g.q := rfl
@[simp] theorem Tg.modOp_sp (g : Tg) (k : Nat) (f : Op → Op) : (g.modOp k f).sp = g.sp := rfl
@[simp] theorem Tg.modOp_flags (g : Tg) (k : Nat) (f : Op → Op) : (g.modOp k f).flags = g.flags := rfl
@[simp] theorem Tg.modOp_fptrap (g : Tg) (k : Nat) (f : Op → Op) : (g.modOp k f).fptrap = g.fptrap := rfl
@[simp] theorem Tg.modOp_lease (g : Tg) (k : Nat) (f : Op → Op) : (g.modOp k f).lease = g.lease := rfl
@[simp] theorem Tg.modOp_priv (g : Tg) (k : Nat) (f : Op → Op) : (g.modOp k f).priv = g.priv := rfl
@[simp] theorem Tg.modOp_trpc (g : Tg) (k : Nat) (f : Op → Op) : (g.modOp k f).trpc = g.trpc := rfl
@[simp] theorem Tg.modOp_tepc (g : Tg) (k : Nat) (f : Op → Op) : (g.modOp k f).tepc = g.tepc := rfl
@[simp] theorem Tg.modOp_taddr (g : Tg) (k : Nat) (f : Op → Op) : (g.modOp k f).taddr = g.taddr := rfl
@[simp] theorem Tg.modOp_trec (g : Tg) (k : Nat) (f : Op → Op) : (g.modOp k f).trec = g.trec := rfl
@[simp] theorem Tg.modOp_tcause (g : Tg) (k : Nat) (f : Op → Op) : (g.modOp k f).tcause = g.tcause := rfl
@[simp] theorem Tg.modOp_tmask (g : Tg) (k : Nat) (f : Op → Op) : (g.modOp k f).tmask = g.tmask := rfl
@[simp] theorem Tg.modOp_tgm (g : Tg) (k : Nat) (f : Op → Op) : (g.modOp k f).tgm = g.tgm := rfl
@[simp] theorem Tg.modOp_region (g : Tg) (k : Nat) (f : Op → Op) : (g.modOp k f).region = g.region := rfl
@[simp] theorem Tg.modOp_wctMax (g : Tg) (k : Nat) (f : Op → Op) : (g.modOp k f).wctMax = g.wctMax := rfl
@[simp] theorem Tg.modOp_unack (g : Tg) (k : Nat) (f : Op → Op) : (g.modOp k f).unack = g.unack := rfl
@[simp] theorem Tg.modOp_floors (g : Tg) (k : Nat) (f : Op → Op) : (g.modOp k f).floors = g.floors := rfl
@[simp] theorem Tg.modOp_rnd (g : Tg) (k : Nat) (f : Op → Op) : (g.modOp k f).rnd = g.rnd := rfl
@[simp] theorem Tg.modOp_embers (g : Tg) (k : Nat) (f : Op → Op) : (g.modOp k f).embers = g.embers := rfl
@[simp] theorem Tg.modOp_elds (g : Tg) (k : Nat) (f : Op → Op) : (g.modOp k f).elds = g.elds := rfl
@[simp] theorem Tg.modOp_hobs (g : Tg) (k : Nat) (f : Op → Op) : (g.modOp k f).hobs = g.hobs := rfl
@[simp] theorem Tg.modOp_spawns (g : Tg) (k : Nat) (f : Op → Op) : (g.modOp k f).spawns = g.spawns := rfl
@[simp] theorem Tg.modOp_arrA (g : Tg) (k : Nat) (f : Op → Op) : (g.modOp k f).arrA = g.arrA := rfl
@[simp] theorem Tg.modOp_arrG (g : Tg) (k : Nat) (f : Op → Op) : (g.modOp k f).arrG = g.arrG := rfl
@[simp] theorem Tg.modOp_pins (g : Tg) (k : Nat) (f : Op → Op) : (g.modOp k f).pins = g.pins := rfl
@[simp] theorem Tg.modOp_monitor (g : Tg) (k : Nat) (f : Op → Op) : (g.modOp k f).monitor = g.monitor := rfl
@[simp] theorem Tg.modOp_ops (g : Tg) (k : Nat) (f : Op → Op) : (g.modOp k f).ops = replaceFirst (fun o => o.id = k) f g.ops := rfl
@[simp] theorem Tg.modOp_nextOp (g : Tg) (k : Nat) (f : Op → Op) : (g.modOp k f).nextOp = g.nextOp := rfl
@[simp] theorem Tg.modOp_held (g : Tg) (k : Nat) (f : Op → Op) : (g.modOp k f).held = g.held := rfl
@[simp] theorem Tg.modOp_quantum (g : Tg) (k : Nat) (f : Op → Op) : (g.modOp k f).quantum = g.quantum := rfl
@[simp] theorem Tg.modOp_rays (g : Tg) (k : Nat) (f : Op → Op) : (g.modOp k f).rays = g.rays := rfl
@[simp] theorem Tg.modOp_blocks (g : Tg) (k : Nat) (f : Op → Op) : (g.modOp k f).blocks = g.blocks := rfl
@[simp] theorem Tg.modOp_aFifo (g : Tg) (k : Nat) (f : Op → Op) : (g.modOp k f).aFifo = g.aFifo := rfl
@[simp] theorem Tg.modOp_aSide (g : Tg) (k : Nat) (f : Op → Op) : (g.modOp k f).aSide = g.aSide := rfl
@[simp] theorem Tg.modOp_rayOut (g : Tg) (k : Nat) (f : Op → Op) : (g.modOp k f).rayOut = g.rayOut := rfl
@[simp] theorem Tg.modOp_phase (g : Tg) (k : Nat) (f : Op → Op) : (g.modOp k f).phase = g.phase := rfl
@[simp] theorem Tg.modOp_waiting (g : Tg) (k : Nat) (f : Op → Op) : (g.modOp k f).waiting = g.waiting := rfl
@[simp] theorem Tg.modOp_keepLane (g : Tg) (k : Nat) (f : Op → Op) : (g.modOp k f).keepLane = g.keepLane := rfl
@[simp] theorem Tg.modOp_woken (g : Tg) (k : Nat) (f : Op → Op) : (g.modOp k f).woken = g.woken := rfl
@[simp] theorem Tg.modOp_turnDue (g : Tg) (k : Nat) (f : Op → Op) : (g.modOp k f).turnDue = g.turnDue := rfl
@[simp] theorem Tg.modOp_place (g : Tg) (k : Nat) (f : Op → Op) : (g.modOp k f).place = g.place := rfl
@[simp] theorem Tg.modOp_slow (g : Tg) (k : Nat) (f : Op → Op) : (g.modOp k f).slow = g.slow := rfl
@[simp] theorem Tg.modOp_yielded (g : Tg) (k : Nat) (f : Op → Op) : (g.modOp k f).yielded = g.yielded := rfl
@[simp] theorem Tg.modOp_budgetTrap (g : Tg) (k : Nat) (f : Op → Op) : (g.modOp k f).budgetTrap = g.budgetTrap := rfl
@[simp] theorem Tg.modOp_readyFor (g : Tg) (k : Nat) (f : Op → Op) : (g.modOp k f).readyFor = g.readyFor := rfl
@[simp] theorem Tg.modOp_sysw (g : Tg) (k : Nat) (f : Op → Op) : (g.modOp k f).sysw = g.sysw := rfl
@[simp] theorem Tg.modOp_word (g : Tg) (k : Nat) (f : Op → Op) : (g.modOp k f).word = g.word := rfl

/-! ### The names that statements use are those of the meanings -/

theorem over_eq_fresh (g : Tg) : over_ g = g.fresh := rfl
theorem nextWord_eq_next (g : Tg) : nextWord g = g.next := rfl
theorem lost_eq_loseOlder (g : Tg) : lost g = g.loseOlder := rfl
theorem modTg_eq_withTg (s : State) (f : Tg → Tg) : s.modTg f = withTg s (f s.tg) := rfl
theorem modTg_modTg (s : State) (f h : Tg → Tg) : (s.modTg f).modTg h = s.modTg (fun g => h (f g)) := rfl
theorem withTg_self (s : State) : withTg s s.tg = s := rfl

end Sys2Proof.Machine
end

