-- ==== Sys2Proof/Laws/Homes.lean ====
section
/-! SUPPORT. What the homes' operations keep: memory's canonical form, one lemma for each shared operation. -/

namespace Sys2Proof.Machine

/-- The memory of a state is in canonical form. -/
abbrev memOk (s : State) : Prop := Memory.wf s.mem = true

@[simp] theorem putLine_mem (s : State) (l : Line) : (s.putLine l).mem = s.mem := rfl
@[simp] theorem fireMonitors_mem (s : State) (no : Nat) (w : Bool) : (fireMonitors s no w).mem = s.mem := rfl
@[simp] theorem keepLease_mem (s : State) (no : Nat) : (keepLease s no).mem = s.mem := by
  unfold keepLease
  dsimp only
  generalize max (setFloor s no) _ = x
  split <;> rfl
@[simp] theorem countUnc_mem (s : State) : (countUnc s).mem = s.mem := rfl
@[simp] theorem makeResident_mem (s : State) (no : Nat) : (makeResident s no).mem = s.mem := by
  unfold makeResident; dsimp only; split <;> rfl
@[simp] theorem leaseLine_mem (s : State) (no lg : Nat) : (leaseLine s no lg).mem = s.mem := rfl
@[simp] theorem dropCopy_mem (s : State) (core no : Nat) : (dropCopy s core no).mem = s.mem := rfl
@[simp] theorem admitCopy_mem (s : State) (c : Copy) : (admitCopy s c).mem = s.mem := by
  unfold admitCopy
  dsimp only
  split
  · rfl
  · split <;> rfl

theorem memOk_ite (c : Prop) [Decidable c] (s t : State) (hs : memOk s) (ht : memOk t) : memOk (if c then s else t) := by
  split <;> assumption

/-- A fold of steps that each keep the form keeps it. -/
theorem memOk_foldl {α : Type} (f : State → α → State) (hf : ∀ s x, memOk s → memOk (f s x)) : ∀ (xs : List α) (s : State),
    memOk s → memOk (xs.foldl f s)
  | [], _, h => h
  | x :: xs, s, h => memOk_foldl f hf xs (f s x) (hf s x h)

theorem memOk_applyDue (s : State) (no : Nat) (h : memOk s) : memOk (applyDue s no) := by
  have key : ∀ (ps : List Pend) (m : Memory), Memory.wf m = true → Memory.wf (ps.foldl (fun (m : Memory) (p : Pend) => memPut m p.pa p.data) m) = true := by
    intro ps
    induction ps with
    | nil => intro m h; exact h
    | cons p ps ih => intro m h; exact ih _ (wf_memPut _ _ _ h)
  unfold applyDue
  dsimp only
  split
  · exact h
  · exact key _ _ h

theorem memOk_applyAllDue (s : State) (h : memOk s) : memOk (applyAllDue s) := by
  unfold applyAllDue
  exact memOk_foldl _ (fun s (l : Line) => memOk_applyDue s l.no) _ _ h

theorem memOk_writeBackLine (s : State) (w : Wg) (x : StashLine) (h : memOk s) : memOk (writeBackLine s w x) := by
  unfold writeBackLine
  split
  · exact h
  · split
    · exact h
    · dsimp only
      rw [memOk, State.modLine_mem]
      generalize (upTo 128).filter (fun i => x.dirty.getLsbD i) = is
      dsimp only
      revert h
      rw [memOk]
      generalize s.mem = m
      induction is generalizing m with
      | nil => exact id
      | cons i is ih => exact fun h => ih _ (wf_memSet _ _ _ h)

theorem memOk_recallLine (s : State) (no : Nat) (h : memOk s) : memOk (recallLine s no) := by
  unfold recallLine
  split
  · dsimp only
    split
    · simpa [memOk] using memOk_writeBackLine _ _ _ h
    · simpa [memOk] using h
  · exact h

theorem memOk_acceptWrite (s : State) (tg : TgKey) (pa : Nat) (data : List Byte) (floor : Nat) (nc marks : Bool) (h : memOk s) :
    memOk (acceptWrite s tg pa data floor nc marks).1 := by
  unfold acceptWrite
  dsimp only
  split
  · exact h
  · exact memOk_applyDue _ _ (by simpa [memOk] using memOk_recallLine _ _ h)

theorem memOk_acceptGrant (s : State) (tg : TgKey) (no : Nat) (h : memOk s) : memOk (acceptGrant s tg no).1 := h

/-- Noting an engine's line changes no memory. -/
theorem waitOwner_mem (s : State) (no : Nat) : (waitOwner s no).mem = s.mem := by
  unfold waitOwner
  split <;> rfl

theorem memOk_waitOwner (s : State) (no : Nat) (h : memOk s) : memOk (waitOwner s no) := by
  rw [memOk, waitOwner_mem]
  exact h

theorem memOk_acceptBytes (s : State) (tg : TgKey) (pa : Nat) (data : List Byte) (floor : Nat) (h : memOk s) :
    memOk (acceptBytes s tg pa data floor).1 := by
  have key : ∀ (cs : List Nat) (f : State × Nat → Nat → State × Nat), (∀ a c, memOk a.1 → memOk (f a c).1) → ∀ a : State × Nat, memOk a.1 →
      memOk (cs.foldl f a).1 := by
    intro cs f hf
    induction cs with
    | nil => intro a h; exact h
    | cons c cs ih => intro a h; exact ih _ (hf a c h)
  unfold acceptBytes
  dsimp only
  split
  · exact h
  · exact key _ _ (fun a c h => by exact memOk_acceptWrite _ _ _ _ _ _ _ (memOk_waitOwner _ _ h)) (s, 0) h

theorem memOk_closeHobOf (s : State) (no : Nat) (mine : HeldHob → Bool) (h : memOk s) : memOk (closeHobOf s no mine) := by
  unfold closeHobOf
  refine memOk_foldl _ (fun s x h => ?_) _ _ h
  dsimp only
  split
  · exact h
  · exact memOk_acceptWrite _ _ _ _ _ _ _ h

theorem memOk_closeHob (s : State) (no : Nat) (h : memOk s) : memOk (closeHob s no) := memOk_closeHobOf _ _ _ h

theorem memOk_closeMergeOf (s : State) (no : Nat) (mine : HeldEmber → Bool) (h : memOk s) : memOk (closeMergeOf s no mine) := by
  unfold closeMergeOf
  refine memOk_foldl _ (fun s x h => ?_) _ _ h
  split
  · exact h
  · exact memOk_acceptWrite _ _ _ _ _ _ _ h

theorem memOk_closeWindows (s : State) (no : Nat) (h : memOk s) : memOk (closeWindows s no) :=
  memOk_closeMergeOf _ _ _ (memOk_closeHob _ _ h)

theorem memOk_arrive (s : State) (no : Nat) (h : memOk s) : memOk (arrive s no) := memOk_closeWindows _ _ (memOk_recallLine _ _ h)

theorem memOk_arriveAt (s : State) (pa n : Nat) (h : memOk s) : memOk (arriveAt s pa n) :=
  memOk_closeMergeOf _ _ _ (memOk_closeHob _ _ (memOk_recallLine _ _ h))

theorem memOk_reach (s : State) (no : Nat) (h : memOk s) : memOk (reach s no) := memOk_arrive _ _ (memOk_applyDue _ _ h)

theorem memOk_visit (s : State) (no : Nat) (h : memOk s) : memOk (visit s no) := memOk_reach _ _ (memOk_waitOwner _ _ h)

theorem memOk_arriveRange (s : State) (pa n : Nat) (h : memOk s) : memOk (arriveRange s pa n) := by
  unfold arriveRange
  exact memOk_foldl _ (fun s no h => memOk_visit s no h) _ _ h

theorem memOk_evictLine (s : State) (no : Nat) (h : memOk s) : memOk (evictLine s no) := by
  have hw := memOk_closeWindows _ no (memOk_recallLine s no h)
  unfold evictLine
  simpa [memOk] using hw

theorem memOk_holdLine (s : State) (no slice : Nat) (h : memOk s) : memOk (holdLine s no slice) := by
  unfold holdLine
  split
  · simpa [memOk] using h
  · simpa [memOk] using h

theorem memOk_leaveSlice (s : State) (no slice : Nat) (h : memOk s) : memOk (leaveSlice s no slice) := by
  unfold leaveSlice
  split
  · exact memOk_evictLine _ _ h
  · simpa [memOk] using h

theorem memOk_admitAt (s : State) (no slice : Nat) (h : memOk s) : memOk (admitAt s no slice) := by
  unfold admitAt
  split
  · exact h
  · split
    · exact memOk_holdLine _ _ _ h
    · dsimp only
      split
      · exact memOk_holdLine _ _ _ (memOk_leaveSlice _ _ _ h)
      · exact h

theorem memOk_admitLine (s : State) (no : Nat) (h : memOk s) : memOk (admitLine s no) := memOk_admitAt _ _ _ h

/-! ### Tables (R102, R137, R138) -/

theorem memOk_reachWalk (va : W64) : ∀ (fuel level table : Nat) (s : State), memOk s → memOk (reachWalk s va fuel level table)
  | 0, _, _, _, h => h
  | fuel + 1, level, table, s, h => by
    unfold reachWalk
    dsimp only
    split
    · exact h
    · split
      · exact memOk_visit _ _ h
      · exact memOk_reachWalk va fuel _ _ _ (memOk_visit _ _ h)

theorem memOk_walkTo (s : State) (core c : Nat) (va : W64) (h : memOk s) : memOk (walkTo s core c va) := by
  unfold walkTo
  split
  · exact memOk_reachWalk _ _ _ _ _ h
  · exact h

theorem memOk_cachePage (s : State) (core c : Nat) (va : W64) (h : memOk s) : memOk (cachePage s core c va) := by
  have hr : memOk (reachTables s c va) := memOk_reachWalk _ _ _ _ _ h
  unfold cachePage
  split
  · exact h
  · dsimp only
    split <;> exact hr

theorem memOk_noteRound (s : State) (c n : Nat) (h : memOk s) : memOk (noteRound s c n) := by
  unfold noteRound
  dsimp only
  split
  · exact h
  · simpa [memOk] using memOk_walkTo _ _ _ _ (memOk_arriveRange _ _ _ h)

theorem memOk_reachCounter (s : State) (core c : Nat) (va : W64) (h : memOk s) : memOk (reachCounter s core c va) := by
  have hc := memOk_cachePage s core c va h
  unfold reachCounter
  dsimp only
  split
  · exact memOk_visit _ _ hc
  · exact hc

theorem memOk_noteView (s : State) (core c n : Nat) (h : memOk s) : memOk (noteView s core c n) := by
  have hn := memOk_noteRound s c n h
  unfold noteView
  dsimp only
  split
  · exact hn
  · split
    · exact hn
    · exact memOk_reachCounter _ _ _ _ hn

theorem memOk_noteFill (s : State) (core c rr : Nat) (va : W64) (h : memOk s) : memOk (noteFill s core c rr va) := by
  have hn := memOk_noteRound s c rr h
  have hall := memOk_foldl (fun s n => noteRound s c n) (fun s n => memOk_noteRound s c n) (upTo 32) _ hn
  unfold noteFill
  dsimp only
  refine memOk_ite _ _ _ (memOk_noteView _ _ _ _ hn) ?_
  generalize (upTo 32).foldl (fun s n => noteRound s c n) (noteRound s c rr) = u at hall ⊢
  split
  · exact memOk_noteView _ _ _ _ hall
  · exact hall

/-! ### The end of a step -/

@[simp] theorem passTime_mem (s : State) : (passTime s).mem = s.mem := rfl
@[simp] theorem deliverNews_mem (s : State) : (deliverNews s).mem = s.mem := rfl
@[simp] theorem budgetsOut_mem (s : State) (f : Wg → Bool) : (budgetsOut s f).mem = s.mem := by
  unfold budgetsOut; dsimp only; split <;> rfl

@[simp] theorem sendOwed_mem (s : State) : (sendOwed s).mem = s.mem := by
  unfold sendOwed; split <;> rfl

/-- Time passing keeps the form. -/
theorem memOk_finish (s : State) (h : memOk s) : memOk (finish s) := by
  have := memOk_applyAllDue (passTime s) (by simpa [memOk] using h)
  simpa [memOk, finish] using this

end Sys2Proof.Machine
end

