-- ==== Sys2Proof/Laws/Ops.lean ====
section
/-! SUPPORT. What each shared operation can do, said once: the ends of an instruction, the checks before its effect, waiting,
taking an exception and returning from one, and what stands around an instruction in a step. -/

namespace Sys2Proof.Machine

/-! ### The ends of an instruction -/

theorem onAny_on (s : State) (f : Tg → Out) (h : s.tg.on = true) : onAny s f = f s.tg := by rw [onAny, if_pos h]

theorem onAny_off (s : State) (f : Tg → Out) (h : s.tg.on = false) : onAny s f = .fault .noThreadGroup := by
  rw [onAny, if_neg (by simp [h])]

/-- An instruction that reaches a next state ran on a TG. -/
theorem onAny_next (s t : State) (f : Tg → Out) (h : onAny s f = .next t) : s.tg.on = true ∧ f s.tg = .next t := by
  by_cases on : s.tg.on = true
  · exact ⟨on, (onAny_on s f on) ▸ h⟩
  · rw [onAny_off s f (by simpa using on)] at h
    cases h

theorem onTg_on (s : State) (f : Tg → Out) (sw : Bool) (h : s.tg.on = true) (hp : s.tg.guardPending = false) : onTg s f sw = f s.tg := by
  rw [onTg, onAny_on s _ h, hp, if_neg (by simp)]

/-- A pending guard predicate is waited for (R115). -/
theorem onTg_pending (s : State) (f : Tg → Out) (sw : Bool) (h : s.tg.on = true) (hp : s.tg.guardPending = true) :
    onTg s f sw = registerWait s sw := by
  rw [onTg, onAny_on s _ h, hp, if_pos rfl]

theorem onTg_off (s : State) (f : Tg → Out) (sw : Bool) (h : s.tg.on = false) : onTg s f sw = .fault .noThreadGroup := onAny_off s _ h

/-- An instruction that reads the guard and reaches a next state ran on a TG, or waited for its guard. -/
theorem onTg_next (s t : State) (f : Tg → Out) (sw : Bool) (h : onTg s f sw = .next t) :
    s.tg.on = true ∧ (s.tg.guardPending = true ∧ registerWait s sw = .next t ∨ s.tg.guardPending = false ∧ f s.tg = .next t) := by
  obtain ⟨on, h⟩ := onAny_next s t _ h
  refine ⟨on, ?_⟩
  cases hp : s.tg.guardPending <;> simp_all

theorem done_eq (s : State) : done s = .next (s.modTg Tg.next) := rfl
theorem doneSwitch_eq (s : State) : doneSwitch s = .next ((giveLane s).modTg Tg.next) := rfl
theorem jump_eq (s : State) (pc : W64) : jump s pc = .next (s.modTg (fun g => { (g.clearLatches).fresh with pc := pc })) := rfl
theorem waitIn_eq (s : State) (keep : Bool) : waitIn s keep = .next (s.modTg (fun g => { g with waiting := true, woken := false, keepLane := keep })) := rfl

/-- After `done` the TG stands at the next word, with its registers, latches and mask as they were. -/
theorem next_frame (g : Tg) : g.next.pc = g.pc + 4 ∧ g.next.v = g.v ∧ g.next.s = g.s ∧ g.next.p = g.p ∧ g.next.b = g.b ∧ g.next.bv = g.bv
    ∧ g.next.q = g.q ∧ g.next.cm = g.cm ∧ g.next.gm = g.gm ∧ g.next.live = g.live ∧ g.next.stack = g.stack := by
  simp [Tg.next, Tg.fresh]

/-! ### Checks before an effect (R46) -/

/-- Every check passes exactly when none names a trap. -/
theorem firstTrap_none (cs : List (Option TrapInfo)) : firstTrap cs = none ↔ ∀ c ∈ cs, c = none := by
  induction cs with
  | nil => simp [firstTrap]
  | cons c cs ih => cases c <;> simp [firstTrap, ih]

/-- The trap taken is the first check that fails. -/
theorem firstTrap_some (cs : List (Option TrapInfo)) (i : TrapInfo) :
    firstTrap cs = some i ↔ ∃ before after, cs = before ++ some i :: after ∧ ∀ c ∈ before, c = none := by
  induction cs with
  | nil => simp [firstTrap]
  | cons c cs ih =>
    cases c with
    | none =>
      rw [firstTrap, ih]
      constructor
      · rintro ⟨b, a, rfl, hb⟩
        exact ⟨none :: b, a, rfl, by simpa using hb⟩
      · rintro ⟨b, a, h, hb⟩
        cases b with
        | nil => simp at h
        | cons x b =>
          simp only [List.cons_append, List.cons.injEq] at h
          exact ⟨b, a, h.2, fun c hc => hb c (by simp [hc])⟩
    | some j =>
      simp only [firstTrap, Option.some.injEq]
      constructor
      · rintro rfl
        exact ⟨[], cs, rfl, by simp⟩
      · rintro ⟨b, a, h, hb⟩
        cases b with
        | nil => simpa using (List.cons.inj h).1
        | cons x b =>
          have hx : x = none := hb x (by simp)
          simp [hx] at h

theorem guarded_pass (s : State) (cs : List (Option TrapInfo)) (body : Out) (h : ∀ c ∈ cs, c = none) : guarded s cs body = body := by
  rw [guarded, (firstTrap_none cs).2 h]

theorem guarded_fail (s : State) (cs : List (Option TrapInfo)) (body : Out) (i : TrapInfo) (h : firstTrap cs = some i) :
    guarded s cs body = trap s i := by
  rw [guarded, h]

/-- Either a check fails and its trap is taken, or the body runs. -/
theorem guarded_cases (s : State) (cs : List (Option TrapInfo)) (body : Out) :
    (∃ i, firstTrap cs = some i ∧ guarded s cs body = trap s i) ∨ ((∀ c ∈ cs, c = none) ∧ guarded s cs body = body) := by
  cases h : firstTrap cs with
  | some i => exact .inl ⟨i, rfl, guarded_fail s cs body i h⟩
  | none => exact .inr ⟨(firstTrap_none cs).1 h, guarded_pass s cs body ((firstTrap_none cs).1 h)⟩

theorem check_none (bad : Bool) (c : Nat) (m : Mask) : check bad c m = none ↔ bad = false := by
  cases bad <;> simp [check]

/-! ### Taking an exception (R199, R200) and returning from one (R202) -/

/-- Taking an exception always ends in a next state: the handler's first word, a kill, or a wait for a stash line. -/
theorem enterTrap_next (s : State) (i : TrapInfo) (tepc : W64) : ∃ t, enterTrap s i tepc = .next t := by
  unfold enterTrap
  dsimp only
  split
  · exact ⟨_, rfl⟩
  · split
    · exact ⟨_, rfl⟩
    · split
      · exact ⟨_, rfl⟩
      · split <;> exact ⟨_, rfl⟩

theorem trap_next (s : State) (i : TrapInfo) : ∃ t, trap s i = .next t := enterTrap_next s i s.tg.pc

/-- The machine as a trap finds it: the faulting access's walk is made, and the TG's monitor has fired (R102, R117). -/
def trapSeen (s : State) (i : TrapInfo) : State :=
  (faultWalk s i).modTg (fun g => { g with monitor := g.monitor.map (fun m => { m with fired := true }) })

/-- A trap of no access makes no walk. -/
theorem trapSeen_own (s : State) (i : TrapInfo) (h : i.access = 0) :
    trapSeen s i = s.modTg (fun g => { g with monitor := g.monitor.map (fun m => { m with fired := true }) }) := by
  rw [trapSeen, faultWalk, if_pos h]

/-- A launch with a handler of its own reads no header. -/
theorem reachHandler_own (s : State) (h : s.hdr.trapOff ≠ 0) : reachHandler s = s := by
  simp [reachHandler, h]

/-- Outside U every trap kills the TG's launch threads. -/
theorem enterTrap_kill (s : State) (i : TrapInfo) (tepc : W64) (h : (trapSeen s i).tg.priv ≠ .u) :
    enterTrap s i tepc = .next (kill (trapSeen s i) i.cause) := by
  unfold enterTrap
  exact if_pos h

/-- Without a handler the trap kills. -/
theorem enterTrap_noHandler (s : State) (i : TrapInfo) (tepc : W64) (h : (trapSeen s i).tg.priv = .u)
    (hh : handlerOf (reachHandler (trapSeen s i)) = none) :
    enterTrap s i tepc = .next (kill (reachHandler (trapSeen s i)) i.cause) := by
  unfold enterTrap
  unfold trapSeen at *
  dsimp only
  rw [if_neg (fun hn => hn h), hh]

/-- With the launch's own handler and TREC 0: the saved registers, PRIV S and the PC at the handler. -/
theorem enterTrap_handler (s : State) (i : TrapInfo) (tepc handler : W64) (region : Option (Nat × Nat)) (h : s.tg.priv = .u)
    (ha : i.access = 0) (ho : s.hdr.trapOff ≠ 0) (hh : handlerOf (trapSeen s i) = some (handler, region)) (ht : s.tg.trec = 0) :
    ∃ t, enterTrap s i tepc = .next t ∧ t.tg.pc = handler ∧ t.tg.priv = .s ∧ t.tg.trpc = s.tg.pc ∧ t.tg.tepc = tepc ∧ t.tg.taddr = i.va
      ∧ t.tg.tgm = s.tg.gm ∧ t.tg.gm = s.tg.gm &&& 0xFF000000
      ∧ t.tg.tcause = BitVec.ofNat 64 (i.cause + s.tg.priv.code * 2 ^ 8 + s.tg.stack.length * 2 ^ 16)
      ∧ t.tg.tmask = BitVec.ofNat 64 (i.mask.toNat + s.tg.cm.toNat * 2 ^ 8)
      ∧ t.tg.v = s.tg.v ∧ t.tg.s = s.tg.s ∧ t.tg.p = s.tg.p ∧ t.tg.cm = s.tg.cm ∧ t.tg.live = s.tg.live ∧ t.tg.stack = s.tg.stack
      ∧ t.mem = s.mem ∧ t.net = s.net := by
  have ho' : (trapSeen s i).hdr.trapOff ≠ 0 := by rw [trapSeen_own s i ha]; exact ho
  have hr := reachHandler_own _ ho'
  unfold enterTrap
  rw [trapSeen, faultWalk, if_pos ha] at hr hh
  dsimp only
  rw [faultWalk, if_pos ha, if_neg (by simp [State.modTg, h]), hr, hh]
  dsimp only
  rw [if_pos (by simpa [State.modTg] using ht)]
  refine ⟨_, rfl, ?_⟩
  simp [State.modTg, giveLane, dropClaim, Tg.fresh, Tg.clearLatches]

/-- Returning from a trap: gm but for det, PRIV, cm and the code region; registers, stack and live threads stay. -/
theorem restoreFromTrap_eq (s : State) : (restoreFromTrap s).tg.gm = (s.tg.gm &&& 0xFF000000) ||| (s.tg.tgm &&& 0x00FFFFFF)
    ∧ (restoreFromTrap s).tg.priv = Priv.ofCode s.tg.savedPriv ∧ (restoreFromTrap s).tg.cm = s.tg.savedCm &&& s.tg.live
    ∧ (restoreFromTrap s).tg.region = none ∧ (restoreFromTrap s).tg.v = s.tg.v ∧ (restoreFromTrap s).tg.s = s.tg.s
    ∧ (restoreFromTrap s).tg.p = s.tg.p ∧ (restoreFromTrap s).tg.live = s.tg.live ∧ (restoreFromTrap s).tg.stack = s.tg.stack :=
  ⟨rfl, rfl, rfl, rfl, rfl, rfl, rfl, rfl, rfl⟩

/-! ### Around an instruction in a step -/

theorem finished_next (s : State) : finished (.next s) = .next (finish s) := rfl

/-- A step that reaches a next state came from an instruction that did. -/
theorem finished_inv (o : Out) (t : State) (h : finished o = .next t) : ∃ s, o = .next s ∧ t = finish s := by
  cases o with
  | next s =>
    simp only [finished, Host.Outcome.next.injEq] at h
    exact ⟨s, rfl, h.symm⟩
  | fault f => cases h
  | refused r => cases h

/-- What the waits of an instruction's translations leave: its outcome, or a TG that waits at it. -/
theorem missed_cases (s : State) (o : Out) (t : State) (h : missed s o = .next t) :
    o = .next t ∨ ∃ u, o = .next u ∧ (t = holdTg s u ∨ t = walkWait s u) := by
  unfold missed at h
  split at h
  · next u =>
    split at h
    · exact .inr ⟨u, rfl, .inl (by simpa using h.symm)⟩
    · split at h
      · exact .inr ⟨u, rfl, .inr (by simpa using h.symm)⟩
      · exact .inl h
  · exact .inl h

/-- An event's step is its outcome, or is to be tried again. -/
theorem kept_cases (s : State) (o : Out) (t : State) (h : kept s o = .next t) : o = .next t ∨ ((∃ u, o = .next u) ∧ t = s) := by
  unfold kept at h
  split at h
  · next u =>
    split at h
    · exact .inr ⟨⟨u, rfl⟩, by simpa using h.symm⟩
    · exact .inl h
  · exact .inl h

/-- What a step is, by whose turn it is. -/
theorem step_cases (s t : State) (h : step s = .next t) :
    (∃ k, s.turn = .wake k ∧ t = finish (wakeTg s k))
    ∨ (∃ e, s.turn = .event e ∧ laneOnly e = true ∧ t = finish s)
    ∨ (∃ e s', s.turn = .event e ∧ laneOnly e = false ∧ kept s (exec e s) = .next s' ∧ t = finish s')
    ∨ (∃ c ln, s.turn = .lane c ln ∧ laneTurn s c ln = .idle ∧ t = finish s)
    ∨ (∃ c ln s1 s', s.turn = .lane c ln ∧ laneTurn s c ln = .budget s1 ∧ kept s1 (budgetStop s1) = .next s' ∧ t = finish s')
    ∨ (∃ c ln s1, s.turn = .lane c ln ∧ laneTurn s c ln = .held s1 ∧ t = finish s1)
    ∨ (∃ c ln i s1 s', s.turn = .lane c ln ∧ laneTurn s c ln = .run i s1 ∧ missed s1 (exec i s1) = .next s' ∧ t = finish s') := by
  unfold step at h
  split at h
  · next k hk => exact .inl ⟨k, hk, by simpa using h.symm⟩
  · next e he =>
    split at h
    · next hl => exact .inr (.inl ⟨e, he, hl, by simpa using h.symm⟩)
    · next hl =>
      obtain ⟨s', h1, h2⟩ := finished_inv _ _ h
      exact .inr (.inr (.inl ⟨e, s', he, by simpa using hl, h1, h2⟩))
  · next c ln hc =>
    split at h
    · next hl => exact .inr (.inr (.inr (.inl ⟨c, ln, hc, hl, by simpa using h.symm⟩)))
    · next s1 hl =>
      obtain ⟨s', h1, h2⟩ := finished_inv _ _ h
      exact .inr (.inr (.inr (.inr (.inl ⟨c, ln, s1, s', hc, hl, h1, h2⟩))))
    · next s1 hl => exact .inr (.inr (.inr (.inr (.inr (.inl ⟨c, ln, s1, hc, hl, by simpa using h.symm⟩)))))
    · next i s1 hl =>
      obtain ⟨s', h1, h2⟩ := finished_inv _ _ h
      exact .inr (.inr (.inr (.inr (.inr (.inr ⟨c, ln, i, s1, s', hc, hl, h1, h2⟩)))))

end Sys2Proof.Machine
end

