-- ==== Sys2Proof/Tests/Slice0.lean ====
section
/-! SUPPORT. Tests: ill-formed terms refused, words of each family decoded, and for every statement a state that meets its
hypotheses. -/

namespace Sys2Proof.Tests

set_option Elab.async false

open Sys2Proof.Machine Sys2Proof.Safety

/-! ### Well-formedness: a term that each check refuses -/

theorem test_wf_cvt : (Instr.cvt (.v 0) (.v 1) 15 false false).wf = false := by decide
theorem test_wf_bcst_selector : (Instr.bcst (.v 0) (.v 1) (.v 0) false 3).wf = false := by decide
theorem test_wf_bcst_rb : (Instr.bcst (.v 0) (.v 1) (.v 1) false 1).wf = false := by decide
theorem test_wf_red : (Instr.red (.s 0) (.v 1) 6).wf = false := by decide
theorem test_wf_brp : (Instr.brp 3 0).wf = false := by decide
theorem test_wf_brk : (Instr.brk 16).wf = false := by decide
theorem test_wf_fence : (Instr.fence 0 6).wf = false := by decide
theorem test_wf_waitc : (Instr.waitc .zr 7).wf = false := by decide
theorem test_wf_cpy : (Instr.cpy (.s 0) (.s 1) (.s 2) 3).wf = false := by decide
theorem test_wf_eret : (Instr.eret (.v 1) 0).wf = false := by decide
theorem test_wf_sysr : (Instr.sysr (.s 0) 0x005).wf = false := by decide
theorem test_wf_sysw : (Instr.sysw (.s 0) 0x0FF).wf = false := by decide
theorem test_wf_tlbi : (Instr.tlbi .zr 3).wf = false := by decide
theorem test_wf_good : (Instr.cvt (.v 0) (.v 1) 14 false false).wf = true ∧ (Instr.fence 3 5).wf = true ∧ (Instr.sysr (.s 0) 0x17F).wf = true := by
  decide

/-! ### Decoding: one word of each family, written field by field from R38-R41 and the opcode of its entry -/

theorem test_decode_arith : decode (0x02#8 ++ 3#7 ++ 5#7 ++ 98#7 ++ 0#1 ++ 0#2) = .ok (.sub (.v 3) (.v 5) (.s 2) false) := by decide
theorem test_decode_cmp : decode (0x0C#8 ++ 73#7 ++ 5#7 ++ 6#7 ++ 5#3) = .ok (.cmp (.p 1) (.v 5) (.v 6) 5) := by decide
theorem test_decode_logic : decode (0x14#8 ++ 68#7 ++ 5#7 ++ 64#7 ++ 1#1 ++ 0#2) = .ok (.shl .zr (.v 5) (.b 0) true) := by decide
theorem test_decode_function : decode (0x23#8 ++ 3#7 ++ 5#7 ++ 0#7 ++ 0#1 ++ 0#2) = .ok (.sqrt (.v 3) (.v 5) false) := by decide
theorem test_decode_move : decode (0x32#8 ++ 96#7 ++ 0x7FFF#17) = .ok (.movh (.s 0) 0x7FFF) := by decide
theorem test_decode_control : decode (0x41#8 ++ 2#2 ++ 0x3FFFFF#22) = .ok (.brp 2 0x3FFFFF) := by decide
theorem test_decode_memory : decode (0x53#8 ++ 88#7 ++ 97#7 ++ 80#7 ++ 0#3) = .ok (.st (.q 0) (.s 1) (.sp 0)) := by decide
theorem test_decode_atomic : decode (0x60#8 ++ 3#7 ++ 96#7 ++ 5#7 ++ 0#3) = .ok (.aadd (.v 3) (.s 0) (.v 5)) := by decide
theorem test_decode_copy : decode (0x70#8 ++ 99#7 ++ 96#7 ++ 97#7 ++ 2#3) = .ok (.cpy (.s 3) (.s 0) (.s 1) 2) := by decide
theorem test_decode_matrix : decode (0x80#8 ++ 0#7 ++ 88#7 ++ 89#7 ++ 0#1 ++ 3#2) = .ok (.mma (.q 0) (.q 1) 3) := by decide
theorem test_decode_flue : decode (0x90#8 ++ 0#7 ++ 96#7 ++ 8#7 ++ 0#2 ++ 1#1) = .ok (.trace (.s 0) (.v 8) true) := by decide
theorem test_decode_ember : decode (0xA0#8 ++ 4#7 ++ 96#7 ++ 68#7 ++ 0#3) = .ok (.eld (.v 4) (.s 0) .zr) := by decide
theorem test_decode_firebox : decode (0xB1#8 ++ 97#7 ++ 98#7 ++ 99#7 ++ 0#1 ++ 3#2) = .ok (.fbadd (.s 1) (.s 2) (.s 3) 3) := by decide
theorem test_decode_work : decode (0xC0#8 ++ 97#7 ++ 98#7 ++ 0#10) = .ok (.spawn (.s 1) (.s 2)) := by decide
theorem test_decode_system : decode (0xD0#8 ++ 0#7 ++ 0x1FFFF#17) = .ok (.trap 0x1FFFF) := by decide
theorem test_decode_reserved : (∃ e, decode (0x80#8 ++ 1#7 ++ 88#7 ++ 89#7 ++ 0#1 ++ 3#2) = .error e) := ⟨_, rfl⟩
theorem test_decode_not_coded : decodeTableWord 32 0x49000001 = none := by decide

/-! ### Small states -/

/-- The state with a program loaded, and its thread group changed. -/
def base (f : Tg → Tg) : State := let s := placeProgram State.reset; { s with tg := f s.tg }

/-- gm with an element type. -/
def ofEt (n : Nat) : W32 := BitVec.ofNat 32 (n * 32)

/-- Every v register of beat t holds 16 + t, s registers hold their number; integers. -/
def busy (g : Tg) : Tg :=
  { g with v := Vector.replicate 64 #v[16, 17, 18, 19, 20, 21, 22, 23]
           s := #v[0, 1, 2, 3, 4, 5, 6, 7, 8, 9, 10, 11, 12, 13, 14, 15, 16, 17, 18, 19, 20, 21, 22, 23, 24, 25, 26, 27, 28, 29, 30, 31]
           bv := #v[true, true, true, true] }

def sInt : State := base (fun g => { busy g with gm := ofEt 4 })
def sFloat : State := base (fun g => { busy g with gm := ofEt 10, v := Vector.replicate 64 (Vector.replicate 8 0x40000000) })

/-- The hypotheses that the element-wise statements share, for an instruction of a form. -/
def meets (form : State → Instr → Option Form) (s : State) (i : Instr) : Bool :=
  match form s i with
  | some F => s.tg.on && F.mask != 0 && F.legal s && F.ready s && F.plain && F.noTrap s (F.values s)
  | none => false

/-! ### Hypotheses met: arithmetic, logic, functions and moves -/

theorem witness_arith_integer : [Instr.add (.v 3) (.v 1) (.s 2) false, .sub (.s 3) (.v 1) (.b 0) false, .mul .zr (.v 1) .tix true,
    .mulh (.v 3) (.v 1) (.v 2) false, .mad (.v 3) (.v 1) (.v 2) false 0, .div (.v 3) (.v 1) (.v 2) false,
    .rem (.v 3) (.v 1) (.v 2) false, .min (.v 3) (.v 1) (.v 2) false].all (meets arithForm sInt) = true := by decide +kernel
theorem witness_arith_rest : [Instr.max (.v 3) (.v 1) (.v 2) false, .abs (.v 3) (.v 1) false, .neg (.v 3) (.v 1) false,
    .cmp (.p 1) (.v 1) (.v 2) 2, .sel (.v 3) (.v 1) (.v 2) false, .cvt (.v 4) (.v 1) 10 false false, .clz (.v 3) (.v 1) false,
    .popc (.v 3) (.v 1) false].all (meets arithForm sInt) = true := by decide +kernel
theorem witness_logic : [Instr.and (.v 3) (.v 1) (.v 2) false, .or (.v 3) (.v 1) (.v 2) false, .xor (.v 3) (.v 1) (.v 2) false,
    .shl (.v 3) (.v 1) (.s 31) false, .shr (.v 3) (.v 1) (.v 2) false, .sra (.v 3) (.v 1) (.v 2) false,
    .bfx (.v 3) (.v 1) (.v 2) false true].all (meets logicForm sInt) = true := by decide +kernel
theorem witness_function : [Instr.rcp (.v 3) (.v 1) false, .rsq (.v 3) (.v 1) false, .rsqs (.v 3) (.v 1) false, .sqrt (.v 3) (.v 1) false,
    .ex2 (.v 3) (.v 1) false, .lg2 (.v 3) (.v 1) false, .sinp (.v 3) (.v 1) false, .cosp (.v 3) (.v 1) false].all
    (meets funcForm sFloat) = true := by decide +kernel
theorem witness_move : [Instr.mov (.v 3) (.v 1) false, .movi (.s 1) 0x1FFFF, .movh (.v 1) 1, .lane (.v 3) (.v 1) (.s 1) false 2,
    .bcst (.v 3) (.v 1) (.s 7) false 0, .red (.s 0) (.v 1) 0, .rnd (.v 3) false, .wid (.v 3) (.s 5)].all (meets moveForm sInt) = true := by
  decide +kernel
theorem witness_plog : sInt.tg.on = true ∧ sInt.tg.active ≠ 0 ∧ sInt.tg.guardPending = false ∧ plogSrcOk sInt.hdr (.p 1) = true ∧ plogSrcOk sInt.hdr (.s 2) = true
    ∧ ([.p 0, .p 1, .s 2] : List Opnd).any sInt.tg.pending = false := by decide

/-! ### Hypotheses met: traps and idle instructions -/

/-- The value of a wait-free read, and that it is one. -/
def isGo : Ready → Bool | .go _ => true | .stop _ => false
def goOf : Ready → Reads | .go r => r | .stop _ => default
theorem go_of (x : Ready) (h : isGo x = true) : x = .go (goOf x) := by cases x <;> simp_all [isGo, goOf]

/-- The sources of a shape as the issuing threads read them. -/
def readsOf (s : State) (m : Mask) (xs : List (Opnd × Nat)) (sw : Bool := true) : Ready := readSources s sw m xs 0 ⟨[], 0, s, []⟩

/-- The hypotheses of one clause of a statement on forms. -/
def formIs (s : State) (i : Instr) (c : Form → Bool) : Bool :=
  match elemForm s i with
  | some F => s.tg.on && !s.tg.guardPending && c F
  | none => false

theorem witness_trap_own : formIs sInt (.add (.v 3) (.v 1) (.v 2) true) (fun F => F.mask ≠ 0 && !F.own) = true := by decide +kernel
theorem witness_trap_operand : formIs sInt (.add (.v 3) (.rsv 0) (.v 2) false)
    (fun F => F.mask ≠ 0 && F.own && (F.shape.operandTrap sInt F.mask).isSome) = true := by decide +kernel
theorem witness_trap_unbound : formIs sInt (.add (.v 3) (.q 0) (.v 2) false)
    (fun F => F.mask ≠ 0 && F.own && (F.shape.operandTrap sInt F.mask).isNone && F.more.isEmpty && F.typeOk
      && (F.shape.bindTrap sInt F.mask).isSome) = true := by decide +kernel
theorem witness_trap_type : formIs sFloat (.mulh (.v 3) (.v 1) (.v 2) false)
    (fun F => F.mask ≠ 0 && F.own && F.more.isEmpty && !F.typeOk && (F.shape.operandTrap sFloat F.mask).isNone) = true := by decide +kernel

/-- Division by zero with the trap of dz enabled. -/
def sDivZero : State := base (fun g => { busy g with gm := ofEt 10, fptrap := 0x9F, v := Vector.replicate 64 (Vector.replicate 8 0x3F800000) })
theorem witness_trap_flag : formIs sDivZero (.div (.v 3) (.v 1) .zr false)
    (fun F => F.mask ≠ 0 && F.legal sDivZero && F.ready sDivZero && F.plain && !F.noTrap sDivZero (F.values sDivZero)) = true := by
  decide +kernel

/-- No thread acts: the guard is on and its predicate is 0. -/
def sIdle : State := base (fun g => { busy g with gm := ofEt 4 + 0x10 })
theorem witness_idle : formIs sIdle (.add (.v 3) (.b 3) (.v 2) false)
    (fun F => F.mask = 0 && F.reads.all (fun x => match x.1 with | .b n => vget sIdle.tg.bv n.toNat | _ => true)) = true := by decide +kernel
theorem witness_idle_latch : formIs (base (fun g => { g with gm := 0x10 })) (.add (.v 3) (.b 3) (.v 2) false)
    (fun F => F.mask = 0 && !F.reads.all (fun x => match x.1 with | .b n => vget (base (fun g => { g with gm := 0x10 })).tg.bv n.toNat | _ => true))
    = true := by decide +kernel

/-! ### Hypotheses met: queues and streams as operands -/

/-- q0 pops user FIFO 0x20, which holds eight words; q1 pushes into 0x21; sp0 reads and sp1 writes scratch. -/
def sQueue : State :=
  let s := base (fun g => { busy g with
    gm := ofEt 4
    q := #v[some ⟨0x20, .pop⟩, some ⟨0x21, .push⟩, none, none, none, none, none, none]
    sp := #v[some ⟨0xFFFFFFFFFFFC0100, 4, 8, 1, 4, 4, false, 0⟩, some ⟨0xFFFFFFFFFFFC0200, 4, 8, 1, 4, 4, true, 0⟩, none, none, none, none, none, none] })
  { s with wgs := s.wgs.map (fun w => { w with fifos := [⟨0x20, (List.range 32).map (fun i => (BitVec.ofNat 8 i, false)), []⟩] }) }

theorem witness_queue_source : sQueue.tg.binding 0 = some ⟨0x20, .pop⟩ ∧ wordPop 0x20 = true
    ∧ (beatsOf sQueue.tg.active).length ≤ (portWords sQueue 0x20).length := by decide +kernel

/-- The hypotheses shared by the clauses on queue and stream destinations. -/
def movesAlong (s : State) (i : Instr) (c : Form → Reads → Bool) : Bool :=
  formIs s i (fun F =>
    F.mask ≠ 0 && F.legal s && F.ready s
      && queuesReady s (queueWords s.tg F.reads (beatsOf F.readers).length) (queueWords s.tg [(F.dst, F.bits)] (beatsOf F.readers).length)
      && isGo (readsOf s F.readers F.reads F.shape.switches) && F.noTrap s (goOf (readsOf s F.readers F.reads F.shape.switches)) && F.more.isEmpty
      && c F (goOf (readsOf s F.readers F.reads F.shape.switches)))

theorem witness_queue_destination : movesAlong sQueue (.add (.q 1) (.q 0) (.sp 0) false) (fun F r =>
    F.dst == .q 1 && sQueue.tg.binding 1 == some ⟨0x21, .push⟩ && sQueue.tg.key == r.st.tg.key && (sQueue.findWg 0 0 0).isSome
      && pushable 0x21 && portFill r.st 0x21 % 4 = 0) = true := by decide +kernel
theorem witness_stream_destination : movesAlong sQueue (.add (.sp 1) (.v 1) (.sp 0) false) (fun F _ =>
    let x := (vget sQueue.tg.sp 1).getD default
    F.dst == .sp 1 && (vget sQueue.tg.sp 1).isSome && x.write
      && (checkAll sQueue .write (etBytes sQueue.tg.et) (etBytes sQueue.tg.et) (streamVas x x.pos F.mask)).1.isNone
      && needOwn sQueue (checkAll sQueue .write (etBytes sQueue.tg.et) (etBytes sQueue.tg.et) (streamVas x x.pos F.mask)).2 = []
      && !sQueue.tg.acquiring) = true := by
  decide +kernel

/-! ### Hypotheses met: element edges -/

theorem witness_element_edges : (4 : Nat) ≤ 7 ∧ (0 : Nat) < 2 ^ etWidth 4 ∧ (2 ^ 32 - 1 : Nat) < 2 ^ etWidth 4 ∧ intVal 4 (2 ^ 32 - 1) ≠ 0
    ∧ intVal 4 0 = 0 ∧ etWidth 4 ≤ 32 ∧ 31 < etWidth 4 := by decide +kernel
theorem witness_float_edges : fmtF32.isNan 0x7FC00000 = true ∧ fmtF32.isNan 0xFF800000 = false ∧ fmtF32.isInf 0xFF800000 = true
    ∧ fmtF32.neg 0xFF800000 ≠ fmtF32.neg 0x7F800000 ∧ fmtF32.isZero 0x80000000 = true ∧ fmtF32.isInf 0x3F800000 = false
    ∧ fmtF32.isZero 0x3F800000 = false := by decide +kernel

/-! ### Hypotheses met: control transfer and divergence -/

/-- The guard is on, p0 holds for the four low threads, one entry stands on the stack. -/
def sHalf : State := base (fun g => { busy g with gm := ofEt 4 + 0x10, p := vset g.p 0 0x0F, stack := [⟨0xFF, 0xF0, 0x10100, none⟩] })

theorem witness_branch : sInt.tg.on = true ∧ sInt.tg.guardPending = false ∧ sInt.tg.active ≠ 0 ∧ (32 ≤ sInt.hdr.sregs) ∧ sInt.tg.pending (.s 31) = false
    ∧ (8 < sInt.hdr.sregs) ∧ sInt.tg.pending (.s 8) = false ∧ (vget sInt.tg.s 8).toNat % 4 = 0 := by decide +kernel
theorem witness_branch_idle : sIdle.tg.on = true ∧ sIdle.tg.guardPending = false ∧ sIdle.tg.active = 0 := by decide +kernel
theorem witness_split : sHalf.tg.on = true ∧ sHalf.tg.guardPending = false ∧ sHalf.tg.stack.length < 16 ∧ sHalf.tg.cm &&& sHalf.tg.guard ≠ 0 := by decide +kernel
theorem witness_split_other : sIdle.tg.on = true ∧ sIdle.tg.guardPending = false ∧ sIdle.tg.stack.length < 16 ∧ sIdle.tg.cm &&& sIdle.tg.guard = 0 := by decide +kernel
theorem witness_join_pending : sHalf.tg.on = true ∧ sHalf.tg.stack = [⟨0xFF, 0xF0, 0x10100, none⟩] ∧ (0xF0#8) &&& sHalf.tg.live ≠ 0 := by
  decide +kernel
theorem witness_join_pop : let s := base (fun g => { g with stack := [⟨0xFF, 0, 0x10100, some 0x10084⟩] })
    s.tg.on = true ∧ s.tg.stack = [⟨0xFF, 0, 0x10100, some 0x10084⟩] ∧ (0#8) &&& s.tg.live = 0 ∧ (0xFF#8) &&& s.tg.live ≠ 0 := by
  decide +kernel
theorem witness_brk : sHalf.tg.active ≠ 0 ∧ sHalf.tg.guardPending = false ∧ (0 : Nat) < 15 ∧ 0 < sHalf.tg.stack.length
    ∧ sHalf.tg.cm &&& ~~~ sHalf.tg.active ≠ 0 := by decide +kernel

/-- The four low threads alone follow the PC, the others wait in the entry or are gone. -/
def sLeft (st : List Entry) (live : Mask) : State := base (fun g => { busy g with stack := st, cm := 0x0F, live := live })
theorem witness_join_resolved : resolution 0xFF [⟨0xFF, 0, 0x10100, none⟩] ≠ none
    ∧ (sLeft [⟨0, 0, 0x10100, none⟩, ⟨0xFF, 0, 0x10100, none⟩] 0xFF).tg.stack.length ≤ 16
    ∧ (0#8) &&& (sLeft [] 0xFF).tg.live = 0 ∧ resolution 0xFF [⟨0, 0, 0x10100, none⟩] = none := by decide +kernel
theorem witness_brk_resolved : (let s := sLeft [⟨0xFF, 0xF0, 0x10100, none⟩, ⟨0xFF, 0, 0x10200, none⟩] 0xFF
    s.tg.active = 0x0F && s.tg.cm &&& ~~~ s.tg.active = 0 && 1 < s.tg.stack.length
      && (resolution s.tg.live (s.tg.stack.take 1 ++ s.tg.stack.drop 1)).isSome) = true
    ∧ (let s := sLeft [⟨0x0F, 0, 0x10100, none⟩, ⟨0x0F, 0, 0x10200, none⟩] 0xFF
       let st := (s.tg.stack.take 1).map (fun e => { e with rm := e.rm &&& ~~~ s.tg.active }) ++ [⟨0, 0, 0x10200, none⟩]
       (resolution s.tg.live st).isNone) = true := by decide +kernel

/-- v0 and v1 hold two legal targets, one for the low and one for the high threads. -/
def sJump (st : List Entry) (same : Bool) : State :=
  let s := base (fun g => { busy g with
    stack := st
    v := vset (vset g.v 0 (if same then Vector.replicate 8 0x10100 else #v[0x10100, 0x10100, 0x10100, 0x10100, 0x10200, 0x10200, 0x10200, 0x10200]))
      1 (Vector.replicate 8 0) })
  { s with mem := memPut (memPut s.mem 0x10100 (natLe 4 0x48000000)) 0x10200 (natLe 4 0x48000000) }
/-- The hypotheses of JMPI through v0 and v1 without a tag. -/
def jumps (s : State) : Bool :=
  s.tg.on && addrOk s.hdr (.v 0) && sOperand s true .zr && !(opndSpan (.v 0) 64).any s.tg.pending && !s.tg.pending .zr
    && decide ((readS s.tg .zr).toNat < 2 ^ 17)
    && (beatsOf s.tg.cm).all (fun t => targetReason s s.tg none ((readPlain s.tg (.v 0) 64 t).setWidth 64) = 0)
theorem witness_jmpi : jumps (sJump [] true) = true := by decide +kernel
theorem witness_jmpi_again : jumps (sJump [⟨0xFF, 0, 0x10080, none⟩] false) = true := by decide +kernel
theorem witness_jmpi_push : jumps (sJump [] false) = true := by decide +kernel
theorem witness_exit : sHalf.tg.on = true ∧ sHalf.tg.guardPending = false ∧ sHalf.tg.stack.length ≤ 16 ∧ sHalf.tg.active ≠ 0 ∧ (statusCause sHalf.hdr sHalf.tg (.v 1)).isNone = true
    ∧ Shape.pending ⟨[(.v 1, 32)], .zr, 32, false⟩ sHalf.tg = false ∧ sHalf.launch.draw = none ∧ sHalf.tg.rays = []
    ∧ sHalf.tg.cm &&& ~~~ sHalf.tg.active ≠ 0 := by decide +kernel
theorem witness_exit_all : sInt.tg.on = true ∧ sInt.tg.active ≠ 0 ∧ (statusCause sInt.hdr sInt.tg (.v 1)).isNone = true
    ∧ sInt.launch.draw = none ∧ sInt.tg.rays = [] ∧ sInt.tg.cm &&& ~~~ sInt.tg.active = 0 ∧ sInt.tg.stack = []
    ∧ resolution (sInt.tg.live &&& ~~~ sInt.tg.active) [] = none := by decide +kernel
theorem witness_exit_resolved : (let s := sLeft [⟨0xFF, 0xF0, 0x10100, none⟩] 0xFF
    s.tg.cm &&& ~~~ s.tg.active = 0 && s.tg.rays.isEmpty && s.launch.draw.isNone
      && resolution (s.tg.live &&& ~~~ s.tg.active) [⟨0xF0, 0xF0, 0x10100, none⟩] = some (0xF0, 0x10100, [⟨0xF0, 0, 0x10100, none⟩])) = true := by
  decide +kernel
theorem witness_mode : sInt.tg.on = true ∧ modeReserved ((0x0000A0#24).setWidth 32) = false ∧ sOperand sInt true (.s 1) = true
    ∧ sInt.tg.pending (.s 1) = false ∧ sInt.tg.pending (.s 2) = false ∧ sOperand sInt true (.s 2) = true
    ∧ modeReserved (((readS sInt.tg (.s 2)).extractLsb' 0 24).setWidth 32) = false := by decide +kernel

/-- A second thread group of the same workgroup. -/
def second (f : Tg → Tg) (s : State) : State :=
  { s with rest := [f { s.tg with key := ⟨0, 0, 0, 1⟩ }], launches := s.launches.map (fun l => { l with hdr := { l.hdr with tgs := 2 }, count := 16 }) }
/-- REGRP's test that every TG of the workgroup stands at one. -/
def regroups (s : State) : Bool :=
  ((withTg s { s.tg with phase := .arrived }).tgsOf 0 0 0).all (fun x =>
    x.key = s.tg.key || (x.phase = .arrived && (match decode x.word with | .ok (.regrp _) => true | _ => false)))
theorem witness_regrp_alone : sInt.tg.on = true ∧ sInt.tg.stack = [] ∧ sInt.tg.rays = [] ∧ sInt.tg.pending (.p 3) = false
    ∧ regroups sInt = true ∧ regroups (second (fun g => { g with phase := .arrived, word := (encode (.regrp (.p 1))).getD 0 }) sInt) = true := by
  decide +kernel
theorem witness_regrp_waits : let s := second (fun g => { g with phase := .arrived, word := (encode .barr).getD 0 }) sInt
    s.tg.stack = [] ∧ s.tg.rays = [] ∧ s.tg.pending (.p 3) = false ∧ regroups s = false := by decide +kernel
theorem witness_deal : (3 : Nat) < 8 ∧ [sInt.tg, sHalf.tg][1]? = some sHalf.tg := by decide +kernel

/-! ### Hypotheses met: exceptions and control registers -/

/-- The thread group at U, its launch with a handler. -/
def sUser (f : Tg → Tg) : State :=
  let s := base (fun g => f { busy g with priv := .u })
  { s with launches := s.launches.map (fun l => { l with hdr := { l.hdr with trapOff := 0x40 } }) }
theorem witness_trap : (sUser id).tg.priv = .u ∧ (sUser id).hdr.trapOff ≠ 0 ∧ (sUser id).tg.trec = 0 ∧ (sUser id).tg.on = true
    ∧ (sUser id).tg.guardPending = false ∧ (sUser id).tg.active ≠ 0 := by decide +kernel
theorem witness_trap_idle : let s := sUser (fun g => { g with gm := 0x10 })
    s.tg.priv = .u ∧ s.hdr.trapOff ≠ 0 ∧ s.tg.trec = 0 ∧ s.tg.on = true ∧ s.tg.active = 0 := by decide +kernel
theorem witness_record : (0x11 : Nat) < 256 ∧ (3 : Nat) < 256 ∧ sInt.tg.stack.length ≤ 16 ∧ sInt.gt < 2 ^ 64 := by decide +kernel
theorem witness_kill : killsTg sInt = true ∧ sInt.tg.priv = .m ∧ (0x0A : Nat) < 2 ^ 31 ∧ sInt.tg.rays = [] ∧ sInt.tg.pins = [] := by decide +kernel

/-- In a handler at S, entered from U with every thread. -/
def sHandler (f : Tg → Tg) : State := base (fun g => f { busy g with priv := .s, tmask := 0xFF00, tepc := 0x10100, trpc := 0x10100 })
theorem witness_eret : let s := sHandler id
    s.tg.on = true ∧ s.tg.guardPending = false ∧ s.tg.active ≠ 0 ∧ s.tg.priv ≠ .u ∧ s.tg.savedPriv ≤ s.tg.priv.code ∧ s.tg.stack.length = s.tg.savedDepth
      ∧ BitVec.ofNat 8 (s.tg.tmask.toNat / 2 ^ 8) &&& s.tg.live ≠ 0 ∧ 1 < s.hdr.sregs ∧ s.tg.pending (.s 1) = false := by decide +kernel
theorem witness_eret_user : (sUser id).tg.on = true ∧ (sUser id).tg.active ≠ 0 ∧ (sUser id).tg.priv = .u := by decide +kernel
theorem witness_eret_above : let s := sHandler (fun g => { g with tcause := 0x200 })
    s.tg.priv ≠ .u ∧ s.tg.priv.code < s.tg.savedPriv := by decide +kernel
theorem witness_eret_depth : let s := sHandler (fun g => { g with tcause := 0x10000 })
    s.tg.priv ≠ .u ∧ s.tg.savedPriv ≤ s.tg.priv.code ∧ s.tg.stack.length ≠ s.tg.savedDepth := by decide +kernel
theorem witness_register_refused : (sUser id).tg.on = true ∧ (sUser id).tg.active ≠ 0 ∧ knownRegister 0x010 = true
    ∧ allowed readTable 0x010 .u = false ∧ allowed writeTable 0x000 .u = false := by decide +kernel

/-- s7 and s8 hold values that a register's map refuses; s9 one that LEASE takes. -/
def sValues : State := base (fun g => { busy g with s := vset (vset (vset (busy g).s 7 0x300) 8 0x100) 9 16 })
theorem witness_value_tcause : allowed writeTable 0x011 sValues.tg.priv = true ∧ (vget sValues.tg.s 7).toNat / 2 ^ 8 % 4 = 3 := by decide +kernel
theorem witness_value_tgm : allowed writeTable 0x015 sValues.tg.priv = true
    ∧ modeReserved (BitVec.ofNat 32 (vget (base (fun g => { g with s := vset g.s 7 0x1E0 })).tg.s 7).toNat) = true := by decide +kernel
theorem witness_value_lease : allowed writeTable 0x052 .u = true ∧ (vget sValues.tg.s 5).toNat % 32 < 6 ∧ 16 < (vget sValues.tg.s 17).toNat % 32 := by
  decide +kernel
theorem witness_value_quant : allowed writeTable 0x060 .m = true ∧ (vget sValues.tg.s 8).toNat % 2 ^ 32 < 1000 := by decide +kernel
theorem witness_value_ctxid : allowed writeTable 0x020 .m = true ∧ 255 < (vget sValues.tg.s 8).toNat % 2 ^ 16 := by decide +kernel
theorem witness_sysr : sInt.tg.guardPending = false ∧ (0x080, (0 : W64)) ∈ registerValues sInt ∧ allowed readTable 0x080 sInt.tg.priv = true ∧ 1 < sInt.hdr.sregs
    ∧ sInt.tg.pending (.s 1) = false := by decide +kernel
theorem witness_sysr_flags : (3, (0 : W64)) ∈ registerValues sInt ∧ flagsDue sInt.tg = false := by decide +kernel
theorem witness_sysw : knownRegister 0x052 = true ∧ allowed writeTable 0x052 sValues.tg.priv = true
    ∧ valueRefused sValues 0x052 (vget sValues.tg.s 9 &&& BitVec.ofNat 64 (writable 0x052)) = false
    ∧ (wroteReg sValues.tg 0x052 (vget sValues.tg.s 9)).isSome = true := by decide +kernel
theorem witness_sysw_under_way : knownRegister 0x010 = true ∧ allowed writeTable 0x010 sValues.tg.priv = true
    ∧ valueRefused sValues 0x010 (vget sValues.tg.s 9 &&& BitVec.ofNat 64 (writable 0x010)) = false
    ∧ wroteReg sValues.tg 0x010 (vget sValues.tg.s 9) = none := by decide +kernel

/-! ### Hypotheses met: memory -/

/-- The checks of `issues`, as one test. -/
def issuesB (s : State) (x : Shape) (a : Opnd) : Bool :=
  s.tg.on && s.tg.active != 0 && !s.tg.guardPending && addrOk s.hdr a && (x.operandTrap s s.tg.active).isNone
    && (x.bindTrap s s.tg.active).isNone && !x.pending s.tg && !(opndSpan a 64).any s.tg.pending && !s.tg.acquiring
    && queuesReady s (queueWords s.tg x.reads (beatsOf (x.readers s.tg.active)).length) []
    && isGo (readsOf s (x.readers s.tg.active) x.reads x.switches)

theorem issues_of (s : State) (x : Shape) (a : Opnd) (h : issuesB s x a = true) :
    issues s x a (goOf (readsOf s (x.readers s.tg.active) x.reads x.switches)) := by
  simp only [issuesB, Bool.and_eq_true, bne_iff_ne, Bool.not_eq_true', Option.isNone_iff_eq_none] at h
  obtain ⟨⟨⟨⟨⟨⟨⟨⟨⟨⟨h1, h2⟩, h3⟩, h4⟩, h5⟩, h6⟩, h7⟩, h8⟩, h9⟩, h10⟩, h11⟩ := h
  exact ⟨h1, h2, h3, h4, h5, h6, h7, h8, h9, h10, go_of _ h11⟩

/-- A data page at virtual 0x20000 (its own physical page) with the given leaf bits, and scratch. s0 points into memory, s1 into
scratch, v4 holds four times the beat, v5 the beat. -/
def sMem (attr : Nat) (f : Tg → Tg) : State :=
  let s := base (fun g => f { busy g with
    gm := ofEt 4, s := vset (vset (busy g).s 0 0x20000) 1 0xFFFFFFFFFFFC0100
    v := vset (vset (busy g).v 4 #v[0, 4, 8, 12, 16, 20, 24, 28]) 5 #v[0, 1, 2, 3, 4, 5, 6, 7] })
  { s with tlb := ⟨0, 0, 0x20000, 0x10000, BitVec.ofNat 64 (0x2003F + attr * 128)⟩ :: s.tlb
           gt := 5000
           mem := memPut s.mem 0x20000 (natLe 32 0x1F1E1D1C1B1A191817161514131211100F0E0D0C0B0A09080706050403020100) }

def loadShape (s : State) (d b : Opnd) : Shape := ⟨[(b, 32)], d, etContainer s.tg.et, true⟩
def loadReads (s : State) (d b : Opnd) : Reads := goOf (readsOf s ((loadShape s d b).readers s.tg.active) [(b, 32)])
def loadAccs (s : State) (k : LoadKind) (d a b : Opnd) : Option TrapInfo × List Acc1 :=
  checkLoads s k (etBytes s.tg.et) (effVas s.tg a (loadReads s d b) 0 ((loadShape s d b).readers s.tg.active))

/-- The hypotheses of the statements on loads but the readings. -/
def loadsB (s : State) (k : LoadKind) (d a b : Opnd) : Bool :=
  issuesB s (loadShape s d b) a && loadDst d && (loadAccs s k d a b).1.isNone && loadGoes (loadReads s d b) k (loadAccs s k d a b).2

theorem witness_load_scratch : (let s := sMem 0 id
    [LoadKind.plain, .bounded, .acquire].all (fun k => loadsB s k (.v 3) (.s 1) (.v 4)
      && (found (loadReads s (.v 3) (.v 4)).st k (loadAccs s k (.v 3) (.s 1) (.v 4)).2).msgs = []
      && poisonPasses s (piecePoison (found (loadReads s (.v 3) (.v 4)).st k (loadAccs s k (.v 3) (.s 1) (.v 4)).2).got
          ||| (loadReads s (.v 3) (.v 4)).poison))) = true := by decide +kernel
theorem witness_load_issues : let s := sMem 0 id
    issues s (loadShape s (.v 3) (.v 4)) (.s 1) (loadReads s (.v 3) (.v 4)) := issues_of _ _ _ (by decide +kernel)
theorem witness_load_memory : (let s := sMem 0 id
    [LoadKind.plain, .bounded, .acquire].all (fun k => loadsB s k (.s 3) (.s 0) (.v 4)
      && (found (loadReads s (.s 3) (.v 4)).st k (loadAccs s k (.s 3) (.s 0) (.v 4)).2).msgs ≠ []
      && poisonPasses s (loadReads s (.s 3) (.v 4)).poison)) = true := by decide +kernel

def storeShape (s : State) (d b : Opnd) (sw : Bool) : Shape := ⟨[(b, 32), (d, etContainer s.tg.et)], .zr, 32, sw⟩
def storeReads (s : State) (d b : Opnd) (sw : Bool) : Reads := goOf (readsOf s ((storeShape s d b sw).readers s.tg.active) (storeShape s d b sw).reads (storeShape s d b sw).switches)
def storeAccs (s : State) (d a b : Opnd) (sw : Bool) : Option TrapInfo × List Acc1 :=
  checkAll s .write (etBytes s.tg.et) (etBytes s.tg.et) (effVas s.tg a (storeReads s d b sw) 0 s.tg.active)
/-- The hypotheses of the statement on stores. -/
def storesB (s : State) (release : Bool) (d a b : Opnd) : Bool :=
  issuesB s (storeShape s d b release) a && (!release || strReady s) && (storeAccs s d a b release).1.isNone
    && s.tg.count (pathOf (storeAccs s d a b release).2) < 255 && needOwn s (storeAccs s d a b release).2 = []
    && poisonPasses s (storeReads s d b release).poison

theorem witness_store : (let s := sMem 0 id
    storesB s false (.v 5) (.s 1) (.v 4) && storesB s false (.v 5) (.s 0) (.v 4) && storesB s true (.v 5) (.s 1) (.v 4)
      && storesB s true (.v 5) (.s 0) (.v 4)) = true := by decide +kernel
theorem witness_load_fault : (let s := sMem 0 id
    issuesB s (loadShape s (.v 3) (.v 5)) (.s 0) && loadDst (.v 3) && (loadAccs s .plain (.v 3) (.s 0) (.v 5)).1.isSome) = true := by decide +kernel
theorem witness_canonical : canonical 0x0100000000000000 = false ∧ canonical 0x20001 = true ∧ (0x20001#64).toNat % 4 ≠ 0 := by decide +kernel

theorem witness_fence : let s := sMem 0 id
    s.tg.on = true ∧ s.tg.guardPending = false ∧ s.tg.active ≠ 0 ∧ s.tg.quantum = [] ∧ sOperand s true (.s 3) = true ∧ s.tg.pending (.s 3) = false
      ∧ (∀ p ∈ allPaths, s.tg.count p ≤ (readS s.tg (.s 3)).toNat) ∧ s.tg.monitor = none := by decide +kernel
theorem witness_mwait : let m : Monitor := ⟨0x400, true, false⟩
    (sMem 0 (fun g => { g with monitor := some m })).tg.monitor = some m ∧ m.fired = true := by decide +kernel
theorem witness_mwait_waits : let m : Monitor := ⟨0x400, false, false⟩
    (sMem 0 (fun g => { g with monitor := some m })).tg.monitor = some m ∧ m.fired = false := by decide +kernel
theorem witness_prefetch : (let s := sMem 0 id
    let x : Shape := ⟨[(.v 4, 32)], .zr, 32, false⟩
    s.tg.on && !s.tg.guardPending && s.tg.active != 0 && addrOk s.hdr (.s 0) && !(opndSpan (.s 0) 64).any s.tg.pending && !x.pending s.tg && !s.tg.acquiring
      && (x.operandTrap s s.tg.active).isNone && (x.bindTrap s s.tg.active).isNone
      && queuesReady s (queueWords s.tg x.reads (beatsOf s.tg.active).length) []
      && isGo (readsOf s (s.tg.active &&& ~~~ prfDropped s (.v 4) s.tg.active) x.reads false)) = true := by decide +kernel
theorem witness_monitor : (let s := sMem 0 id
    let r := goOf (readsOf s (1#8 <<< lowest s.tg.active) [(.v 4, 32)] false)
    (readCause s.hdr s.tg true (.v 4) 32).isNone && !unbound s.tg (.v 4) && queuesReady s (queueWords s.tg [(.v 4, 32)] 1) []
      && isGo (readsOf s (1#8 <<< lowest s.tg.active) [(.v 4, 32)] false)
      && (match checkAccess s s.tg .read 1 1 (effVa s.tg (.s 0) (r.at 0 (lowest s.tg.active)) (lowest s.tg.active)) with
          | .ok (.mem pa attr _ false) => attr ≠ 3 && (s.toLine s.tg.key (lineOf pa)).isEmpty
          | _ => false)) = true := by decide +kernel

/-- Context 0 with round region 0: its counter word at virtual 0x20040. -/
def sRound (f : Tg → Tg) : State :=
  let s := sMem 0 f
  { s with ctxs := s.ctxs.map (fun x => { x with rr := [(0, some ⟨0x20040, 0x20080, 0x30000⟩)] }) }
theorem witness_radv : let s := sRound id
    s.tg.on = true ∧ s.tg.active ≠ 0 ∧ roundRegion s s.tg.ctx (gmRr s.tg.gm) = some ⟨0x20040, 0x20080, 0x30000⟩
      ∧ checkAccess s s.tg .write 4 4 0x20040 = .ok (.mem 0x20040 0 false false) ∧ s.tg.acquiring = false ∧ strReady s = true := by
  decide +kernel
theorem witness_rcnt_det : (let s := { sRound id with launches := (sRound id).launches.map (fun l => { l with hdr := { l.hdr with flags := l.hdr.flags ||| 1 } }) }
    let s1 := noteRound s s.tg.ctx (gmRr s.tg.gm)
    match paOf s1 s1.tg.core s1.tg.ctx 0x20040 with
    | some pa =>
      let y : Acc1 := ⟨0, 0x20040, .mem pa 0 false (s1.isRemote pa)⟩
      let s2 := touchPages s1 [y]
      s.det && !s.tg.acquiring && !s.tg.pending (.s 3) && (gather s2 etU32 s2.tg.nextOp 4 false [y]).msgs ≠ []
    | none => false) = true := by decide +kernel
theorem witness_rcnt : let s := sRound id
    s.det = false ∧ sOperand s true (.s 3) = true ∧ s.tg.pending (.s 3) = false ∧ 3 < s.hdr.vregs ∧ s.tg.pending (.v 3) = false := by
  decide +kernel

/-- The places that LDFE or STFE of v3 with base s1 and offsets v4 names. -/
def feXs (s : State) (r : Reads) (m : Mask) : List (Except Nat (Nat × Nat × Nat × Nat)) :=
  (effVas s.tg (.s 1) r 0 m).map (fun y => feTarget s s.tg y.2)
def feOk (s : State) (xs : List (Except Nat (Nat × Nat × Nat × Nat))) (full : Bool) : Bool :=
  let ys := xs.filterMap (fun x => match x with | .ok y => some y | .error _ => none)
  xs = ys.map .ok && !hasTwice ys && ys.all (fun y => isFull s y == full) && !feYields s ys
theorem witness_ldfe : (let s := sMem 0 id
    let r := loadReads s (.v 3) (.v 4)
    issuesB s ⟨[(.v 4, 32)], .v 3, 32, true⟩ (.s 1) && poisonPasses s r.poison && [4, 5, 10].contains s.tg.et && s.tg.priv = .m
      && feOk s (feXs s r ((loadShape s (.v 3) (.v 4)).readers s.tg.active)) true) = true := by decide +kernel

/-- The same with every word of scratch's first kibibyte empty. -/
def sEmpty : State := let s := sMem 0 id; { s with wgs := s.wgs.map (fun w => { w with empty := List.range 256 }) }
theorem witness_stfe : (let s := sEmpty
    let r := storeReads s (.v 3) (.v 4) true
    issuesB s ⟨[(.v 4, 32), (.v 3, 32)], .zr, 32, true⟩ (.s 1) && poisonPasses s r.poison && [4, 5, 10].contains s.tg.et && s.tg.priv = .m
      && feOk s (feXs s r s.tg.active) false) = true := by decide +kernel

/-! ### Hypotheses met: atomics, copies, bindings -/

/-- The hypotheses of the statements on atomics: base s0 (memory) or s1 (scratch), or a v pair. -/
def atomicsB (s : State) (op : Nat) (d a b : Opnd) (scratch : Bool) : Bool :=
  let x := atomicShape s.tg op d b
  let ts := x.readers s.tg.active
  let y := checkEach .atomic (fun va => thenCheck deviceFault (checkAccess s s.tg .atomic (etBytes s.tg.et) (etBytes s.tg.et) va)) ((beatsOf ts).map (fun t => (t, (readPlain s.tg a 64 t).setWidth 64)))
  op < 8 && issuesB s x a && atomicType op s.tg.et && (!noReturn (auOf s.tg) || (op < 6 && d = .zr)) && (auOf s.tg ≠ 0 || strReady s)
    && y.1.isNone && s.tg.count (if pathOf y.2 = .g then .h else .s) < 255 && needOwn s y.2 = [] && loadDst d
    && poisonPasses s (goOf (readsOf s ts x.reads x.switches)).poison
    && (if scratch then y.2.all (fun z => match z.target with | .mem _ _ _ _ => false | _ => true) else pathOf y.2 = .g)

/-- v6 and v7 hold addresses of eight words of scratch. -/
def sAtomic (au : Nat) : State :=
  sMem 0 (fun g => { g with gm := ofEt 4 + BitVec.ofNat 32 (au * 2 ^ 21)
                            v := vset (vset g.v 6 #v[0xFFFC0100, 0xFFFC0104, 0xFFFC0108, 0xFFFC010C, 0xFFFC0110, 0xFFFC0114, 0xFFFC0118, 0xFFFC011C])
                              7 (Vector.replicate 8 0xFFFFFFFF)
                            s := vset (vset g.s 0 0x20000) 1 0xFFFFFFFFFFFC0100 })
theorem witness_atomic_scratch : ([0, 1, 2, 3, 4, 5, 6, 7].all (fun op => atomicsB (sAtomic 0) op (.v 3) (.v 6) (.v 5) true)
    && atomicsB (sAtomic 2) 0 .zr (.s 1) (.v 5) true) = true := by decide +kernel
theorem witness_atomic_memory : ([0, 1, 2, 3, 4, 5, 6, 7].all (fun op => atomicsB (sAtomic 0) op (.s 3) (.s 0) (.s 5) false)
    && atomicsB (sAtomic 4) 0 .zr (.s 0) (.v 5) false && quantumAddrs (sAtomic 4).tg + 8 < 64
    && !(sAtomic 4).tg.fptrap.getLsbD 7) = true := by decide +kernel
theorem witness_atomic_issues : let s := sAtomic 0
    issues s (atomicShape s.tg 7 (.v 3) (.v 5)) (.v 6) (goOf (readsOf s ((atomicShape s.tg 7 (.v 3) (.v 5)).readers s.tg.active) (atomicShape s.tg 7 (.v 3) (.v 5)).reads)) :=
  issues_of _ _ _ (by decide +kernel)
theorem witness_atomic_one_place : (let s := sAtomic 0
    let y := (checkEach .atomic (fun va => thenCheck deviceFault (checkAccess s s.tg .atomic 4 4 va)) [(0, 0xFFFFFFFFFFFC0100)]).2
    y.length = 1 && (s.findWg 0 0 0).isSome) = true := by decide +kernel
theorem witness_atomic_operations : (4 : Nat) ≤ (4#4).toNat ∧ (4#4).toNat ≤ 7 ∧ (2 ^ 32 - 1 : Nat) < 2 ^ etWidth (4#4).toNat := by decide +kernel
theorem witness_hob : (let s := sMem 0 id
    let x : Shape := ⟨[(.v 4, 32), (.v 5, 32)], .zr, 32, true⟩
    issuesB s x (.s 0) && atomicType 0 s.tg.et && s.tg.count .h < 255 && poisonPasses s (goOf (readsOf s s.tg.active x.reads)).poison
      && (checkEach .atomic (checkHob s 4) (effVas s.tg (.s 0) (goOf (readsOf s s.tg.active x.reads)) 0 s.tg.active)).1.isNone) = true := by
  decide +kernel

/-- v6 and v7 hold eight addresses in memory, v8 and v9 eight in scratch; s4-s7 a tile copy of two rows of two bytes. -/
def sCopy : State :=
  sMem 0 (fun g => { g with
    v := vset (vset (vset (vset g.v 6 #v[0x20000, 0x20010, 0x20020, 0x20030, 0x20040, 0x20050, 0x20060, 0x20070]) 7 (Vector.replicate 8 0))
      8 #v[0xFFFC0000, 0xFFFC0010, 0xFFFC0020, 0xFFFC0030, 0xFFFC0040, 0xFFFC0050, 0xFFFC0060, 0xFFFC0070]) 9 (Vector.replicate 8 0xFFFFFFFF)
    s := vset (vset (vset (vset g.s 4 0x20000) 5 0xFFFFFFFFFFFC0000) 6 0x20002) 7 0x1000000010 })
/-- Every place of an engine access is at hand. -/
def placed (xs : List EngPlace) : Bool := xs.all (fun p => match p with | .place _ => true | _ => false)
theorem witness_copy : (let s := sCopy
    [(Opnd.v 6, Opnd.v 8), (.v 8, .v 6)].all (fun (p : Opnd × Opnd) =>
      3 < s.hdr.sregs && addrOk s.hdr p.1 && addrOk s.hdr p.2 && !(opndSpan p.1 64 ++ opndSpan p.2 64 ++ [Opnd.s 3]).any s.tg.pending
        && s.tg.count .c < 255 && !s.tg.acquiring && s.tg.active = 0xFF
        && placed ((upTo 8).map (fun t => engPlace s 16 false ((readPlain s.tg p.1 64 t).setWidth 64)))
        && placed ((upTo 8).map (fun t => engPlace s 16 true ((readPlain s.tg p.2 64 t).setWidth 64))))) = true := by decide +kernel
theorem witness_tile_copy : (let s := sCopy
    let x := tileCopyOf s.tg 4
    4 + 4 ≤ s.hdr.sregs && s.tg.count .c < 255 && !s.tg.acquiring && !x.bad s.tg 4 8 && (x.rowTrap s 8 s.tg.active).isNone && x.toPort.isNone
      && placed ((x.pairs 8).map (fun y => engPlace s 1 true y.1)) && placed ((x.pairs 8).flatMap (fun y => y.2.1.map (engPlace s 1 false)))) = true := by
  decide +kernel
theorem witness_ctst : (let s := sMem 0 id
    [Opnd.v 3, .s 3, .p 1, .zr].all (fun d => loadDst d && (testForm s d (.s 9)).legal s && (testForm s d (.s 9)).ready s) && !s.det) = true := by
  decide +kernel
theorem witness_qbind : let s := base (fun g => { busy g with s := vset (vset (busy g).s 7 0x20) 8 1 })
    s.tg.on = true ∧ s.tg.guardPending = false ∧ s.tg.active ≠ 0 ∧ (0 : Nat) < s.hdr.queues ∧ (s.wg.subs.all (fun x => x.tg ≠ s.tg.key.tg || !x.qs.contains 0)) = true
      ∧ (s.findWg 0 0 0).isSome = true
      ∧ s.tg.pending (.s 7) = false ∧ portExists 0x20 = true ∧ pushable 0x20 = true ∧ isBFifo 0x20 = false ∧ (vget s.tg.s 7).toNat = 0x20
      ∧ (vget s.tg.s 8).toNat = 1 ∧ isBFifo 1 = true ∧ subBreach s.wg 1 s.tg.key.tg 0 false = false
      ∧ subBreach s.wg 1 s.tg.key.tg 0 true = false := by decide +kernel

/-- Scratch holds a stream descriptor at offset 0x100: base 0x20000, stride 4, count 8, inner 1, outer 4, type 4. -/
def sStream : State :=
  let s := sMem 0 id
  { s with wgs := s.wgs.map (fun w => { w with scratch := memPut w.scratch 0x100 (natLe 32 (0x20000 + 4 * 2 ^ 64 + 8 * 2 ^ 96 + 2 ^ 128 + 4 * 2 ^ 160 + 4 * 2 ^ 192)) }) }
def spcfgBytes (s : State) : Option (Target × Target) :=
  let va := vget s.tg.s 1
  match checkAccess s s.tg .read 32 32 va, checkAccess s s.tg .read 16 16 (va + 16) with
  | .ok x, .ok y => some (x, y)
  | _, _ => none
def soundStream (b : List Byte) : Bool := match streamOf b with | .ok _ => true | .error _ => false
theorem witness_spcfg : (let s := sStream
    let va := vget s.tg.s 1
    s.tg.count .g < 255 && !s.tg.acquiring && !s.tg.pending (.sp 0) && s.tg.held.isEmpty && s.tg.ops.isEmpty && (match spcfgBytes s with
      | some (x, y) =>
        let accs : List Acc1 := [⟨0, va, x⟩, ⟨1, va + 16, y⟩]
        let s1 := touchPages s accs
        let w := gather s1 etB128 s1.tg.nextOp 16 false accs
        soundStream (bytesNow s x 16 ++ bytesNow s y 16) && !w.stall && w.fills.isEmpty && w.msgs.isEmpty && piecePoison w.got = 0
          && soundStream (natLe 16 (vget (pieceVector w.got) 0).toNat ++ natLe 16 (vget (pieceVector w.got) 1).toNat)
      | none => false)) = true := by decide +kernel
/-- The same descriptor in memory. -/
def sStreamFar : State :=
  let s := sMem 0 (fun g => { g with s := vset g.s 1 0x20100 })
  { s with mem := memPut s.mem 0x20100 (natLe 32 (0x20000 + 4 * 2 ^ 64 + 8 * 2 ^ 96 + 2 ^ 128 + 4 * 2 ^ 160 + 4 * 2 ^ 192)) }
theorem witness_spcfg_asks : (let s := sStreamFar
    let va := vget s.tg.s 1
    match spcfgBytes s with
    | some (x, y) =>
      let accs : List Acc1 := [⟨0, va, x⟩, ⟨1, va + 16, y⟩]
      let s1 := touchPages s accs
      let w := gather s1 etB128 s1.tg.nextOp 16 false accs
      soundStream (bytesNow s x 16 ++ bytesNow s y 16) && !w.stall && w.fills.isEmpty && !w.msgs.isEmpty
    | none => false) = true := by decide +kernel
theorem witness_spcfg_held : (let s := sMem 0 (fun g => { g with held := [⟨g.pc, 0, [⟨0, BitVec.ofNat 128 (0x20000 + 4 * 2 ^ 64 + 8 * 2 ^ 96), false, 0⟩, ⟨1, BitVec.ofNat 128 (1 + 4 * 2 ^ 32 + 4 * 2 ^ 64), false, 0⟩]⟩] })
    match s.tg.held.find? (fun o => o.pc = s.tg.pc && o.k = 0) with
    | some h => piecePoison h.got = 0 && soundStream (natLe 16 (vget (pieceVector h.got) 0).toNat ++ natLe 16 (vget (pieceVector h.got) 1).toNat)
    | none => false) = true := by decide +kernel


/-! ### Hypotheses met: matrix engine -/

/-- q0 pops the A FIFO (rows of 2s), q1 subscribes to B FIFO 1 (4 KiB of 3s); 8-bit unsigned integers. -/
def sMatrixOf (n : Nat) : State :=
  let s := base (fun g => { busy g with
    gm := ofEt 1, q := #v[some ⟨0, .pop⟩, some ⟨1, .pop⟩, none, none, none, none, none, none]
    s := vset (busy g).s 7 1
    aFifo := List.replicate (128 * n) (2, false), aSide := List.replicate n (none, 0, false, false) })
  { s with wgs := s.wgs.map (fun w => { w with
      subs := [⟨1, 0, [1], false, 0⟩], fifos := [⟨1, List.replicate 4096 (3, false), List.replicate 32 (none, 0, false, false)⟩] }) }

def sMatrix : State := sMatrixOf 16

def isOk {α β : Type} (x : Except α β) : Bool := match x with | .ok _ => true | .error _ => false

def accepted (s : State) (kind : PassKind) : Bool :=
  match aData s.tg (kind.rows * kind.k), bData s.wg s.tg.key.tg 1 (kind.cols * kind.k) with
  | some x, some y => isOk (acceptTiles s.tg.et kind 3 ⟨x, y.1, s.tg.aSide, y.2.1, y.2.2.1, y.2.2.2⟩ s.wg.tiles)
  | _, _ => false
theorem witness_mma : (let s := sMatrix
    s.tg.on && !s.tg.guardPending && s.tg.active != 0 && (passOperands s s.tg (.q 0) (.q 1)).isNone && (passUnbound s.tg (.q 0) (.q 1)).isNone
      && mmaType s.tg.et && s.tg.count .e < 255 && 3 < s.hdr.tiles && waitingPasses s s.tg.core < 8) = true := by decide +kernel
theorem witness_mma_accepted : accepted sMatrix (.quarter 0) = true := by decide +kernel
set_option maxRecDepth 100000 in
theorem witness_mmab_accepted : accepted (sMatrixOf 64) .blocks = true := by decide +kernel
/-- The hypotheses of the clauses on MMAC with s7 and rb q1, for a gang of one workgroup; what its check comes to. -/
def gangChecks (s : State) : Option (Except Nat (Vector Tile 4)) :=
  match gangPass (arriveGang s 1) with
  | some x => (gangData s x 1 1).map (fun d => acceptTiles s.tg.et (.gang 1) 0 d s.wg.tiles)
  | none => none
def gangFits (s : State) : Bool :=
  7 < s.hdr.sregs && !s.tg.pending (.s 7) && s.hdr.tiles = 4 && s.hdr.gx * s.hdr.gy = 1 && (vget s.tg.s 7).toNat = 1 && !gangIntruder s
    && (s.findWg 0 0 0).isSome && (s.findGang 0 0).isSome
theorem witness_mmac : (gangFits sMatrix && (gangPass sMatrix).isNone && (participant sMatrix 0).isSome && waitingPasses sMatrix sMatrix.tg.core < 8
    && (match gangChecks sMatrix with | some (.ok _) => true | _ => false)) = true := by decide +kernel
/-- The column's B data has been sent; the A FIFO is empty; the tiles are in floating-point mode. -/
def sGang (f : Tg → Tg) (float : Bool) (x : Option GangPass) : State :=
  let s := sMatrix
  let t := { Tile.empty with float := if float then some true else none }
  { s with tg := f s.tg, wgs := s.wgs.map (fun w => { w with tiles := #v[t, t, t, t] }), gangs := s.gangs.map (fun g => { g with mmac := x }) }
theorem witness_mmac_waits : (gangFits (sGang (fun g => { g with aFifo := [] }) false none) && (aData (sGang (fun g => { g with aFifo := [] }) false none).tg 2048).isNone
    && gangPass (sGang id false (some ⟨[1], []⟩)) == some ⟨[1], []⟩ && !([1] : List Nat).contains 0) = true := by decide +kernel
theorem witness_mmac_refused : (gangFits (sGang id true none) && (match gangChecks (sGang id true none) with | some (.error e) => e = 0x13 | _ => false)) = true := by
  decide +kernel
theorem witness_mmac_sent : (let b := List.replicate 4096 ((3, false) : Byte × Bool)
    let side := List.replicate 32 ((none, 0, false, false) : Side)
    match gangChecks (sGang id false (some ⟨[0], [⟨0, b, side⟩]⟩)) with | some (.ok _) => true | _ => false) = true := by decide +kernel
theorem witness_accumulator : (let s := base (fun g => { busy g with gm := ofEt 4 })
    s.tg.on && !s.tg.guardPending && s.tg.active != 0 && 3 < s.hdr.tiles && s.tg.count .e < 255 && !tileBusy s 3 && sOperand s true (.s 3) && !s.tg.pending (.s 3)
      && tileType s.tg.et && runOk s.hdr s.tg.et (.v 8) && !(runRegs 8 (tileRun s.tg.et)).any s.tg.pending && rowBlock s.tg (.s 3) ≤ 3
      && (vget s.wg.tiles 3).float ≠ some true
      && (flagTrap s.tg.fptrap s.tg.active (fun u => ((upTo 16).map (drainElem (vget s.wg.tiles 3) s.tg.et s.tg.rm (8 * rowBlock s.tg (.s 3) + u))).foldl
          (fun f (r : Res) => f ||| r.flags) (vget s.wg.tiles 3).flags)).isNone) = true := by decide +kernel

/-! ### Hypotheses met: rays, stoker commands, embers -/

/-- A structure descriptor at 0x24000 with generation 0 live, a command block at 0x24100, room for a result at 0x24200; s3, s4, s5
name them. -/
def sFlue (f : Tg → Tg) : State :=
  let s := sMem 0 (fun g => f { g with s := vset (vset (vset (vset g.s 3 0x24000) 4 0x24100) 5 0x24200) 6 0 })
  let put := fun (m : Memory) (x : Nat × Nat × Nat) => memPut m x.1 (natLe x.2.1 x.2.2)
  { s with mem := [(0x24008, 8, 0x30000), (0x24010, 4, 512), (0x24020, 4, 4), (0x2402E, 1, 1), (0x24110, 4, 1), (0x24114, 4, 12)].foldl put s.mem }
theorem witness_trace : (let s := sFlue id
    s.tg.on && !s.tg.guardPending && s.tg.active != 0 && !s.tg.acquiring && !s.tg.pending (.s 3) && !(beats.map (fun i => Opnd.v (BitVec.ofNat 6 (8 + i)))).any s.tg.pending
      && s.tg.count .e < 255 && (descTrap s s.tg 0x24000 s.tg.active).isNone && raysIn s.tg s.tg.active = 0
      && blockRoom s.tg (beatsOf s.tg.active).length && descFree s (descOf s s.tg 0x24000).pa) = true := by decide +kernel

/-- Every thread's ray stands at an any-hit call-out; v0 holds the verdict 1. -/
def sCallOut : State :=
  sFlue (fun g => { g with
    v := vset g.v 0 (Vector.replicate 8 1)
    rays := beats.map (fun t => { (default : Ray) with t := t, tmax := 0x7F000000, closest := true
                                                       stopped := some ⟨0x3F800000, 7, 0, 0, true, 0, 0, 2⟩, ended := none }) })
theorem witness_trcont : (let s := sCallOut
    !s.tg.acquiring && s.tg.count .e < 255 && (readCause s.hdr s.tg false (.v 0) 32).isNone && (readCause s.hdr s.tg false .zr 32).isNone && !s.tg.pending (.v 0)
      && (upTo 8).all (fun t => match stoppedRay s.tg t with | some h => (readPlain s.tg (.v 0) 32 t).toNat ≤ 2 && h.kind ≠ 3 | none => false)
      && blockRoom s.tg (beatsOf s.tg.active).length) = true := by decide +kernel
theorem witness_pins : (let s := sFlue (fun g => { g with pins := [⟨0x24000, 0⟩] })
    !s.tg.pending (.s 6) && (descTrap s s.tg 0x24000 s.tg.cm).isNone && descFree s (descOf s s.tg 0x24000).pa && s.tg.pins.length < 4 && s.tg.loadsIn
      && pinsOut s s.tg.key = 0
      && s.tg.pins.any (fun p => p.desc = 0x24000 && p.gen = vget s.tg.s 6)) = true := by decide +kernel

/-- The hypotheses of the statement on stoker commands, with the argument in s register b. -/
def stokerB (s : State) (code b : Nat) : Bool :=
  let va := vget s.tg.s 3
  let arg := if code = 0x96 || code = 0x97 then 0 else vget s.tg.s b
  let args : List W64 := if code = 0x96 || code = 0x97 then [] else if code = 0x98 then [arg, arg + 64] else [arg]
  let acc : Access := if code = 0x98 then .write else .read
  let block := code = 0x94 || code = 0x95
  let dpa := (paOf s s.tg.core s.tg.ctx va).getD 0
  let bpa := (paOf s s.tg.core s.tg.ctx arg).getD 0
  let s1 := descArrive (cacheAll s (va :: args)) dpa
  let s2 := if block then arriveRange s1 bpa 64 else s1
  s.tg.on && !s.tg.guardPending && s.tg.active != 0 && !s.tg.acquiring && !([.s 7, .s 3, .s (BitVec.ofNat 5 b)] : List Opnd).any s.tg.pending
    && s.tg.count .e < 255 && va.toNat % 256 = 0 && arg.toNat % 64 = 0
    && ((va, Access.read) :: args.map (fun x => (x, acc))).all (fun x => (stokerFault s s.tg x.2 x.1).isNone && (stokerPage s s.tg x.2 x.1).isNone)
    && descFree s dpa && (!block || homesFree s bpa 64) && !descBad (latestBytes s2 dpa 256) && (!block || !blockBad (latestBytes s2 bpa 64))
    && stokerLoad s (s.tg.core / 256) < 64
theorem witness_stoker : (stokerB (sFlue id) 0x94 4 && stokerB (sFlue id) 0x95 4 && stokerB (sFlue id) 0x96 4 && stokerB (sFlue id) 0x97 4
    && stokerB (sFlue id) 0x98 5) = true := by decide +kernel

/-- Region 0 of embers over an ember page; v8-v11 hold a sample, v12 offsets of one ember each. -/
def sEmber : State :=
  let s := sMem 1 (fun g => { g with gm := ofEt 13, v := vset (vset (vset (vset (vset g.v 8 (Vector.replicate 8 0x3F800000)) 9 (Vector.replicate 8 0x3F800000))
                                                     10 (Vector.replicate 8 0)) 11 (Vector.replicate 8 0)) 12 #v[0, 16, 32, 48, 64, 80, 96, 112] })
  { s with ctxs := s.ctxs.map (fun x => { x with er := [(0, some ⟨0x20000, 0x30000, 0x3F000000, 0, 1, 0, 0, 0, 0⟩)] }) }
def isReady : Rounds → Bool | .ready _ => true | .waits _ => false
/-- The checks of `emberGoes`. -/
def embersB (s : State) (x : Shape) (d a : Opnd) (write : Bool) : Bool :=
  let s0 := noteEmbers s s.tg.ctx
  let ts := x.readers s.tg.active
  let r := goOf (readsOf s0 ts x.reads)
  let y := emberChecks s0 write (effVas s.tg a r 0 ts)
  s.tg.on && s.tg.active != 0 && !s.tg.guardPending && (isVReg d || isSReg d) && addrOk s.hdr a && (x.operandTrap s s.tg.active).isNone
    && (x.bindTrap s s.tg.active).isNone && s.tg.et = etEmb && s.hdr.emb
    && !x.pending s.tg && !(opndSpan a 64).any s.tg.pending && s.tg.count .e < 255 && !s.tg.acquiring
    && queuesReady s (queueWords s.tg x.reads (beatsOf ts).length) [] && isGo (readsOf s0 ts x.reads) && (firstTrap y.1).isNone
    && isReady (roundValues s0 (roundsOf y.2)) && poisonPasses s r.poison && y.2.length = (beatsOf ts).length
theorem witness_embers : (let s := sEmber
    embersB s ⟨[(.v 12, 32), (.v 8, 32)], .zr, 32, true⟩ (.v 8) (.s 0) true && embersB s ⟨[(.v 12, 32), (.v 8, 128)], .zr, 32, true⟩ (.v 8) (.s 0) true
      && embersB s ⟨[(.v 12, 32)], .v 16, 128, true⟩ (.v 16) (.s 0) false) = true := by decide +kernel
theorem witness_ember_flags : (let s := sEmber
    (flagTrap s.tg.fptrap s.tg.active (fun t => (if (contributionOf false ((plainVector s.tg (.v 8) 32 s.tg.active).toList.getD t 0)).isNone then flagNv else 0) ||| 0)).isNone
      && (contributionOf true 0x3F8000003F800000).isSome) = true := by decide +kernel

/-! ### Hypotheses met: firebox, work, context images -/

/-- The workgroup owns the firebox domain with two ways; s1-s3 are descriptors of 8 rows, s4 names memory, s5 eight columns, s6 a distance. -/
def sFire : State :=
  let s := sMem 0 (fun g => { g with s := vset (vset (vset (vset (vset (vset g.s 1 0x800) 2 0x808) 3 0x810) 4 0x20000) 5 0x800000000) 6 0xFFFFFFFFFFFFFFC0 })
  { s with fb := { s.fb with owner := some (0, 0, 0), ways := 2, cols := [(2097152, ⟨0x030201, false, true, false⟩)] } }
def fireB (s : State) (xs : List (BitVec 5)) : Bool :=
  s.tg.on && !s.tg.guardPending && s.tg.active != 0 && xs.all (fun n => n.toNat < s.hdr.sregs && !s.tg.pending (.s n)) && s.tg.count .f < 255 && fbOwns s s.tg.key
    && s.fb.queue.length < 16
theorem witness_fire_rows : (fireB sFire [1, 2, 3] && descOk 0x800 && descOk 0x808 && descOk 0x810) = true := by decide +kernel
theorem witness_fire_shift : (fireB sFire [1, 2, 6] && decide (-64 ≤ (vget sFire.tg.s 6).toInt) && decide ((vget sFire.tg.s 6).toInt ≤ 64)) = true := by
  decide +kernel
theorem witness_fire_move : (let s := sFire
    let D := vget s.tg.s 1
    let A := vget s.tg.s 4
    let B := vget s.tg.s 5
    fireB s [1, 4, 5] && descOk D && descWidth D ≤ 8 * 2 ^ 0 && 1 ≤ columnCount B
      && firstColumn B + columnCount B ≤ columnsOf (waysAhead s.fb (wgOf s.tg.key)) && A.toNat % 2 ^ 0 = 0
      && (rangeFault s s.tg true A (columnCount B)).isNone && (rangeFault s s.tg false A (columnCount B)).isNone && !s.tg.acquiring) = true := by
  decide +kernel
theorem witness_fbmode : let s := sMem 0 id
    s.tg.on = true ∧ s.tg.guardPending = false ∧ s.tg.active ≠ 0 ∧ 16 < s.hdr.sregs ∧ s.hdr.fbx = true ∧ s.tg.pending (.s 16) = false ∧ s.tg.count .f < 255
      ∧ (vget s.tg.s 16).toNat ≤ 16 ∧ vget s.tg.s 16 ≠ 0 ∧ s.fb.owner ≠ some (wgOf s.tg.key) ∧ s.fb.claims.contains s.tg.key = false
      ∧ s.fb.queue.length < 16 ∧ vget (base busy).tg.s 0 = 0 := by decide +kernel
theorem witness_columns : descOk 0x800 = true ∧ descOk 0x808 = true ∧ descOk 0x810 = true
    ∧ (⟨0x030201, false, true, false⟩ : Column).p = true ∧ (⟨0, true, false, false⟩ : Column).p = false := by decide +kernel

theorem witness_spawn : (let s := sMem 0 (fun g => { g with s := vset g.s 3 0x20100 })
    !s.tg.pending (.s 7) && !s.tg.pending (.s 3) && (recordTrap s s.tg (vget s.tg.s 3)).isNone && s.tg.quantum.isEmpty && !s.tg.acquiring && released s 4) = true := by
  decide +kernel
theorem witness_barriers : let s := sMem 0 id
    s.tg.quantum = [] ∧ s.tg.loadsIn = true ∧ released s 1 = true ∧ released s 3 = true ∧ othersArrived s false = true ∧ othersArrived s true = true
      ∧ acquirable s = true ∧ s.tg.phase ≠ .arrived ∧ othersArrived (withTg s { s.tg with arrA := s.tg.arrA + 1, phase := .arrived }) false = true := by
  decide +kernel
theorem witness_barr_waits : let s := second id (sMem 0 id)
    s.tg.phase ≠ .arrived ∧ s.tg.quantum = [] ∧ s.tg.loadsIn = true ∧ released s 1 = true
      ∧ othersArrived (withTg s { s.tg with arrA := s.tg.arrA + 1, phase := .arrived }) false = false := by decide +kernel
theorem witness_barr_again : let s := sMem 0 (fun g => { g with phase := .arrived })
    s.tg.phase = .arrived ∧ othersArrived s false = true ∧ acquirable s = true := by decide +kernel
theorem witness_budget : sOperand (sMem 0 id) true (.s 7) = true ∧ (sMem 0 id).tg.priv ≠ .u ∧ (sUser id).tg.priv = .u ∧ (sMem 0 id).tg.pending (.s 7) = false := by
  decide +kernel

theorem witness_image_layout : let l := placeLaunch
    (68 : Nat) < 256 ∧ l.hdr.vregs ≤ 64 ∧ l.hdr.sregs ≤ 32 ∧ sInt.tg.stack.length ≤ 16 ∧ sInt.tg.wctMax < 2 ^ 64
      ∧ ∀ t ∈ upTo 8, (vget sInt.tg.home t).1 < 2 ^ 13 ∧ (vget sInt.tg.home t).2 < 8 := by decide +kernel
theorem witness_image_restored : (List.replicate (1088 + 32 * 64 + 8 * 32) (0 : Byte)).length = 1088 + 32 * 64 + 8 * 32 := List.length_replicate

/-- The place of an image in memory (s0) or in scratch (s1, at offset 0x100). -/
def imagePlaces (s : State) (n : BitVec 5) : Bool :=
  let va := vget s.tg.s n.toNat
  s.tg.on && !s.tg.guardPending && s.tg.active != 0 && !s.tg.pending (.s n) && s.tg.quantum.isEmpty && !s.tg.acquiring && settled s.tg && (imageTrap s s.tg .write va).isNone
    && (imagePieces va (imageBytes s.hdr)).all (fun p => match checkAccess s s.tg .write p.2 1 p.1 with | .ok _ => true | .error _ => false)
theorem witness_image_stored : (imagePlaces (sMem 0 id) 0 && imagePlaces (sMem 0 id) 1) = true := by decide +kernel

/-- Scratch at 0x100 holds the thread group's own image, or zeros; the launch has 4 v and 8 s registers. -/
def sImage (own : Bool) : State :=
  let s := sMem 0 id
  let s := { s with launches := s.launches.map (fun l => { l with hdr := { l.hdr with vregs := 4, sregs := 8 } }) }
  let cells := (mapFrom 0x100 (fun i (b : Byte) => ((i, b) : Nat × Byte)) (contextImage s.launch s.tg 68)).filter (fun c => c.2 != 0)
  if own then { s with wgs := s.wgs.map (fun w => { w with scratch := cells }) } else s
/-- The bytes that CTXLD of s1 reads. -/
def imageRead (s : State) : List Byte :=
  let va := vget s.tg.s 1
  match syncRead s 0 etU64 8 ((upTo (imageBytes s.hdr / 8)).map (fun i =>
      let x := va + BitVec.ofNat 64 (8 * i)
      ⟨i, x, match checkAccess s s.tg .read 8 8 x with | .ok t => t | .error _ => default⟩)) with
  | .values got => (sortBy (fun (a b : Piece) => decide (a.t < b.t)) got).flatMap (fun p => if p.poison then [] else natLe 8 p.data.toNat)
  | .waits _ => []
theorem witness_image_taken : ((imageTrap (sImage true) (sImage true).tg .read (vget (sImage true).tg.s 1)).isNone
    && imageOk (sImage true).launch (sImage true).tg (imageRead (sImage true))) = true := by decide +kernel
theorem witness_image_refused : imageOk (sImage false).launch (sImage false).tg (imageRead (sImage false)) = false := by decide +kernel
theorem witness_tlbi : let s := sMem 0 id
    s.tg.on = true ∧ s.tg.guardPending = false ∧ s.tg.active ≠ 0 ∧ s.tg.priv = .m ∧ sOperand s false (.s 0) = true ∧ s.tg.pending (.s 0) = false ∧ canonical (readS s.tg (.s 0)) = true
      ∧ s.tg.quantum = [] ∧ released s 4 = true ∧ translationsIdle s false = true ∧ (sUser id).tg.priv = .u := by decide +kernel

/-! ### Hypotheses met: a step, and the writes of control registers -/

def k0 : TgKey := ⟨0, 0, 0, 0⟩

/-- ADD v1, v2, s3, field by field; and the machine about to fetch it. -/
def addWord : W32 := 0x01#8 ++ 1#7 ++ 2#7 ++ 99#7 ++ 0#1 ++ 0#2
def sStep : State := State.reset.withFetchWord 32 addWord.toNat
theorem witness_step : sStep.turn = .lane 0 0 ∧ sStep.dev.halted = false ∧ pick sStep 0 0 = some k0
    ∧ budgetDue (takeLane sStep 0 0 k0) (takeLane sStep 0 0 k0).tg = false
    ∧ (let s1 := takeLane sStep 0 0 k0
       (fetchLine s1 s1.tg s1.tg.pc).2 = true ∧ fetchAt (fetchLine s1 s1.tg s1.tg.pc).1 s1.tg s1.tg.pc = .word addWord)
    ∧ decode addWord = .ok (.add (.v 1) (.v 2) (.s 3) false) := by decide +kernel
theorem witness_step_illegal : let s := State.reset.withFetchWord 32 0x00000000
    let s1 := takeLane s 0 0 k0
    fetchAt (fetchLine s1 s1.tg s1.tg.pc).1 s1.tg s1.tg.pc = .word 0 ∧ pick s 0 0 = some k0 := by decide +kernel
/-- A write of the code line has been accepted and is not yet performed. -/
def sHeld : State := { sStep with lines := [{ no := lineOf 0x10080, wct := 5000, pend := [⟨5000, 0x10080, [0], default⟩] }] }
theorem witness_step_held : let s1 := takeLane sHeld 0 0 k0
    pick sHeld 0 0 = some k0 ∧ budgetDue s1 s1.tg = false ∧ (fetchLine s1 s1.tg s1.tg.pc).2 = false := by decide +kernel
theorem witness_step_fault : let s := base (fun g => { g with pc := 0x9000 })
    inCode s s.tg s.tg.pc = false ∧ s.tg.on = true ∧ fetchAt s s.tg s.tg.pc = .fault 0x06 := by decide +kernel

/-- A TG that waits for its SYSW. -/
def sSysw (n : Nat) (x : W64) : State := base (fun g => { busy g with waiting := true, sysw := some ⟨n, x⟩ })
/-- The hypotheses that the clauses on register writes share. -/
def writing (s : State) : Bool :=
  let g := s.tg
  match g.sysw with
  | some w => decide (s.findTg g.key = some g) && g.on && w.val &&& BitVec.ofNat 64 (writable w.num) = w.val && (s.findCtx g.ctx).isSome
      && (s.findWg g.key.launch g.key.gang g.key.wg).isSome
  | none => false
def takes (s : State) : Bool := match s.tg.sysw with | some w => !valueRefused (s.focus s.tg.key) w.num w.val | none => false
theorem witness_plain_registers : [0x10, 0x21, 0x22, 0x30, 0x3F, 0x40, 0x4F, 0x53, 0x61, 0x70, 0x73, 0x82, 0x83].all (fun n =>
    plainRegister n && writing (sSysw n (BitVec.ofNat 64 (writable n))) && takes (sSysw n (BitVec.ofNat 64 (writable n)))) = true := by decide +kernel
theorem witness_quant : (writing (sSysw 0x60 1000) && takes (sSysw 0x60 1000) && writing (sSysw 0x60 999) && !takes (sSysw 0x60 999)) = true := by
  decide +kernel
theorem witness_windows : (writing (sSysw 0x100 0x30000) && takes (sSysw 0x100 0x30000) && writing (sSysw 0x17F 0x40) && takes (sSysw 0x17F 0x40)
    && writing (sSysw 0x74 0x40001) && takes (sSysw 0x74 0x40001) && writing (sSysw 0x77 0) && takes (sSysw 0x77 0)
    && (sSysw 0x74 0x40001).net.isEmpty && (windowLines (sSysw 0x100 0x30000) default).isEmpty) = true := by decide +kernel
theorem witness_other_registers : [(0x20, 0), (0x50, 0x7000), (0x51, 0x7001), (0x81, 0)].all (fun x => writing (sSysw x.1 x.2) && takes (sSysw x.1 x.2)) = true := by
  decide +kernel
theorem witness_sqld : (writing (sSysw 0x90 0x30010) && rangeReady (sSysw 0x90 0x30010) (sqldPa 0x30010) 64
    && (imageAt (sSysw 0x90 0x30010) 0 (sqldPa 0x30010) (sqldUnit 0x30010)).isNone && writing (sSysw 0x90 0x11)) = true := by decide +kernel

/-! ### Hypotheses met: host commands -/

/-- In service; context c's ring holds one entry, which names an address; a command stands at 0x50080. -/
def sHost (c : Nat) (st : CtxState) (addr : Nat) (cmd : List Byte) : State :=
  let s := sMem 0 id
  { s with dev := { s.dev with maint := .service }
           ctxs := s.ctxs ++ (if c = 0 then [] else [Ctx.fresh c st])
           tlb := ⟨noCore, c, 0x40000, 0x10000, 0x4003F⟩ :: s.tlb
           mem := memPut (memPut (memPut s.mem (commandLine s c) (natLe 8 1 ++ natLe 8 0x50000 ++ natLe 4 4)) 0x50000 (natLe 8 addr)) 0x50080 cmd }
def entryUsable (s : State) (c : Nat) (st : CtxState) : Bool :=
  match ringNext s c with
  | (s1, some e) => dispatching s && (s.ctxOf c).state = st && (s1.ctxOf c).state = st && (st ≠ .live || recordUsable s1 c e.addr)
  | _ => false
theorem witness_ring : (entryUsable (sHost 3 .live 0x40000 []) 3 .live && entryUsable (sHost 3 .closing 0x40000 []) 3 .closing) = true := by decide +kernel

/-- A command in context 0's ring. -/
def sCmd (op n : Nat) (a : Nat) (f : State → State) : State := f (sHost 0 .live 0x50080 (natLe 4 op ++ natLe 4 n ++ natLe 8 a))
def commands (s : State) (p : State → Command → Bool) : Bool := match nextCommand s with | (s1, some (_, some x)) => p s1 x | _ => false
def withCtx (n : Nat) (st : CtxState) (s : State) : State := { s with ctxs := s.ctxs ++ [Ctx.fresh n st] }
theorem witness_command_malformed : (match nextCommand (sCmd 9 1 0 id) with | (_, some (_, none)) => true | _ => false) = true := by decide +kernel
theorem witness_commands : (commands (sCmd 1 5 0x7000 id) (fun s x => x.op = 1 && (s.ctxOf x.n).state = .free)
    && commands (sCmd 1 5 0x7000 (withCtx 5 .live)) (fun s x => x.op = 1 && (s.ctxOf x.n).state ≠ .free)
    && commands (sCmd 2 5 0 (withCtx 5 .live)) (fun s x => x.op = 2 && (s.ctxOf x.n).state = .live)
    && commands (sCmd 2 5 0 id) (fun s x => x.op = 2 && (s.ctxOf x.n).state ≠ .live)) = true := by decide +kernel
theorem witness_quote : (commands (sCmd 3 0 0x60000 id) (fun s x => x.op = 3 && s.dev.nextLeaf < 32768 && !s.dev.keyErased)
    && commands (sCmd 3 0 0x60000 (fun s => { s with dev := { s.dev with nextLeaf := 32768 } })) (fun s x => x.op = 3 && 32768 ≤ s.dev.nextLeaf)) = true := by
  decide +kernel
theorem witness_context_free : let s := sHost 3 .closing 0 []
    dispatching s = true ∧ (s.ctxOf 3).state = .closing ∧ ctxQuiet s 3 = true := by decide +kernel

/-! ### Hypotheses met: slices and scheduling -/

/-- Fields of a record, each an offset, a size and a value. -/
def recBytes (xs : List (Nat × Nat × Nat)) (n : Nat) : List Byte :=
  xs.foldl (fun (b : List Byte) (x : Nat × Nat × Nat) => spliceAt b x.1 (natLe x.2.1 x.2.2)) (zeroBytes n)
/-- A SPAWN's slice: the record at 0x20000, its header at 0x20100, code at 0x20200. -/
def sSlice (count : Nat) : State :=
  let s := sMem 0 (fun g => { g with nextOp := 1, ops := [{ id := 0, path := none, pc := 0x10080, word := 0, sink := some ⟨.s 9, 7, 0xFF, false⟩, need := 1, got := [], load := false, done := false }] })
  { s with tlb := ⟨noCore, 0, 0x20000, 0x10000, 0x2003F⟩ :: s.tlb
           mem := memPut s.mem 0x20000 (recBytes [(0, 8, 0x20100), (0x18, 8, count), (0x38, 4, 50), (0x3C, 1, 2), (0x3D, 1, 1), (0x3E, 1, 1)] 128 ++ zeroBytes 128
             ++ recBytes [(0, 4, 0x4C474E50), (4, 2, 1), (8, 4, 0x100), (0xC, 4, 64), (0x10, 1, 3), (0x16, 1, 8), (0x17, 1, 8), (0x1E, 2, 1), (0x2C, 4, 0x10000)
                         , (0x30, 2, 1), (0x32, 2, 1)] 128)
           spawnQ := [⟨.tg k0 0 (.s 9) ⟨0, 0⟩ false, 0x20000, 0, .m, none⟩] }
theorem witness_slice_accepted : (match checkSlice (sSlice 8) 0 .m 0x20000 with | (s, .slice _, _) => (s.findTg k0).isSome | _ => false) = true := by
  decide +kernel
theorem witness_slice_refused : (match checkSlice (sSlice 0) 0 .m 0x20000 with | (s, .code n, _) => (s.findTg k0).isSome && n = 0x0B | _ => false) = true := by
  decide +kernel

/-- The launch's one gang has ended. -/
def sOver (endAt : Option Nat) : State :=
  let s := sMem 0 id
  { s with tlb := ⟨noCore, 0, 0x20000, 0x10000, 0x2003F⟩ :: s.tlb
           gangs := s.gangs.map (fun g => { g with state := .ended })
           launches := s.launches.map (fun l => { l with endAt := endAt, record := 0x20000, wct := 4000 }) }
theorem witness_completion : [none, some 5000, some 5001].all (fun t =>
    let s := sOver t
    let l := s.launch
    s.findLaunch 0 = some l && !l.done && allEnded s l && drawReleased s l && heldLines s 0 = [] && l.wct ≤ s.gt && l.written && l.draw.isNone
      && l.endAt = t && s.gt = 5000) = true := by decide +kernel

def still (g : Tg) : Tg := { g with bv := Vector.replicate 4 false }
/-- A second slice: a gang to place, or a saved one. -/
def sOffer (saved : Bool) : State :=
  let s := sMem 0 id
  { s with launches := { placeLaunch with no := 1, gangs := 2, nextGang := if saved then 2 else 1, count := 16, hdr := { placeHeader with scratch := 0x100, tiles := 1 } } :: s.launches
           gangs := s.gangs ++ (if saved then [⟨1, 1, 0, 1, 0, .saved, [], none⟩] else [])
           rest := if saved then [{ s.tg with key := ⟨1, 1, 0, 0⟩ }] else []
           wgs := s.wgs ++ (if saved then [{ placeWg with launch := 1, gang := 1, size := 0x100 }] else []) }
theorem witness_placement : (match firstFit (sOffer false) with | some (o, _) => !o.saved | none => false) = true := by decide +kernel
theorem witness_restore : (match firstFit (sOffer true) with
    | some (o, _) => o.saved && o.launch.no = 1 && o.gang = 1 && ((sOffer true).findGang 1 1).any (fun x => x.state = .saved)
    | none => false) = true := by decide +kernel
/-- The gang is being restored; a copy's status is still to come, or not. -/
def sLoading (job : Bool) : State :=
  let s := sMem 0 id
  { s with gangs := s.gangs.map (fun g => { g with state := .loading })
           copies := if job then [⟨4, k0, 0, .s 9, [], 0, [], [], none, [], false⟩] else [] }
theorem witness_loading : ((sLoading true).findGang 0 0).any (fun x => x.state = .loading) = true ∧ restoreReady (sLoading true) 0 0 = false
    ∧ restoreReady (sLoading false) 0 0 = true := by decide +kernel
theorem witness_quantum_end : let s := { sMem 0 id with gt := 100000 }
    0 < s.dev.quant.toNat ∧ s.dev.lastQuantum < s.gt / s.dev.quant.toNat * s.dev.quant.toNat := by decide +kernel
def sStopping : State := let s := sMem 0 still; { s with gangs := s.gangs.map (fun g => { g with state := .stopping }) }
theorem witness_preemption : (match sStopping.findGang 0 0 with | some x => decide (x.state = .stopping) | none => false) = true
    ∧ (gangTgs sStopping 0 0).all (fun y => y.quantum = []) = true ∧ gangDrained sStopping 0 0 = true := by decide +kernel
def sSpilling : State := let s := sMem 0 still; { s with gangs := s.gangs.map (fun g => { g with state := .spilling }) }
theorem witness_spilling : sSpilling.findGang 0 0 ≠ none ∧ gangDrained sSpilling 0 0 = true ∧ (settleGang sSpilling 0 0).2 = true
    ∧ gangDrained (settleGang sSpilling 0 0).1 0 0 = true
    ∧ (let s := { sSpilling with fb := { sSpilling.fb with owner := some (0, 0, 0) } }
       (s.findGang 0 0).any (fun x => ownsFirebox s x) = true) := by decide +kernel
theorem witness_not_drained : let s := { sMem 0 (fun g => { g with sysw := some ⟨0x10, 0⟩ }) with gangs := (sMem 0 id).gangs.map (fun g => { g with state := .stopping }) }
    gangDrained s 0 0 = false := by decide +kernel
/-- Eight gangs, one in the middle of each cluster, and a slice that needs 16 by 15 cores together. -/
def sMove : State :=
  let s := sMem 0 still
  { s with launches := s.launches.map (fun l => { l with gangs := 8, nextGang := 8 })
                         ++ [{ placeLaunch with no := 1, gangs := 1, nextGang := 0, hdr := { placeHeader with gx := 16, gy := 15 } }]
           gangs := beats.map (fun n => ⟨0, n, n, 5, 7, .resident, [], none⟩)
           wgs := beats.map (fun n => { placeWg with gang := n, core := 256 * n + 117 }) }
theorem witness_migration : (match sMove.findGang 0 0, (offers sMove).head? with
    | some x, some o => decide (x.state = .resident) && !ownsFirebox sMove x && (findSpot sMove [] o.launch.hdr).isNone
        && roomInTotal sMove o.launch.hdr x.cluster && gangDrained sMove 0 0 && (settleGang (runGang sMove 0 0) 0 0).2
        && (clusterSpot sMove [(0, 0)] (sMove.launchOf 0).hdr x.cluster (some (x.ox, x.oy))).isSome
    | _, _ => false) = true := by decide +kernel
def sBudget : State := let s := sMem 0 id; { s with wgs := s.wgs.map (fun w => { w with budget := some 0, issued := true }) }
theorem witness_budget_expiry : (sBudget.findWg 0 0 0).any (fun w => w.overBudget) = true := by decide +kernel
def sAged : State := second (fun g => { g with key := ⟨0, 0, 0, 32⟩, readyFor := 256 }) (sMem 0 still)
theorem witness_age_cap : (laneTg sAged 0 0).any (fun g => atBoundary g && !g.keepLane
    && sAged.allTgs.any (fun y => y.core = 0 && y.key.tg % 32 = 0 && y.key ≠ g.key && canIssue sAged y && 256 ≤ y.readyFor)) = true := by decide +kernel
theorem witness_turn_due : let s := sMem 0 (fun g => { still g with turnDue := true })
    (laneTg s 0 0).any (fun g => atBoundary g && g.turnDue && !g.keepLane) = true := by decide +kernel
def sEnded : State := let s := sMem 0 (fun g => { g with on := false, live := 0, cm := 0 }); { s with fb := { s.fb with owner := some (0, 0, 0) } }
theorem witness_workgroup_end : (match sEnded.findWg 0 0 0 with | some w => !w.ended && wgOver sEnded 0 0 0 | none => false) = true := by decide +kernel

/-! ### Hypotheses met: homes, answers, units at home -/

def opOf (d : Opnd) (need : Nat) (got : List Piece) : Op :=
  { id := 0, path := some .g, pc := 0x10080, word := 0, sink := some ⟨d, 5, 0xFF, false⟩, need := need, got := got, load := true, done := false }
def message (ask : Ask) : Msg := { tg := k0, op := 0, t := 2, core := 0, ctx := 0, pa := 0x20000, ask := ask }
def leased : Line := { no := 0x400, lease := 9000 }
/-- One message to the line at 0x20000, whose TG has one operation outstanding. -/
def sNet (m : Msg) (l : Line) : State := { sMem 0 (fun g => { g with nextOp := 1, ops := [opOf (.v 9) 1 []], unack := 3 }) with net := [m], lines := [l] }
def normalFill : FillReq := ⟨10, false, none, 0, true⟩
def addOne : AOp := ⟨0, 4, 0, false, 1, 0⟩
def sampleRegion : EmberRegion := ⟨0x20000, 0x30000, 0x42000000, 0, 2, 0x3F800000, 4, 0, 0⟩
/-- Its home serves the message, whose operation waits for a value; nothing pending holds a fill; the line is sound or poisoned. -/
def serves (s : State) (poison : Bool) : Bool :=
  decide (served s 0 = s.net[0]?) && !s.orphaned 0x400 && !fillHeld (reach s 0x400) 0x400 && (reach s 0x400).poisoned 0x400 false == poison
    && (arriveAt (applyDue (s.dropMsg 0) 0x400) 0x20000 16).poisoned 0x400 false == poison
    && (contributionArrives (s.dropMsg 0) 0x400).poisoned 0x400 false == poison
    && (s.findTg k0).any (fun g => g.ops.any (fun o => o.id = 0 && o.sink.isSome))
theorem witness_homes : ([.fill 4 normalFill, .write [1, 2, 3, 4] 6000 false true, .write [1] 0 true false, .atomic [addOne, addOne] 0 true false, .radv 3 0
    , .engineOwn 4, .spec addOne 5 6 0, .spec addOne 5 6 7, .stashFill 0 0 0 1 2 normalFill, .stashOwn 0 0 0 1 2 none normalFill
    , .ember (.est 0) 0 sampleRegion ⟨1, 1⟩ true, .ember (.est 0) 0 sampleRegion ⟨1, 1⟩ false, .eld 7 0 sampleRegion 0x20000 ⟨1, 1⟩ false] : List Ask).all
    (fun a => serves (sNet (message a) leased) false) = true := by decide +kernel
theorem witness_homes_poisoned : ([.fill 4 normalFill, .atomic [addOne] 0 false false, .spec addOne 5 6 0, .ember (.est 0) 0 sampleRegion ⟨1, 1⟩ false
    , .eld 7 0 sampleRegion 0x20000 ⟨1, 1⟩ false] : List Ask).all (fun a => serves (sNet (message a) { leased with poison := true }) true) = true := by
  decide +kernel
theorem witness_fill_held : let s := sNet (message (.fill 4 normalFill)) { leased with pend := [⟨8000, 0x20000, [1], k0⟩] }
    served s 0 = s.net[0]? ∧ fillHeld (reach s 0x400) 0x400 = true := by decide +kernel
theorem witness_home_times : let s := sNet (message (.write [1] 0 false true)) leased
    s.gt < writeTime (reach s 0x400) 0x400 0 false ∧ acceptable s (message (.write [1] 0 false true)) = true
      ∧ s.gt < (acceptMsg (s.dropMsg 0) { message (.write [1] 0 false true) with rep := true }).2
      ∧ served (sNet { message (.write [1] 0 false true) with rep := true } leased) 0 ≠ none
      ∧ ownTurn s (message (.engineOwn 4)) 4 = true := by decide +kernel
theorem witness_spec_version : ((arriveAt (applyDue ((sNet (message (.spec addOne 5 6 0)) leased).dropMsg 0) 0x400) 0x20000 4).line 0x400).version = 0 := by decide +kernel
theorem witness_stash : (sNet (message (.stashGrant 0 0 0 1 2 5000 normalFill)) leased).wg.stash = [] ∧ (sNet (message (.stashGrant 0 0 0 1 2 5000 normalFill)) leased).gt = 5000
    ∧ ((reach (sNet (message (.stashGrant 0 0 0 1 2 5000 normalFill)) leased) 0x400).line 0x400).pend = []
    ∧ ([5000, 5001] : List Nat).all (fun t => (served (sNet (message (.stashGrant 0 0 0 1 2 t normalFill)) leased) 0).isSome) = true := by decide +kernel
theorem witness_kindles : ((sNet (message (.eld 7 0 sampleRegion 0x20000 ⟨1, 1⟩ false)) leased).findTg k0).isSome = true := by decide +kernel

/-- One hob update has reached the line's home: it is the next one, whatever the order of arrival. -/
theorem nextHob_one (s : State) (h : hobsTo s 0x400 = [0]) : nextHob s 0x400 = some 0 := by simp [nextHob, h, Nat.mod_one]
def hobState (det poison : Bool) : State := sNet (message (.hob addOne ⟨1, 1⟩ det)) { leased with poison := poison }
theorem witness_hob_home : (nextHob (hobState false false) 0x400 = some 0 ∧ nextHob (hobState true false) 0x400 = some 0 ∧ nextHob (hobState false true) 0x400 = some 0)
    ∧ ((served (hobState true false) 0).isSome && (served (hobState false false) 0).isSome && !(hobState false false).orphaned 0x400
        && !(hobArrives ((hobState false false).dropMsg 0) 0x400).poisoned 0x400 false
        && (served (hobState false true) 0).isSome && (hobArrives ((hobState false true).dropMsg 0) 0x400).poisoned 0x400 false) = true :=
  ⟨⟨nextHob_one _ (by decide +kernel), nextHob_one _ (by decide +kernel), nextHob_one _ (by decide +kernel)⟩, by decide +kernel⟩
theorem witness_windows_close : (∀ a ∈ ([.fill 4 normalFill, .write [1] 0 false true, .eld 7 0 sampleRegion 0x20000 ⟨1, 1⟩ false] : List Ask),
      otherAccess (sNet (message a) leased) 0x400 isHob = some 0 ∧ otherAccess (sNet (message a) leased) 0x400 isContribution = some 0)
    ∧ (sNet (message (.fill 4 normalFill)) leased).net.any (fun m => lineOf m.pa = 0x400) = true := by decide +kernel
theorem witness_acknowledgement : let s := { sMem 0 id with acks := [⟨k0, 0, 7000, true, false, none, true⟩] }
    s.acks[0]? = some ⟨k0, 0, 7000, true, false, none, true⟩ ∧ (s.findTg k0).isSome = true ∧ (s.findLaunch 0).isSome = true ∧ s.tg.ops = [] := by decide +kernel
theorem witness_acknowledgement_poison :
    let o : Op := { opOf .zr 1 [] with path := some .h, sink := none, mark := true }
    let s := { sMem 0 (fun g => { g with ops := [o], nextOp := 1, unack := 1 }) with acks := [⟨k0, 0, 5000, true, true, some 2, true⟩] }
    s.acks[0]? = some ⟨k0, 0, 5000, true, true, some 2, true⟩ ∧ (s.findTg k0).any (fun g => g.ops.find? (fun x => x.id = 0) = some o && !g.fptrap.getLsbD 7) = true
      ∧ o.need = 1 := by decide +kernel
theorem witness_descriptor_value :
    let o : Op := { opOf .zr 0 [⟨0, BitVec.ofNat 128 (0x20000 + 4 * 2 ^ 64 + 8 * 2 ^ 96), false, 0⟩, ⟨1, BitVec.ofNat 128 (1 + 4 * 2 ^ 32 + 4 * 2 ^ 64), false, 0⟩] with
                    sink := none, conf := some (3, 0x20000) }
    (sMem 0 (fun g => { g with ops := [o], nextOp := 1 })).tg.ops.find? (fun x => x.id = 0) = some o ∧ o.complete 5000 = true ∧ piecePoison o.got = 0
      ∧ soundStream (natLe 16 (vget (pieceVector o.got) 0).toNat ++ natLe 16 (vget (pieceVector o.got) 1).toNat) = true := by decide +kernel
theorem witness_load_value : [Opnd.v 9, .s 9].all (fun d =>
    let o := opOf d 0 [⟨3, 77, false, 0⟩, ⟨1, 66, false, 5000⟩]
    let s := sMem 0 (fun g => { g with ops := [o] })
    (s.findTg k0).any (fun g => g.ops.find? (fun x => x.id = 0) = some o && (if isSReg d then piecePoison o.got else piecePoison o.got &&& g.live) = 0
      && g.ops.filter (fun x => !x.done && (x.sink.any (fun y => y.covers d))) = [o]) && o.complete s.gt && o.sync.isNone && o.conf.isNone && !o.all
      && (isVReg d || isSReg d)) = true := by decide +kernel
theorem witness_round_view : let s := { sMem 0 id with news := [⟨0, 3, 0x50000, 9, 5000, []⟩] }
    s.news[0]? = some ⟨0, 3, 0x50000, 9, 5000, []⟩ ∧ (5000 : Nat) ≤ s.gt ∧ ([] : List Nat).contains 0 = false := by decide +kernel
theorem witness_lock_timeout : let s := sNet { message (.fill 4 normalFill) with rep := true } { no := 0x400, locked := some 3000 }
    (s.net[0]?).isSome = true ∧ (s.line (lineOf 0x20000)).locked = some 3000 ∧ 3000 + 2000 ≤ s.gt := by decide +kernel
theorem witness_walk : canonical 0x30000 = true ∧ regionOf 0x30000 = .translated ∧ (sMem 0 id).allTgs.any (fun g => g.on && g.core = 0 && g.ctx = 0) = true := by
  decide +kernel

/-! ### Hypotheses met: engines -/

/-- A copy of eight bytes from memory to scratch, with or without a failed check; its bytes read or not, written or not. -/
def sCopyJob (err : Nat) (data : Option (List InByte)) (wrote : Bool) : State :=
  { sMem 0 (fun g => { g with nextOp := 1, ops := [opOf (.s 9) 1 []] }) with
    copies := [⟨4, k0, 0, .s 9, beats.map (fun i => ⟨[.mem (0x20000 + i)], false, .scratch 0 0 0 (0x300 + i)⟩), err, [], [], data, [], wrote⟩] }
def copied : List InByte := beats.map (fun i => ⟨BitVec.ofNat 8 i, false, none, 0, false, false⟩)
theorem witness_copy_job : (match (sCopyJob 0 none false).copies with
    | [j] => let s := (sCopyJob 0 none false).focus k0
             let s1 := reachAll s j.sources
             j.ports.isEmpty && j.err = 0 && j.data.isNone && !j.sources.any (sourceHeld s1 j.tg j.id j.op) && (stashWants s1 false j.reads).isEmpty
    | _ => false) = true := by decide +kernel
theorem witness_copy_ends : (match (sCopyJob 6 none false).copies, (sCopyJob 0 (some copied) false).copies, (sCopyJob 0 (some copied) true).copies with
    | [i], [j], [k] => i.err ≠ 0 && linesOwned (sCopyJob 6 none false) 4 i.lines && j.data = some copied && !j.wrote
        && linesOwned ((sCopyJob 0 (some copied) false).focus k0) 4 j.lines
        && (stashWants ((sCopyJob 0 (some copied) false).focus k0) true (j.moves.map (fun m => m.dst))).isEmpty
        && decide ((j.moves.map (fun m => m.dst)).Nodup) && copied.length = j.moves.length && ((sCopyJob 0 (some copied) false).findWg 0 0 0).isSome
        && k.wrote && k.ports.isEmpty && ((sCopyJob 6 none false).findTg k0).isSome
    | _, _, _ => false) = true := by decide +kernel
/-- Two passes on tile 0 of one TG: the first started or not. -/
def sPasses (started : Bool) : State :=
  let pass := fun (q : Nat) (st : Bool) => (⟨0, k0, q, .quarter q, 0, 1, [], [], [], [], st, 0, 1, 0⟩ : Pass)
  { sMem 0 id with passes := [pass 0 started, pass 1 false], cycle := 4 }
theorem witness_passes : (match corePasses (sPasses false) 0 with
    | p :: ps => p.kind = .quarter 0 && !(p :: ps).any (fun x => x.started) && p.clock + 4 ≤ (sPasses false).cycle
    | [] => false) = true
    ∧ ((corePasses (sPasses true) 0).filter (fun x => x.started)).length = 1 ∧ ((sPasses true).findWg 0 0 0).isSome = true := by decide +kernel
def sBlock : State := sFlue (fun g => { g with
  rays := beats.map (fun t => { (default : Ray) with t := t, ended := some 4 }), blocks := [{ op := 0, threads := beats }], nextOp := 1, ops := [opOf .zr 1 []] })
theorem witness_block : (match sBlock.tg.blocks with
    | b :: _ => isResident sBlock sBlock.tg && (blockRays sBlock.tg b).length = 8
    | [] => false) = true := by decide +kernel
def sCommand (code : Nat) (r : Option (W64 × Nat)) : State :=
  let s := sFlue id
  { s with stoker := [{ id := 3, tg := k0, op := 0, d := .s 9, code := code, cluster := 0, ctx := 0, priv := .m, desc := 0x24000, arg := 0, core := 0, result := r }]
           mem := memPut (memPut s.mem 0x24002 [1]) 0x24004 (natLe 4 1), pendings := [⟨0x24000, [(4, 2)], [], default⟩] }
theorem witness_stoker_end : (sCommand 0x94 (some (7, 5000))).gt = 5000 ∧ ((sCommand 0x94 (some (7, 5000))).findTg k0).any (fun g => g.on) = true := by decide +kernel
theorem witness_publish : (let s := sCommand 0x97 none
    match s.stoker with
    | [c] => (match cmdDesc s c with
        | some d => let t := atDesc s d.pa
                    commandTurn s c d.pa && (descErr t d).isNone && d.get t 2 1 % 2 = 1 && (pendingOf t d).isSome && d.slotState t ((d.g t + 1) % 65536) = 0
        | none => false)
    | _ => false) = true := by decide +kernel
theorem witness_claim : let s := { sMem 0 id with fb := { (sMem 0 id).fb with claims := [k0] } }
    s.fb.owner = none ∧ s.fb.claims = [k0] := by decide +kernel
/-- An operation at the head of the firebox queue, over two runs of columns. -/
def sFb (code : Nat) (a : W64) : State :=
  { sFire with fb := { sFire.fb with queue := [⟨1, k0, 0, code, 0, 0x800, a, 0x810, .s 9, [], [], []⟩] } }
theorem witness_firebox_queue : [(0xB0, 4), (0xB0, 0), (0xB1, 0x808), (0xB6, 0x808), (0xB7, 0x808)].all (fun x =>
    let s := sFb x.1 x.2
    s.fb.queue.length = 1 && s.fb.owner = some (wgOf k0) && (s.findTg k0).isSome) = true := by decide +kernel
theorem witness_pop_clean : [(64, (⟨0x030201, false, true, false⟩ : Column)), (64, ⟨0x030201, false, false, false⟩)].any (fun c => c.2.poison) = false := by decide +kernel

/-! ### Hypotheses met: draws -/

/-- A triangle with vertices (0, 0), (2, 0), (0, 2) at depth 0.5. -/
def triangle : List Byte :=
  ([0, 0, 0x3F000000, 0x3F800000, 0x40000000, 0, 0x3F000000, 0x3F800000, 0, 0x40000000, 0x3F000000, 0x3F800000, 9, 0, 0, 0] : List Nat).flatMap (natLe 4)
def smallDraw : Draw :=
  { launch := 0, ctx := 0, prims := 0x20000, cap := 8, pixHeader := 0, colour := 0x28000, pitch := 64, width := 4, height := 4, format := 1, depth := 0x2A000
    binBuf := 0x2C000, binBytes := 64, release := 0x2D000, number := 5, target := 0, phase := .bin, next := 0, total := 1, binned := [], entries := 0
    pixHdr := { placeHeader with vregs := 16 }, pixPatches := [], pixLaunch := none, overflow := false, error := false, wct := 0, images := [] }
def sDraw (f : Draw → Draw) : State :=
  let s := sMem 0 id
  { s with tlb := ⟨noCore, 0, 0x20000, 0x10000, 0x2003F⟩ :: s.tlb, draws := [f smallDraw], launches := s.launches.map (fun l => { l with cls := 1 })
           mem := memPut s.mem 0x20040 triangle }
theorem witness_draw_ends : [DrawPhase.mesh, .bin, .raster, .written].all (fun p =>
    let s := sDraw (fun d => { d with phase := p, next := 1 })
    (s.findDraw 0).any (fun d => d.launch = 0 && d.phase = p && d.total ≤ d.next) && (s.findLaunch 0).any (fun x => !allEnded s x)) = true := by decide +kernel
theorem witness_binning : (let s := sDraw id
    match drawRead s smallDraw (smallDraw.prims + 64) 64 with
    | (s1, .bytes b) =>
      let tiles := tilesTouched (fragsOf smallDraw 0 b)
      let data := tiles.flatMap (fun (y : Nat × Nat) => natLe 8 (Config.binEntry 0 y.1 y.2).toNat)
      b = triangle && tiles = [(0, 0)] && drawReady s1 smallDraw smallDraw.binBuf data.length && s1.findDraw 0 = some smallDraw
    | _ => false) = true := by decide +kernel
theorem witness_bin_room : (1 : Nat) ≤ smallDraw.binBytes / 8 ∧ smallDraw.binBytes / 8 < 8 + 1 := by decide +kernel
theorem witness_fragments : fragsOf smallDraw 0 triangle ≠ [] := by decide +kernel
def fragment (done : Option (Option (List W32))) : Frag := ⟨1, 1, 0xBF000000, 0, 0, 0, 9, done⟩
def sPixels (fs : List Frag) : State :=
  let s := sDraw (fun d => { d with phase := .pixels, pixLaunch := some 77, next := 1 })
  { s with launches := s.launches ++ [{ placeLaunch with no := 77, done := true, draw := some 0 }], gangs := s.gangs ++ [⟨77, 0, 0, 0, 0, .ended, fs, none⟩] }
theorem witness_pixels : [none, some none, some (some [0, 0, 0, 0])].all (fun d => nextFrag (sPixels [fragment d]) 77 = some (0, fragment d)) = true
    ∧ nextFrag (sPixels []) 77 = none ∧ ((sPixels []).launchOf 77).done = true := by decide +kernel
theorem witness_pixel_write : (writeFrag (sPixels []) smallDraw (fragment none) [0x3F800000, 0, 0, 0]).isSome = true := by decide +kernel
theorem witness_release : (let s := sDraw (fun d => { d with phase := .written })
    drawReady s smallDraw smallDraw.release 8 && (drawWrite s smallDraw smallDraw.release (natLe 8 1) 0).isSome) = true := by decide +kernel

/-! ### Hypotheses met: the device -/

def sDev (f : Dev → Dev) : State := let s := sMem 0 id; { s with dev := f s.dev }
theorem witness_device : let s := sDev id
    ownLine s 0x400 = true ∧ s.dev.unc ≠ BitVec.allOnes 32 ∧ s.dev.dieLost.getLsbD 3 = false ∧ s.dev.maint = .startUp ∧ s.dev.halted = false ∧ s.dev.portsDown = true
      ∧ homeOf (0x400 * 128) / 64 < 4
      ∧ s.isRemote (0x400 * 128) = false := by decide +kernel
theorem witness_maintenance : (sDev (fun d => { d with maint := .recovery })).dev.imageOk = false ∧ (sDev (fun d => { d with maint := .recovery })).dev.maint = .recovery
    ∧ (sDev (fun d => { d with portsDown := true })).dev.portsDown = true := by decide +kernel
theorem witness_test_command : let s := { sDev (fun d => { d with maint := .service }) with launches := [] }
    s.dev.maint = .service ∧ openSlices s = 0 ∧ s.spawnQ = [] := by decide +kernel
theorem witness_remote : ([.load 8, .store [1, 2]] : List RemoteKind).all (fun k =>
    let s := sDev (fun d => { d with portsDown := false, maint := .service })
    let r : Remote := { node := 3, ctx := 0, pa := 0x20000, kind := k }
    remoteOk s r && !engineOwned s (lineOf r.pa) && !fillHeld (reach s (lineOf r.pa)) (lineOf r.pa) && !s.orphaned (lineOf r.pa)) = true := by decide +kernel
theorem witness_recovered : (sDev (fun d => { d with maint := .recovery, imageOk := true })).dev.imageOk = true := by decide +kernel

/-! ### Hypotheses met: encoding -/

theorem witness_encoding : (Instr.add (.v 3) (.v 5) (.s 2) false).isWord = true ∧ (Instr.add (.v 3) (.v 5) (.s 2) false).wf = true
    ∧ encode (.add (.v 3) (.v 5) (.s 2) false) = some (0x01#8 ++ 3#7 ++ 5#7 ++ 98#7 ++ 0#1 ++ 0#2) := by decide +kernel

/-! ### Hypotheses met: clauses on reserved modes and on trap records -/

theorem witness_mode_reserved : (0x0001E0 : Nat) / 2 ^ 5 % 16 = 15 ∧ 4 < (0x000A00 : Nat) / 2 ^ 9 % 8 ∧ 5 < (0xC00000 : Nat) / 2 ^ 21
    ∧ sOperand sInt true (.v 1) = false ∧ (let s := base (fun g => { busy g with s := vset (busy g).s 2 0x1E0 })
      modeReserved (((readS s.tg (.s 2)).extractLsb' 0 24).setWidth 32) = true ∧ s.tg.pending (.s 2) = false) := by decide +kernel
/-- TREC names scratch, or memory. -/
def sRecord (va : W64) : State :=
  let s := sUser (fun g => { g with trec := va })
  { s with tlb := ⟨0, 0, 0x20000, 0x10000, 0x2003F⟩ :: s.tlb }
theorem witness_record_scratch : let s := sRecord 0xFFFFFFFFFFFC0117
    s.tg.trec ≠ 0 ∧ checkAccess s s.tg .write 64 64 (BitVec.ofNat 64 (s.tg.trec.toNat / 64 * 64)) = .ok (.scratch 0 0 0 0x100)
      ∧ (s.findWg 0 0 0).isSome = true ∧ s.tg.priv = .u ∧ s.hdr.trapOff ≠ 0 := by decide +kernel
theorem witness_record_memory : let s := sRecord 0x20040
    s.tg.trec ≠ 0 ∧ checkAccess s s.tg .write 64 64 (BitVec.ofNat 64 (s.tg.trec.toNat / 64 * 64)) = .ok (.mem 0x20040 0 false false) := by decide +kernel

/-! ### One step each: results worked out by hand from the entries -/

/-- The TG after an instruction. -/
def runs (i : Instr) (s : State) : Tg := (after s (exec i s)).tg
/-- All eight beats of v1 hold x and of v2 hold y, under an element type. -/
def sTwo (et : Nat) (x y : W32) : State :=
  base (fun g => { g with gm := ofEt et, v := vset (vset g.v 1 (Vector.replicate 8 x)) 2 (Vector.replicate 8 y), s := vset (vset g.s 1 x.toNat) 2 y.toNat })
/-- Beat 3 of v9. -/
def out (i : Instr) (s : State) : W32 := vget (vget (runs i s).v 9) 3

theorem test_add_i8_wraps : out (.add (.v 9) (.v 1) (.v 2) false) (sTwo 0 0x7F 1) = 0xFFFFFF80 := by decide +kernel
theorem test_sub_u16_wraps : out (.sub (.v 9) (.v 1) (.v 2) false) (sTwo 3 0 1) = 0x0000FFFF := by decide +kernel
theorem test_mul_f16_pairs : out (.mul (.v 9) (.v 1) (.v 2) false) (sTwo 8 0x40003C00 0x3C003C00) = 0x40003C00 := by decide +kernel
theorem test_mulh_signed : out (.mulh (.v 9) (.v 1) (.v 2) false) (sTwo 4 0xFFFFFFFF 2) = 0xFFFFFFFF := by decide +kernel
theorem test_div_truncates : out (.div (.v 9) (.v 1) (.v 2) false) (sTwo 4 0xFFFFFFF9 2) = 0xFFFFFFFD := by decide +kernel
theorem test_rem_sign : out (.rem (.v 9) (.v 1) (.v 2) false) (sTwo 4 0xFFFFFFF9 2) = 0xFFFFFFFF := by decide +kernel
theorem test_div_by_zero_flag : (runs (.div (.v 9) (.v 1) (.v 2) false) (sTwo 10 0x3F800000 0x80000000)).flags = flagDz
    ∧ out (.div (.v 9) (.v 1) (.v 2) false) (sTwo 10 0x3F800000 0x80000000) = 0xFF800000 := by decide +kernel
theorem test_min_negative_zero : out (.min (.v 9) (.v 1) (.v 2) false) (sTwo 10 0 0x80000000) = 0x80000000 := by decide +kernel
theorem test_cmp_mask : vget (runs (.cmp (.p 1) (.v 1) (.tix) 2) (sTwo 5 4 0)).p 1 = 0xE0 := by decide +kernel
theorem test_shl_width : out (.shl (.v 9) (.v 1) (.v 2) false) (sTwo 5 1 32) = 0 := by decide +kernel
theorem test_sra_width : out (.sra (.v 9) (.v 1) (.v 2) false) (sTwo 4 0x80000000 40) = 0xFFFFFFFF := by decide +kernel
theorem test_clz : out (.clz (.v 9) (.v 1) false) (sTwo 5 0x00010000 0) = 15 := by decide +kernel
theorem test_movi_sign : vget (runs (.movi (.s 9) 0x1FFFF) (sTwo 4 0 0)).s 9 = 0xFFFFFFFFFFFFFFFF := by decide +kernel
theorem test_latch_shift : vget (vget (runs (.add .zr (.v 1) (.v 2) true) (sTwo 4 3 4)).b 0) 5 = 7 := by decide +kernel
theorem test_red_add : vget (runs (.red (.s 9) (.v 1) 0) (sTwo 5 3 0)).s 9 = 24 := by decide +kernel
theorem test_split_then : let g := runs (.split 3) sHalf
    g.cm = 0x0F ∧ g.pc = 0x10084 ∧ g.stack.head? = some ⟨0xFF, 0xF0, 0x10090, none⟩ := by decide +kernel
theorem test_call_link : let g := runs (.call 0xFFFFFF) sInt
    vget g.s 31 = 0x10084 ∧ g.pc = 0x10080 := by decide +kernel
theorem test_trap_saves : let g := runs (.trap 7) (sUser id)
    g.pc = 0x100C0 ∧ g.tepc = 0x10080 ∧ g.trpc = 0x10080 ∧ g.tcause = 0x11 ∧ g.tmask = 0xFFFF ∧ g.priv = .s ∧ g.gm = 0 := by decide +kernel
theorem test_eret_returns : let g := runs (.eret (.v 0) 0) (sHandler id)
    g.pc = 0x10100 ∧ g.priv = .u ∧ g.cm = 0xFF := by decide +kernel
theorem test_store_scratch : (after (sMem 0 id) (exec (.st (.v 5) (.s 1) (.v 4)) (sMem 0 id))).wgs.map (fun w => memBytes w.scratch 0x100 9) = [[0, 0, 0, 0, 1, 0, 0, 0, 2]] := by
  decide +kernel
theorem test_atomic_returns_old : let s := sMem 0 (fun g => { g with s := vset g.s 2 0xFFFFFFFFFFFC0100, v := vset g.v 6 (Vector.replicate 8 1) })
    (vget (runs (.aadd (.v 9) (.s 2) (.v 6)) s).v 9) = #v[0, 1, 2, 3, 4, 5, 6, 7] := by decide +kernel
theorem test_sysr_priv : vget (runs (.sysr (.s 9) 2) sInt).s 9 = 2 := by decide +kernel
theorem test_mode_sets : (runs (.mode 0x000091) sInt).gm = 0x91 := by decide +kernel

/-! ### Hypotheses met: further clauses -/

/-- A tile copy into user FIFO 0x20. -/
def sPortCopy : State := let s := sCopy; { s with tg := { s.tg with s := vset s.tg.s 5 0xFFFFFFFFF0200000 } }
theorem witness_tile_copy_port : (let s := sPortCopy
    let x := tileCopyOf s.tg 4
    x.toPort == some 0x20 && pushable 0x20 && !x.bad s.tg 4 8 && (x.rowTrap s 8 s.tg.active).isNone
      && placed ((x.pairs 8).flatMap (fun y => y.2.1.map (engPlace s 1 false)))) = true := by decide +kernel
theorem witness_copy_to_port : placed [engPlace sPortCopy 16 true 0xFFFFFFFFF0200000] = true := by decide +kernel

/-- A GPIN's message at the descriptor's home; its slot 0 is live. -/
def sPinned : State :=
  let s := sFlue (fun g => { g with ops := [{ opOf (.s 9) 1 [] with path := none, sink := some ⟨.s 9, 7, 0xFF, true⟩ }], nextOp := 1 })
  { s with net := [{ message (.pin 0x24000) with pa := 0x24000 }] }
theorem witness_pin_home : decide (served sPinned 0 = sPinned.net[0]?) = true ∧ engineOwned sPinned (lineOf 0x24000 + 1) = false
    ∧ (sPinned.findTg k0).any (fun g => g.ops.any (fun o => o.id = 0)) = true := by decide +kernel

theorem witness_completion_reachable : (let s := sOver none
    (paOf s noCore s.launch.ctx s.launch.record).all s.reachable && (paOf s noCore s.launch.ctx (s.launch.record + 0x70)).all (fun pa => !s.orphaned (lineOf pa)))
    = true := by decide +kernel

/-- The first block of the TG at issue can be pushed after its rays have run. -/
def blockGoes (s : State) : Bool :=
  match s.tg.blocks with
  | b :: _ =>
    let f := s.focus k0
    let s1 := runBlock f b (if spilling f f.tg then 0 else maxVisits + 1)
    let b1 := s1.tg.blocks.headD b
    blockReady (releaseBlock s1 b1) b1
  | [] => false
theorem witness_block_ready : blockGoes sBlock = true := by decide +kernel
theorem witness_block_waits : (let s := sFlue (fun g => { g with
      rays := beats.map (fun t => { (default : Ray) with t := t, ended := some 0, upd := 6000 }), blocks := [{ op := 0, threads := beats }], nextOp := 1, ops := [opOf .zr 1 []] })
    s.tg.blocks.length = 1 && !blockGoes s) = true := by decide +kernel
theorem witness_publish_allowed : (let s := { sCommand 0x97 none with tlb := ⟨0, 0, 0x30000, 0x10000, 0x3003F⟩ :: (sCommand 0x97 none).tlb }
    match s.stoker with
    | [c] => (match cmdDesc s c with
        | some d => let t := atDesc s d.pa
                    descDenied t c d = 0 && (match poolWritable t c d with | .ok () => true | .error _ => false)
        | none => false)
    | _ => false) = true := by decide +kernel

/-- FBLD or FBST of eight bytes at 0x20000 at the head of the controller's queue. -/
def sFbMove (code : Nat) (own : Bool) : State :=
  let s := sFire
  { s with fb := { s.fb with queue := [⟨1, k0, 0, code, 0, 0x800, 0x20000, 0x800000000, .zr, [0x400], beats.map (fun i => 0x20000 + i), []⟩] }
           lines := if own then [{ no := 0x400, owner := some (.engine 1) }] else [] }
theorem witness_firebox_moves : (fbNext (sFbMove 0xB9 false)).isSome = true ∧ (fbNext (sFbMove 0xBA true)).isSome = true
    ∧ [0x400].any (sourceHeld (reachAll (sFbMove 0xB9 false) [0x400]) k0 1 0) = false ∧ linesOwned (sFbMove 0xBA true) 1 [0x400] = true := by decide +kernel
theorem witness_firebox_claims : (let s := { sFb 0xB0 4 with fb := { (sFb 0xB0 4).fb with owner := none } }
    (s.fb.queue.find? (fun o => fbClaims s o && fbWaits s (wgOf o.tg) && !s.fb.claims.contains o.tg)).isSome) = true := by decide +kernel
theorem witness_conversion : (fbNext (sFb 0xB0 4)).isSome = true ∧ (fbNext (sFb 0xB0 0)).isSome = true ∧ (sFb 0xB0 4).lines = []
    ∧ ((sFb 0xB0 4).fb.queue.find? (fun o => fbClaims (sFb 0xB0 4) o)).isNone = true := by decide +kernel
theorem witness_window_lines : (windowLines (sSysw 0x100 0x30000) default).any (engineOwned (sSysw 0x100 0x30000)) = false := by decide +kernel

/-- The mesh stage is over; the render target stands at 0x20200, the pixel stage's header at 0x20100, one primitive. -/
def sMesh : State :=
  let s := sDraw (fun d => { d with phase := .mesh, target := 0x20200, pixHeader := 0x20100, cap := 8 })
  { s with gangs := s.gangs.map (fun g => { g with state := .ended })
           ctxs := s.ctxs.map (fun x => { x with ctxcap := 7 })
           mem := memPut (memPut s.mem 0x20000 (natLe 4 1)) 0x20100 (recBytes
             [(0, 4, 0x4C474E50), (4, 2, 1), (6, 2, 4), (8, 4, 0x100), (0xC, 4, 64), (0x10, 1, 3), (0x16, 1, 16), (0x17, 1, 8), (0x1E, 2, 1), (0x2C, 4, 0x10000)
             , (0x30, 2, 1), (0x32, 2, 1)] 128 ++ zeroBytes 128 ++ recBytes [(0, 8, 0x28000), (8, 4, 64), (0xC, 2, 4), (0xE, 2, 4), (0x10, 4, 1), (0x18, 8, 0x2A000)] 32) }
theorem witness_mesh : (match sMesh.draws with
    | [d] =>
      let x := drawRead sMesh d d.target 32
      let y := drawRead x.1 d d.prims 4
      let z := pixelHeader y.1 d
      allEnded sMesh (sMesh.launchOf 0) && (match x.2, y.2, z.2 with
        | .bytes t, .bytes n, .ok _ => leNat n ≤ d.cap && d.formatOk (recNat t 0x10 4)
        | _, _, _ => false)
    | _ => false) = true := by decide +kernel

/-! ### Hypotheses met: the waits of a step, operands, atomics, copies -/

/-- Five levels of tables, from 0x40000, that map the page at virtual 0x10000 to itself; no translation is cached. -/
def sTables (own : Option Owner) : State :=
  { sStep with
    tlb := []
    ctxs := sStep.ctxs.map (fun x => { x with ptroot := 0x40001 })
    lines := [{ no := lineOf 0x40000, owner := own }]
    mem := [(0x40000, 0x41001), (0x41000, 0x42001), (0x42000, 0x43001), (0x43000, 0x44001), (0x44008, 0x1003F)].foldl
      (fun m (x : Nat × Nat) => memPut m x.1 (natLe 8 x.2)) sStep.mem }
/-- What the fetch of the step comes to: a line that an engine owns was met, pages were missed, the line is there. -/
def fetching (s : State) : Bool × Bool × Bool :=
  let s1 := takeLane s 0 0 k0
  let f := fetchLine s1 s1.tg s1.tg.pc
  (f.1.waits && !s1.waits, newPages s1 f.1 ≠ [], f.2)
theorem witness_step_met : pick (sTables (some (.engine 3))) 0 0 = some k0 ∧ budgetDue (takeLane (sTables (some (.engine 3))) 0 0 k0) (takeLane (sTables (some (.engine 3))) 0 0 k0).tg = false
    ∧ (fetching (sTables (some (.engine 3)))).1 = true := by decide +kernel
theorem witness_step_walks : pick (sTables none) 0 0 = some k0 ∧ budgetDue (takeLane (sTables none) 0 0 k0) (takeLane (sTables none) 0 0 k0).tg = false
    ∧ fetching (sTables none) = (false, true, true) ∧ fetching sStep = (false, false, true) ∧ fetching sHeld = (false, false, false) := by decide +kernel
theorem witness_missed : (let u := takeLane (sTables none) 0 0 k0
    let t := cachePage u 0 0 0x10080
    u.waits = false ∧ newPages u t ≠ [] ∧ t.tg.waiting = false ∧ newPages u u = []
      ∧ (cachePage (takeLane (sTables (some (.engine 3))) 0 0 k0) 0 0 0x10080).waits = true) ∧ sStep.heldHob = [] ∧ sStep.heldEmber = [] ∧ sStep.lines = [] := by
  decide +kernel

/-- A stream read of sp0 in sQueue, its values at hand, or not. -/
def streamReads (s : State) (x : Stream) : Option TrapInfo × List Acc1 :=
  checkAll s .read (etBytes s.tg.et) (etBytes s.tg.et) (streamVas x x.pos s.tg.active)
theorem witness_stream_source : (let s := sQueue
    match vget s.tg.sp 0 with
    | some x => !s.tg.acquiring && (streamReads s x).1.isNone && !(streamReads s x).2.isEmpty && s.tg.count .s < 255 && !(s.tg.held.any (fun h => h.pc = s.tg.pc && h.k = 0))
        && !(s.tg.ops.any (fun o => o.sync = some 0 && o.pc = s.tg.pc && !o.done)) && (streamReads s x).2.all (fun y => match y.target with | .scratch _ _ _ _ => true | _ => false)
    | none => false) = true := by decide +kernel
theorem witness_stream_over : (let s := { sQueue with tg := { sQueue.tg with sp := vset sQueue.tg.sp 0 (some ⟨0xFFFFFFFFFFFC0100, 4, 8, 1, 4, 4, false, 8⟩) } }
    match vget s.tg.sp 0 with
    | some x => (streamReads s x).1.isNone && (streamReads s x).2.isEmpty
    | none => false) = true := by decide +kernel
theorem witness_stream_held : let s := { sQueue with tg := { sQueue.tg with held := [⟨sQueue.tg.pc, 0, [⟨0, 7, false, 0⟩]⟩] } }
    s.tg.held.find? (fun h => h.pc = s.tg.pc && h.k = 0) = some ⟨0x10080, 0, [⟨0, 7, false, 0⟩]⟩ := by decide +kernel
theorem witness_queue_twice : formIs sQueue (.add (.v 1) (.q 0) (.sp 0) false) (fun F =>
    F.mask ≠ 0 && F.legal sQueue && F.ready sQueue && plainOpnd F.dst && queuesReady sQueue (queueWords sQueue.tg F.reads (beatsOf F.readers).length) []
      && isGo (readsOf sQueue F.readers F.reads F.shape.switches) && F.noTrap sQueue (goOf (readsOf sQueue F.readers F.reads F.shape.switches))) = true := by decide +kernel

/-- A stash line of the workgroup that holds poison. -/
def sPoisonedWindow : State :=
  let s := sAtomic 0
  { s with wgs := s.wgs.map (fun w => { w with stsc := vset w.stsc 0 0x100101, stash := [⟨0, 0, 0x400, true, 0, 0, 0, true, none, 0, false⟩] }) }
theorem witness_atomic_poison : (let s := sPoisonedWindow
    let r := goOf (readsOf s ((atomicShape s.tg 0 (.v 3) (.v 5)).readers s.tg.active) (atomicShape s.tg 0 (.v 3) (.v 5)).reads)
    let y := checkEach .atomic (fun va => thenCheck deviceFault (checkAccess s s.tg .atomic 4 4 va)) [(0, 0xFFFFFFFFFFFC0100)]
    match y with
    | (none, [y]) => stashPoison (lookAtomic s r [y]) y && needOwn s [y] = [] && poisonPasses s (atomicPoison s r [y]) && pathOf [y] = .s
    | _ => false) = true := by decide +kernel

/-- A quantum atomic is held whose word the copy reads. -/
theorem witness_copy_sends : (let s := { sCopy with tg := { sCopy.tg with quantum := [⟨0, 0, 0x20004, addOne, false, false⟩] } }
    s.tg.quantum.any (fun q => q.pa / 16 = 0x20000 / 16) && !s.tg.quantum.any (fun q => q.pa / 16 = 0x20010 / 16)) = true := by decide +kernel

/-! ### Hypotheses met: passes, accumulators, regrouping, waits -/

/-- A quarter pass 0 on tile 1 with the first row poisoned. -/
def samplePass (et : Nat) : Pass :=
  ⟨0, k0, 0, .quarter 0, 1, BitVec.ofNat 4 et, (List.replicate 256 (2, false)).set 3 (2, true), List.replicate 512 (3, false), [], [], true, 0, 1, 0⟩
theorem witness_pass_words : [1, 8].all (fun et => mmaType (samplePass et).et.toNat) = true ∧ passFloat 1 = false ∧ passFloat 8 = true
    ∧ (samplePass 1).kind.target 1 0 2 = some (1, 0, 2) ∧ (samplePass 1).kind.target 1 1 2 = some (1, 1, 2) ∧ (samplePass 1).kind.target 1 0 2 ≠ some (0, 0, 2)
    ∧ ((samplePass 1).a.take (samplePass 1).kind.k).any (fun b => b.2) = true
    ∧ (((samplePass 1).a.drop (samplePass 1).kind.k).take (samplePass 1).kind.k).any (fun b => b.2) = false
    ∧ (samplePass 1).b.any (fun b => b.2) = false := by decide +kernel
theorem witness_group : (passElems 8 [0, 0x7E, 0, 0x3C]).map (Ext.ofElem 8) = [.nan, .fin ⟨1024, -10⟩]
    ∧ (passElems 8 [0, 0x3C, 0, 0x40]).map (Ext.ofElem 8) = ([⟨1024, -10⟩, ⟨1024, -9⟩] : List Dy).map .fin
    ∧ fmtA56.isNan fmtA56.canonNan = true ∧ fmtA56.isNan fmtA56.infBits = false ∧ fmtA56.isInf fmtA56.infBits = true
    ∧ fmtA56.isNan 0 = false ∧ fmtA56.isInf 0 = false := by decide +kernel
/-- Traps of nv enabled; v8 holds signalling NaNs, tile 3 has raised nv. -/
def sAccTrap : State :=
  let s := base (fun g => { busy g with gm := ofEt 10, fptrap := 0x9F, v := Vector.replicate 64 (Vector.replicate 8 0x7F800001) })
  { s with wgs := s.wgs.map (fun w => { w with tiles := vset w.tiles 3 { vget w.tiles 3 with nv := true } }) }
theorem witness_accumulator_trap : (let s := sAccTrap
    let x := vget s.wg.tiles 3
    let loaded := fun (u : Nat) => (unpackRow s.tg.et ((upTo (tileRun s.tg.et)).map (fun i => vget (vget s.tg.v (8 + i)) u))).map (loadElem s.tg.et s.tg.rm)
    (flagTrap s.tg.fptrap s.tg.active (fun u => (loaded u).foldl (fun f e => f ||| e.2) 0)).isSome
      && (flagTrap s.tg.fptrap s.tg.active (fun u => ((upTo 16).map (drainElem x s.tg.et s.tg.rm u)).foldl (fun f (r : Res) => f ||| r.flags) x.flags)).isSome
      && runOk s.hdr s.tg.et (.v 8) && tileType s.tg.et && x.float ≠ some true) = true := by decide +kernel

/-- Two TGs of lane class 0, the second arrived with a load due to its thread 2, and another of lane class 1. -/
def sClass : State :=
  let at_ := fun (g : Tg) => { g with phase := .arrived, word := (encode (.regrp (.p 1))).getD 0 }
  let s := second id (base (fun g => { busy g with live := 0x0F, cm := 0x0F, p := vset g.p 0 0x05 }))
  { s with rest := [at_ { s.tg with key := ⟨0, 0, 0, 32⟩, live := 0xFF, ops := [{ opOf (.v 9) 1 [] with sink := some ⟨.v 9, 5, 0x0F, true⟩ }] }
                    , at_ { s.tg with key := ⟨0, 0, 0, 1⟩ }] }
theorem witness_regrp_classes : (let s := sClass
    let s1 := withTg s { s.tg with phase := .arrived }
    let gs := (s1.tgsOf 0 0 0).filter (fun x => x.key.tg % 32 = 0)
    regroups s && decide ((s.allTgs.map (fun x => x.key)).Nodup) && gs.length = 2 && (gs.drop 1).all (fun x => x.ops.any (fun o => o.perThread && o.sink.isSome))
      && s.tg.stack.isEmpty && s.tg.rays.isEmpty && !s.tg.pending (.p 0)) = true := by decide +kernel

/-- Operations on the G and the H path are outstanding. -/
def sBusyPaths : State :=
  sMem 0 (fun g => { g with nextOp := 2, s := vset g.s 3 0
                            ops := [opOf (.v 9) 1 [], { opOf (.v 10) 1 [] with id := 1, path := some .h }] })
theorem witness_waitc_waits : let s := sBusyPaths
    s.tg.on = true ∧ s.tg.active ≠ 0 ∧ s.tg.quantum = [] ∧ (0 : Nat) < s.tg.count .g ∧ (0 : Nat) < s.tg.count .h ∧ sOperand s true .zr = true ∧ s.tg.pending .zr = false
      ∧ s.tg.count .s = 0 ∧ s.tg.pending (.s 3) = false := by decide +kernel
theorem witness_acquire_counter : let s := sRound id
    roundRegion s s.tg.ctx (gmRr s.tg.gm) = some ⟨0x20040, 0x20080, 0x30000⟩ ∧ paOf s s.tg.core s.tg.ctx 0x20040 = some 0x20040
      ∧ s.heldHob = [] ∧ s.heldEmber = [] ∧ s.lines = [] ∧ acquirable s = true
      ∧ roundRegion (sMem 0 id) (sMem 0 id).tg.ctx (gmRr (sMem 0 id).tg.gm) = none := by decide +kernel

/-! ### Hypotheses met: completion records, homes -/

theorem witness_record_place : (let s := sSlice 8
    let r := (0x20000 : W64)
    match checkSlice s 0 .m r with
    | (s1, .slice _, _) => paOf (walkTo { s1 with spawnQ := [] } noCore 0 (r + 0x70)) noCore 0 (r + 0x70) == some 0x20070 && !s.orphaned (lineOf 0x20070)
    | _ => false) = true ∧ (0x20070 : Nat) % 128 = 0x70
    ∧ (match checkSlice (sSlice 0) 0 .m 0x20000 with
       | (s1, .code _, _) => paOf (walkTo { s1 with spawnQ := [] } noCore 0 0x20070) noCore 0 0x20070 == some 0x20070
       | _ => false) = true := by decide +kernel
theorem witness_completion_record : (let s := sOver none
    let l := s.launch
    paOf (walkTo s noCore l.ctx (l.record + 0x70)) noCore l.ctx (l.record + 0x70) == some 0x20070 && !s.orphaned (lineOf 0x20070)) = true := by decide +kernel
theorem witness_completion_waits : (let s := { sOver none with gt := 3999 }
    heldLines s 0 = [] && s.gt < s.launch.wct) = true
    ∧ (let s := { sOver none with heldHob := [⟨0, 0x20000, addOne, ⟨1, 1⟩⟩] }
       heldLines s 0 ≠ [] ∧ (∀ h ∈ s.heldHob, 0 < h.a.size) ∧ allEnded s s.launch = true ∧ s.launch.endAt = none) := by decide +kernel

theorem witness_replicated_write : (let m := { message (.write [1, 2, 3, 4] 6000 false true) with rep := true }
    let s := sNet m leased
    decide (served s 0 = some m) && !s.orphaned 0x400 && s.gt < writeTime (arriveAt (applyDue (s.dropMsg 0) 0x400) 0x20000 4) 0x400 6000 false) = true := by
  decide +kernel

/-- A workgroup's stash owns the line at 0x20000, one byte of it dirty. -/
def sOwnedLine (m : Msg) : State :=
  let s := sNet m { no := 0x400, owner := some (.stash 0 0 0) }
  { s with wgs := s.wgs.map (fun w => { w with stsc := vset w.stsc 0 0x100101, stash := [⟨0, 0, 0x400, true, 0, 0, 1, false, none, 0, false⟩] }) }
theorem witness_recall : (let s := sOwnedLine (message (.fill 4 normalFill))
    s.net.any (fun m => lineOf m.pa = 0x400) && (ownerLine s 0x400).isSome && !s.orphaned 0x400) = true
    ∧ (∀ m ∈ (sOwnedLine (message (.fill 4 normalFill))).net, lineOf m.pa ≠ 0x401) := by decide +kernel

/-- Two hob updates of one word stand in the line's window, and one of another; two contributions to one ember. -/
def sHobWindow : State :=
  { sNet (message (.fill 4 normalFill)) leased with heldHob := [⟨0, 0x20000, addOne, ⟨2, 1⟩⟩, ⟨0, 0x20000, addOne, ⟨1, 1⟩⟩, ⟨0, 0x20008, addOne, ⟨1, 1⟩⟩] }
theorem witness_hob_order : let s := sHobWindow
    let xs : List HeldHob := [⟨0, 0x20000, addOne, ⟨1, 1⟩⟩, ⟨0, 0x20000, addOne, ⟨2, 1⟩⟩]
    otherAccess s 0x400 isHob = some 0 ∧ s.poisoned 0x400 false = false ∧ (s.line 0x400).owner = none ∧ s.heldEmber = []
      ∧ (∀ h ∈ s.heldHob, (h.pa = 0x20000 ∧ h.a.size = 4) ∨ h.pa + h.a.size ≤ 0x20000 ∨ 0x20000 + 4 ≤ h.pa)
      ∧ xs.length = 2 ∧ List.Perm xs (s.heldHob.filter (fun h => h.pa = 0x20000)) ∧ xs.Pairwise (fun a b => keyLt a.key b.key = true) := by decide +kernel
def sMergeWindow (ask : Ask) : State :=
  let c := fun (n : Nat) => (⟨0, 0x20000, .est 0x3F800000, 0, sampleRegion, ⟨BitVec.ofNat 64 n, 1⟩⟩ : HeldEmber)
  { sNet (message ask) leased with heldEmber := [c 2, c 1] }
theorem witness_merge_order : ∀ a ∈ ([.fill 4 normalFill, .eld 7 0 sampleRegion 0x20000 ⟨1, 1⟩ false] : List Ask),
    let s := sMergeWindow a
    otherAccess s 0x400 isContribution = some 0 ∧ s.poisoned 0x400 false = false ∧ (s.line 0x400).owner = none ∧ s.heldHob = []
      ∧ (∀ h ∈ s.heldEmber, h.pa = 0x20000) ∧ List.Perm s.heldEmber.reverse (s.heldEmber.filter (fun h => h.pa = 0x20000))
      ∧ s.heldEmber.reverse.Pairwise (fun a b => keyLt a.key b.key = true) := by decide +kernel

/-! ### Hypotheses met: answers, engines, other nodes -/

theorem witness_acknowledgement_one_of_two :
    let o : Op := { opOf (.v 9) 2 [] with path := some .h, near := 2 }
    let s := { sMem 0 (fun g => { g with ops := [o], nextOp := 1, unack := 2 }) with acks := [⟨k0, 0, 5000, true, true, none, true⟩] }
    s.acks[0]? = some ⟨k0, 0, 5000, true, true, none, true⟩ ∧ (s.findTg k0).any (fun g => g.ops.find? (fun x => x.id = 0) = some o) = true ∧ 1 < o.need := by
  decide +kernel

/-- A copy from memory, from scratch and from the nibbles of two bytes of memory. -/
def sReading : State :=
  { sMem 0 id with copies := [⟨4, k0, 0, .s 9, [⟨[.mem 0x20000], false, .scratch 0 0 0 0x300⟩, ⟨[.scratch 0 0 0 0x40], false, .scratch 0 0 0 0x301⟩
    , ⟨[.mem 0x20002, .mem 0x20003], true, .scratch 0 0 0 0x302⟩], 0, [], [], none, [], false⟩] }
theorem witness_copy_reads : (match sReading.copies with
    | [j] => let s1 := reachAll (sReading.focus j.tg) j.sources
             j.ports.isEmpty && j.err = 0 && j.data.isNone && !j.sources.any (sourceHeld s1 j.tg j.id j.op) && (stashWants s1 false j.reads).isEmpty
               && (sReading.findWg 0 0 0).isSome
    | _ => false) = true := by decide +kernel
/-- A copy into a line that its engine owns. -/
def sWriting : State :=
  { sMem 0 id with copies := [⟨4, k0, 0, .s 9, beats.map (fun i => ⟨[.scratch 0 0 0 i], false, .mem (0x20000 + i)⟩), 0, [0x400], [], some copied, [], false⟩]
                   lines := [{ no := 0x400, owner := some (.engine 4) }] }
theorem witness_copy_writes : (match sWriting.copies with
    | [j] => let s := sWriting.focus j.tg
             j.err = 0 && j.data = some copied && linesOwned s 4 j.lines && (stashWants s true (j.moves.map (fun m => m.dst))).isEmpty
               && copied.length = j.moves.length && decide ((j.moves.map (fun m => m.dst)).Nodup) && (s.line 0x400).pend.isEmpty && !s.orphaned 0x400
    | _ => false) = true := by decide +kernel
theorem witness_passes_alone : (match corePasses { sMem 0 id with passes := [⟨0, k0, 0, .blocks, 0, 1, [], [], [], [], false, 0, 1, 0⟩] } 0 with
    | [p] => p.kind = .blocks && !p.started
    | _ => false) = true ∧ ∀ q, PassKind.blocks ≠ .quarter q := ⟨by decide +kernel, by intro q h; cases h⟩

/-- FBSHF by `b` columns at the head of the queue. -/
def sFbShift (b : W64) : State := { sFire with fb := { sFire.fb with queue := [⟨1, k0, 0, 0xB8, 0, 0x800, 0x808, b, .zr, [], [], []⟩] } }
theorem spread_one (n : Nat) (c : Column) : (spreadRuns [(n, c)]).length = n := by simp [spreadRuns]
theorem fire_columns : sFire.fb.cols = [(2097152, ⟨0x030201, false, true, false⟩)] := rfl
theorem witness_shift : (∃ o, fbNext (sFbShift 1) = some o ∧ o.code = 0xB8) ∧ (sFbShift 1).fb.owner = some (wgOf k0) ∧ (sFbShift 1).fb.cols = sFire.fb.cols
    ∧ (spreadRuns sFire.fb.cols).length = columnsOf (sFbShift 1).fb.ways :=
  ⟨⟨_, rfl, rfl⟩, rfl, rfl, by rw [fire_columns, spread_one]; rfl⟩
theorem witness_firebox_columns : let o := (sFbMove 0xB9 false).fb.queue.head?
    (sFbMove 0xB9 false).fb.cols = sFire.fb.cols ∧ firstColumn 0x800000000 + columnCount 0x800000000 ≤ (spreadRuns sFire.fb.cols).length
      ∧ o.any (fun o => o.places.length = columnCount o.b && o.sub < 4 && o.places.all (fun pa => pa % 2 ^ o.sub = 0 && lineOf pa = 0x400)) = true
      ∧ (sFbMove 0xBA true).lines.all (fun l => l.pend.isEmpty) = true :=
  ⟨rfl, by rw [fire_columns, spread_one]; decide, by decide +kernel, by decide +kernel⟩
theorem witness_remote_estimate : [[], [(⟨9000, 0x20040, [1], k0⟩ : Pend)]].all (fun p =>
    let s := { sDev (fun d => { d with portsDown := false, maint := .service }) with lines := [{ no := 0x400, wct := 9000, pend := p }] }
    let r : Remote := { node := 3, ctx := 0, pa := 0x20000, kind := .emberRead 7 0x42000000 0 2 }
    let s1 := arriveAt (applyDue s 0x400) 0x20000 16
    remoteOk s r && !engineOwned s 0x400 && !s1.poisoned 0x400 false && (decide (s.gt < pendTime (s1.line 0x400)) == !p.isEmpty)) = true := by decide +kernel
theorem witness_trap_walk : let s1 := faultWalk (sRecord 0x20040) { cause := 0x06, mask := 1, va := 0x10080, access := 1 }
    checkAccess s1 s1.tg .write 64 64 0x20040 = .ok (.mem 0x20040 0 false false) := by decide +kernel
end Sys2Proof.Tests
end

section
/-! Branches, SPLIT, MODE and NOP: their words and what each completes as. -/

namespace Sys2Proof.Machine

open Sys2Proof.Safety

/-! ### The fields of a word that is written field by field (R37) -/

theorem encR_opcode (op : BitVec 8) (d a b : BitVec 7) (x : BitVec 3) : (encR op d a b x).extractLsb' 24 8 = op := by
  ext i hi
  grind [encR]

theorem rFields_encR (op : BitVec 8) (d a b : BitVec 7) (x : BitVec 3) : rFields (encR op d a b x) = ⟨d, a, b, x⟩ := by
  rw [rFields, RFields.mk.injEq]
  refine ⟨?_, ?_, ?_, ?_⟩ <;> ext i hi <;> grind [encR]

theorem encB_opcode (op : BitVec 8) (i : BitVec 24) : (encB op i).extractLsb' 24 8 = op := BitVec.extractLsb'_append_eq_left

theorem encB_imm (op : BitVec 8) (i : BitVec 24) : (encB op i).extractLsb' 0 24 = i := BitVec.extractLsb'_append_eq_right

/-- BRP's imm24 is its condition above a displacement (R39, R292). -/
theorem encB_cond (op : BitVec 8) (c : BitVec 2) (disp : BitVec 22) : encB op (c ++ disp) = op ++ c ++ disp := by
  ext i hi
  grind [encB]

theorem encB_cond_high (op : BitVec 8) (c : BitVec 2) (disp : BitVec 22) : (encB op (c ++ disp)).extractLsb' 22 2 = c := by
  ext i hi
  grind [encB]

theorem encB_cond_low (op : BitVec 8) (c : BitVec 2) (disp : BitVec 22) : (encB op (c ++ disp)).extractLsb' 0 22 = disp := by
  ext i hi
  grind [encB]

/-- The range of a two's-complement field. -/
theorem toInt_range {w : Nat} (x : BitVec (w + 1)) : -2 ^ w ≤ x.toInt ∧ x.toInt ≤ 2 ^ w - 1 :=
  ⟨BitVec.le_toInt x, Int.le_sub_one_of_lt BitVec.toInt_lt⟩

theorem decode_br (disp : BitVec 24) : decode (encB 0x40#8 disp) = .ok (.br disp) := by
  rw [decode, encB_opcode, encB_imm]
  rfl

theorem decode_brp (c : BitVec 2) (disp : BitVec 22) :
    decode (encB 0x41#8 (c ++ disp)) = need (c ≠ 3) .reservedCondition (.ok (.brp c disp)) := by
  rw [decode, encB_opcode, encB_cond_high, encB_cond_low]
  rfl

theorem decode_modes (d a b : BitVec 7) (x : BitVec 3) : decode (encR 0x4D#8 d a b x) = decA0 .modes ⟨d, a, b, x⟩ := by
  rw [decode, encR_opcode, rFields_encR]
  rfl

/-- A chain of checks refuses when one of them fails. -/
theorem need_error {c : Bool} {e : DecodeError} {k : Dec} (h : c = true → ∃ e', k = .error e') : ∃ e', need c e k = .error e' := by
  cases c with
  | false => exact ⟨e, rfl⟩
  | true => exact h rfl

theorem x3_eq_zero (x : BitVec 3) (hnw : x.getLsbD 2 = false) (hsub : x.extractLsb' 0 2 = 0) : x = 0 := by
  decide +revert

/-- A word of rd and ra alone with another field set is refused (R38). -/
theorem decA0_nonzero (k : Opnd → Opnd → Instr) (d a b : BitVec 7) (x : BitVec 3) (h : b ≠ 0 ∨ x ≠ 0) :
    ∃ e, decA0 k ⟨d, a, b, x⟩ = .error e := by
  refine need_error fun hb => need_error fun hnw => need_error fun hsub => ?_
  have hx : x = 0 := x3_eq_zero x (by simpa [RFields.nw] using hnw) (of_decide_eq_true hsub)
  exact absurd h (by simpa [hx] using hb)

/-! ### Control transfer completes -/

theorem jump_transferred (s : State) (pc : W64) : jump s pc = .next (withTg s (transferred s.tg pc)) := rfl

theorem jump_modTg_transferred (s : State) (f : Tg → Tg) (pc : W64) : jump (s.modTg f) pc = .next (withTg s (transferred (f s.tg) pc)) := rfl

theorem fallThrough_transferred (s : State) : fallThrough s = .next (withTg s (transferred s.tg (s.tg.pc + 4))) := rfl

theorem branchTarget_eq_branchTo (g : Tg) (n : Int) : branchTarget g n = branchTo g n := rfl

theorem sRegOk_s (h : Header) (n : BitVec 5) : sRegOk h (.s n) = decide (n.toNat < h.sregs) := by
  simp [sRegOk, sOk]

theorem sOrZr_eq_sOperand (s : State) (o : Opnd) : sOrZr s.hdr o = sOperand s true o := by
  cases o <;> simp [sOrZr, sOk, sOperand]

section
variable (s : State)

/-- A transfer that depends on a condition goes to its target or to the next word. -/
theorem jump_or_fallThrough (b : Bool) (P : Prop) [Decidable P] (h : b = true ↔ P) (pc : W64) :
    (if b then jump s pc else fallThrough s) = .next (withTg s (transferred s.tg (if P then pc else s.tg.pc + 4))) := by
  by_cases hP : P
  · rw [if_pos (h.2 hP), if_pos hP, jump_transferred]
  · rw [if_neg (fun hb => hP (h.1 hb)), if_neg hP, fallThrough_transferred]

theorem execBr_next (disp : BitVec 24) (hon : s.tg.on = true) (hg : s.tg.guardPending = false) :
    execBr disp s = .next (withTg s (transferred s.tg (if s.tg.active = 0 then s.tg.pc + 4 else branchTo s.tg disp.toInt))) := by
  rw [execBr, onTg_on s _ _ hon hg]
  split
  · exact fallThrough_transferred s
  · exact jump_transferred s _

/-- The condition of BRP over the threads of cm for which the guard holds (R292). -/
theorem execBrp_next (c : BitVec 2) (disp : BitVec 22) (hc : c ≠ 3) (hon : s.tg.on = true) (hg : s.tg.guardPending = false) :
    execBrp c disp s = .next (withTg s (transferred s.tg
      (if (if c = 0 then s.tg.cm &&& s.tg.guard ≠ 0 else if c = 1 then s.tg.cm &&& s.tg.guard = s.tg.cm else s.tg.cm &&& s.tg.guard = 0)
       then branchTo s.tg disp.toInt else s.tg.pc + 4))) := by
  have cases_c : c = 0 ∨ c = 1 ∨ c = 2 := by decide +revert
  rw [execBrp, onTg_on s _ _ hon hg]
  refine jump_or_fallThrough s _ _ ?_ _
  rcases cases_c with rfl | rfl | rfl <;> simp

theorem execCall_next (disp : BitVec 24) (hon : s.tg.on = true) (hg : s.tg.guardPending = false) (ha : s.tg.active ≠ 0)
    (hs : 32 ≤ s.hdr.sregs) (hp : s.tg.pending (.s 31) = false) :
    execCall disp s = .next (withTg s (transferred (putS s.tg (.s 31) (s.tg.pc + 4)) (branchTo s.tg disp.toInt))) := by
  rw [execCall, onTg_on s _ _ hon hg, if_neg ha, guarded_pass, hp]
  · exact jump_modTg_transferred s _ _
  · simpa [check_none] using hs

theorem execRet_next (n : BitVec 5) (hon : s.tg.on = true) (hg : s.tg.guardPending = false) (ha : s.tg.active ≠ 0)
    (hs : n.toNat < s.hdr.sregs) (hp : s.tg.pending (.s n) = false) (h4 : (vget s.tg.s n.toNat).toNat % 4 = 0) :
    execRet (.s n) s = .next (withTg s (transferred s.tg (vget s.tg.s n.toNat))) := by
  have aligned : ¬ (readS s.tg (.s n)).toNat % 4 ≠ 0 := by simpa [readS] using h4
  rw [execRet, onTg_on s _ _ hon hg, if_neg ha, guarded_pass, hp]
  · simp only [if_neg aligned]
    rfl
  · simpa [check_none, sRegOk_s] using hs

theorem execCall_idle (disp : BitVec 24) (hon : s.tg.on = true) (hg : s.tg.guardPending = false) (ha : s.tg.active = 0) :
    execCall disp s = .next (withTg s (transferred s.tg (s.tg.pc + 4))) := by
  rw [execCall, onTg_on s _ _ hon hg, if_pos ha, fallThrough_transferred]

theorem execRet_idle (a : Opnd) (hon : s.tg.on = true) (hg : s.tg.guardPending = false) (ha : s.tg.active = 0) :
    execRet a s = .next (withTg s (transferred s.tg (s.tg.pc + 4))) := by
  rw [execRet, onTg_on s _ _ hon hg, if_pos ha, fallThrough_transferred]

/-- SPLIT with room on the stack takes one side and keeps the other pending in its entry (R24). -/
theorem execSplit_next (disp : BitVec 24) (hon : s.tg.on = true) (hg : s.tg.guardPending = false) (hd : s.tg.stack.length < 16) :
    let t := s.tg.cm &&& s.tg.guard
    let p := s.tg.cm &&& ~~~ t
    let els := branchTo s.tg disp.toInt
    execSplit disp s = .next (withTg s
      (if t ≠ 0 then { transferred s.tg (s.tg.pc + 4) with cm := t, stack := ⟨s.tg.cm, p, els, none⟩ :: s.tg.stack }
       else { transferred s.tg els with cm := p, stack := ⟨s.tg.cm, 0, els, none⟩ :: s.tg.stack })) := by
  intro t p els
  rw [execSplit, onTg_on s _ _ hon hg]
  dsimp only
  rw [if_neg (by omega)]
  by_cases ht : t ≠ 0
  · rw [if_pos ht, if_pos ht]
    exact jump_modTg_transferred s _ _
  · rw [if_neg ht, if_neg ht]
    exact jump_modTg_transferred s _ _

end

/-! ### The mode register (R49-R53) -/

/-- The reserved values of et, rm and au in an imm24 (R49-R52). -/
theorem modeReserved_imm (i : BitVec 24) :
    modeReserved (i.setWidth 32) = true ↔ i.toNat / 2 ^ 5 % 16 = 15 ∨ 4 < i.toNat / 2 ^ 9 % 8 ∨ 5 < i.toNat / 2 ^ 21 := by
  have hi := i.isLt
  have hn : (i.setWidth 32).toNat = i.toNat := BitVec.toNat_setWidth_of_le (by decide)
  have hau : i.toNat / 2 ^ 21 % 2 ^ 3 = i.toNat / 2 ^ 21 := Nat.mod_eq_of_lt (by omega)
  simp only [modeReserved, gmEt, gmRm, gmAu, bitsNat, hn, hau, Bool.or_eq_true, decide_eq_true_eq, or_assoc]
  exact Iff.rfl

theorem setMode_imm (g : Tg) (i : BitVec 24) :
    setMode g (i.setWidth 32) = { g with gm := (g.gm &&& 0xFF000000) ||| i.setWidth 32 } := by
  have low : (i.setWidth 32 : W32) &&& 0x00FFFFFF = i.setWidth 32 := by
    have ones : (0x00FFFFFF : W32) = (BitVec.allOnes 24).setWidth 32 := rfl
    rw [ones, ← BitVec.setWidth_and, BitVec.and_allOnes]
  rw [setMode, low]

theorem setMode_unless_zr (g : Tg) (a : Opnd) (i : BitVec 24) :
    (if a = .zr then g else setMode g (i.setWidth 32)) =
      { g with gm := if a = .zr then g.gm else (g.gm &&& 0xFF000000) ||| i.setWidth 32 } := by
  by_cases hz : a = .zr
  · rw [if_pos hz, if_pos hz]
  · rw [if_neg hz, if_neg hz, setMode_imm]

theorem shift_sameLatch (g : Tg) (x : W64) : g.shift (sameLatch x) none = pushLatch g x := rfl

theorem writeReg_s64 (g : Tg) (d : Opnd) (x : W64) (s : State) (h : sOperand s true d = true) :
    writeReg g d 64 false 0 (x.setWidth 128) = putS g d x := by
  have low : (x.setWidth 128 : W128).extractLsb' 0 64 = x := by
    ext i hi
    grind
  cases d with
  | s n => simp [writeReg, putS, low]
  | zr => rfl
  | _ => simp [sOperand] at h

section
variable (s : State)

theorem execMode_reserved (i : BitVec 24) (hon : s.tg.on = true) (h : modeReserved (i.setWidth 32) = true) :
    execMode i s = trap s { cause := 0x13, mask := s.tg.cm } := by
  rw [execMode, onAny_on s _ hon]
  exact if_pos h

theorem execMode_next (i : BitVec 24) (hon : s.tg.on = true) (h : ¬ modeReserved (i.setWidth 32) = true) :
    execMode i s = .next (withTg s { nextWord s.tg with gm := (s.tg.gm &&& 0xFF000000) ||| i.setWidth 32 }) := by
  rw [execMode, onAny_on s _ hon]
  dsimp only
  rw [if_neg h, done_eq, modTg_modTg, modTg_eq_withTg, setMode_imm]
  rfl

theorem execModes_operand (d a : Opnd) (hon : s.tg.on = true) (h : ¬ (sOperand s true d = true ∧ sOperand s true a = true)) :
    execModes d a s = trap s { cause := 0x02, mask := s.tg.cm } := by
  rw [execModes, onAny_on s _ hon]
  have bad : (!(sOrZr s.hdr d && sOrZr s.hdr a)) = true := by
    rw [sOrZr_eq_sOperand, sOrZr_eq_sOperand, Bool.not_eq_true', ← Bool.not_eq_true, Bool.and_eq_true]
    exact h
  exact guarded_fail s _ _ _ (by rw [bad]; rfl)

/-- With legal operands that are not pending, MODES checks the low 24 bits of ra, and then writes both registers (R53). -/
theorem execModes_ready (d a : Opnd) (hon : s.tg.on = true) (hd : sOperand s true d = true) (ha : sOperand s true a = true)
    (pd : s.tg.pending d = false) (pa : s.tg.pending a = false) :
    let n : W32 := ((readS s.tg a).extractLsb' 0 24).setWidth 32
    execModes d a s =
      if a ≠ .zr ∧ modeReserved n = true then trap s { cause := 0x13, mask := s.tg.cm }
      else .next (withTg s (nextWord (pushLatch
        (putS { s.tg with gm := if a = .zr then s.tg.gm else (s.tg.gm &&& 0xFF000000) ||| n } d (s.tg.gm.setWidth 64))
        (s.tg.gm.setWidth 64)))) := by
  intro n
  have legal : ∀ c ∈ [check (!(sOrZr s.hdr d && sOrZr s.hdr a)) 0x02 s.tg.cm], c = none := by
    simp [check_none, sOrZr_eq_sOperand, hd, ha]
  rw [execModes, onAny_on s _ hon, guarded_pass s _ _ legal, pd, pa, Bool.or_self, if_neg Bool.false_ne_true]
  by_cases bad : a ≠ .zr ∧ modeReserved n = true
  · rw [if_pos bad]
    exact if_pos (by simpa only [Bool.and_eq_true, decide_eq_true_eq] using bad)
  · rw [if_neg bad, ← setMode_unless_zr, ← writeReg_s64 _ d _ s hd, ← shift_sameLatch]
    exact if_neg (by simpa only [Bool.and_eq_true, decide_eq_true_eq] using bad)

theorem execLand_next (i : BitVec 17) (hon : s.tg.on = true) : execLand i s = .next (withTg s (nextWord s.tg)) := by
  rw [execLand, onAny_on s _ hon]
  rfl

theorem execNop_next (hon : s.tg.on = true) : execNop s = .next (withTg s (nextWord s.tg)) := by
  rw [execNop, onAny_on s _ hon]
  rfl

theorem execYield_next (hon : s.tg.on = true) :
    execYield s = .next (withTg (freeLane s) { nextWord (lost s.tg) with yielded := true }) := by
  rw [execYield, onAny_on s _ hon]
  rfl

end

end Sys2Proof.Machine

section
open Sys2Proof Sys2Proof.Machine Sys2Proof.Safety

/-- Settles O11: the words by their fields, and each transfer by what its meaning completes as. -/
theorem branchesAndSplit : Obligations.BranchesAndSplit := by
  unfold Obligations.BranchesAndSplit
  refine ⟨fun disp => ⟨rfl, decode_br disp⟩, fun c disp => ⟨fun hc => ?_, fun hc => ⟨.reservedCondition, ?_⟩⟩,
    branchTarget_eq_branchTo, fun disp => toInt_range disp, fun disp => toInt_range disp, fun s hon hg => ?_,
    fun s disp hon hg hd => execSplit_next s disp hon hg hd⟩
  · rw [← encB_cond, decode_brp, need, if_pos (by simpa using hc)]
  · rw [← encB_cond, decode_brp, need, if_neg (by simpa using hc)]
  · exact ⟨fun disp => execBr_next s disp hon hg, fun c disp hc => execBrp_next s c disp hc hon hg,
      fun disp ha hs hp => execCall_next s disp hon hg ha hs hp, fun n ha hs hp h4 => execRet_next s n hon hg ha hs hp h4,
      fun disp a ha => ⟨execCall_idle s disp hon hg ha, execRet_idle s a hon hg ha⟩⟩

/-- Settles O15: MODE's imm24 is checked and written whole, and MODES reads its operands before it writes either register. -/
theorem modeAndNop : Obligations.ModeAndNop := by
  unfold Obligations.ModeAndNop
  refine ⟨fun i => ⟨rfl, rfl⟩, fun d a => ⟨rfl, rfl, rfl⟩, fun d a b x h => ?_, fun s hon => ⟨fun i => ?_, ?_, ?_, ?_, ?_, ?_, ?_⟩⟩
  · exact decode_modes d a b x ▸ decA0_nonzero .modes d a b x h
  · exact ⟨fun h => execMode_reserved s i hon ((modeReserved_imm i).2 h),
      fun h => execMode_next s i hon (fun hr => h ((modeReserved_imm i).1 hr))⟩
  · exact fun d a h => execModes_operand s d a hon h
  · intro d a hd ha pd pa hz hr
    exact (execModes_ready s d a hon hd ha pd pa).trans (if_pos ⟨hz, hr⟩)
  · intro d a hd ha pd pa n hok
    refine (execModes_ready s d a hon hd ha pd pa).trans (if_neg fun ⟨hz, hr⟩ => ?_)
    exact hok.elim hz (fun hn => Bool.false_ne_true (hn.symm.trans hr))
  · exact fun i => execLand_next s i hon
  · exact execNop_next s hon
  · exact execYield_next s hon

end
end

section
/-! The trap record: what its bytes hold, what the walks around a trap leave as it was, and where the record is written. -/

namespace Sys2Proof.Machine

open Sys2Proof.Safety

/-! ### The record's fields (R201) -/

theorem natLe_length (n : Nat) : ∀ x, (natLe n x).length = n := by
  induction n with
  | zero => intro x; rfl
  | succ n ih => intro x; simp [natLe, ih]

theorem leNat_natLe (n : Nat) : ∀ x, x < 256 ^ n → leNat (natLe n x) = x := by
  induction n with
  | zero => intro x hx; simp [natLe, leNat] at hx ⊢; omega
  | succ n ih =>
    intro x hx
    rw [natLe, leNat, ih _ (Nat.div_lt_of_lt_mul (by rwa [pow_succ'] at hx)), BitVec.toNat_ofNat]
    omega

/-- A field of the bytes in front is read without those behind. -/
theorem recNat_append_left {as bs : List Byte} {i n : Nat} (h : i + n ≤ as.length) : recNat (as ++ bs) i n = recNat as i n := by
  rw [recNat, recNat, List.drop_append_of_le_length (by omega), List.take_append_of_le_length (by rw [List.length_drop]; omega)]

/-- A field of the bytes behind is read without those in front. -/
theorem recNat_append_right {as bs : List Byte} {i n : Nat} (h : as.length ≤ i) :
    recNat (as ++ bs) i n = recNat bs (i - as.length) n := by
  rw [recNat, recNat, List.drop_append, List.drop_of_length_le h, List.nil_append]

/-- A number laid down little-endian is read back. -/
theorem recNat_natLe {n x : Nat} (bs : List Byte) (hx : x < 256 ^ n) : recNat (natLe n x ++ bs) 0 n = x := by
  rw [recNat, List.drop_zero, List.take_left' (natLe_length n x), leNat_natLe n x hx]

theorem trapRecord_length (s : State) (i : TrapInfo) : (trapRecord s i).length = 64 := by
  simp [trapRecord, natLe_length]

theorem Priv.code_lt (p : Priv) : p.code < 256 := by cases p <;> decide

/-- The record's first eight bytes: cause, access, PRIV, mask, cm, depth and two zero bytes. -/
def recordFront (s : State) (i : TrapInfo) : List Byte :=
  [BitVec.ofNat 8 i.cause, BitVec.ofNat 8 i.access, BitVec.ofNat 8 s.tg.priv.code, i.mask, s.tg.cm,
    BitVec.ofNat 8 s.tg.stack.length, 0, 0]

/-- The rest of the record: PC, address, word, gm, time and the cause's detail. -/
def recordBack (s : State) (i : TrapInfo) : List Byte :=
  natLe 8 s.tg.pc.toNat ++ (natLe 8 i.va.toNat ++ (natLe 4 s.tg.word.toNat ++ (natLe 4 s.tg.gm.toNat ++
    (natLe 8 (if s.det then 0 else s.gt) ++ (i.detail ++ zeroBytes 24).take 24))))

theorem trapRecord_eq (s : State) (i : TrapInfo) : trapRecord s i = recordFront s i ++ recordBack s i := by
  simp only [recordBack, ← List.append_assoc]
  rfl

theorem recordFront_fields (s : State) (i : TrapInfo) (hc : i.cause < 256) (ha : i.access < 256) (hd : s.tg.stack.length ≤ 16) :
    let r := recordFront s i
    recNat r 0 1 = i.cause ∧ recNat r 1 1 = i.access ∧ recNat r 2 1 = s.tg.priv.code ∧ recNat r 3 1 = i.mask.toNat
      ∧ recNat r 4 1 = s.tg.cm.toNat ∧ recNat r 5 1 = s.tg.stack.length ∧ recNat r 6 2 = 0 := by
  have hp : s.tg.priv.code < 256 := s.tg.priv.code_lt
  have hl : s.tg.stack.length < 256 := by omega
  simp [recNat, recordFront, leNat, Nat.mod_eq_of_lt, hc, ha, hp, hl]

theorem recordBack_fields (s : State) (i : TrapInfo) (ht : s.gt < 2 ^ 64) :
    let r := recordBack s i
    recNat r 0 8 = s.tg.pc.toNat ∧ recNat r 8 8 = i.va.toNat ∧ recNat r 16 4 = s.tg.word.toNat ∧ recNat r 20 4 = s.tg.gm.toNat
      ∧ recNat r 24 8 = (if s.det then 0 else s.gt) ∧ r.drop 32 = (i.detail ++ zeroBytes 24).take 24 := by
  have htime : (if s.det then 0 else s.gt) < 256 ^ 8 := by split <;> omega
  refine ⟨?_, ?_, ?_, ?_, ?_, ?_⟩
  · exact recNat_natLe _ s.tg.pc.isLt
  · simpa [recordBack, recNat_append_right, natLe_length] using recNat_natLe _ i.va.isLt
  · simpa [recordBack, recNat_append_right, natLe_length] using recNat_natLe _ s.tg.word.isLt
  · simpa [recordBack, recNat_append_right, natLe_length] using recNat_natLe _ s.tg.gm.isLt
  · simpa [recordBack, recNat_append_right, natLe_length] using recNat_natLe _ htime
  · simp [recordBack, List.drop_append, natLe_length, List.drop_of_length_le]

/-- R201's layout, field by field. -/
theorem trapRecord_fields (s : State) (i : TrapInfo) (hc : i.cause < 256) (ha : i.access < 256) (hd : s.tg.stack.length ≤ 16)
    (ht : s.gt < 2 ^ 64) :
    let r := trapRecord s i
    recNat r 0 1 = i.cause ∧ recNat r 1 1 = i.access ∧ recNat r 2 1 = s.tg.priv.code ∧ recNat r 3 1 = i.mask.toNat
      ∧ recNat r 4 1 = s.tg.cm.toNat ∧ recNat r 5 1 = s.tg.stack.length ∧ recNat r 6 2 = 0 ∧ recNat r 8 8 = s.tg.pc.toNat
      ∧ recNat r 16 8 = i.va.toNat ∧ recNat r 24 4 = s.tg.word.toNat ∧ recNat r 28 4 = s.tg.gm.toNat
      ∧ recNat r 32 8 = (if s.det then 0 else s.gt) ∧ r.drop 40 = (i.detail ++ zeroBytes 24).take 24 := by
  intro r
  have front : ∀ k n, k + n ≤ 8 → recNat r k n = recNat (recordFront s i) k n := fun k n h =>
    (congrArg (recNat · k n) (trapRecord_eq s i)).trans (recNat_append_left h)
  have back : ∀ k n, 8 ≤ k → recNat r k n = recNat (recordBack s i) (k - 8) n := fun k n h =>
    (congrArg (recNat · k n) (trapRecord_eq s i)).trans (recNat_append_right h)
  have tail : r.drop 40 = (recordBack s i).drop 32 := congrArg (List.drop 40) (trapRecord_eq s i)
  obtain ⟨cause, access, priv, mask, cm, depth, zero⟩ := recordFront_fields s i hc ha hd
  obtain ⟨pc, va, word, gm, time, detail⟩ := recordBack_fields s i ht
  exact ⟨(front 0 1 (by decide)).trans cause, (front 1 1 (by decide)).trans access, (front 2 1 (by decide)).trans priv,
    (front 3 1 (by decide)).trans mask, (front 4 1 (by decide)).trans cm, (front 5 1 (by decide)).trans depth,
    (front 6 2 (by decide)).trans zero, (back 8 8 (by decide)).trans pc, (back 16 8 (by decide)).trans va,
    (back 24 4 (by decide)).trans word, (back 28 4 (by decide)).trans gm, (back 32 8 (by decide)).trans time, tail.trans detail⟩

/-! ### What reaching a line leaves as it was (R102, R107, R132) -/

/-- A workgroup but for its stash lines. -/
def Wg.offStash (w : Wg) : Wg := { w with stash := [] }

/-- What no access to a line changes on the issuing side: the messages, the time, the launches, the issuing TG but for its monitor,
and the workgroups but for their stash lines. -/
structure Undisturbed (s u : State) : Prop where
  net : u.net = s.net
  gt : u.gt = s.gt
  launches : u.launches = s.launches
  tg : ∃ m, u.tg = { s.tg with monitor := m }
  wgs : u.wgs.map Wg.offStash = s.wgs.map Wg.offStash

namespace Undisturbed

theorem refl (s : State) : Undisturbed s s := ⟨rfl, rfl, rfl, ⟨_, rfl⟩, rfl⟩

theorem trans {s u v : State} (h : Undisturbed s u) (k : Undisturbed u v) : Undisturbed s v := by
  obtain ⟨m, hm⟩ := h.tg
  obtain ⟨n, hn⟩ := k.tg
  exact ⟨k.net.trans h.net, k.gt.trans h.gt, k.launches.trans h.launches, ⟨n, by rw [hn, hm]⟩, k.wgs.trans h.wgs⟩

theorem foldl {α : Type} (f : State → α → State) (hf : ∀ s x, Undisturbed s (f s x)) : ∀ (xs : List α) (s : State),
    Undisturbed s (xs.foldl f s)
  | [], s => refl s
  | x :: xs, s => (hf s x).trans (foldl f hf xs (f s x))

theorem hdr {s u : State} (h : Undisturbed s u) : u.hdr = s.hdr := by
  obtain ⟨m, hm⟩ := h.tg
  simp only [State.hdr, State.launch, State.launchOf, State.findLaunch, h.launches, hm]

theorem trapRecord {s u : State} (h : Undisturbed s u) (i : TrapInfo) : trapRecord u i = trapRecord s i := by
  obtain ⟨m, hm⟩ := h.tg
  unfold Machine.trapRecord State.det
  rw [h.hdr, h.gt, hm]

theorem findWg {s u : State} (h : Undisturbed s u) (l g n : Nat) :
    (u.findWg l g n).map Wg.offStash = (s.findWg l g n).map Wg.offStash := by
  have key : ∀ ws : List Wg, (ws.find? (fun w => w.is l g n)).map Wg.offStash = (ws.map Wg.offStash).find? (fun w => w.is l g n) :=
    fun ws => (List.find?_map (f := Wg.offStash) (p := fun w : Wg => w.is l g n)).symm
  rw [State.findWg, State.findWg, key, key, h.wgs]

theorem scratchByte {s u : State} (h : Undisturbed s u) (w : Nat × Nat × Nat) (k : Nat) : scratchByte u w k = scratchByte s w k := by
  have key : ∀ x : State, Safety.scratchByte x w k = ((x.findWg w.1 w.2.1 w.2.2).map Wg.offStash).elim 0 (fun y => memGet y.scratch k) := by
    intro x
    unfold Safety.scratchByte
    cases x.findWg w.1 w.2.1 w.2.2 <;> rfl
  rw [key, key, h.findWg]

theorem findWg_isSome {s u : State} (h : Undisturbed s u) (l g n : Nat) (hs : (s.findWg l g n).isSome = true) :
    (u.findWg l g n).isSome = true := by
  simpa using (congrArg Option.isSome (h.findWg l g n)).trans (by simpa using hs)

end Undisturbed

theorem replaceFirst_map {α β : Type} (p : α → Bool) (f : α → α) (h : α → β) (hf : ∀ x, h (f x) = h x) :
    ∀ xs : List α, (replaceFirst p f xs).map h = xs.map h
  | [] => rfl
  | x :: xs => by
    rw [replaceFirst]
    split <;> simp [hf, replaceFirst_map p f h hf xs]

theorem undisturbed_modLine (s : State) (no : Nat) (f : Line → Line) : Undisturbed s (s.modLine no f) := ⟨rfl, rfl, rfl, ⟨_, rfl⟩, rfl⟩

theorem undisturbed_modWg (s : State) (l g n : Nat) (f : Wg → Wg) (hf : ∀ w, (f w).offStash = w.offStash) :
    Undisturbed s (s.modWg l g n f) :=
  ⟨rfl, rfl, rfl, ⟨_, rfl⟩, replaceFirst_map _ f _ hf s.wgs⟩

/-- A monitor that fires is all a TG sees of another's write. -/
theorem undisturbed_fireMonitors (s : State) (no : Nat) (write : Bool) : Undisturbed s (fireMonitors s no write) := by
  refine ⟨rfl, rfl, rfl, ?_, rfl⟩
  unfold fireMonitors
  dsimp only
  split
  · split <;> exact ⟨_, rfl⟩
  · exact ⟨_, rfl⟩

theorem undisturbed_waitOwner (s : State) (no : Nat) : Undisturbed s (waitOwner s no) := by
  unfold waitOwner
  split <;> exact ⟨rfl, rfl, rfl, ⟨_, rfl⟩, rfl⟩

theorem undisturbed_applyDue (s : State) (no : Nat) : Undisturbed s (applyDue s no) := by
  unfold applyDue
  dsimp only
  split <;> exact ⟨rfl, rfl, rfl, ⟨_, rfl⟩, rfl⟩

theorem undisturbed_writeBackLine (s : State) (w : Wg) (x : StashLine) : Undisturbed s (writeBackLine s w x) := by
  unfold writeBackLine
  split
  · exact .refl s
  · split
    · exact ⟨rfl, rfl, rfl, ⟨_, rfl⟩, rfl⟩
    · dsimp only
      generalize (upTo 128).filter (fun i => x.dirty.getLsbD i) = dirty
      refine .trans ?_ (undisturbed_modLine _ _ _)
      exact ⟨rfl, rfl, rfl, ⟨_, rfl⟩, rfl⟩

theorem undisturbed_recallLine (s : State) (no : Nat) : Undisturbed s (recallLine s no) := by
  unfold recallLine
  split
  · dsimp only
    refine .trans ?_ (undisturbed_fireMonitors _ _ _)
    refine .trans ?_ (undisturbed_modLine _ _ _)
    refine .trans ?_ (undisturbed_modWg _ _ _ _ _ (fun _ => rfl))
    split
    · exact undisturbed_writeBackLine s _ _
    · exact .refl s
  · exact .refl s

theorem undisturbed_acceptWrite (s : State) (tg : TgKey) (pa : Nat) (data : List Byte) (floor : Nat) (nc marks : Bool) :
    Undisturbed s (acceptWrite s tg pa data floor nc marks).1 := by
  unfold acceptWrite
  dsimp only
  split
  · exact ⟨rfl, rfl, rfl, ⟨_, rfl⟩, rfl⟩
  · refine .trans ?_ (undisturbed_applyDue _ _)
    refine .trans ?_ (undisturbed_fireMonitors _ _ _)
    exact (undisturbed_recallLine s _).trans ⟨rfl, rfl, rfl, ⟨_, rfl⟩, rfl⟩

theorem undisturbed_closeHobOf (s : State) (no : Nat) (mine : HeldHob → Bool) : Undisturbed s (closeHobOf s no mine) := by
  unfold closeHobOf
  refine .trans ?_ (.foldl _ (fun s x => ?_) _ _)
  · exact ⟨rfl, rfl, rfl, ⟨_, rfl⟩, rfl⟩
  · dsimp only
    split
    · exact .refl s
    · exact undisturbed_acceptWrite ..

theorem undisturbed_closeMergeOf (s : State) (no : Nat) (mine : HeldEmber → Bool) : Undisturbed s (closeMergeOf s no mine) := by
  unfold closeMergeOf
  refine .trans ?_ (.foldl _ (fun s x => ?_) _ _)
  · exact ⟨rfl, rfl, rfl, ⟨_, rfl⟩, rfl⟩
  · split
    · exact .refl s
    · exact undisturbed_acceptWrite ..

theorem undisturbed_visit (s : State) (no : Nat) : Undisturbed s (visit s no) := by
  unfold visit reach arrive closeWindows closeHob closeMerge
  exact ((((undisturbed_waitOwner s no).trans (undisturbed_applyDue _ no)).trans (undisturbed_recallLine _ no)).trans
    (undisturbed_closeHobOf _ no _)).trans (undisturbed_closeMergeOf _ no _)

theorem undisturbed_reachWalk (va : W64) : ∀ (fuel level table : Nat) (s : State), Undisturbed s (reachWalk s va fuel level table)
  | 0, _, _, s => .refl s
  | fuel + 1, level, table, s => by
    unfold reachWalk
    dsimp only
    split
    · exact .refl s
    · split
      · exact undisturbed_visit s _
      · exact (undisturbed_visit s _).trans (undisturbed_reachWalk va fuel _ _ _)

theorem undisturbed_cachePage (s : State) (core c : Nat) (va : W64) : Undisturbed s (cachePage s core c va) := by
  have hr : Undisturbed s (reachTables s c va) := undisturbed_reachWalk va _ _ _ s
  unfold cachePage
  split
  · exact .refl s
  · dsimp only
    split
    · exact hr.trans ⟨rfl, rfl, rfl, ⟨_, rfl⟩, rfl⟩
    · exact hr

theorem undisturbed_faultWalk (s : State) (i : TrapInfo) : Undisturbed s (faultWalk s i) := by
  unfold faultWalk walkTo
  split
  · exact .refl s
  · split
    · exact undisturbed_reachWalk _ _ _ _ s
    · exact .refl s

theorem undisturbed_trapSeen (s : State) (i : TrapInfo) : Undisturbed s (trapSeen s i) :=
  (undisturbed_faultWalk s i).trans ⟨rfl, rfl, rfl, ⟨_, rfl⟩, rfl⟩

/-! ### Walks over quiet tables -/

/-- A line of quiet tables has no write due and no stash for its owner, listed or not. -/
theorem tablesQuiet_line {s : State} (h : tablesQuiet s) (no : Nat) :
    (s.line no).due s.gt = [] ∧ ∀ a b c, (s.line no).owner ≠ some (.stash a b c) := by
  obtain ⟨-, -, hl⟩ := h
  unfold State.line
  cases hf : s.lines.find? (fun l => l.no = no) with
  | none => exact ⟨rfl, fun a b c => by simp⟩
  | some l => exact hl l (List.mem_of_find?_eq_some hf)

theorem applyDue_none {s : State} {no : Nat} (h : (s.line no).due s.gt = []) : applyDue s no = s := if_pos h

theorem recallLine_unowned {s : State} {no : Nat} (h : ∀ a b c, (s.line no).owner ≠ some (.stash a b c)) : recallLine s no = s := by
  unfold recallLine
  split
  · next a b c ho => exact absurd ho (h a b c)
  · rfl

theorem closeWindows_none {s : State} (no : Nat) (hh : s.heldHob = []) (he : s.heldEmber = []) : closeWindows s no = s := by
  have hob : closeHob s no = s := by
    unfold closeHob closeHobOf
    rw [hh]
    exact congrArg (fun x => { s with heldHob := x }) hh.symm
  unfold closeWindows closeMerge closeMergeOf
  rw [hob, he]
  exact congrArg (fun x => { s with heldEmber := x }) he.symm

/-- Over quiet tables a walk at most finds that it is to wait for an engine's line. -/
theorem visit_quiet {s : State} (h : tablesQuiet s) (no : Nat) : ∃ w, visit s no = { s with waits := w } := by
  have hw : ∃ w, waitOwner s no = { s with waits := w } := by
    unfold waitOwner
    split <;> exact ⟨_, rfl⟩
  obtain ⟨w, hw⟩ := hw
  have hq : tablesQuiet { s with waits := w } := h
  obtain ⟨hdue, hown⟩ := tablesQuiet_line hq no
  refine ⟨w, ?_⟩
  rw [visit, hw, reach, applyDue_none hdue, arrive, recallLine_unowned hown, closeWindows_none no hq.1 hq.2.1]

theorem reachWalk_quiet (va : W64) : ∀ (fuel level table : Nat) (s : State), tablesQuiet s →
    ∃ w, reachWalk s va fuel level table = { s with waits := w }
  | 0, _, _, s, _ => ⟨s.waits, rfl⟩
  | fuel + 1, level, table, s, h => by
    unfold reachWalk
    dsimp only
    split
    · exact ⟨s.waits, rfl⟩
    · obtain ⟨w, hw⟩ := visit_quiet h (lineOf (table + 8 * levelIndex va level))
      rw [hw]
      split
      · exact ⟨w, rfl⟩
      · exact reachWalk_quiet va fuel _ _ { s with waits := w } h

theorem cachePage_quiet {s : State} (h : tablesQuiet s) (core c : Nat) (va : W64) :
    ∃ w e, cachePage s core c va = { s with waits := w, tlb := e } := by
  unfold cachePage
  split
  · exact ⟨s.waits, s.tlb, rfl⟩
  · obtain ⟨w, hw⟩ : ∃ w, reachTables s c va = { s with waits := w } := reachWalk_quiet va _ _ _ s h
    dsimp only
    rw [hw]
    split <;> exact ⟨w, _, rfl⟩

/-- The walk of the faulting access changes no byte where it makes none or its tables are quiet. -/
theorem trapSeen_still (s : State) (i : TrapInfo) (h : i.access = 0 ∨ tablesQuiet s) :
    ∃ w m, trapSeen s i = { s with waits := w, tg := { s.tg with monitor := m } } := by
  have hw : ∃ w, faultWalk s i = { s with waits := w } := by
    unfold faultWalk walkTo
    split
    · exact ⟨s.waits, rfl⟩
    · next ha =>
      split
      · exact reachWalk_quiet _ _ _ _ s (h.resolve_left ha)
      · exact ⟨s.waits, rfl⟩
  obtain ⟨w, hw⟩ := hw
  rw [trapSeen, hw]
  exact ⟨w, _, rfl⟩

theorem trapSeen_mem_wgs (s : State) (i : TrapInfo) (h : i.access = 0 ∨ tablesQuiet s) :
    (trapSeen s i).mem = s.mem ∧ (trapSeen s i).wgs = s.wgs := by
  obtain ⟨w, m, hs⟩ := trapSeen_still s i h
  rw [hs]
  exact ⟨rfl, rfl⟩

theorem trapSeen_quiet (s : State) (i : TrapInfo) (h : tablesQuiet s) : tablesQuiet (trapSeen s i) := by
  obtain ⟨w, m, hs⟩ := trapSeen_still s i (.inr h)
  rw [hs]
  exact h

/-! ### Scratch after a store -/

theorem find?_replaceFirst {α : Type} (p : α → Bool) (f : α → α) (hf : ∀ x, p (f x) = p x) :
    ∀ xs : List α, (replaceFirst p f xs).find? p = (xs.find? p).map f
  | [] => rfl
  | x :: xs => by
    rw [replaceFirst]
    cases hx : p x with
    | true => simp [hx, hf]
    | false => simp [hx, find?_replaceFirst p f hf xs]

theorem findWg_modWg (s : State) (l g n : Nat) (f : Wg → Wg) (hf : ∀ w, (f w).is l g n = w.is l g n) :
    (s.modWg l g n f).findWg l g n = (s.findWg l g n).map f :=
  find?_replaceFirst _ f hf s.wgs

@[simp] theorem scratchStore_mem (s : State) (l g w off : Nat) (data : List Byte) : (scratchStore s l g w off data).mem = s.mem := rfl
@[simp] theorem scratchStore_net (s : State) (l g w off : Nat) (data : List Byte) : (scratchStore s l g w off data).net = s.net := rfl

/-- A scratch byte after a store: the stored byte within the run, the old one outside. -/
theorem scratchByte_scratchStore (s : State) (l g w off : Nat) (data : List Byte) (h : (s.findWg l g w).isSome = true) (k : Nat) :
    scratchByte (scratchStore s l g w off data) (l, g, w) k =
      if off ≤ k ∧ k < off + data.length then byteAt data (k - off) else scratchByte s (l, g, w) k := by
  obtain ⟨x, hx⟩ := Option.isSome_iff_exists.1 h
  unfold scratchByte scratchStore
  dsimp only
  rw [findWg_modWg _ _ _ _ _ (fun y => by split <;> rfl), hx, ← memGet_memPut]
  dsimp only [Option.map_some]
  split <;> rfl

/-! ### An access checked, whatever the issuing TG's monitor -/

section
variable (s : State) (f : Tg → Tg)

theorem homeNat_modTg (pa n : Nat) : homeNat (s.modTg f) pa n = homeNat s pa n := rfl

theorem isRemote_modTg (pa : Nat) : (s.modTg f).isRemote pa = s.isRemote pa := rfl

theorem walkFrom_modTg (va : W64) : ∀ fuel level table, walkFrom (s.modTg f) va fuel level table = walkFrom s va fuel level table
  | 0, _, _ => rfl
  | fuel + 1, level, table => by
    rw [walkFrom, walkFrom, isRemote_modTg, homeNat_modTg]
    simp only [walkFrom_modTg va fuel]

theorem leafOf_modTg (core c : Nat) (va : W64) : leafOf (s.modTg f) core c va = leafOf s core c va := by
  unfold leafOf walk
  rw [walkFrom_modTg]
  rfl

theorem translate_modTg (core c : Nat) (p : Priv) (acc : Access) (va : W64) :
    translate (s.modTg f) core c p acc va = translate s core c p acc va := by
  unfold translate
  rw [leafOf_modTg]
  rfl

/-- Where an access goes does not depend on the issuing TG's monitor. -/
theorem checkAccess_monitor (m : Tg → Option Monitor) (acc : Access) (size align : Nat) (va : W64) :
    let u := s.modTg (fun g => { g with monitor := m g })
    checkAccess u u.tg acc size align va = checkAccess s s.tg acc size align va := by
  intro u
  unfold checkAccess placeAccess stashTarget
  simp only [u, translate_modTg]
  rfl

end

theorem checkAccess_trapSeen (s : State) (i : TrapInfo) (acc : Access) (size align : Nat) (va : W64) :
    checkAccess (trapSeen s i) (trapSeen s i).tg acc size align va =
      checkAccess (faultWalk s i) (faultWalk s i).tg acc size align va :=
  checkAccess_monitor (faultWalk s i) _ acc size align va

/-! ### A handler entered, with a record or without (R199, R200) -/

/-- The first word of the handler in the launch's own code (R199). -/
def ownHandler (s : State) : W64 := BitVec.ofNat 64 (s.hdr.code + s.hdr.trapOff)

/-- The machine once the launch's own handler at `handler` has been entered from `s`: the saved registers written, the lane free (R200). -/
def handlerEntered (s : State) (i : TrapInfo) (tepc handler : W64) : State :=
  (giveLane (dropClaim s s.tg.key)).modTg (fun g =>
    { (g.clearLatches).fresh with
      trpc := g.pc, tepc := tepc, taddr := i.va, tgm := g.gm
      tcause := BitVec.ofNat 64 (i.cause + g.priv.code * 2 ^ 8 + g.stack.length * 2 ^ 16)
      tmask := BitVec.ofNat 64 (i.mask.toNat + g.cm.toNat * 2 ^ 8)
      priv := .s, gm := g.gm &&& 0xFF000000, pc := handler, region := none, slow := false, sysw := none
      budgetTrap := g.budgetTrap && i.cause != 0x0A })

section
variable (s : State) (i : TrapInfo) (tepc handler : W64)

@[simp] theorem handlerEntered_net : (handlerEntered s i tepc handler).net = s.net := rfl
@[simp] theorem handlerEntered_mem : (handlerEntered s i tepc handler).mem = s.mem := rfl
@[simp] theorem handlerEntered_wgs : (handlerEntered s i tepc handler).wgs = s.wgs := rfl

theorem handlerEntered_scratchByte (w : Nat × Nat × Nat) (k : Nat) :
    scratchByte (handlerEntered s i tepc handler) w k = scratchByte s w k := rfl

end

section
variable (s : State) (i : TrapInfo) (hu : s.tg.priv = .u) (ho : s.hdr.trapOff ≠ 0)
include hu ho

/-- At U with a handler in the launch's code, the record alone decides how a trap ends. -/
theorem trap_own :
    trap s i =
      if s.tg.trec = 0 then .next (handlerEntered (trapSeen s i) i s.tg.pc (ownHandler s))
      else match writeRecord (trapSeen s i) i with
        | .written v => .next (handlerEntered v i s.tg.pc (ownHandler s))
        | .failed => .next (kill (trapSeen s i) i.cause)
        | .stalled v => waitIn v false := by
  have hs := undisturbed_trapSeen s i
  obtain ⟨m, hm⟩ := hs.tg
  have hpriv : (trapSeen s i).tg.priv = .u := by rw [hm]; exact hu
  have htrec : (trapSeen s i).tg.trec = s.tg.trec := by rw [hm]
  have hreach : reachHandler (trapSeen s i) = trapSeen s i := reachHandler_own _ (by rw [hs.hdr]; exact ho)
  have hown : handlerOf (trapSeen s i) = some (ownHandler s, none) := by
    unfold handlerOf
    rw [hs.hdr]
    exact if_pos ho
  rw [← htrec]
  unfold trap enterTrap
  unfold trapSeen at *
  dsimp only
  rw [if_neg (fun h => h hpriv), hreach, hown]
  rfl

/-- With TREC at 0 nothing is written (R201). -/
theorem trap_unrecorded (ht : s.tg.trec = 0) :
    trap s i = .next (handlerEntered (trapSeen s i) i s.tg.pc (ownHandler s)) :=
  (trap_own s i hu ho).trans (if_pos ht)

/-- A record that can be written is, and the handler is entered after it (R200). -/
theorem trap_recorded {v : State} (ht : s.tg.trec ≠ 0) (hw : writeRecord (trapSeen s i) i = .written v) :
    trap s i = .next (handlerEntered v i s.tg.pc (ownHandler s)) := by
  rw [trap_own s i hu ho, if_neg ht, hw]

end

/-! ### Where a record goes (R201) -/

section
variable (s : State) (i : TrapInfo)

/-- Where a trap's record goes: TREC with its low bits ignored. -/
def recordAddress (s : State) : W64 := BitVec.ofNat 64 (s.tg.trec.toNat / 64 * 64)

theorem recordAddress_trapSeen : recordAddress (trapSeen s i) = recordAddress s := by
  obtain ⟨m, hm⟩ := (undisturbed_trapSeen s i).tg
  rw [recordAddress, hm, recordAddress]

/-- The target of the record's store, once the walk of the faulting access is made. -/
theorem checkAccess_record :
    checkAccess (trapSeen s i) (trapSeen s i).tg .write 64 64 (recordAddress (trapSeen s i)) =
      checkAccess (faultWalk s i) (faultWalk s i).tg .write 64 64 (recordAddress s) := by
  rw [checkAccess_trapSeen, recordAddress_trapSeen]

theorem writeRecord_scratch (l g w off : Nat)
    (h : checkAccess (faultWalk s i) (faultWalk s i).tg .write 64 64 (recordAddress s) = .ok (.scratch l g w off)) :
    writeRecord (trapSeen s i) i = .written (scratchStore (trapSeen s i) l g w off (trapRecord s i)) := by
  rw [← checkAccess_record] at h
  rw [← (undisturbed_trapSeen s i).trapRecord i]
  unfold writeRecord
  unfold recordAddress at h
  dsimp only
  rw [h]

/-- The state in which a record has left as one store to memory. -/
def recordSent (s : State) (pa attr : Nat) (nc : Bool) (data : List Byte) : State :=
  let c := cachePage s s.tg.core s.tg.ctx (recordAddress s)
  (sendStore c c.tg.nextOp 0 pa attr nc data 0).modTg Tg.skipOp

theorem writeRecord_mem (pa attr : Nat) (nc x : Bool)
    (h : checkAccess (faultWalk s i) (faultWalk s i).tg .write 64 64 (recordAddress s) = .ok (.mem pa attr nc x)) :
    writeRecord (trapSeen s i) i = .written (recordSent (trapSeen s i) pa attr nc (trapRecord s i)) := by
  rw [← checkAccess_record] at h
  rw [← (undisturbed_trapSeen s i).trapRecord i]
  unfold writeRecord
  unfold recordAddress at h
  dsimp only
  rw [h]
  rfl

theorem sendStore_net (op t pa attr : Nat) (nc : Bool) (data : List Byte) (floor : Nat) :
    ∃ m, (sendStore s op t pa attr nc data floor).net = s.net ++ [m] ∧ m.pa = pa ∧ m.ask = .write data floor nc true :=
  ⟨_, rfl, rfl, rfl⟩

/-- The record's store is the one message that a sent record adds (R105). -/
theorem recordSent_net (pa attr : Nat) (nc : Bool) (data : List Byte) :
    ∃ m, (recordSent s pa attr nc data).net = s.net ++ [m] ∧ m.pa = pa ∧ m.ask = .write data 0 nc true := by
  rw [← (undisturbed_cachePage s s.tg.core s.tg.ctx (recordAddress s)).net]
  exact sendStore_net _ _ _ pa attr nc data 0

theorem recordSent_quiet (pa attr : Nat) (nc : Bool) (data : List Byte) (h : tablesQuiet s) :
    (recordSent s pa attr nc data).mem = s.mem ∧ (recordSent s pa attr nc data).wgs = s.wgs := by
  obtain ⟨w, e, hc⟩ := cachePage_quiet h s.tg.core s.tg.ctx (recordAddress s)
  have hmem : (recordSent s pa attr nc data).mem = (cachePage s s.tg.core s.tg.ctx (recordAddress s)).mem := rfl
  have hwgs : (recordSent s pa attr nc data).wgs = (cachePage s s.tg.core s.tg.ctx (recordAddress s)).wgs := rfl
  rw [hmem, hwgs, hc]
  exact ⟨rfl, rfl⟩

end

end Sys2Proof.Machine
end

section
open Sys2Proof Sys2Proof.Machine Sys2Proof.Safety

/-- Settles O18: the layout from the record's front and back, and the three ends of a record (none, a scratch store, a store to
memory) from what the trap's walks leave undisturbed. -/
theorem trapRecordLayout : Obligations.TrapRecordLayout := by
  unfold Obligations.TrapRecordLayout
  refine ⟨?_, fun s i hc ha hd ht => ⟨trapRecord_length s i, trapRecord_fields s i hc ha hd ht⟩⟩
  intro s i hu ho va r s1 still
  have hseen := undisturbed_trapSeen s i
  refine ⟨fun ht => ?_, fun l g w off ht hc hw => ?_, fun pa attr nc x ht hc => ?_⟩
  · refine ⟨_, trap_unrecorded s i hu ho ht, ?_, fun hq => ?_⟩
    · rw [handlerEntered_net, hseen.net]
    · rw [handlerEntered_mem, handlerEntered_wgs]
      exact trapSeen_mem_wgs s i hq
  · refine ⟨_, trap_recorded s i hu ho ht (writeRecord_scratch s i l g w off hc), ?_, fun hq => ?_, fun k => ?_⟩
    · rw [handlerEntered_net, scratchStore_net, hseen.net]
    · rw [handlerEntered_mem, scratchStore_mem]
      exact (trapSeen_mem_wgs s i hq).1
    · rw [handlerEntered_scratchByte, scratchByte_scratchStore _ _ _ _ _ _ (hseen.findWg_isSome l g w hw), trapRecord_length,
        hseen.scratchByte]
  · obtain ⟨m, hnet, hpa, hask⟩ := recordSent_net (trapSeen s i) pa attr nc (trapRecord s i)
    refine ⟨_, m, trap_recorded s i hu ho ht (writeRecord_mem s i pa attr nc x hc), fun hq => ?_, ?_, hpa, hask⟩
    · obtain ⟨hmem, hwgs⟩ := recordSent_quiet (trapSeen s i) pa attr nc (trapRecord s i) (trapSeen_quiet s i hq)
      rw [handlerEntered_mem, handlerEntered_wgs, hmem, hwgs]
      exact trapSeen_mem_wgs s i (.inr hq)
    · rw [handlerEntered_net, hnet, hseen.net]

end
